-- ==== Sys2Proof/Word.lean ====
section
/-! DEFINITION. The word, byte and physical-address types (00_scope.md rules R7, R9). -/

namespace Sys2Proof

/-- A 16-bit word, the width of every general register (R7, R9). -/
abbrev Word := BitVec 16

/-- An 8-bit byte, the unit of memory addressing (R9, R80). -/
abbrev Byte := BitVec 8

/-- A 22-bit physical address (R7, R80). -/
abbrev PAddr := BitVec 22

end Sys2Proof
end

