-- ==== Sys2Proof/Config.lean ====
section
/-! DEFINITION. What one implementation fixes (the parameters of 00_scope.md rule R8), the external devices as
the CORE sees them (20_memory.md rules R96 to R99, 60_exceptions.md rule R620), and the free values: what an
external device answers, of which the spec says only that it is a draw (20_memory.md rule R98). -/

namespace Sys2Proof

/-- The two values the spec allows for `VEC_ILLEGAL_MODE` and `VEC_ILLEGAL_HALT` (R8, D11, D12). -/
inductive IllegalVector where
  | four
  | ten
deriving DecidableEq, Repr

/-- The vector number an `IllegalVector` names (R8). -/
def IllegalVector.word : IllegalVector → Word
  | .four => 0o4
  | .ten => 0o10

/-- `BOOT_BASE` and `BOOT_IMAGE` (R8, 70_reset_and_hazards.md rule R706). -/
structure BootImage where
  base : Word
  image : List Word
deriving DecidableEq, Repr

/-- The parameters of rule R8 that are fixed for one machine.
They are plain data held in the state, so a statement about every state is a statement about every admitted
machine; the defaults are the spec's. -/
structure Params where
  /-- `MEM_CEILING`: the byte address one past main memory. -/
  memCeiling : Nat := 0o17000000
  /-- `VEC_ILLEGAL_MODE`: the vector of JMP and JSR with a register destination (D11). -/
  vecIllegalMode : IllegalVector := .ten
  /-- `VEC_ILLEGAL_HALT`: the vector of HALT outside kernel mode (D12). -/
  vecIllegalHalt : IllegalVector := .four
  /-- `RESET_CLEARS_PAGE_TABLES` (D17). -/
  resetClearsPageTables : Bool := false
  /-- `BOOT_BASE` and `BOOT_IMAGE`, none by default. -/
  boot : Option BootImage := none
deriving DecidableEq, Repr

/-- The constraints rule R8 puts on `MEM_CEILING`, and rule R706 on the boot image. -/
def Params.wf (p : Params) : Bool :=
  p.memCeiling % 2 == 0 && 0 < p.memCeiling && p.memCeiling ≤ 0o17000000 &&
    match p.boot with
    | none => true
    | some b => b.base.toNat % 2 == 0 && b.base.toNat + 2 * b.image.length ≤ min p.memCeiling 0o160000

/-- What a device's `poll` answers while it requests: the level of `poll(false)` and the vector of
`poll(true)` (R620). -/
structure IrqRequest where
  level : BitVec 3
  vector : Word
deriving DecidableEq, Repr

/-- One registered external device, as the CORE sees it: its physical address range and its interrupt
request (R96, R98, R620).
Everything else a device holds is outside the CORE (R5). -/
structure Device where
  base : Nat
  size : Nat
  request : Option IrqRequest := none
deriving DecidableEq, Repr

/-- The range a device is registered with, which nothing changes (R8, R98). -/
def Device.range (d : Device) : Nat × Nat := (d.base, d.size)

/-- Whether the device's range contains a physical address (R96). -/
def Device.contains (d : Device) (pa : PAddr) : Bool :=
  d.base ≤ pa.toNat && pa.toNat < d.base + d.size

/-- What becomes of a device's interrupt request at one of its register accesses (R98: an access "may change
device state the CORE does not hold, and may set `irqFlag`"). -/
inductive RequestChange where
  | keep
  | drop
  | raise (level : BitVec 3) (vector : Word)
deriving DecidableEq, Repr, Inhabited

/-- One answer of a device to one access (R96, R98): a bus fault, or a value, with the change of its request. -/
structure DeviceReply where
  fault : Bool
  value : Word
  change : RequestChange
deriving DecidableEq, Repr, Inhabited

/-- FREE VALUE (assumption log 3): the answer of the external bus to its n-th access.
R98: "the external bus is an oracle: the value a device read returns is a draw (any n-byte value or a fault)".
It has no body, so nothing can be proved of what it is. -/
opaque Config.deviceReply : Nat → DeviceReply

end Sys2Proof
end

