-- ==== Sys2Proof/Syntax.lean ====
section
/-! DEFINITION. The instructions: one constructor per mnemonic of spec/opcode_table.json, with the fields of
30_encoding.md rule R142.
Extension words are no part of an instruction's syntax: they are read through register 7 while the instruction
executes (30_encoding.md rule R140). -/

namespace Sys2Proof

/-- A register number (R10, R20 to R23): six general registers, the stack pointer and the program counter. -/
inductive Reg where
  | gen (i : Fin 6)
  | sp
  | pc
deriving DecidableEq, Repr

/-- The eight addressing modes (40_addressing.md rules R171 to R179), in the order of their numbers. -/
inductive AddrMode where
  | direct
  | deferred
  | autoInc
  | autoIncDeferred
  | autoDec
  | autoDecDeferred
  | index
  | indexDeferred
deriving DecidableEq, Repr

/-- An operand specifier `mode ++ reg` (R13). -/
structure OpSpec where
  mode : AddrMode
  reg : Reg
deriving DecidableEq, Repr

/-- The immediate specifier `0o27`: mode 2 with register 7 (R180). -/
def OpSpec.isImmediate (sp : OpSpec) : Bool := sp.mode == .autoInc && sp.reg == .pc

/-- Every instruction (30_encoding.md rules R146 to R150, and the reserved and illegal ranges R160, R162). -/
inductive Instr where
  | halt
  | wait
  | rti
  | bpt
  | iot
  | reset
  | rtt
  | jmp (dd : OpSpec)
  | rts (r : Reg)
  | spl (n : BitVec 3)
  | clx (m : BitVec 4)
  | sex (m : BitVec 4)
  | swab (dd : OpSpec)
  | br (off : BitVec 8)
  | bne (off : BitVec 8)
  | beq (off : BitVec 8)
  | bge (off : BitVec 8)
  | blt (off : BitVec 8)
  | bgt (off : BitVec 8)
  | ble (off : BitVec 8)
  | jsr (r : Reg) (dd : OpSpec)
  | clr (dd : OpSpec)
  | com (dd : OpSpec)
  | inc (dd : OpSpec)
  | dec (dd : OpSpec)
  | neg (dd : OpSpec)
  | adc (dd : OpSpec)
  | sbc (dd : OpSpec)
  | tst (dd : OpSpec)
  | ror (dd : OpSpec)
  | rol (dd : OpSpec)
  | asr (dd : OpSpec)
  | asl (dd : OpSpec)
  | mark (nn : BitVec 6)
  | mfpi (ss : OpSpec)
  | mtpi (dd : OpSpec)
  | sxt (dd : OpSpec)
  | mov (ss dd : OpSpec)
  | cmp (ss dd : OpSpec)
  | bit (ss dd : OpSpec)
  | bic (ss dd : OpSpec)
  | bis (ss dd : OpSpec)
  | add (ss dd : OpSpec)
  | movb (ss dd : OpSpec)
  | cmpb (ss dd : OpSpec)
  | bitb (ss dd : OpSpec)
  | bicb (ss dd : OpSpec)
  | bisb (ss dd : OpSpec)
  | sub (ss dd : OpSpec)
  | mul (r : Reg) (ss : OpSpec)
  | div (r : Reg) (ss : OpSpec)
  | ash (r : Reg) (ss : OpSpec)
  | ashc (r : Reg) (ss : OpSpec)
  | xor (r : Reg) (dd : OpSpec)
  | sob (r : Reg) (off : BitVec 6)
  | bpl (off : BitVec 8)
  | bmi (off : BitVec 8)
  | bhi (off : BitVec 8)
  | blos (off : BitVec 8)
  | bvc (off : BitVec 8)
  | bvs (off : BitVec 8)
  | bcc (off : BitVec 8)
  | bcs (off : BitVec 8)
  | emt (code : BitVec 8)
  | trap (code : BitVec 8)
  | clrb (dd : OpSpec)
  | comb (dd : OpSpec)
  | incb (dd : OpSpec)
  | decb (dd : OpSpec)
  | negb (dd : OpSpec)
  | adcb (dd : OpSpec)
  | sbcb (dd : OpSpec)
  | tstb (dd : OpSpec)
  | rorb (dd : OpSpec)
  | rolb (dd : OpSpec)
  | asrb (dd : OpSpec)
  | aslb (dd : OpSpec)
  | mfpd (ss : OpSpec)
  | mtpd (dd : OpSpec)
  | cfcc
  | setf
  | seti
  | setd
  | setl
  | ldfps (ss : OpSpec)
  | stfps (dd : OpSpec)
  | stst (dd : OpSpec)
  | clrf (dd : OpSpec)
  | tstf (ss : OpSpec)
  | absf (dd : OpSpec)
  | negf (dd : OpSpec)
  | mulf (ac : Fin 4) (ss : OpSpec)
  | modf (ac : Fin 4) (ss : OpSpec)
  | addf (ac : Fin 4) (ss : OpSpec)
  | ldf (ac : Fin 4) (ss : OpSpec)
  | subf (ac : Fin 4) (ss : OpSpec)
  | cmpf (ac : Fin 4) (ss : OpSpec)
  | stf (ac : Fin 4) (dd : OpSpec)
  | divf (ac : Fin 4) (ss : OpSpec)
  | stexp (ac : Fin 4) (dd : OpSpec)
  | stcfi (ac : Fin 4) (dd : OpSpec)
  | stcfd (ac : Fin 4) (dd : OpSpec)
  | ldexp (ac : Fin 4) (ss : OpSpec)
  | ldcif (ac : Fin 4) (ss : OpSpec)
  | ldcdf (ac : Fin 4) (ss : OpSpec)
  | reserved (ir : Word)
  | fppIllegal (ir : Word)
deriving DecidableEq, Repr

/-- How many extension words a specifier takes (30_encoding.md rule R141). -/
def OpSpec.extWords (sp : OpSpec) : Nat :=
  match sp.mode with
  | .index | .indexDeferred => 1
  | .autoInc | .autoIncDeferred => if sp.reg = .pc then 1 else 0
  | _ => 0

end Sys2Proof
end

