-- ==== Sys2Proof/WellFormed.lean ====
section
/-! DEFINITION. Which instruction terms stand for an instruction word: every field's type admits exactly the
encodings' values, except the word a reserved or FPP-illegal instruction carries, which must lie in the ranges
of 30_encoding.md rules R160 and R162. -/

namespace Sys2Proof

/-- The reserved ranges of 30_encoding.md rule R160. -/
def isReservedWord (w : Word) : Bool :=
  let n := w.toNat
  (0o000007 ≤ n && n ≤ 0o000077) || (0o000210 ≤ n && n ≤ 0o000227) || (0o007000 ≤ n && n ≤ 0o007777) ||
    (0o075000 ≤ n && n ≤ 0o076777) || (0o106400 ≤ n && n ≤ 0o106477) || (0o106700 ≤ n && n ≤ 0o106777) ||
    (0o107000 ≤ n && n ≤ 0o107777)

/-- The FPP illegal opcodes of 30_encoding.md rule R162. -/
def isFppIllegalWord (w : Word) : Bool :=
  let n := w.toNat
  (0o170003 ≤ n && n ≤ 0o170010) || (0o170013 ≤ n && n ≤ 0o170077)

/-- An instruction term that stands for an instruction word. -/
def Instr.wf : Instr → Bool
  | .reserved w => isReservedWord w
  | .fppIllegal w => isFppIllegalWord w
  | _ => true

end Sys2Proof
end

