-- ==== Sys2Proof/Decode.lean ====
section
/-! DEFINITION. The decoder, total on every list of bytes and on every 16-bit word, and after it the encoder, both
written from 30_encoding.md rules R142 and R146 to R150, R160, R162.
A word's fields are read as digits of its number: `n / 64 % 64` is `ir[11:6]`, `n % 64` is `ir[5:0]`. -/

namespace Sys2Proof

/-! ### Fields -/

/-- The register a 3-bit number names (R10). -/
def Reg.ofCode (n : Nat) : Reg :=
  if h : n % 8 < 6 then .gen ⟨n % 8, h⟩ else if n % 8 = 6 then .sp else .pc

/-- The number of a register (R10). -/
def Reg.code : Reg → Nat
  | .gen i => i.val
  | .sp => 6
  | .pc => 7

/-- The addressing mode a 3-bit number names (40_addressing.md rules R171 to R179). -/
def AddrMode.ofCode (n : Nat) : AddrMode :=
  match n % 8 with
  | 0 => .direct
  | 1 => .deferred
  | 2 => .autoInc
  | 3 => .autoIncDeferred
  | 4 => .autoDec
  | 5 => .autoDecDeferred
  | 6 => .index
  | _ => .indexDeferred

/-- The number of an addressing mode. -/
def AddrMode.code : AddrMode → Nat
  | .direct => 0
  | .deferred => 1
  | .autoInc => 2
  | .autoIncDeferred => 3
  | .autoDec => 4
  | .autoDecDeferred => 5
  | .index => 6
  | .indexDeferred => 7

/-- The operand specifier in the low six bits of a number (R13). -/
def OpSpec.ofCode (n : Nat) : OpSpec := ⟨AddrMode.ofCode (n / 8), Reg.ofCode n⟩

/-- The six bits of an operand specifier (R13). -/
def OpSpec.code (sp : OpSpec) : Nat := 8 * sp.mode.code + sp.reg.code

/-- The destination field `ir[5:0]` (R13). -/
def fieldDd (n : Nat) : OpSpec := OpSpec.ofCode (n % 64)

/-- The source field `ir[11:6]` of format DOP (R13). -/
def fieldSs (n : Nat) : OpSpec := OpSpec.ofCode (n / 64 % 64)

/-- The register field `ir[8:6]` of formats RSS and SOB (R13). -/
def fieldR (n : Nat) : Reg := Reg.ofCode (n / 64 % 8)

/-- The register field `ir[2:0]` of format REG. -/
def fieldReg (n : Nat) : Reg := Reg.ofCode (n % 8)

/-- The accumulator field `ir[7:6]` of format FP2. -/
def fieldAc (n : Nat) : Fin 4 := ⟨n / 64 % 4, Nat.mod_lt _ (by decide)⟩

/-- The offset or code field `ir[7:0]` of formats BR and TRP. -/
def field8 (n : Nat) : BitVec 8 := BitVec.ofNat 8 n

/-- The offset field `ir[5:0]` of formats SOB and MRK. -/
def field6 (n : Nat) : BitVec 6 := BitVec.ofNat 6 n

/-! ### The decoder -/

/-- `ir[11:6] = 0` of group 00 (R146). -/
def decodeZop (n : Nat) : Instr :=
  if n % 64 = 0 then .halt
  else if n % 64 = 1 then .wait
  else if n % 64 = 2 then .rti
  else if n % 64 = 3 then .bpt
  else if n % 64 = 4 then .iot
  else if n % 64 = 5 then .reset
  else if n % 64 = 6 then .rtt
  else .reserved (BitVec.ofNat 16 n)

/-- `ir[11:6] = 2` of group 00: RTS, SPL and the condition-code operations (R146). -/
def decode0002 (n : Nat) : Instr :=
  if n % 64 < 0o10 then .rts (fieldReg n)
  else if n % 64 < 0o30 then .reserved (BitVec.ofNat 16 n)
  else if n % 64 < 0o40 then .spl (BitVec.ofNat 3 n)
  else if n % 64 < 0o60 then .clx (BitVec.ofNat 4 n)
  else .sex (BitVec.ofNat 4 n)

/-- The branches of group 00, by `ir[11:8]` (R146). -/
def decodeBranch00 (n : Nat) : Instr :=
  if n / 256 % 16 = 1 then .br (field8 n)
  else if n / 256 % 16 = 2 then .bne (field8 n)
  else if n / 256 % 16 = 3 then .beq (field8 n)
  else if n / 256 % 16 = 4 then .bge (field8 n)
  else if n / 256 % 16 = 5 then .blt (field8 n)
  else if n / 256 % 16 = 6 then .bgt (field8 n)
  else .ble (field8 n)

/-- The single-operand half of group 00, `ir[11:6]` from `0o50` up (R146). -/
def decodeSop00 (n : Nat) : Instr :=
  if n / 64 % 64 = 0o50 then .clr (fieldDd n)
  else if n / 64 % 64 = 0o51 then .com (fieldDd n)
  else if n / 64 % 64 = 0o52 then .inc (fieldDd n)
  else if n / 64 % 64 = 0o53 then .dec (fieldDd n)
  else if n / 64 % 64 = 0o54 then .neg (fieldDd n)
  else if n / 64 % 64 = 0o55 then .adc (fieldDd n)
  else if n / 64 % 64 = 0o56 then .sbc (fieldDd n)
  else if n / 64 % 64 = 0o57 then .tst (fieldDd n)
  else if n / 64 % 64 = 0o60 then .ror (fieldDd n)
  else if n / 64 % 64 = 0o61 then .rol (fieldDd n)
  else if n / 64 % 64 = 0o62 then .asr (fieldDd n)
  else if n / 64 % 64 = 0o63 then .asl (fieldDd n)
  else if n / 64 % 64 = 0o64 then .mark (field6 n)
  else if n / 64 % 64 = 0o65 then .mfpi (fieldDd n)
  else if n / 64 % 64 = 0o66 then .mtpi (fieldDd n)
  else if n / 64 % 64 = 0o67 then .sxt (fieldDd n)
  else .reserved (BitVec.ofNat 16 n)

/-- Group 00, `ir[15:12] = 0` (R146). -/
def decode00 (n : Nat) : Instr :=
  if n / 64 % 64 = 0 then decodeZop n
  else if n / 64 % 64 = 1 then .jmp (fieldDd n)
  else if n / 64 % 64 = 2 then decode0002 n
  else if n / 64 % 64 = 3 then .swab (fieldDd n)
  else if n / 64 % 64 < 0o40 then decodeBranch00 n
  else if n / 64 % 64 < 0o50 then .jsr (fieldR n) (fieldDd n)
  else decodeSop00 n

/-- Group 07, `ir[15:12] = 7`, by `ir[11:9]` (R148). -/
def decode07 (n : Nat) : Instr :=
  if n / 512 % 8 = 0 then .mul (fieldR n) (fieldDd n)
  else if n / 512 % 8 = 1 then .div (fieldR n) (fieldDd n)
  else if n / 512 % 8 = 2 then .ash (fieldR n) (fieldDd n)
  else if n / 512 % 8 = 3 then .ashc (fieldR n) (fieldDd n)
  else if n / 512 % 8 = 4 then .xor (fieldR n) (fieldDd n)
  else if n / 512 % 8 = 7 then .sob (fieldR n) (field6 n)
  else .reserved (BitVec.ofNat 16 n)

/-- The branches and traps of group 10, by `ir[11:8]` (R149). -/
def decodeBranch10 (n : Nat) : Instr :=
  if n / 256 % 16 = 0 then .bpl (field8 n)
  else if n / 256 % 16 = 1 then .bmi (field8 n)
  else if n / 256 % 16 = 2 then .bhi (field8 n)
  else if n / 256 % 16 = 3 then .blos (field8 n)
  else if n / 256 % 16 = 4 then .bvc (field8 n)
  else if n / 256 % 16 = 5 then .bvs (field8 n)
  else if n / 256 % 16 = 6 then .bcc (field8 n)
  else if n / 256 % 16 = 7 then .bcs (field8 n)
  else if n / 256 % 16 = 8 then .emt (field8 n)
  else .trap (field8 n)

/-- The byte single-operand half of group 10, `ir[11:6]` from `0o50` up (R149). -/
def decodeSop10 (n : Nat) : Instr :=
  if n / 64 % 64 = 0o50 then .clrb (fieldDd n)
  else if n / 64 % 64 = 0o51 then .comb (fieldDd n)
  else if n / 64 % 64 = 0o52 then .incb (fieldDd n)
  else if n / 64 % 64 = 0o53 then .decb (fieldDd n)
  else if n / 64 % 64 = 0o54 then .negb (fieldDd n)
  else if n / 64 % 64 = 0o55 then .adcb (fieldDd n)
  else if n / 64 % 64 = 0o56 then .sbcb (fieldDd n)
  else if n / 64 % 64 = 0o57 then .tstb (fieldDd n)
  else if n / 64 % 64 = 0o60 then .rorb (fieldDd n)
  else if n / 64 % 64 = 0o61 then .rolb (fieldDd n)
  else if n / 64 % 64 = 0o62 then .asrb (fieldDd n)
  else if n / 64 % 64 = 0o63 then .aslb (fieldDd n)
  else if n / 64 % 64 = 0o65 then .mfpd (fieldDd n)
  else if n / 64 % 64 = 0o66 then .mtpd (fieldDd n)
  else .reserved (BitVec.ofNat 16 n)

/-- Group 10, `ir[15:12] = 8` (R149). -/
def decode10 (n : Nat) : Instr :=
  if n / 64 % 64 < 0o50 then decodeBranch10 n else decodeSop10 n

/-- Format FP0, `ir[11:6] = 0` of group 17 (R150). -/
def decodeFp0 (n : Nat) : Instr :=
  if n % 64 = 0 then .cfcc
  else if n % 64 = 1 then .setf
  else if n % 64 = 2 then .seti
  else if n % 64 = 0o11 then .setd
  else if n % 64 = 0o12 then .setl
  else .fppIllegal (BitVec.ofNat 16 n)

/-- Formats FP0 and FP1, `ir[11:9] = 0` of group 17, by `ir[11:6]` (R150). -/
def decodeFp1 (n : Nat) : Instr :=
  if n / 64 % 64 = 0 then decodeFp0 n
  else if n / 64 % 64 = 1 then .ldfps (fieldDd n)
  else if n / 64 % 64 = 2 then .stfps (fieldDd n)
  else if n / 64 % 64 = 3 then .stst (fieldDd n)
  else if n / 64 % 64 = 4 then .clrf (fieldDd n)
  else if n / 64 % 64 = 5 then .tstf (fieldDd n)
  else if n / 64 % 64 = 6 then .absf (fieldDd n)
  else .negf (fieldDd n)

/-- Group 17, `ir[15:12] = 15`, by `fop = ir[11:8]` (R150). -/
def decode17 (n : Nat) : Instr :=
  if n / 256 % 16 < 2 then decodeFp1 n
  else if n / 256 % 16 = 2 then .mulf (fieldAc n) (fieldDd n)
  else if n / 256 % 16 = 3 then .modf (fieldAc n) (fieldDd n)
  else if n / 256 % 16 = 4 then .addf (fieldAc n) (fieldDd n)
  else if n / 256 % 16 = 5 then .ldf (fieldAc n) (fieldDd n)
  else if n / 256 % 16 = 6 then .subf (fieldAc n) (fieldDd n)
  else if n / 256 % 16 = 7 then .cmpf (fieldAc n) (fieldDd n)
  else if n / 256 % 16 = 8 then .stf (fieldAc n) (fieldDd n)
  else if n / 256 % 16 = 9 then .divf (fieldAc n) (fieldDd n)
  else if n / 256 % 16 = 10 then .stexp (fieldAc n) (fieldDd n)
  else if n / 256 % 16 = 11 then .stcfi (fieldAc n) (fieldDd n)
  else if n / 256 % 16 = 12 then .stcfd (fieldAc n) (fieldDd n)
  else if n / 256 % 16 = 13 then .ldexp (fieldAc n) (fieldDd n)
  else if n / 256 % 16 = 14 then .ldcif (fieldAc n) (fieldDd n)
  else .ldcdf (fieldAc n) (fieldDd n)

/-- The double-operand groups 01 to 06 and 11 to 16 (R147), and the other groups (R146, R148 to R150). -/
def decodeNat (n : Nat) : Instr :=
  if n / 4096 = 0 then decode00 n
  else if n / 4096 = 1 then .mov (fieldSs n) (fieldDd n)
  else if n / 4096 = 2 then .cmp (fieldSs n) (fieldDd n)
  else if n / 4096 = 3 then .bit (fieldSs n) (fieldDd n)
  else if n / 4096 = 4 then .bic (fieldSs n) (fieldDd n)
  else if n / 4096 = 5 then .bis (fieldSs n) (fieldDd n)
  else if n / 4096 = 6 then .add (fieldSs n) (fieldDd n)
  else if n / 4096 = 7 then decode07 n
  else if n / 4096 = 8 then decode10 n
  else if n / 4096 = 9 then .movb (fieldSs n) (fieldDd n)
  else if n / 4096 = 10 then .cmpb (fieldSs n) (fieldDd n)
  else if n / 4096 = 11 then .bitb (fieldSs n) (fieldDd n)
  else if n / 4096 = 12 then .bicb (fieldSs n) (fieldDd n)
  else if n / 4096 = 13 then .bisb (fieldSs n) (fieldDd n)
  else if n / 4096 = 14 then .sub (fieldSs n) (fieldDd n)
  else decode17 n

/-- The instruction an instruction word `ir` selects: a total function (30_encoding.md rule R145). -/
def decodeWord (w : Word) : Instr := decodeNat w.toNat

/-- Why a list of bytes is no instruction: it ends before the instruction word does. -/
inductive DecodeError where
  | truncated
deriving DecidableEq, Repr

/-- The word two bytes make, low byte first (20_memory.md rule R81). -/
def wordOfBytes (lo hi : Byte) : Word := hi ++ lo

/-- The bytes of a word, low byte first (20_memory.md rule R81). -/
def bytesOfWord (w : Word) : List Byte := [w.extractLsb' 0 8, w.extractLsb' 8 8]

/-- The instruction at the head of a list of bytes in memory order, with the bytes after its instruction word. -/
def decode : List Byte → Except DecodeError (Instr × List Byte)
  | lo :: hi :: rest => .ok (decodeWord (wordOfBytes lo hi), rest)
  | _ => .error .truncated

/-- The decoder on an instruction given as a number, its bits numbered as spec/opcode_table.json numbers them:
every row is one 16-bit word, stored low byte first.
A table row narrower than the instruction word leaves the bits above it 0. -/
def decodeTableWord (nbits w : Nat) : Option Instr :=
  match decode (bytesOfWord (BitVec.ofNat 16 (w % 2 ^ nbits))) with
  | .ok (i, _) => some i
  | .error _ => none

/-! ### The encoder -/

/-- The instruction word of an instruction, as a number (30_encoding.md rules R142, R146 to R150). -/
def Instr.number : Instr → Nat
  | .halt => 0o000000
  | .wait => 0o000001
  | .rti => 0o000002
  | .bpt => 0o000003
  | .iot => 0o000004
  | .reset => 0o000005
  | .rtt => 0o000006
  | .jmp dd => 0o000100 + dd.code
  | .rts r => 0o000200 + r.code
  | .spl n => 0o000230 + n.toNat
  | .clx m => 0o000240 + m.toNat
  | .sex m => 0o000260 + m.toNat
  | .swab dd => 0o000300 + dd.code
  | .br off => 0o000400 + off.toNat
  | .bne off => 0o001000 + off.toNat
  | .beq off => 0o001400 + off.toNat
  | .bge off => 0o002000 + off.toNat
  | .blt off => 0o002400 + off.toNat
  | .bgt off => 0o003000 + off.toNat
  | .ble off => 0o003400 + off.toNat
  | .jsr r dd => 0o004000 + 64 * r.code + dd.code
  | .clr dd => 0o005000 + dd.code
  | .com dd => 0o005100 + dd.code
  | .inc dd => 0o005200 + dd.code
  | .dec dd => 0o005300 + dd.code
  | .neg dd => 0o005400 + dd.code
  | .adc dd => 0o005500 + dd.code
  | .sbc dd => 0o005600 + dd.code
  | .tst dd => 0o005700 + dd.code
  | .ror dd => 0o006000 + dd.code
  | .rol dd => 0o006100 + dd.code
  | .asr dd => 0o006200 + dd.code
  | .asl dd => 0o006300 + dd.code
  | .mark nn => 0o006400 + nn.toNat
  | .mfpi ss => 0o006500 + ss.code
  | .mtpi dd => 0o006600 + dd.code
  | .sxt dd => 0o006700 + dd.code
  | .mov ss dd => 0o010000 + 64 * ss.code + dd.code
  | .cmp ss dd => 0o020000 + 64 * ss.code + dd.code
  | .bit ss dd => 0o030000 + 64 * ss.code + dd.code
  | .bic ss dd => 0o040000 + 64 * ss.code + dd.code
  | .bis ss dd => 0o050000 + 64 * ss.code + dd.code
  | .add ss dd => 0o060000 + 64 * ss.code + dd.code
  | .movb ss dd => 0o110000 + 64 * ss.code + dd.code
  | .cmpb ss dd => 0o120000 + 64 * ss.code + dd.code
  | .bitb ss dd => 0o130000 + 64 * ss.code + dd.code
  | .bicb ss dd => 0o140000 + 64 * ss.code + dd.code
  | .bisb ss dd => 0o150000 + 64 * ss.code + dd.code
  | .sub ss dd => 0o160000 + 64 * ss.code + dd.code
  | .mul r ss => 0o070000 + 64 * r.code + ss.code
  | .div r ss => 0o071000 + 64 * r.code + ss.code
  | .ash r ss => 0o072000 + 64 * r.code + ss.code
  | .ashc r ss => 0o073000 + 64 * r.code + ss.code
  | .xor r dd => 0o074000 + 64 * r.code + dd.code
  | .sob r off => 0o077000 + 64 * r.code + off.toNat
  | .bpl off => 0o100000 + off.toNat
  | .bmi off => 0o100400 + off.toNat
  | .bhi off => 0o101000 + off.toNat
  | .blos off => 0o101400 + off.toNat
  | .bvc off => 0o102000 + off.toNat
  | .bvs off => 0o102400 + off.toNat
  | .bcc off => 0o103000 + off.toNat
  | .bcs off => 0o103400 + off.toNat
  | .emt code => 0o104000 + code.toNat
  | .trap code => 0o104400 + code.toNat
  | .clrb dd => 0o105000 + dd.code
  | .comb dd => 0o105100 + dd.code
  | .incb dd => 0o105200 + dd.code
  | .decb dd => 0o105300 + dd.code
  | .negb dd => 0o105400 + dd.code
  | .adcb dd => 0o105500 + dd.code
  | .sbcb dd => 0o105600 + dd.code
  | .tstb dd => 0o105700 + dd.code
  | .rorb dd => 0o106000 + dd.code
  | .rolb dd => 0o106100 + dd.code
  | .asrb dd => 0o106200 + dd.code
  | .aslb dd => 0o106300 + dd.code
  | .mfpd ss => 0o106500 + ss.code
  | .mtpd dd => 0o106600 + dd.code
  | .cfcc => 0o170000
  | .setf => 0o170001
  | .seti => 0o170002
  | .setd => 0o170011
  | .setl => 0o170012
  | .ldfps ss => 0o170100 + ss.code
  | .stfps dd => 0o170200 + dd.code
  | .stst dd => 0o170300 + dd.code
  | .clrf dd => 0o170400 + dd.code
  | .tstf ss => 0o170500 + ss.code
  | .absf dd => 0o170600 + dd.code
  | .negf dd => 0o170700 + dd.code
  | .mulf ac ss => 0o171000 + 64 * ac.val + ss.code
  | .modf ac ss => 0o171400 + 64 * ac.val + ss.code
  | .addf ac ss => 0o172000 + 64 * ac.val + ss.code
  | .ldf ac ss => 0o172400 + 64 * ac.val + ss.code
  | .subf ac ss => 0o173000 + 64 * ac.val + ss.code
  | .cmpf ac ss => 0o173400 + 64 * ac.val + ss.code
  | .stf ac dd => 0o174000 + 64 * ac.val + dd.code
  | .divf ac ss => 0o174400 + 64 * ac.val + ss.code
  | .stexp ac dd => 0o175000 + 64 * ac.val + dd.code
  | .stcfi ac dd => 0o175400 + 64 * ac.val + dd.code
  | .stcfd ac dd => 0o176000 + 64 * ac.val + dd.code
  | .ldexp ac ss => 0o176400 + 64 * ac.val + ss.code
  | .ldcif ac ss => 0o177000 + 64 * ac.val + ss.code
  | .ldcdf ac ss => 0o177400 + 64 * ac.val + ss.code
  | .reserved w => w.toNat
  | .fppIllegal w => w.toNat

/-- The instruction word of an instruction. -/
def encodeWord (i : Instr) : Word := BitVec.ofNat 16 i.number

/-- The bytes of an instruction word in memory order. -/
def encode (i : Instr) : List Byte := bytesOfWord (encodeWord i)

end Sys2Proof
end

