-- ==== Sys2Proof/Machine/State.lean ====
section
/-! DEFINITION. The state as plain data: every piece of state the spec gives the machine (10_state.md,
50_fpp_state_format.md rules R400 to R403), the state right after power-up, and the plain field updates.
INVENTORY.md, under State, lists each piece with its rule and its reset value. -/

namespace Sys2Proof.Machine

/-- Run states (R68, 60_exceptions.md rule R640). -/
inductive RunState where
  | run
  | step
  | reset
  | wait
  | halt
deriving DecidableEq, Repr

/-- The pending post-instruction trap mask (R66). -/
structure Pending where
  mmu : Bool := false
  yellow : Bool := false
  fpp : Bool := false
  trace : Bool := false
deriving DecidableEq, Repr

/-- Memory management state (R40 to R48).
`par` and `pdr` hold entry p of mode number m at index `16 * m + p`. -/
structure Mmu where
  /-- Page-address registers `PAR[m][p]` (R40, R41). -/
  par : Vector (BitVec 16) 64
  /-- Page-descriptor registers `PDR[m][p]` (R40, R42). -/
  pdr : Vector (BitVec 16) 64
  /-- `MMR0` as stored (R43). -/
  mmr0 : BitVec 16
  /-- `MMR1` (R44). -/
  mmr1 : BitVec 16
  /-- `MMR2` (R45). -/
  mmr2 : BitVec 16
  /-- `MMR3` (R46). -/
  mmr3 : BitVec 16
  /-- The Unibus map `UBMAP[k]` (R47). -/
  ubmap : Vector (BitVec 22) 32
  /-- `lastPage`: mode number above page index (R48). -/
  lastPage : BitVec 6
deriving DecidableEq, Repr

/-- Trap, interrupt and CPU control state (R50 to R53, R65 to R68). -/
structure Ctl where
  /-- Stack-limit register `SLR` (R50). -/
  slr : BitVec 16
  /-- Programmed-interrupt-request register `PIRQ` (R51). -/
  pirq : BitVec 16
  /-- CPU error register `CPUERR` (R52). -/
  cpuErr : BitVec 16
  /-- Display register `DISP` (R53). -/
  disp : BitVec 16
  /-- Console switch register `SWR`, an input of the host (R8, R53). -/
  swr : BitVec 16
  /-- `trapPSW`, the snapshot held while a trap sequence runs (R65). -/
  trapPsw : Option (BitVec 16)
  /-- The pending post-instruction trap mask (R66). -/
  pending : Pending
  /-- `irqFlag` (R67). -/
  irqFlag : Bool
  /-- `irqDelay`, 0 or 1 (R67). -/
  irqDelay : Bool
  /-- `runState` (R68). -/
  runState : RunState
deriving DecidableEq, Repr

/-- One floating-point accumulator, `w0` holding sign and exponent (R401, R406). -/
structure Accum where
  w0 : BitVec 16 := 0
  w1 : BitVec 16 := 0
  w2 : BitVec 16 := 0
  w3 : BitVec 16 := 0
deriving DecidableEq, Repr

/-- Floating-point coprocessor state (R69, R400 to R403). -/
structure Fpp where
  /-- Status and control word `FPS` (R402). -/
  fps : BitVec 16
  /-- Error code `FEC` (R403). -/
  fec : BitVec 4
  /-- Error address `FEA` (R403). -/
  fea : BitVec 16
  /-- Accumulators `AC[0]` to `AC[5]` (R400, R401). -/
  ac : Vector Accum 6
deriving DecidableEq, Repr

/-- Physical main memory: the bytes that differ from what an unlisted address reads as, by rising address
(R70, R80, R81). -/
abbrev Memory := List Host.Cell

/-- One event of the outside world, taken between instruction cycles (70_reset_and_hazards.md rule R710,
60_exceptions.md rules R620, R640, R646). -/
inductive Input where
  /-- Device number `dev` requests an interrupt (R620). -/
  | raise (dev : Nat) (level : BitVec 3) (vector : BitVec 16)
  /-- Device number `dev` withdraws its request (R620). -/
  | drop (dev : Nat)
  /-- Console RUN request (R640). -/
  | run
  /-- Console STEP request (R640). -/
  | step
  /-- Console HALT request (R640). -/
  | halt
  /-- Console RESET request (R702). -/
  | reset
  /-- Boot (R706). -/
  | boot
  /-- Hard reset command (R701). -/
  | hardReset
  /-- The console switches are set (R53, R710). -/
  | switches (v : BitVec 16)
deriving DecidableEq, Repr

/-- The machine. -/
structure State where
  /-- `GR[0][0..5]` (R20). -/
  gr0 : Vector (BitVec 16) 6
  /-- `GR[1][0..5]` (R20). -/
  gr1 : Vector (BitVec 16) 6
  /-- The stack-pointer slots `SPm[0..3]` (R21). -/
  spm : Vector (BitVec 16) 4
  /-- `PCreg` (R22). -/
  pc : BitVec 16
  /-- The processor status word (R26). -/
  psw : BitVec 16
  /-- Memory management (R40 to R48). -/
  mmu : Mmu
  /-- Trap, interrupt and CPU control (R50 to R53, R65 to R68). -/
  ctl : Ctl
  /-- Floating-point coprocessor (R69, R400 to R403). -/
  fpp : Fpp
  /-- Main memory (R70). -/
  mem : Memory
  /-- The machine's parameters (R8), which nothing changes. -/
  params : Params
  /-- `DEVICES`, in registration order (R8, R96). -/
  devices : List Device
  /-- The MODEL's own field: what the outside world will do at each of the next instruction boundaries (R710). -/
  inputs : List (List Input)
  /-- The MODEL's own field: how many answers of the external bus have been drawn (R98). -/
  draws : Nat
deriving DecidableEq, Repr

/-- No fault: every event the spec describes, an abort, a trap, a double trap or the unrecoverable nested fault of
60_exceptions.md rule R609, leaves the machine in a next state, so no step ends in a fault and nothing raises one. -/
inductive Fault : Type
deriving DecidableEq, Repr

/-- Why an instruction has no meaning in the model. -/
inductive Refusal where
  /-- Raised only by an arm of `exec` for an instruction that has no meaning yet; safe, the run stops there.
  No arm raises it now. -/
  | notModelled (mnemonic : String)
deriving DecidableEq, Repr

/-- The machine after power-up (10_state.md rule R75, 70_reset_and_hazards.md rule R700): everything zero, kernel
mode, relocation off, halted, no device and no input (R8). -/
def State.reset : State where
  gr0 := Vector.replicate 6 0
  gr1 := Vector.replicate 6 0
  spm := Vector.replicate 4 0
  pc := 0
  psw := 0
  mmu :=
    { par := Vector.replicate 64 0
      pdr := Vector.replicate 64 0
      mmr0 := 0
      mmr1 := 0
      mmr2 := 0
      mmr3 := 0
      ubmap := Vector.replicate 32 0
      lastPage := 0 }
  ctl :=
    { slr := 0
      pirq := 0
      cpuErr := 0
      disp := 0
      swr := 0
      trapPsw := none
      pending := {}
      irqFlag := false
      irqDelay := false
      runState := .halt }
  fpp := { fps := 0, fec := 0, fea := 0, ac := Vector.replicate 6 {} }
  mem := []
  params := {}
  devices := []
  inputs := []
  draws := 0

/-! ### Plain field updates -/

def State.setGr0 (s : State) (v : Vector (BitVec 16) 6) : State := { s with gr0 := v }
def State.setGr1 (s : State) (v : Vector (BitVec 16) 6) : State := { s with gr1 := v }
def State.setSpm (s : State) (v : Vector (BitVec 16) 4) : State := { s with spm := v }
def State.setPc (s : State) (v : BitVec 16) : State := { s with pc := v }
def State.setPsw (s : State) (v : BitVec 16) : State := { s with psw := v }
def State.setMmu (s : State) (v : Mmu) : State := { s with mmu := v }
def State.setCtl (s : State) (v : Ctl) : State := { s with ctl := v }
def State.setFpp (s : State) (v : Fpp) : State := { s with fpp := v }
def State.setMem (s : State) (v : Memory) : State := { s with mem := v }
def State.setDevices (s : State) (v : List Device) : State := { s with devices := v }
def State.setInputs (s : State) (v : List (List Input)) : State := { s with inputs := v }
def State.setDraws (s : State) (v : Nat) : State := { s with draws := v }

end Sys2Proof.Machine
end

