-- ==== Sys2Proof/Machine/Bits.lean ====
section
/-! DEFINITION. Bit-field helpers and the named fields of the processor status word (10_state.md rules R26, R27)
and of the other registers the spec numbers by bits (R43, R46, R51, 50_fpp_state_format.md rule R402). -/

namespace Sys2Proof.Machine

/-- Processor modes (R26): mode numbers 0 to 3. -/
inductive ProcMode where
  | kernel
  | supervisor
  | illegal
  | user
deriving DecidableEq, Repr

/-- The mode a two-bit field names (R26). -/
def modeOfNat (n : Nat) : ProcMode :=
  match n % 4 with
  | 0 => .kernel
  | 1 => .supervisor
  | 2 => .illegal
  | _ => .user

/-- The mode number (R26). -/
def modeNumber : ProcMode → Fin 4
  | .kernel => 0
  | .supervisor => 1
  | .illegal => 2
  | .user => 3

/-- `w` with bit `i` set to 1. -/
def setBit {n : Nat} (w : BitVec n) (i : Nat) : BitVec n := w ||| BitVec.ofNat n (2 ^ i)

/-- `w` with bit `i` replaced. -/
def putBit {n : Nat} (w : BitVec n) (i : Nat) (b : Bool) : BitVec n :=
  if b then setBit w i else w &&& ~~~ BitVec.ofNat n (2 ^ i)

/-- The sign bit of a value at its own width (R9). -/
def signBit {n : Nat} (w : BitVec n) : Bool := w.getLsbD (n - 1)

/-! ### The processor status word (R26) -/

/-- `PSW.CM`, the current mode. -/
def pswCm (w : Word) : ProcMode := modeOfNat (w.extractLsb' 14 2).toNat

/-- `PSW.PM`, the previous mode. -/
def pswPm (w : Word) : ProcMode := modeOfNat (w.extractLsb' 12 2).toNat

/-- `PSW.RS`, the register-set selector. -/
def pswRs (w : Word) : Bool := w.getLsbD 11

/-- `PSW.PRI`, the processor priority. -/
def pswPri (w : Word) : Nat := (w.extractLsb' 5 3).toNat

/-- `PSW.T`, the trace bit. -/
def pswT (w : Word) : Bool := w.getLsbD 4

/-- `PSW.N`. -/
def pswN (w : Word) : Bool := w.getLsbD 3

/-- `PSW.Z`. -/
def pswZ (w : Word) : Bool := w.getLsbD 2

/-- `PSW.V`. -/
def pswV (w : Word) : Bool := w.getLsbD 1

/-- `PSW.C`. -/
def pswC (w : Word) : Bool := w.getLsbD 0

/-- Current mode of the machine. -/
def State.cm (s : State) : ProcMode := pswCm s.psw

/-- Previous mode of the machine. -/
def State.pm (s : State) : ProcMode := pswPm s.psw

/-- The carry flag of the machine. -/
def State.carry (s : State) : Bool := pswC s.psw

/-! ### Condition codes (R27) -/

/-- A value of the four condition flags. -/
structure Cc where
  n : Bool
  z : Bool
  v : Bool
  c : Bool
deriving DecidableEq, Repr

/-- The four flags as bits 3:0 (R26). -/
def Cc.bits (cc : Cc) : BitVec 4 := BitVec.ofBool cc.n ++ BitVec.ofBool cc.z ++ BitVec.ofBool cc.v ++ BitVec.ofBool cc.c

/-- The flags in bits 3:0 of a word. -/
def ccOfWord (w : Word) : Cc := ⟨w.getLsbD 3, w.getLsbD 2, w.getLsbD 1, w.getLsbD 0⟩

/-- `Flags(mask, val)` of R27 on a status word. -/
def flagsWord (w : Word) (mask val : BitVec 4) : Word :=
  (w &&& ~~~ mask.setWidth 16) ||| (val &&& mask).setWidth 16

/-- Replace bits 3:0 of a word by condition codes. -/
def putCc (w : Word) (cc : Cc) : Word := flagsWord w 0b1111 cc.bits

/-! ### Memory management registers -/

/-- `MMR0[15:13]` is not 0: an abort is frozen (R43). -/
def mmr0Frozen (w : Word) : Bool := w.getLsbD 15 || w.getLsbD 14 || w.getLsbD 13

/-- `MMR0.TRP` (R43). -/
def mmr0Trp (w : Word) : Bool := w.getLsbD 12

/-- `MMR0.ENT` (R43). -/
def mmr0Ent (w : Word) : Bool := w.getLsbD 9

/-- `MMR0.MNT` (R43). -/
def mmr0Mnt (w : Word) : Bool := w.getLsbD 8

/-- `MMR0.ENB` (R43). -/
def mmr0Enb (w : Word) : Bool := w.getLsbD 0

/-- `MMR0` with bits 6:1 replaced by a page (R43, R48). -/
def mmr0WithPage (w : Word) (page : BitVec 6) : Word :=
  (w &&& ~~~ (0o000176 : Word)) ||| ((page.setWidth 16) <<< 1)

/-- The data-space enable of a mode (R46); mode 2 has none. -/
def dataSpaceEnabled (mmr3 : Word) : ProcMode → Bool
  | .kernel => mmr3.getLsbD 2
  | .supervisor => mmr3.getLsbD 1
  | .illegal => false
  | .user => mmr3.getLsbD 0

/-- `MMR3.M22`, 22-bit mapping (R46). -/
def mmr3M22 (w : Word) : Bool := w.getLsbD 4

/-- `MMR3.UBM`, Unibus map enable (R46). -/
def mmr3Ubm (w : Word) : Bool := w.getLsbD 5

/-! ### The programmed interrupt request register (R51) -/

/-- The number of the highest level requested in bits 15:9, 0 when none. -/
def pirqLevel (req : Word) : Nat :=
  if req.getLsbD 15 then 7
  else if req.getLsbD 14 then 6
  else if req.getLsbD 13 then 5
  else if req.getLsbD 12 then 4
  else if req.getLsbD 11 then 3
  else if req.getLsbD 10 then 2
  else if req.getLsbD 9 then 1
  else 0

/-- The register after a software write of `v`: the request bits, and both level fields recomputed. -/
def pirqOfWrite (v : Word) : Word :=
  let req := v &&& 0o177000
  req ||| BitVec.ofNat 16 (pirqLevel req * 32) ||| BitVec.ofNat 16 (pirqLevel req * 2)

/-- `PIRlevel`: the level field of the register (R51). -/
def pirLevelField (pirq : Word) : Nat := (pirq.extractLsb' 5 3).toNat

/-- The effective stack limit `SL` (R50). -/
def effectiveLimit (slr : Word) : Nat := ((slr &&& 0o177400) ||| 0o377).toNat

end Sys2Proof.Machine
end

