-- ==== Sys2Proof/Machine/Memory.lean ====
section
/-! DEFINITION. Physical main memory as a list of bytes in one canonical form: addresses strictly rising, no entry
equal to what an unlisted address reads as (10_state.md rules R70, R75, 20_memory.md rule R81). -/

namespace Sys2Proof.Machine

/-- What an unlisted address reads as: 0, the power-up contents of memory (R75, assumption log 1). -/
def Memory.unlisted : Byte := 0

/-- The byte at an address. -/
def Memory.read : Memory → Nat → Byte
  | [], _ => Memory.unlisted
  | (k, b) :: rest, a => if a = k then b else if a < k then Memory.unlisted else Memory.read rest a

/-- Store a byte, keeping the canonical form. -/
def Memory.write : Memory → Nat → Byte → Memory
  | [], a, v => if v = Memory.unlisted then [] else [(a, v)]
  | (k, b) :: rest, a, v =>
    if a < k then
      if v = Memory.unlisted then (k, b) :: rest else (a, v) :: (k, b) :: rest
    else if a = k then
      if v = Memory.unlisted then rest else (a, v) :: rest
    else (k, b) :: Memory.write rest a v

/-- Whether every address listed lies above `a`. -/
def Memory.above (a : Nat) (m : Memory) : Bool :=
  match m with
  | [] => true
  | (k, _) :: _ => a < k

/-- The canonical form: addresses strictly rising, no entry equal to an unlisted byte. -/
def Memory.wf : Memory → Bool
  | [] => true
  | (a, b) :: rest => b != Memory.unlisted && Memory.above a rest && Memory.wf rest

/-- The word at an even address, low byte at the lower address (R81). -/
def Memory.readWord (m : Memory) (a : Nat) : Word := Memory.read m (a + 1) ++ Memory.read m a

/-- Store a word at an even address, low byte at the lower address (R81). -/
def Memory.writeWord (m : Memory) (a : Nat) (v : Word) : Memory :=
  Memory.write (Memory.write m a (v.extractLsb' 0 8)) (a + 1) (v.extractLsb' 8 8)

/-- Store a list of words at rising addresses (70_reset_and_hazards.md rule R706). -/
def Memory.writeWords (m : Memory) (a : Nat) : List Word → Memory
  | [] => m
  | w :: ws => Memory.writeWords (Memory.writeWord m a w) (a + 2) ws

end Sys2Proof.Machine
end

