-- ==== Sys2Proof/Machine/Regs.lean ====
section
/-! DEFINITION. The active register view, the load of the processor status word, the core-owned registers at their
I/O-page addresses (10_state.md rules R20 to R30, R40 to R53, R60, R61), and the shape of an operation that may
abort (00_scope.md rule R12). -/

namespace Sys2Proof.Machine

/-- An operation of an instruction: it answers a value and a state, or aborts with a vector, leaving the state as
it stands (R12: "state already written by earlier sub-steps of the instruction stays written"). -/
abbrev M := EStateM Word State

/-- `raise Abort(vector, effects)` (R12): perform the effects and abandon the instruction. -/
def abortWith {α : Type} (vector : Word) (effects : State → State) : M α :=
  fun s => .error vector (effects s)

/-- `raise Trap(vector)` (R12). -/
def raiseTrap {α : Type} (vector : Word) : M α := fun s => .error vector s

/-- Change the state. -/
def change (f : State → State) : M Unit := fun s => .ok () (f s)

/-- A value computed from the state. -/
def look {α : Type} (f : State → α) : M α := fun s => .ok (f s) s

/-! ### The active register view (R23) -/

/-- `GR[rs][i]` (R20). -/
def State.readGen (s : State) (rs : Bool) (i : Fin 6) : Word := if rs then s.gr1[i] else s.gr0[i]

/-- Write `GR[rs][i]` (R20). -/
def State.writeGen (s : State) (rs : Bool) (i : Fin 6) (v : Word) : State :=
  if rs then s.setGr1 (s.gr1.set i v) else s.setGr0 (s.gr0.set i v)

/-- `SPm[m]` (R21). -/
def State.readSpm (s : State) (m : ProcMode) : Word := s.spm[modeNumber m]

/-- Write `SPm[m]` (R21). -/
def State.writeSpm (s : State) (m : ProcMode) (v : Word) : State := s.setSpm (s.spm.set (modeNumber m) v)

/-- `R[n]`: the register the view selects at this moment (R23). -/
def State.readReg (s : State) : Reg → Word
  | .gen i => s.readGen (pswRs s.psw) i
  | .sp => s.readSpm s.cm
  | .pc => s.pc

/-- `R[n] <- v` (R23). -/
def State.writeReg (s : State) (r : Reg) (v : Word) : State :=
  match r with
  | .gen i => s.writeGen (pswRs s.psw) i v
  | .sp => s.writeSpm s.cm v
  | .pc => s.setPc v

/-- The register whose number is `r` with bit 0 set (43_eis.md rule R280). -/
def regOrOne : Reg → Reg
  | .gen i => match i.val with
    | 0 | 1 => .gen 1
    | 2 | 3 => .gen 3
    | _ => .gen 5
  | .sp => .pc
  | .pc => .pc

/-! ### Control state -/

/-- Update the memory-management state. -/
def State.onMmu (s : State) (f : Mmu → Mmu) : State := s.setMmu (f s.mmu)

/-- Update the trap, interrupt and control state. -/
def State.onCtl (s : State) (f : Ctl → Ctl) : State := s.setCtl (f s.ctl)

/-- Update the coprocessor state. -/
def State.onFpp (s : State) (f : Fpp → Fpp) : State := s.setFpp (f s.fpp)

/-- Set a bit of `CPUERR` (R52). -/
def State.cpuError (s : State) (bit : Nat) : State := s.onCtl fun c => { c with cpuErr := setBit c.cpuErr bit }

/-- `defer(mmu)` (R66). -/
def State.deferMmu (s : State) : State := s.onCtl fun c => { c with pending := { c.pending with mmu := true } }

/-- `defer(yellow)` (R66). -/
def State.deferYellow (s : State) : State := s.onCtl fun c => { c with pending := { c.pending with yellow := true } }

/-- `defer(fpp)` (R66). -/
def State.deferFpp (s : State) : State := s.onCtl fun c => { c with pending := { c.pending with fpp := true } }

/-- `pending.trace <- b` (R66). -/
def State.setTrace (s : State) (b : Bool) : State := s.onCtl fun c => { c with pending := { c.pending with trace := b } }

/-- `runState <- r` (R68). -/
def State.setRunState (s : State) (r : RunState) : State := s.onCtl fun c => { c with runState := r }

/-- `irqFlag <- b` (R67). -/
def State.setIrqFlag (s : State) (b : Bool) : State := s.onCtl fun c => { c with irqFlag := b }

/-- `irqDelay <- b` (R67). -/
def State.setIrqDelay (s : State) (b : Bool) : State := s.onCtl fun c => { c with irqDelay := b }

/-- `trapPSW <- v` (R65). -/
def State.setTrapPsw (s : State) (v : Option Word) : State := s.onCtl fun c => { c with trapPsw := v }

/-! ### The processor status word -/

/-- `LoadPSW(v)` (R28): bits 10:8 become 0, and a load that lowers the priority flags the interrupt check with its
one-instruction delay. -/
def State.loadPsw (s : State) (v : Word) : State :=
  let lowered := pswPri v < pswPri s.psw
  let s1 := s.setPsw (v &&& 0o174377)
  if lowered then s1.onCtl fun c => { c with irqFlag := true, irqDelay := true } else s1

/-- A software write of the status word: every field but T (R29). -/
def State.writePsw (s : State) (v : Word) : State := s.loadPsw ((v &&& 0o177757) ||| (s.psw &&& 0o20))

/-- `Flags(mask, val)` (R27). -/
def State.flags (s : State) (mask val : BitVec 4) : State := s.setPsw (flagsWord s.psw mask val)

/-- Set the four condition flags (R27). -/
def State.setCc (s : State) (cc : Cc) : State := s.setPsw (putCc s.psw cc)

/-! ### Core-owned registers (R60, R61) -/

/-- A core-owned register that has an I/O-page address (R60). -/
inductive CoreReg where
  | psw
  | slr
  | pirq
  | cpuErr
  | mmr0
  | mmr1
  | mmr2
  | mmr3
  | switches
  | pdr (m : ProcMode) (p : Fin 16)
  | par (m : ProcMode) (p : Fin 16)
  | ubLow (k : Fin 32)
  | ubHigh (k : Fin 32)
deriving DecidableEq, Repr

/-- A page register of a mode's block of 32 words: eight PDRs for instruction space, eight for data space, then the
PARs in the same order (R60). -/
def pageRegAt (m : ProcMode) (offset : Nat) : CoreReg :=
  if offset / 32 = 0 then .pdr m (Fin.ofNat 16 (offset / 2)) else .par m (Fin.ofNat 16 (offset / 2))

/-- The core-owned register whose word lies at a physical address, odd addresses naming the word they lie in
(R60). -/
def coreRegAt (pa : PAddr) : Option CoreReg :=
  let a := pa.toNat / 2 * 2
  if a = 0o17777776 then some .psw
  else if a = 0o17777774 then some .slr
  else if a = 0o17777772 then some .pirq
  else if a = 0o17777766 then some .cpuErr
  else if a = 0o17777576 then some .mmr2
  else if a = 0o17777574 then some .mmr1
  else if a = 0o17777572 then some .mmr0
  else if a = 0o17777570 then some .switches
  else if a = 0o17772516 then some .mmr3
  else if 0o17777600 ≤ a ∧ a < 0o17777700 then some (pageRegAt .user (a - 0o17777600))
  else if 0o17772300 ≤ a ∧ a < 0o17772400 then some (pageRegAt .kernel (a - 0o17772300))
  else if 0o17772200 ≤ a ∧ a < 0o17772300 then some (pageRegAt .supervisor (a - 0o17772200))
  else if 0o17770200 ≤ a ∧ a < 0o17770400 then
    if (a - 0o17770200) % 4 = 0 then some (.ubLow (Fin.ofNat 32 ((a - 0o17770200) / 4)))
    else some (.ubHigh (Fin.ofNat 32 ((a - 0o17770200) / 4)))
  else none

/-- The index of `PAR[m][p]` and `PDR[m][p]` in their vectors (R40). -/
def pageEntry (m : ProcMode) (p : Fin 16) : Fin 64 :=
  ⟨16 * (modeNumber m).val + p.val, by have := (modeNumber m).isLt; have := p.isLt; omega⟩

/-- `MMR0` as software reads it: bits 6:1 follow `lastPage` unless an abort has frozen them (R43). -/
def Mmu.visibleMmr0 (u : Mmu) : Word := if mmr0Frozen u.mmr0 then u.mmr0 else mmr0WithPage u.mmr0 u.lastPage

/-- What software reads in a core-owned register (R61: "A read has no side effect"). -/
def State.readCore (s : State) : CoreReg → Word
  | .psw => s.psw
  | .slr => s.ctl.slr
  | .pirq => s.ctl.pirq
  | .cpuErr => s.ctl.cpuErr
  | .mmr0 => s.mmu.visibleMmr0
  | .mmr1 => s.mmu.mmr1
  | .mmr2 => s.mmu.mmr2
  | .mmr3 => s.mmu.mmr3
  | .switches => s.ctl.swr
  | .pdr m p => s.mmu.pdr[pageEntry m p]
  | .par m p => s.mmu.par[pageEntry m p]
  | .ubLow k => (s.mmu.ubmap[k]).extractLsb' 0 16
  | .ubHigh k => ((s.mmu.ubmap[k]).extractLsb' 16 6).setWidth 16

/-- A write of a PDR: the software-writable fields; A and W become 0 (R42). -/
def Mmu.writePdr (u : Mmu) (e : Fin 64) (v : Word) : Mmu := { u with pdr := u.pdr.set e (v &&& 0o077417) }

/-- A write of a PAR, which also clears A and W of the PDR with the same indexes (R41). -/
def Mmu.writePar (u : Mmu) (e : Fin 64) (v : Word) : Mmu :=
  { u with par := u.par.set e v, pdr := u.pdr.set e (u.pdr[e] &&& ~~~ (0o000300 : Word)) }

/-- A word written by software to a core-owned register (R29, R41 to R53, R61). -/
def State.writeCore (s : State) (r : CoreReg) (v : Word) : State :=
  match r with
  | .psw => s.writePsw v
  | .slr => s.onCtl fun c => { c with slr := v &&& 0o177400 }
  | .pirq => s.onCtl fun c => { c with pirq := pirqOfWrite v, irqFlag := true }
  | .cpuErr => s.onCtl fun c => { c with cpuErr := 0 }
  | .mmr0 => s.onMmu fun u => { u with mmr0 := (v &&& 0o171601) ||| (u.mmr0 &&& 0o000176) }
  | .mmr1 => s
  | .mmr2 => s
  | .mmr3 => s.onMmu fun u => { u with mmr3 := v &&& 0o67 }
  | .switches => s.onCtl fun c => { c with disp := v }
  | .pdr m p => s.onMmu fun u => u.writePdr (pageEntry m p) v
  | .par m p => s.onMmu fun u => u.writePar (pageEntry m p) v
  | .ubLow k => s.onMmu fun u =>
      { u with ubmap := u.ubmap.set k ((u.ubmap[k]).extractLsb' 16 6 ++ (v &&& 0o177776)) }
  | .ubHigh k => s.onMmu fun u =>
      { u with ubmap := u.ubmap.set k (v.extractLsb' 0 6 ++ (u.ubmap[k]).extractLsb' 0 16) }

/-- The addressed byte of a word: the low byte at an even address (R81). -/
def byteOfWord (w : Word) (odd : Bool) : Byte := if odd then w.extractLsb' 8 8 else w.extractLsb' 0 8

/-- A word with its addressed byte replaced (R61, R81). -/
def mergeByte (w : Word) (odd : Bool) (b : Byte) : Word :=
  if odd then b ++ w.extractLsb' 0 8 else w.extractLsb' 8 8 ++ b

/-- Whether a physical address lies in the processor status word (R29). -/
def isPswAddr (pa : PAddr) : Bool := pa == 0o17777776 || pa == 0o17777777

end Sys2Proof.Machine
end

