-- ==== Sys2Proof/Machine/Mmu.lean ====
section
/-! DEFINITION. Address translation and protection (20_memory.md rules R88 to R91, R100 to R113). -/

namespace Sys2Proof.Machine

/-- Instruction or data space, the top bit of a 17-bit virtual address (R11). -/
inductive Space where
  | i
  | d
deriving DecidableEq, Repr

/-- A 17-bit virtual address (R11). -/
structure VAddr where
  space : Space
  addr : Word
deriving DecidableEq, Repr

/-- `I(a)` (R11). -/
def inI (a : Word) : VAddr := ⟨.i, a⟩

/-- `D(a)` (R11). -/
def inD (a : Word) : VAddr := ⟨.d, a⟩

/-- The virtual address `n` bytes above, in the same space, modulo 2^16 (52_fpp_instructions.md rule R471). -/
def VAddr.plus (va : VAddr) (n : Nat) : VAddr := ⟨va.space, va.addr + BitVec.ofNat 16 n⟩

/-- The intent of an access (R88): read, write, or modify (both). -/
inductive Access where
  | read
  | write
  | modify
deriving DecidableEq, Repr

/-- Whether an intent includes a write (R88). -/
def Access.wr : Access → Bool
  | .read => false
  | .write => true
  | .modify => true

/-- The length of an access: one byte or one word (R83). -/
inductive Width where
  | byte
  | word
deriving DecidableEq, Repr

/-- Abort with `OddAddress`: CPUERR bit 6, vector 4 (R84, R91, R105). -/
def oddAddress {α : Type} : M α := abortWith 0o4 (·.cpuError 6)

/-- Abort with `NonExistentMemory`: CPUERR bit 5, vector 4 (R84, R104). -/
def nonExistentMemory {α : Type} : M α := abortWith 0o4 (·.cpuError 5)

/-- Abort with `BusTimeout`: CPUERR bit 4, vector 4 (R97, R104). -/
def busTimeout {α : Type} : M α := abortWith 0o4 (·.cpuError 4)

/-- Whether an access is a word access to an odd address (R82). -/
def isOddWord (w : Width) (odd : Bool) : Bool := w == .word && odd

/-- The MMU is enabled for an intent (R88): always with ENB, for write intents with MNT alone. -/
def mmuEnabled (mmr0 : Word) (acc : Access) : Bool := mmr0Enb mmr0 || (mmr0Mnt mmr0 && acc.wr)

/-- `lastPage <- v` (R48). -/
def setLastPage (v : BitVec 6) : M Unit := change fun s => s.onMmu fun u => { u with lastPage := v }

/-- The physical address of the direct map (R90). -/
def directAddress (a : Word) : PAddr :=
  if 0o160000 ≤ a.toNat then a.setWidth 22 ||| 0o17600000 else a.setWidth 22

/-- The direct map, with its odd-address check (R90, R91). -/
def directMap (va : VAddr) (w : Width) : M PAddr := do
  setLastPage 0
  if isOddWord w (va.addr.getLsbD 0) then oddAddress else pure (directAddress va.addr)

/-- The page index `space ++ apf`; the space bit counts only where the mode's data space is enabled (R101). -/
def pageIndex (mmr3 : Word) (m : ProcMode) (va : VAddr) : Fin 16 :=
  let apf := (va.addr.extractLsb' 13 3).toNat
  if va.space = .d ∧ dataSpaceEnabled mmr3 m then Fin.ofNat 16 (8 + apf) else Fin.ofNat 16 apf

/-- The page a translation records: mode number above page index (R48). -/
def pageNumber (m : ProcMode) (p : Fin 16) : BitVec 6 := BitVec.ofNat 6 (16 * (modeNumber m).val + p.val)

/-- Page base plus the low 13 bits, truncated to the configured width and folded into the I/O range (R102). -/
def relocate (par : Word) (mmr3 : Word) (a : Word) : PAddr :=
  let pa : PAddr := ((par.setWidth 22) <<< 6) + (a.extractLsb' 0 13).setWidth 22
  if mmr3M22 mmr3 then pa
  else
    let pa18 : PAddr := pa &&& 0o777777
    if 0o760000 ≤ pa18.toNat then pa18 ||| 0o17000000 else pa18

/-- The remap of an address in the Unibus window (R104). -/
def unibusRemap (u : Mmu) (pa : PAddr) : PAddr :=
  let a18 := pa.extractLsb' 0 18
  if 0o760000 ≤ a18.toNat then 0o17000000 ||| a18.setWidth 22
  else if mmr3Ubm u.mmr3 then
    u.ubmap[Fin.ofNat 32 (a18.extractLsb' 13 5).toNat] + (a18.extractLsb' 0 13).setWidth 22
  else a18.setWidth 22

/-- The address of `MMR0`, whose accesses do not change `lastPage` (R106). -/
def mmr0Addr : PAddr := 0o17777572

/-- The ceiling test of the page map, with the odd-address check, the Unibus remap and the `lastPage` record
(R103 to R106). -/
def busAddress (m : ProcMode) (p : Fin 16) (pa : PAddr) (w : Width) : M PAddr := do
  let s ← get
  if pa.toNat < s.params.memCeiling then
    if isOddWord w (pa.getLsbD 0) then oddAddress
    else do
      setLastPage (pageNumber m p)
      pure pa
  else if pa.toNat < 0o17760000 then
    if 0o17000000 ≤ pa.toNat then
      let pa' := unibusRemap s.mmu pa
      if s.params.memCeiling ≤ pa'.toNat ∧ pa'.toNat < 0o17760000 then busTimeout
      else do
        if pa' = mmr0Addr then pure () else setLastPage (pageNumber m p)
        pure pa'
    else nonExistentMemory
  else do
    if pa = mmr0Addr then pure () else setLastPage (pageNumber m p)
    pure pa

/-- What the access-control field makes of an access: the A and W bits it sets and the conditions it adds
(R107, R108). -/
structure AcfEffect where
  a : Bool := false
  w : Bool := false
  anr : Bool := false
  aro : Bool := false
  trp : Bool := false
deriving DecidableEq, Repr

/-- The access-control table (R108). -/
def acfEffect (acf : Nat) (wr : Bool) : AcfEffect :=
  match acf, wr with
  | 1, false => { a := true, trp := true }
  | 1, true => { aro := true }
  | 2, false => { a := true }
  | 2, true => { aro := true }
  | 4, false => { a := true, trp := true }
  | 4, true => { a := true, w := true, trp := true }
  | 5, false => { a := true }
  | 5, true => { a := true, w := true, trp := true }
  | 6, false => { a := true }
  | 6, true => { a := true, w := true }
  | _, _ => { anr := true }

/-- The access-control field of a descriptor (R42). -/
def pdrAcf (pdr : Word) : Nat := (pdr.extractLsb' 0 3).toNat

/-- The page length field of a descriptor (R42). -/
def pdrPlf (pdr : Word) : Nat := (pdr.extractLsb' 8 7).toNat

/-- The growth direction of a descriptor: downward when true (R42). -/
def pdrEd (pdr : Word) : Bool := pdr.getLsbD 3

/-- The page length check: whether the block lies outside the page (R109). -/
def lengthError (pdr : Word) (a : Word) : Bool :=
  let blk := (a.extractLsb' 6 7).toNat
  if pdrEd pdr then blk < pdrPlf pdr else pdrPlf pdr < blk

/-- A descriptor with its A and W bits set as an access asks (R42, R108). -/
def pdrTouched (pdr : Word) (e : AcfEffect) : Word :=
  pdr ||| (if e.a then 0o000200 else 0) ||| (if e.w then 0o000100 else 0)

/-- The record of an MMU abort in `MMR0`, unless one is frozen there (R110). -/
def Mmu.recordAbort (u : Mmu) (anr apl aro inTrap : Bool) : Mmu :=
  if mmr0Frozen u.mmr0 then u
  else
    let bits := u.mmr0 ||| (if anr then 0o100000 else 0) ||| (if apl then 0o040000 else 0) |||
      (if aro then 0o020000 else 0) ||| (if inTrap then 0o000200 else 0)
    { u with mmr0 := mmr0WithPage bits u.lastPage }

/-- An MMU abort (R110). -/
def mmuAbort {α : Type} (anr apl aro : Bool) : M α :=
  abortWith 0o250 fun s => s.onMmu fun u => u.recordAbort anr apl aro s.ctl.trapPsw.isSome

/-- The MMU trap request: latched once, deferred only where enabled (R112). -/
def State.requestMmuTrap (s : State) : State :=
  if mmr0Frozen s.mmu.mmr0 || mmr0Trp s.mmu.mmr0 then s
  else
    let s1 := s.onMmu fun u => { u with mmr0 := setBit u.mmr0 12 }
    if mmr0Ent s.mmu.mmr0 then s1.deferMmu else s1

/-- Access control and page length of one access: the A and W updates, then an abort, a deferred trap or success
(R107 to R112). -/
def checkPage (m : ProcMode) (p : Fin 16) (a : Word) (acc : Access) : M Unit := do
  let s ← get
  let e := pageEntry m p
  let pdr := s.mmu.pdr[e]
  let eff := acfEffect (pdrAcf pdr) acc.wr
  let apl := lengthError pdr a
  change fun s => s.onMmu fun u => { u with pdr := u.pdr.set e (pdrTouched pdr eff) }
  if eff.anr || apl || eff.aro then mmuAbort eff.anr apl eff.aro
  else if eff.trp then change (·.requestMmuTrap)
  else pure ()

/-- The page map (R100). -/
def pageMap (m : ProcMode) (va : VAddr) (acc : Access) (w : Width) : M PAddr := do
  let s ← get
  let p := pageIndex s.mmu.mmr3 m va
  let pa ← busAddress m p (relocate (s.mmu.par[pageEntry m p]) s.mmu.mmr3 va.addr) w
  checkPage m p va.addr acc
  pure pa

/-- `Translate(m, va, intent)` (R89). -/
def translate (m : ProcMode) (va : VAddr) (acc : Access) (w : Width) : M PAddr := do
  let s ← get
  if mmuEnabled s.mmu.mmr0 acc then pageMap m va acc w else directMap va w

end Sys2Proof.Machine
end

