-- ==== Sys2Proof/Machine/Bus.lean ====
section
/-! DEFINITION. The constraints on the registered devices (00_scope.md rule R8), physical accesses, the external bus,
and the virtual access primitives (20_memory.md rules R84, R85, R96 to R99, R125 to R127). -/

namespace Sys2Proof.Machine

/-- The bytes of main memory at a physical address; a byte is extended with zeros (R81, R84). -/
def readMain (mem : Memory) (pa : PAddr) : Width → Word
  | .byte => (Memory.read mem pa.toNat).setWidth 16
  | .word => Memory.readWord mem pa.toNat

/-- Main memory after a store at a physical address (R81, R85). -/
def writeMain (mem : Memory) (pa : PAddr) (w : Width) (v : Word) : Memory :=
  match w with
  | .byte => Memory.write mem pa.toNat (v.extractLsb' 0 8)
  | .word => Memory.writeWord mem pa.toNat v

/-! ### The constraints on `DEVICES` -/

/-- One device's range: not empty, on 8-byte boundaries, inside the I/O range, and over no core-owned address (R8, R98,
R99). -/
def deviceWf (d : Device) : Bool :=
  0 < d.size && d.base % 8 == 0 && d.size % 8 == 0 && 0o17760000 ≤ d.base && d.base + d.size ≤ 2 ^ 22 &&
    (List.range d.size).all fun k => coreRegAt (BitVec.ofNat 22 (d.base + k)) == none

/-- Two devices' ranges have no address in common (R8). -/
def devicesDisjoint (d e : Device) : Bool := d.base + d.size ≤ e.base || e.base + e.size ≤ d.base

/-- The constraints rule R8 puts on `DEVICES`: each range as above, no two overlapping. -/
def devicesWf : List Device → Bool
  | [] => true
  | d :: ds => deviceWf d && ds.all (devicesDisjoint d) && devicesWf ds

/-! ### The external bus -/

/-- The request a device holds after one of its registers was accessed (R98). -/
def requestAfter : RequestChange → Option IrqRequest → Option IrqRequest
  | .keep, r => r
  | .drop, _ => none
  | .raise level vector, _ => some ⟨level, vector⟩

/-- Whether an access made the device raise a request, which sets `irqFlag` (R67, R98). -/
def changeRaises : RequestChange → Bool
  | .raise _ _ => true
  | _ => false

/-- Replace the request of the first device that contains an address (R96). -/
def updateDeviceAt (pa : PAddr) (f : Option IrqRequest → Option IrqRequest) : List Device → List Device
  | [] => []
  | d :: ds => if d.contains pa then { d with request := f d.request } :: ds else d :: updateDeviceAt pa f ds

/-- The state after a device's answer: the answer is drawn, and its request may have changed (R98). -/
def State.afterReply (s : State) (pa : PAddr) (r : DeviceReply) : State :=
  let s1 := (s.setDraws (s.draws + 1)).setDevices (updateDeviceAt pa (requestAfter r.change) s.devices)
  if changeRaises r.change then s1.setIrqFlag true else s1

/-- `BusAccess(pa, op, n)` (R96, R97): no device at the address is a bus fault; a device's answer is a draw. -/
def busAccess (pa : PAddr) : M Word := do
  let s ← get
  if s.devices.any (·.contains pa) then do
    let r := Config.deviceReply s.draws
    change (·.afterReply pa r)
    if r.fault then busTimeout else pure r.value
  else busTimeout

/-- A device's value at the width of the access (R96). -/
def narrowTo : Width → Word → Word
  | .byte, v => v &&& 0o377
  | .word, v => v

/-! ### Physical accesses -/

/-- Whether an address lies in the I/O range: at or above the ceiling and in the top 8 KB (R84, R86). -/
def State.inIoRange (s : State) (pa : PAddr) : Bool := s.params.memCeiling ≤ pa.toNat && 0o17760000 ≤ pa.toNat

/-- Whether a physical access is refused as a word at an odd address (R82, R84).
In the I/O range it is not: "an odd word address in the I/O range goes to the device, which may reject it"
(90_conflicts.md, C7; assumption log 18). -/
def State.oddRefused (s : State) (pa : PAddr) (w : Width) : Bool := isOddWord w (pa.getLsbD 0) && !s.inIoRange pa

/-- `PhysRead(pa, n)` (R84). -/
def physRead (pa : PAddr) (w : Width) : M Word := do
  let s ← get
  if s.oddRefused pa w then oddAddress
  else if pa.toNat < s.params.memCeiling then pure (readMain s.mem pa w)
  else if 0o17760000 ≤ pa.toNat then
    match coreRegAt pa with
    | some r =>
      match w with
      | .word => pure (s.readCore r)
      | .byte => pure ((byteOfWord (s.readCore r) (pa.getLsbD 0)).setWidth 16)
    | none => do
      let v ← busAccess pa
      pure (narrowTo w v)
  else nonExistentMemory

/-- `PhysWrite(pa, n, v)` (R85); a byte written to a core-owned register is merged into its visible word (R61). -/
def physWrite (pa : PAddr) (w : Width) (v : Word) : M Unit := do
  let s ← get
  if s.oddRefused pa w then oddAddress
  else if pa.toNat < s.params.memCeiling then change fun s => s.setMem (writeMain s.mem pa w v)
  else if 0o17760000 ≤ pa.toNat then
    match coreRegAt pa with
    | some r =>
      match w with
      | .word => change (·.writeCore r v)
      | .byte => change (·.writeCore r (mergeByte (s.readCore r) (pa.getLsbD 0) (v.extractLsb' 0 8)))
    | none => do
      let _ ← busAccess pa
      pure ()
  else nonExistentMemory

/-! ### Virtual accesses -/

/-- `MemReadM(m, va, n)` (R125). -/
def memReadM (m : ProcMode) (va : VAddr) (w : Width) : M Word := do
  let pa ← translate m va .read w
  physRead pa w

/-- `MemRead(va, n)`: in the current mode (R125). -/
def memRead (va : VAddr) (w : Width) : M Word := do
  let s ← get
  memReadM s.cm va w

/-- `MemWriteM(m, va, n, v)` (R126); it answers whether the processor status word was the destination (R29). -/
def memWriteM (m : ProcMode) (va : VAddr) (w : Width) (v : Word) : M Bool := do
  let pa ← translate m va .write w
  physWrite pa w v
  pure (isPswAddr pa)

/-- `MemWrite(va, n, v)`: in the current mode (R126). -/
def memWrite (va : VAddr) (w : Width) (v : Word) : M Bool := do
  let s ← get
  memWriteM s.cm va w v

/-- `MemModify(va, n, f)` (R127): one translation with modify intent, one read, one write.
It answers the old value and whether the processor status word was the destination (R29). -/
def memModify (va : VAddr) (w : Width) (f : Word → Word) : M (Word × Bool) := do
  let s ← get
  let pa ← translate s.cm va .modify w
  let old ← physRead pa w
  physWrite pa w (f old)
  pure (old, isPswAddr pa)

end Sys2Proof.Machine
end

