-- ==== Sys2Proof/Machine/Ops.lean ====
section
/-! DEFINITION. The named operations the instructions share: the stack-limit check, push and pop, taking an
exception (the trap sequence) and returning from one, the effect of a reset, and running an instruction's body
(40_addressing.md rules R182 to R187, 60_exceptions.md rules R602 to R609, 45_system.md rules R343 to R345). -/

namespace Sys2Proof.Machine

/-! ### Auto-increment bookkeeping -/

/-- One 8-bit record of `MMR1`: a 5-bit signed amount above a register number (R44, R182). -/
def mmr1Record (r : Reg) (delta : Int) : BitVec 16 := (BitVec.ofInt 5 delta ++ BitVec.ofNat 3 r.code).setWidth 16

/-- `Record(reg, delta)` (R182): changes of the PC are not recorded, and nothing is while an abort is frozen. -/
def State.record (s : State) (r : Reg) (delta : Int) : State :=
  if r = .pc ∨ mmr0Frozen s.mmu.mmr0 then s
  else s.onMmu fun u => { u with mmr1 := (u.mmr1 <<< 8) ||| mmr1Record r delta }

/-- Add a signed amount to a register and record it (R173, R176, R182). -/
def State.step (s : State) (r : Reg) (delta : Int) : State :=
  (s.writeReg r (s.readReg r + BitVec.ofInt 16 delta)).record r delta

/-! ### The stack -/

/-- Whether a kernel stack address lies in the red zone (R184). -/
def inRedZone (slr a : Word) : Bool := a.toNat + 32 ≤ effectiveLimit slr

/-- Whether a kernel stack address lies at or below the limit (R184). -/
def atLimit (slr a : Word) : Bool := a.toNat ≤ effectiveLimit slr

/-- `StackCheck(a)` (R184): in kernel mode, red aborts with the stack pointer forced to 4, yellow defers. -/
def stackCheck (a : Word) : M Unit := do
  let s ← get
  if s.cm = .kernel ∧ atLimit s.ctl.slr a then
    if inRedZone s.ctl.slr a then abortWith 0o4 fun s => (s.cpuError 2).writeSpm .kernel 4
    else change fun s => (s.cpuError 3).deferYellow
  else pure ()

/-- `push(v)` (R186), with the stack check unless told otherwise (R607).
It answers whether the processor status word was the destination (R29). -/
def push (v : Word) (checked : Bool := true) : M Bool := do
  change (·.step .sp (-2))
  let s ← get
  let a := s.readReg .sp
  let pa ← translate s.cm (inD a) .write .word
  if checked then stackCheck a else pure ()
  physWrite pa .word v
  pure (isPswAddr pa)

/-- `pop()` (R187): the stack pointer moves only after the read succeeds. -/
def pop : M Word := do
  let s ← get
  let v ← memRead (inD (s.readReg .sp)) .word
  change (·.step .sp 2)
  pure v

/-! ### Taking an exception: the trap sequence -/

/-- The first two steps (R602, R603): the snapshot of the first trap, or the double-trap rule for a nested one.
It answers the vector to use and whether a double trap was marked. -/
def trapEnter (vector : Word) (s : State) : Word × Bool × State :=
  match s.ctl.trapPsw with
  | none => (vector, false, s.onCtl fun c => { c with trapPsw := some s.psw, pending := {} })
  | some _ =>
    if s.cm = .kernel then (0o4, true, (s.cpuError 2).writeSpm .kernel 4) else (vector, false, s)

/-- The bookkeeping at entry (R604). -/
def State.trapBookkeeping (s : State) (vector : Word) : State :=
  if mmr0Frozen s.mmu.mmr0 then s else s.onMmu fun u => { u with mmr1 := 0, mmr2 := vector }

/-- The status word a trap installs: the vector's, with the previous mode the snapshot's current mode (R606). -/
def trapNewPsw (vectorPsw snapshot : Word) : Word := (vectorPsw &&& 0o147777) ||| ((snapshot >>> 2) &&& 0o030000)

/-- The steps from the bookkeeping to the new PC (R604 to R607). -/
def trapBody (vector : Word) (double : Bool) : M Unit := do
  change (·.trapBookkeeping vector)
  let newPc ← memReadM .kernel (inD vector) .word
  let newPsw ← memReadM .kernel (inD (vector + 2)) .word
  let s ← get
  let snapshot := s.ctl.trapPsw.getD s.psw
  change (·.loadPsw (trapNewPsw newPsw snapshot))
  let _ ← push snapshot (!double)
  let s ← get
  let _ ← push s.pc (!double)
  change (·.setPc newPc)

/-- The nested sequence, run when an access of the outer one aborts with `vector` (R603, R609).
A fault inside it too halts the machine. -/
def trapNested (vector : Word) (s : State) : State :=
  let e := trapEnter vector s
  match trapBody e.1 e.2.1 e.2.2 with
  | .ok _ s' => s'.setTrapPsw none
  | .error _ s' => (s'.setTrapPsw none).setRunState .halt

/-- `TrapSeq(V)`: taking the trap, abort or interrupt with vector V (R602 to R609). -/
def trapSeq (vector : Word) (s : State) : State :=
  let e := trapEnter vector s
  match trapBody e.1 e.2.1 e.2.2 with
  | .ok _ s' => s'.setTrapPsw none
  | .error v s' => trapNested v s'

/-! ### Returning from a trap -/

/-- The status word RTI and RTT restore (R343): whole in kernel mode, restricted outside it. -/
def returnPsw (psw stacked : Word) : Word :=
  if pswCm psw = .kernel then stacked else (stacked &&& 0o174037) ||| (psw &&& 0o174340)

/-- The return from a trap that RTI and RTT share (R343, R344), but for the trace request. -/
def returnFromTrap : M Unit := do
  let s ← get
  let a := s.readReg .sp
  let newPc ← memRead (inD a) .word
  let stacked ← memRead (inD (a + 2)) .word
  change fun s =>
    let s1 := s.writeReg .sp (a + 4)
    (s1.setPc newPc).loadPsw (returnPsw s1.psw stacked)

/-! ### Reset -/

/-- `reset()` of every device: its internal latches, its interrupt request among them, are cleared (R345, R700,
R706, assumption log 5). -/
def resetDevices (ds : List Device) : List Device := ds.map fun d => { d with request := none }

/-- The kernel-mode arm of the RESET instruction, but for the run state (R345). -/
def State.resetEffect (s : State) : State :=
  let s1 := s.setDevices (resetDevices s.devices)
  let s2 := s1.onMmu fun u => { u with mmr0 := 0, mmr3 := 0, lastPage := 0 }
  let s3 := s2.onCtl fun c => { c with pirq := 0, slr := 0, cpuErr := 0 }
  if s3.params.resetClearsPageTables then
    s3.onMmu fun u => { u with par := Vector.replicate 64 0, pdr := Vector.replicate 64 0 }
  else s3

/-! ### Running an instruction's body -/

/-- An instruction whose body completes leaves the body's state; one that aborts or traps takes the trap sequence
at once, inside the same cycle (00_scope.md rule R12, 60_exceptions.md rule R635). -/
def runBody (body : M Unit) (s : State) : Host.Outcome State Fault Refusal :=
  match body s with
  | .ok _ s' => .next s'
  | .error v s' => .next (trapSeq v s')

/-- The flag update of an instruction, suppressed where its destination was the processor status word (R29). -/
def setFlagsUnless (suppressed : Bool) (f : State → Cc) : M Unit :=
  if suppressed then pure () else change fun s => s.setCc (f s)

end Sys2Proof.Machine
end

