-- ==== Sys2Proof/Machine/Interrupt.lean ====
section
/-! DEFINITION. Interrupt arbitration and grant (60_exceptions.md rules R620 to R624). -/

namespace Sys2Proof.Machine

/-- `d.poll(false)`: the level a device requests at, 0 when it requests nothing (R620). -/
def pollLevel (d : Device) : Nat :=
  match d.request with
  | some r => r.level.toNat
  | none => 0

/-- The scan of the devices from number `k` on: a device wins only with a level strictly above the best so far
(R621). -/
def arbitrateFrom (best : Nat × Option Nat) (k : Nat) : List Device → Nat × Option Nat
  | [] => best
  | d :: ds => arbitrateFrom (if best.1 < pollLevel d then (pollLevel d, some k) else best) (k + 1) ds

/-- `Arbitrate()` (R621): the best level, and the number of the device that won, none for PIRQ. -/
def State.arbitrate (s : State) : Nat × Option Nat := arbitrateFrom (pirLevelField s.ctl.pirq, none) 0 s.devices

/-- Replace the request of device number `k`. -/
def setRequest (ds : List Device) (k : Nat) (r : Option IrqRequest) : List Device :=
  ds.modify k fun d => { d with request := r }

/-- The vector of the winner and the state once its `poll(true)` has consumed the request (R620, R622).
A PIRQ request has vector 0o240 and is not consumed. -/
def State.consumeRequest (s : State) : Option Nat → Word × State
  | none => (0o240, s)
  | some k =>
    match s.devices[k]? with
    | some d =>
      match d.request with
      | some r => (r.vector, s.setDevices (setRequest s.devices k none))
      | none => (0, s)
    | none => (0, s)

/-- `InterruptCheck()` (R622): whether an interrupt was granted, and the state after it. -/
def State.interruptCheck (s : State) : Bool × State :=
  let best := s.arbitrate
  if pswPri s.psw < best.1 then
    let g := s.consumeRequest best.2
    let s1 := if g.2.ctl.runState = .wait then g.2.setRunState .run else g.2
    (true, trapSeq g.1 (s1.setIrqFlag true))
  else (false, s.setIrqFlag false)

end Sys2Proof.Machine
end

