-- ==== Sys2Proof/Machine/HostEvents.lean ====
section
/-! DEFINITION. What the outside world does to the CORE between two instruction cycles (70_reset_and_hazards.md rules
R700 to R706, R710, 60_exceptions.md rules R620, R640, R646). -/

namespace Sys2Proof.Machine

/-- A device raises a request, which sets `irqFlag` (R67, R620); a number that names no device changes nothing. -/
def State.raiseRequest (s : State) (dev : Nat) (r : IrqRequest) : State :=
  if dev < s.devices.length then (s.setDevices (setRequest s.devices dev (some r))).setIrqFlag true else s

/-- A device withdraws its request (R620). -/
def State.dropRequest (s : State) (dev : Nat) : State := s.setDevices (setRequest s.devices dev none)

/-- The external RESET request (R702). -/
def State.resetRequest (s : State) : State :=
  let stopped := s.ctl.runState = .halt ∨ s.ctl.runState = .step
  s.resetEffect.setRunState (if stopped then .halt else .reset)

/-- Boot (R706); with no boot image there is nothing to boot and nothing changes. -/
def State.bootWith (s : State) : Option BootImage → State
  | none => s
  | some b =>
    let s1 := (s.setMem (Memory.writeWords s.mem b.base.toNat b.image)).loadPsw 0
    let s2 := ((s1.setPc b.base).writeSpm .kernel b.base).setDevices (resetDevices s.devices)
    s2.onCtl fun c =>
      { c with pirq := 0, trapPsw := none, pending := {}, irqFlag := false, irqDelay := false, runState := .run }

/-- The hard reset command (R701): power-up again, but the accumulators and memory stay, as do the parameters, the
switches, the registered devices and what the outside world will do next. -/
def State.hardReset (s : State) : State :=
  { State.reset with
    ctl := { State.reset.ctl with swr := s.ctl.swr }
    fpp := { State.reset.fpp with ac := s.fpp.ac }
    mem := s.mem
    params := s.params
    devices := resetDevices s.devices
    inputs := s.inputs
    draws := s.draws }

/-- One event of the outside world (R640, R646, R710); RUN and STEP requests act on a halted machine only. -/
def State.applyInput (s : State) : Input → State
  | .raise dev level vector => s.raiseRequest dev ⟨level, vector⟩
  | .drop dev => s.dropRequest dev
  | .run => if s.ctl.runState = .halt then s.setRunState .run else s
  | .step => if s.ctl.runState = .halt then s.setRunState .step else s
  | .halt => s.setRunState .halt
  | .reset => s.resetRequest
  | .boot => s.bootWith s.params.boot
  | .hardReset => s.hardReset
  | .switches v => s.onCtl fun c => { c with swr := v }

/-- The events of one instruction boundary, in order. -/
def State.applyInputs (s : State) : List Input → State
  | [] => s
  | e :: es => (s.applyInput e).applyInputs es

/-- Take the events the schedule holds for this boundary (R646: only between cycles). -/
def State.takeInputs (s : State) : State :=
  match s.inputs with
  | [] => s
  | es :: rest => (s.setInputs rest).applyInputs es

end Sys2Proof.Machine
end

