-- ==== Sys2Proof/Machine/Cycle.lean ====
section
/-! DEFINITION. The instruction cycle around the execution of one instruction (60_exceptions.md rules R630 to R636,
R640 to R645), and the placing of an instruction where the next fetch reads it. -/

namespace Sys2Proof.Machine

/-- Step 1, the boundary (R630). -/
def State.boundary (s : State) : State :=
  if s.ctl.irqFlag then
    if s.ctl.irqDelay then s.setIrqDelay false else s.interruptCheck.2
  else s

/-- Step 2, one deferred trap in fixed priority order (R631). -/
def State.deferredTrap (s : State) : State :=
  if s.ctl.pending.mmu then trapSeq 0o250 s
  else if s.ctl.pending.yellow then trapSeq 0o4 s
  else if s.ctl.pending.fpp then trapSeq 0o244 s
  else if s.ctl.pending.trace then trapSeq 0o14 s
  else s

/-- Step 3, the trace snapshot (R632). -/
def State.traceSnapshot (s : State) : State := s.setTrace (pswT s.psw)

/-- `MMR1` and `MMR2` at the start of a fetch (R44, R45, R633). -/
def State.noteFetch (s : State) : State :=
  if mmr0Frozen s.mmu.mmr0 then s else s.onMmu fun u => { u with mmr1 := 0, mmr2 := s.pc }

/-- Step 4, the fetch: the PC advances once the read has succeeded (R633). -/
def fetch : M Word := do
  change State.noteFetch
  let s ← get
  let ir ← memRead (inI s.pc) .word
  change fun s => s.setPc (s.pc + 2)
  pure ir

/-- What the steps before execution lead to: an instruction to execute, or the end of this step of the machine. -/
inductive CycleStart where
  | execute (i : Instr) (stepping : Bool) (s : State)
  | done (s : State)
deriving DecidableEq, Repr

/-- The end of a cycle: a stepped machine halts (R634, R642). -/
def State.endCycle (s : State) (stepping : Bool) : State := if stepping then s.setRunState .halt else s

/-- Whether the machine is halted. -/
def State.halted (s : State) : Bool := s.ctl.runState == .halt

/-- Steps 3 and 4 (R632, R633): a fetch that aborts takes its trap and ends the cycle (R635). -/
def fetchInstr (stepping : Bool) (s : State) : CycleStart :=
  match fetch s.traceSnapshot with
  | .ok ir s' => .execute (decodeWord ir) stepping s'
  | .error v s' => .done ((trapSeq v s').endCycle stepping)

/-- Steps 2 to 4; a trap that ends in the unrecoverable nested fault ends the cycle (R609, R631). -/
def afterBoundary (stepping : Bool) (s : State) : CycleStart :=
  if s.halted then .done s
  else if s.deferredTrap.halted then .done s.deferredTrap
  else fetchInstr stepping s.deferredTrap

/-- The WAIT state (R643): an interrupt check whenever `irqFlag` is set, whatever the delay; granted, the cycle goes
on from step 2 in the handler. -/
def waiting (s : State) : CycleStart :=
  if s.ctl.irqFlag then
    let g := (s.setIrqDelay false).interruptCheck
    if g.1 then afterBoundary false g.2 else .done g.2
  else .done s

/-- What one step of the machine does before it executes an instruction: the events of the boundary, then by run
state (R636, R640 to R645).
The RESET state lasts no time: RUN follows at once (R644). -/
def beginCycle (s : State) : CycleStart :=
  let s0 := s.takeInputs
  match s0.ctl.runState with
  | .halt => .done s0
  | .wait => waiting s0
  | .run => afterBoundary false s0.boundary
  | .step => afterBoundary true s0.boundary
  | .reset => afterBoundary false (s0.setRunState .run).boundary

/-! ### Placing an instruction -/

/-- The physical address in main memory that a fetch `n` bytes above the PC reads, if it reads one. -/
def State.fetchAddress (s : State) (n : Nat) : Option Nat :=
  match translate s.cm ((inI s.pc).plus n) .read .word s with
  | .ok pa _ => if pa.toNat < s.params.memCeiling then some pa.toNat else none
  | .error _ _ => none

/-- Store a word where a fetch `n` bytes above the PC reads. -/
def State.depositAt (s : State) (n : Nat) (v : Word) : State :=
  match s.fetchAddress n with
  | some a => s.setMem (Memory.writeWord s.mem a v)
  | none => s

/-- The machine ready to run the word at its PC next: running, nothing deferred, flagged or scheduled before it, and
where the PC names no main memory, at virtual 0 with relocation off. -/
def State.readyToFetch (s : State) : State :=
  let s1 := (s.setInputs []).onCtl fun c => { c with runState := .run, pending := {}, irqFlag := false }
  match s1.fetchAddress 0 with
  | some _ => s1
  | none => (s1.onMmu fun u => { u with mmr0 := 0 }).setPc 0

end Sys2Proof.Machine
end

