-- ==== Sys2Proof/Machine/Flags.lean ====
section
/-! DEFINITION. The results and condition codes of the integer instructions, at any width: `w = 16` for word forms,
`w = 8` for byte forms (41_double_operand.md, 42_single_operand.md, 43_eis.md). -/

namespace Sys2Proof.Machine

/-! ### Double operand (R203 to R214) -/

/-- Flags of MOV, BIT, BIC and BIS from the result: V is cleared and C kept (R203, R207, R209, R211). -/
def ccLogic {w : Nat} (r : BitVec w) (c : Bool) : Cc := ⟨signBit r, r == 0, false, c⟩

/-- Flags of CMP: source minus destination, C the borrow (R205). -/
def ccCmp {w : Nat} (src dst : BitVec w) : Cc :=
  let r := src - dst
  ⟨signBit r, r == 0, signBit src != signBit dst && signBit r == signBit dst, src.ult dst⟩

/-- Flags of ADD (R213). -/
def ccAdd {w : Nat} (src dst : BitVec w) : Cc :=
  let r := dst + src
  ⟨signBit r, r == 0, signBit src == signBit dst && signBit r != signBit dst, decide (2 ^ w ≤ dst.toNat + src.toNat)⟩

/-- Flags of SUB: destination minus source, C the borrow (R214). -/
def ccSub {w : Nat} (src dst : BitVec w) : Cc :=
  let r := dst - src
  ⟨signBit r, r == 0, signBit src != signBit dst && signBit r == signBit src, dst.ult src⟩

/-! ### Single operand (R231 to R256) -/

/-- The largest positive value of a width (R230). -/
def maxPos (w : Nat) : BitVec w := BitVec.ofNat w (2 ^ (w - 1) - 1)

/-- The most negative value of a width (R230). -/
def minNeg (w : Nat) : BitVec w := BitVec.ofNat w (2 ^ (w - 1))

/-- The flags CLR leaves (R231). -/
def ccClr : Cc := ⟨false, true, false, false⟩

/-- Flags of COM (R233). -/
def ccCom {w : Nat} (d : BitVec w) : Cc := ⟨signBit (~~~ d), ~~~ d == 0, false, true⟩

/-- Flags of INC; C is kept (R235). -/
def ccInc {w : Nat} (d : BitVec w) (c : Bool) : Cc := ⟨signBit (d + 1), d + 1 == 0, d == maxPos w, c⟩

/-- Flags of DEC; C is kept (R237). -/
def ccDec {w : Nat} (d : BitVec w) (c : Bool) : Cc := ⟨signBit (d - 1), d - 1 == 0, d == minNeg w, c⟩

/-- Flags of NEG (R239). -/
def ccNeg {w : Nat} (d : BitVec w) : Cc :=
  let r := -d
  ⟨signBit r, r == 0, r == minNeg w, r != 0⟩

/-- C as a number of the width (R230). -/
def carryIn {w : Nat} (c : Bool) : BitVec w := if c then 1 else 0

/-- Flags of ADC (R241). -/
def ccAdc {w : Nat} (d : BitVec w) (c : Bool) : Cc :=
  let r := d + carryIn c
  ⟨signBit r, r == 0, d == maxPos w && c, d == BitVec.allOnes w && c⟩

/-- Flags of SBC, C the borrow (R243). -/
def ccSbc {w : Nat} (d : BitVec w) (c : Bool) : Cc :=
  let r := d - carryIn c
  ⟨signBit r, r == 0, d == minNeg w && c, d == 0 && c⟩

/-- Flags of TST (R245). -/
def ccTst {w : Nat} (d : BitVec w) : Cc := ⟨signBit d, d == 0, false, false⟩

/-- Flags of a shift or rotate by one place: C the bit shifted out, V the exclusive-or of the new N and C (R247). -/
def ccShift {w : Nat} (r : BitVec w) (c : Bool) : Cc := ⟨signBit r, r == 0, signBit r != c, c⟩

/-- Rotate right through carry (R247). -/
def rorResult {w : Nat} (d : BitVec w) (c : Bool) : BitVec w := putBit (d >>> 1) (w - 1) c

/-- Rotate left through carry (R249). -/
def rolResult {w : Nat} (d : BitVec w) (c : Bool) : BitVec w := (d <<< 1) ||| carryIn c

/-- Arithmetic shift right one place (R251). -/
def asrResult {w : Nat} (d : BitVec w) : BitVec w := (d >>> 1) ||| (d &&& minNeg w)

/-- Arithmetic shift left one place (R253). -/
def aslResult {w : Nat} (d : BitVec w) : BitVec w := d <<< 1

/-- Flags of ROR and ASR: C is the old bit 0 (R247, R251). -/
def ccShiftRight {w : Nat} (d r : BitVec w) : Cc := ccShift r (d.getLsbD 0)

/-- Flags of ROL and ASL: C is the old sign bit (R249, R253). -/
def ccShiftLeft {w : Nat} (d r : BitVec w) : Cc := ccShift r (signBit d)

/-- The bytes of a word exchanged (R255). -/
def swabResult (d : Word) : Word := d.extractLsb' 0 8 ++ d.extractLsb' 8 8

/-- Flags of SWAB, from the low byte of the result (R255). -/
def ccSwab (r : Word) : Cc := ⟨r.getLsbD 7, r.extractLsb' 0 8 == 0, false, false⟩

/-- The word SXT writes (R256). -/
def sxtResult (n : Bool) : Word := if n then 0o177777 else 0

/-! ### Register-source arithmetic (R281 to R285) -/

/-- The product of MUL, exact (R281). -/
def mulProduct (r src : Word) : Int := r.toInt * src.toInt

/-- Flags of MUL: C says that the product does not fit in 16 bits (R281). -/
def ccMul (p : Int) : Cc := ⟨p < 0, p == 0, false, p < -32768 || 32768 ≤ p⟩

/-- What DIV leaves: the quotient and remainder, if there are any, and the flags (R282). -/
structure DivResult where
  quotient : Option (Word × Word)
  cc : Cc
deriving DecidableEq, Repr

/-- DIV of a 32-bit dividend, truncating toward zero; the remainder has the sign of the dividend (R282). -/
def divResult (d : BitVec 32) (src : Word) : DivResult :=
  if src = 0 then ⟨none, ⟨false, true, true, true⟩⟩
  else
    let q := d.toInt.tdiv src.toInt
    if 32767 < q ∨ q < -32768 then ⟨none, ⟨q < 0, false, true, false⟩⟩
    else
      let rem := d.toInt - q * src.toInt
      ⟨some (BitVec.ofInt 16 q, BitVec.ofInt 16 rem), ⟨q < 0, q == 0, false, false⟩⟩

/-- The shift count of ASH and ASHC: the low six bits, signed (R283). -/
def shiftCount (src : Word) : Int := (src.extractLsb' 0 6).toInt

/-- Whether the top `n + 1` bits of a value are all equal, bits below bit 0 counting as 0 (R283, R284). -/
def topBitsEqual {w : Nat} (d : BitVec w) (n : Nat) : Bool :=
  (List.range (n + 1)).all fun k => (if k < w then d.getLsbD (w - 1 - k) else false) == signBit d

/-- The result, V and C of an arithmetic shift by a signed count: ASH at width 16, ASHC at width 32 (R283, R284). -/
structure ShiftResult (w : Nat) where
  res : BitVec w
  v : Bool
  c : Bool
deriving DecidableEq, Repr

/-- The arithmetic shift of ASH and ASHC (R283, R284). -/
def arithShift {w : Nat} (d : BitVec w) (count : Int) : ShiftResult w :=
  if count = 0 then ⟨d, false, false⟩
  else if 0 < count then
    let n := count.toNat
    ⟨d <<< n, !topBitsEqual d n, if n ≤ w then d.getLsbD (w - n) else false⟩
  else
    let m := (-count).toNat
    ⟨BitVec.ofInt w (d.toInt / 2 ^ m), false, if m ≤ w then d.getLsbD (m - 1) else signBit d⟩

/-- Flags of ASH and ASHC (R283, R284). -/
def ccArithShift {w : Nat} (r : ShiftResult w) : Cc := ⟨signBit r.res, r.res == 0, r.v, r.c⟩

/-! ### Branch conditions (44_control.md rules R301 to R315) -/

/-- Condition of BR: always (R301). -/
def condBr (_ : Cc) : Bool := true
/-- Condition of BNE: Z = 0 (R302). -/
def condBne (f : Cc) : Bool := !f.z
/-- Condition of BEQ: Z = 1 (R303). -/
def condBeq (f : Cc) : Bool := f.z
/-- Condition of BGE: N xor V = 0 (R304). -/
def condBge (f : Cc) : Bool := f.n == f.v
/-- Condition of BLT: N xor V = 1 (R305). -/
def condBlt (f : Cc) : Bool := f.n != f.v
/-- Condition of BGT: Z or (N xor V) = 0 (R306). -/
def condBgt (f : Cc) : Bool := !(f.z || f.n != f.v)
/-- Condition of BLE: Z or (N xor V) = 1 (R307). -/
def condBle (f : Cc) : Bool := f.z || f.n != f.v
/-- Condition of BPL: N = 0 (R308). -/
def condBpl (f : Cc) : Bool := !f.n
/-- Condition of BMI: N = 1 (R309). -/
def condBmi (f : Cc) : Bool := f.n
/-- Condition of BHI: C or Z = 0 (R310). -/
def condBhi (f : Cc) : Bool := !(f.c || f.z)
/-- Condition of BLOS: C or Z = 1 (R311). -/
def condBlos (f : Cc) : Bool := f.c || f.z
/-- Condition of BVC: V = 0 (R312). -/
def condBvc (f : Cc) : Bool := !f.v
/-- Condition of BVS: V = 1 (R313). -/
def condBvs (f : Cc) : Bool := f.v
/-- Condition of BCC: C = 0 (R314). -/
def condBcc (f : Cc) : Bool := !f.c
/-- Condition of BCS: C = 1 (R315). -/
def condBcs (f : Cc) : Bool := f.c

/-- The target of a branch: twice the signed offset from the advanced PC (R300). -/
def branchTarget (pc : Word) (off : BitVec 8) : Word := pc + 2 * off.signExtend 16

end Sys2Proof.Machine
end

