-- ==== Sys2Proof/Machine/Branch.lean ====
section
/-! DEFINITION. The conditional branches (44_control.md rules R300 to R315). -/

namespace Sys2Proof.Machine

/-- The operation of every branch: the PC, already advanced, moves if the condition holds (R300). -/
def branchBody (cond : Cc → Bool) (off : BitVec 8) : M Unit :=
  change fun s => if cond (ccOfWord s.psw) then s.setPc (branchTarget s.pc off) else s

/-- Meaning of BR (R301). -/
def execBr (off : BitVec 8) (s : State) : Host.Outcome State Fault Refusal := runBody (branchBody condBr off) s

/-- Meaning of BNE (R302). -/
def execBne (off : BitVec 8) (s : State) : Host.Outcome State Fault Refusal := runBody (branchBody condBne off) s

/-- Meaning of BEQ (R303). -/
def execBeq (off : BitVec 8) (s : State) : Host.Outcome State Fault Refusal := runBody (branchBody condBeq off) s

/-- Meaning of BGE (R304). -/
def execBge (off : BitVec 8) (s : State) : Host.Outcome State Fault Refusal := runBody (branchBody condBge off) s

/-- Meaning of BLT (R305). -/
def execBlt (off : BitVec 8) (s : State) : Host.Outcome State Fault Refusal := runBody (branchBody condBlt off) s

/-- Meaning of BGT (R306). -/
def execBgt (off : BitVec 8) (s : State) : Host.Outcome State Fault Refusal := runBody (branchBody condBgt off) s

/-- Meaning of BLE (R307). -/
def execBle (off : BitVec 8) (s : State) : Host.Outcome State Fault Refusal := runBody (branchBody condBle off) s

/-- Meaning of BPL (R308). -/
def execBpl (off : BitVec 8) (s : State) : Host.Outcome State Fault Refusal := runBody (branchBody condBpl off) s

/-- Meaning of BMI (R309). -/
def execBmi (off : BitVec 8) (s : State) : Host.Outcome State Fault Refusal := runBody (branchBody condBmi off) s

/-- Meaning of BHI (R310). -/
def execBhi (off : BitVec 8) (s : State) : Host.Outcome State Fault Refusal := runBody (branchBody condBhi off) s

/-- Meaning of BLOS (R311). -/
def execBlos (off : BitVec 8) (s : State) : Host.Outcome State Fault Refusal := runBody (branchBody condBlos off) s

/-- Meaning of BVC (R312). -/
def execBvc (off : BitVec 8) (s : State) : Host.Outcome State Fault Refusal := runBody (branchBody condBvc off) s

/-- Meaning of BVS (R313). -/
def execBvs (off : BitVec 8) (s : State) : Host.Outcome State Fault Refusal := runBody (branchBody condBvs off) s

/-- Meaning of BCC (R314). -/
def execBcc (off : BitVec 8) (s : State) : Host.Outcome State Fault Refusal := runBody (branchBody condBcc off) s

/-- Meaning of BCS (R315). -/
def execBcs (off : BitVec 8) (s : State) : Host.Outcome State Fault Refusal := runBody (branchBody condBcs off) s

end Sys2Proof.Machine
end

