-- ==== Sys2Proof/Machine/Operands.lean ====
section
/-! DEFINITION. The addressing-mode resolver and the operand functions (40_addressing.md rules R170 to R189). -/

namespace Sys2Proof.Machine

/-- The space an address taken from a register lies in (R181). -/
def spaceOf (r : Reg) (a : Word) : VAddr := if r = .pc then inI a else inD a

/-- The step of modes 2 and 4 (R175). -/
def stepSize (r : Reg) (len : Nat) : Nat :=
  match r with
  | .pc => 2
  | .sp => (len + 1) / 2 * 2
  | .gen _ => len

/-- Fetch the word at the PC and advance the PC by 2 (R178). -/
def fetchExtension : M Word := do
  let s ← get
  let x ← memRead (inI s.pc) .word
  change fun s => s.setPc (s.pc + 2)
  pure x

/-- `Resolve(spec, len, intent)` (R170 to R179).
Mode 0 has no virtual address and faults (R171). -/
def resolve (sp : OpSpec) (len : Nat) (acc : Access) : M VAddr :=
  match sp.mode with
  | .direct => do
    let s ← get
    raiseTrap s.params.vecIllegalMode.word
  | .deferred => look fun s => spaceOf sp.reg (s.readReg sp.reg)
  | .autoInc => do
    let s ← get
    change (·.step sp.reg (stepSize sp.reg len))
    pure (spaceOf sp.reg (s.readReg sp.reg))
  | .autoIncDeferred => do
    let s ← get
    let ptr ← memRead (spaceOf sp.reg (s.readReg sp.reg)) .word
    change (·.step sp.reg 2)
    pure (inD ptr)
  | .autoDec => do
    change (·.step sp.reg (-(stepSize sp.reg len : Int)))
    let s ← get
    if sp.reg = .sp ∧ acc.wr = true then stackCheck (s.readReg sp.reg) else pure ()
    pure (spaceOf sp.reg (s.readReg sp.reg))
  | .autoDecDeferred => do
    let s ← get
    let ptr ← memRead (spaceOf sp.reg (s.readReg sp.reg - 2)) .word
    change (·.step sp.reg (-2))
    pure (inD ptr)
  | .index => do
    let x ← fetchExtension
    look fun s => inD (x + s.readReg sp.reg)
  | .indexDeferred => do
    let x ← fetchExtension
    let s ← get
    let ptr ← memRead (inD (x + s.readReg sp.reg)) .word
    pure (inD ptr)

/-- Where an operand lies once its specifier is resolved: a register or a virtual address (R185). -/
inductive Place where
  | reg (r : Reg)
  | mem (va : VAddr)
deriving DecidableEq, Repr

/-- The length in bytes of a width (R83). -/
def Width.len : Width → Nat
  | .byte => 1
  | .word => 2

/-- Resolve a specifier of an instruction that can use a register operand (R185). -/
def resolvePlace (sp : OpSpec) (w : Width) (acc : Access) : M Place :=
  if sp.mode = .direct then pure (.reg sp.reg)
  else do
    let va ← resolve sp w.len acc
    pure (.mem va)

/-- A register operand as read at a width: a byte is bits 7:0 (R185). -/
def narrowReg (w : Width) (v : Word) : Word :=
  match w with
  | .byte => v &&& 0o377
  | .word => v

/-- A register after a write at a width: a byte write keeps the high byte (R185). -/
def mergeReg (w : Width) (old v : Word) : Word :=
  match w with
  | .byte => (old &&& 0o177400) ||| (v &&& 0o377)
  | .word => v

/-- Read an operand where it lies. -/
def readPlace (pl : Place) (w : Width) : M Word :=
  match pl with
  | .reg r => look fun s => narrowReg w (s.readReg r)
  | .mem va => memRead va w

/-- Write an operand where it lies; the answer is whether the processor status word was written (R29). -/
def writePlace (pl : Place) (w : Width) (v : Word) : M Bool :=
  match pl with
  | .reg r => do
    change fun s => s.writeReg r (mergeReg w (s.readReg r) v)
    pure false
  | .mem va => memWrite va w v

/-- Read, compute and write an operand where it lies (R127, R185); the answer is the old value, and whether the
processor status word was written (R29). -/
def modifyPlace (pl : Place) (w : Width) (f : Word → Word) : M (Word × Bool) :=
  match pl with
  | .reg r => do
    let s ← get
    let old := narrowReg w (s.readReg r)
    change fun s => s.writeReg r (mergeReg w (s.readReg r) (f old))
    pure (old, false)
  | .mem va => memModify va w f

/-- `ReadOp(spec, n)` (R185). -/
def readOp (sp : OpSpec) (w : Width) : M Word := do
  let pl ← resolvePlace sp w .read
  readPlace pl w

/-- `WriteOp(spec, n, v)` (R185). -/
def writeOp (sp : OpSpec) (w : Width) (v : Word) : M Bool := do
  let pl ← resolvePlace sp w .write
  writePlace pl w v

/-- `ModifyOp(spec, n, f)` (R185); the flags are computed by the caller from the old value. -/
def modifyOp (sp : OpSpec) (w : Width) (f : Word → Word) : M (Word × Bool) := do
  let pl ← resolvePlace sp w .modify
  modifyPlace pl w f

end Sys2Proof.Machine
end

