-- ==== Sys2Proof/Machine/Control.lean ====
section
/-! DEFINITION. Jumps and subroutines (44_control.md rules R320 to R324). -/

namespace Sys2Proof.Machine

/-- JMP dst (R320): the destination address becomes the PC; mode 0 faults in the resolver. -/
def jmpBody (dd : OpSpec) : M Unit := do
  let va ← resolve dd 2 .read
  change fun s => s.setPc va.addr

/-- JSR Rr,dst (R321): the destination is resolved before the push. -/
def jsrBody (r : Reg) (dd : OpSpec) : M Unit := do
  let va ← resolve dd 2 .read
  let link ← look fun s => s.readReg r
  let _ ← push link
  change fun s => (s.writeReg r s.pc).setPc va.addr

/-- RTS Rr (R322). -/
def rtsBody (r : Reg) : M Unit := do
  let t ← pop
  change fun s => (s.setPc (s.readReg r)).writeReg r t

/-- MARK nn (R323). -/
def markBody (nn : BitVec 6) : M Unit := do
  change fun s => s.writeReg .sp (s.pc + 2 * nn.setWidth 16)
  let a ← look fun s => s.readReg .sp
  let t ← memRead (inD a) .word
  change fun s =>
    let s1 := s.setPc (s.readReg (.gen 5))
    let s2 := s1.writeReg (.gen 5) t
    s2.writeReg .sp (s2.readReg .sp + 2)

/-- SOB Rr,label (R324). -/
def sobBody (r : Reg) (off : BitVec 6) : M Unit :=
  change fun s =>
    let s1 := s.writeReg r (s.readReg r - 1)
    if s1.readReg r = 0 then s1 else s1.setPc (s1.pc - 2 * off.setWidth 16)

/-- Meaning of JMP. -/
def execJmp (dd : OpSpec) (s : State) : Host.Outcome State Fault Refusal := runBody (jmpBody dd) s

/-- Meaning of JSR. -/
def execJsr (r : Reg) (dd : OpSpec) (s : State) : Host.Outcome State Fault Refusal := runBody (jsrBody r dd) s

/-- Meaning of RTS. -/
def execRts (r : Reg) (s : State) : Host.Outcome State Fault Refusal := runBody (rtsBody r) s

/-- Meaning of MARK. -/
def execMark (nn : BitVec 6) (s : State) : Host.Outcome State Fault Refusal := runBody (markBody nn) s

/-- Meaning of SOB. -/
def execSob (r : Reg) (off : BitVec 6) (s : State) : Host.Outcome State Fault Refusal := runBody (sobBody r off) s

end Sys2Proof.Machine
end

