-- ==== Sys2Proof/Machine/CrossMode.lean ====
section
/-! DEFINITION. Moves to and from the previous mode's address space (45_system.md rules R370 to R373). -/

namespace Sys2Proof.Machine

/-- The value of a mode-0 operand: register 6 names the previous mode's stack pointer where the modes differ
(R370). -/
def State.readPrevReg (s : State) (r : Reg) : Word :=
  if r = .sp ∧ s.pm ≠ s.cm then s.readSpm s.pm else s.readReg r

/-- A mode-0 destination, likewise (R372). -/
def State.writePrevReg (s : State) (r : Reg) (v : Word) : State :=
  if r = .sp ∧ s.pm ≠ s.cm then s.writeSpm s.pm v else s.writeReg r v

/-- Whether the current and the previous mode are both user, where MFPI keeps the resolver's space (R370). -/
def State.userToUser (s : State) : Bool := s.cm == .user && s.pm == .user

/-- The shape of MFPI and MFPD: a value of the previous mode pushed on the current mode's stack (R370, R371).
`forceI s` says whether the operand is moved to instruction space. -/
def moveFromPrevious (ss : OpSpec) (forceI : State → Bool) : M Unit := do
  let v ←
    if ss.mode = .direct then look fun s => s.readPrevReg ss.reg
    else do
      let va ← resolve ss 2 .read
      let s ← get
      memReadM s.pm (if forceI s then inI va.addr else va) .word
  let p ← push v
  setFlagsUnless p fun s => ccLogic v s.carry

/-- The shape of MTPI and MTPD: a value popped from the current mode's stack and stored in the previous mode
(R372, R373). -/
def moveToPrevious (dd : OpSpec) (forceI : Bool) : M Unit := do
  let v ← pop
  let p ←
    if dd.mode = .direct then do
      change fun s => s.writePrevReg dd.reg v
      pure false
    else do
      let va ← resolve dd 2 .write
      let s ← get
      memWriteM s.pm (if forceI then inI va.addr else va) .word v
  setFlagsUnless p fun s => ccLogic v s.carry

/-- MFPI src (R370). -/
def mfpiBody (ss : OpSpec) : M Unit := moveFromPrevious ss fun s => !s.userToUser

/-- MFPD src (R371). -/
def mfpdBody (ss : OpSpec) : M Unit := moveFromPrevious ss fun _ => false

/-- MTPI dst (R372). -/
def mtpiBody (dd : OpSpec) : M Unit := moveToPrevious dd true

/-- MTPD dst (R373). -/
def mtpdBody (dd : OpSpec) : M Unit := moveToPrevious dd false

/-- Meaning of MFPI. -/
def execMfpi (ss : OpSpec) (s : State) : Host.Outcome State Fault Refusal := runBody (mfpiBody ss) s

/-- Meaning of MFPD. -/
def execMfpd (ss : OpSpec) (s : State) : Host.Outcome State Fault Refusal := runBody (mfpdBody ss) s

/-- Meaning of MTPI. -/
def execMtpi (dd : OpSpec) (s : State) : Host.Outcome State Fault Refusal := runBody (mtpiBody dd) s

/-- Meaning of MTPD. -/
def execMtpd (dd : OpSpec) (s : State) : Host.Outcome State Fault Refusal := runBody (mtpdBody dd) s

end Sys2Proof.Machine
end

