-- ==== Sys2Proof/Machine/DoubleOp.lean ====
section
/-! DEFINITION. The double-operand instructions (41_double_operand.md rules R200 to R214).
An instruction's body is what it does to its end or to its first abort; its meaning runs the body and takes the
trap sequence on an abort. -/

namespace Sys2Proof.Machine

/-- A result at width 8 of a byte operand held in the low byte of a word (R202). -/
def byteFn (f : Byte → Byte) (v : Word) : Word := (f (v.setWidth 8)).setWidth 16

/-- The shape of CMP and BIT: two reads, nothing written, then the flags (R200), which are set where the status word is
read as the destination too (DEDUCED, assumption log 19). -/
def compareBody (w : Width) (ss dd : OpSpec) (cc : Word → Word → Bool → Cc) : M Unit := do
  let src ← readOp ss w
  let dst ← readOp dd w
  setFlagsUnless false fun s => cc src dst s.carry

/-- The shape of BIC, BIS, ADD and SUB: the source is read, the destination modified, then the flags (R200). -/
def combineBody (w : Width) (ss dd : OpSpec) (result : Word → Word → Word) (cc : Word → Word → Bool → Cc) : M Unit := do
  let src ← readOp ss w
  let r ← modifyOp dd w (result src)
  setFlagsUnless r.2 fun s => cc src r.1 s.carry

/-- MOV src,dst (R203). -/
def movBody (ss dd : OpSpec) : M Unit := do
  let src ← readOp ss .word
  let p ← writeOp dd .word src
  setFlagsUnless p fun s => ccLogic src s.carry

/-- MOVB src,dst (R204): a register destination receives the sign-extended byte. -/
def movbBody (ss dd : OpSpec) : M Unit := do
  let src ← readOp ss .byte
  let b : Byte := src.setWidth 8
  let p ← if dd.mode = .direct then writeOp dd .word (b.signExtend 16) else writeOp dd .byte src
  setFlagsUnless p fun s => ccLogic b s.carry

/-- CMP src,dst (R205). -/
def cmpBody (ss dd : OpSpec) : M Unit :=
  compareBody .word ss dd fun src dst _ => ccCmp src dst

/-- CMPB src,dst (R206). -/
def cmpbBody (ss dd : OpSpec) : M Unit :=
  compareBody .byte ss dd fun src dst _ => ccCmp (src.setWidth 8 : Byte) (dst.setWidth 8)

/-- BIT src,dst (R207). -/
def bitBody (ss dd : OpSpec) : M Unit :=
  compareBody .word ss dd fun src dst c => ccLogic (src &&& dst) c

/-- BITB src,dst (R208). -/
def bitbBody (ss dd : OpSpec) : M Unit :=
  compareBody .byte ss dd fun src dst c => ccLogic ((src.setWidth 8 : Byte) &&& dst.setWidth 8) c

/-- BIC src,dst (R209). -/
def bicBody (ss dd : OpSpec) : M Unit :=
  combineBody .word ss dd (fun src dst => dst &&& ~~~ src) fun src dst c => ccLogic (dst &&& ~~~ src) c

/-- BICB src,dst (R210). -/
def bicbBody (ss dd : OpSpec) : M Unit :=
  combineBody .byte ss dd (fun src => byteFn fun d => d &&& ~~~ src.setWidth 8) fun src dst c =>
    ccLogic ((dst.setWidth 8 : Byte) &&& ~~~ src.setWidth 8) c

/-- BIS src,dst (R211). -/
def bisBody (ss dd : OpSpec) : M Unit :=
  combineBody .word ss dd (fun src dst => dst ||| src) fun src dst c => ccLogic (dst ||| src) c

/-- BISB src,dst (R212). -/
def bisbBody (ss dd : OpSpec) : M Unit :=
  combineBody .byte ss dd (fun src => byteFn fun d => d ||| src.setWidth 8) fun src dst c =>
    ccLogic ((dst.setWidth 8 : Byte) ||| src.setWidth 8) c

/-- ADD src,dst (R213). -/
def addBody (ss dd : OpSpec) : M Unit :=
  combineBody .word ss dd (fun src dst => dst + src) fun src dst _ => ccAdd src dst

/-- SUB src,dst (R214): destination minus source. -/
def subBody (ss dd : OpSpec) : M Unit :=
  combineBody .word ss dd (fun src dst => dst - src) fun src dst _ => ccSub src dst

/-- Meaning of MOV. -/
def execMov (ss dd : OpSpec) (s : State) : Host.Outcome State Fault Refusal := runBody (movBody ss dd) s

/-- Meaning of MOVB. -/
def execMovb (ss dd : OpSpec) (s : State) : Host.Outcome State Fault Refusal := runBody (movbBody ss dd) s

/-- Meaning of CMP. -/
def execCmp (ss dd : OpSpec) (s : State) : Host.Outcome State Fault Refusal := runBody (cmpBody ss dd) s

/-- Meaning of CMPB. -/
def execCmpb (ss dd : OpSpec) (s : State) : Host.Outcome State Fault Refusal := runBody (cmpbBody ss dd) s

/-- Meaning of BIT. -/
def execBit (ss dd : OpSpec) (s : State) : Host.Outcome State Fault Refusal := runBody (bitBody ss dd) s

/-- Meaning of BITB. -/
def execBitb (ss dd : OpSpec) (s : State) : Host.Outcome State Fault Refusal := runBody (bitbBody ss dd) s

/-- Meaning of BIC. -/
def execBic (ss dd : OpSpec) (s : State) : Host.Outcome State Fault Refusal := runBody (bicBody ss dd) s

/-- Meaning of BICB. -/
def execBicb (ss dd : OpSpec) (s : State) : Host.Outcome State Fault Refusal := runBody (bicbBody ss dd) s

/-- Meaning of BIS. -/
def execBis (ss dd : OpSpec) (s : State) : Host.Outcome State Fault Refusal := runBody (bisBody ss dd) s

/-- Meaning of BISB. -/
def execBisb (ss dd : OpSpec) (s : State) : Host.Outcome State Fault Refusal := runBody (bisbBody ss dd) s

/-- Meaning of ADD. -/
def execAdd (ss dd : OpSpec) (s : State) : Host.Outcome State Fault Refusal := runBody (addBody ss dd) s

/-- Meaning of SUB. -/
def execSub (ss dd : OpSpec) (s : State) : Host.Outcome State Fault Refusal := runBody (subBody ss dd) s

end Sys2Proof.Machine
end

