-- ==== Sys2Proof/Machine/Eis.lean ====
section
/-! DEFINITION. The register-source instructions (43_eis.md rules R280 to R285).
The operand is resolved and read first, then the registers; a register pair is written high word first. -/

namespace Sys2Proof.Machine

/-- Write a register pair: `R[r]` the high word, then `R[r|1]` the low word (R280). -/
def State.writePair (s : State) (r : Reg) (hi lo : Word) : State := (s.writeReg r hi).writeReg (regOrOne r) lo

/-- The 32-bit value of a register pair (R282, R284). -/
def State.readPair (s : State) (r : Reg) : BitVec 32 := s.readReg r ++ s.readReg (regOrOne r)

/-- MUL src,Rr (R281). -/
def mulBody (r : Reg) (ss : OpSpec) : M Unit := do
  let src ← readOp ss .word
  change fun s =>
    let p := mulProduct (s.readReg r) src
    let w := BitVec.ofInt 32 p
    (s.writePair r (w.extractLsb' 16 16) (w.extractLsb' 0 16)).setCc (ccMul p)

/-- DIV src,Rr (R282). -/
def divBody (r : Reg) (ss : OpSpec) : M Unit := do
  let src ← readOp ss .word
  change fun s =>
    let d := divResult (s.readPair r) src
    match d.quotient with
    | none => s.setCc d.cc
    | some (q, rem) => (s.writePair r q rem).setCc d.cc

/-- ASH src,Rr (R283). -/
def ashBody (r : Reg) (ss : OpSpec) : M Unit := do
  let src ← readOp ss .word
  change fun s =>
    let x := arithShift (s.readReg r) (shiftCount src)
    (s.writeReg r x.res).setCc (ccArithShift x)

/-- ASHC src,Rr (R284). -/
def ashcBody (r : Reg) (ss : OpSpec) : M Unit := do
  let src ← readOp ss .word
  change fun s =>
    let x := arithShift (s.readPair r) (shiftCount src)
    (s.writePair r (x.res.extractLsb' 16 16) (x.res.extractLsb' 0 16)).setCc (ccArithShift x)

/-- XOR Rr,dst (R285): the register is read after the destination has been resolved. -/
def xorBody (r : Reg) (dd : OpSpec) : M Unit := do
  let pl ← resolvePlace dd .word .modify
  let mask ← look fun s => s.readReg r
  let x ← modifyPlace pl .word fun d => d ^^^ mask
  setFlagsUnless x.2 fun s => ccLogic (x.1 ^^^ mask) s.carry

/-- Meaning of MUL. -/
def execMul (r : Reg) (ss : OpSpec) (s : State) : Host.Outcome State Fault Refusal := runBody (mulBody r ss) s

/-- Meaning of DIV. -/
def execDiv (r : Reg) (ss : OpSpec) (s : State) : Host.Outcome State Fault Refusal := runBody (divBody r ss) s

/-- Meaning of ASH. -/
def execAsh (r : Reg) (ss : OpSpec) (s : State) : Host.Outcome State Fault Refusal := runBody (ashBody r ss) s

/-- Meaning of ASHC. -/
def execAshc (r : Reg) (ss : OpSpec) (s : State) : Host.Outcome State Fault Refusal := runBody (ashcBody r ss) s

/-- Meaning of XOR. -/
def execXor (r : Reg) (dd : OpSpec) (s : State) : Host.Outcome State Fault Refusal := runBody (xorBody r dd) s

end Sys2Proof.Machine
end

