-- ==== Sys2Proof/Machine/FppNumerics.lean ====
section
/-! DEFINITION. The floating data format and the arithmetic of the coprocessor as exact functions on sign, exponent
and fraction (50_fpp_state_format.md rules R402, R406 to R414, 51_fpp_algorithms.md rules R440 to R461).
Fractions are natural numbers; a normalized one has its top bit, the hidden bit, set. -/

namespace Sys2Proof.Machine

/-! ### The status word (R402) -/

/-- `FPS.FID`: no exception requests a trap. -/
def fpsFid (fps : Word) : Bool := fps.getLsbD 14

/-- `FPS.FIUV`. -/
def fpsFiuv (fps : Word) : Bool := fps.getLsbD 11

/-- `FPS.FIU`. -/
def fpsFiu (fps : Word) : Bool := fps.getLsbD 10

/-- `FPS.FIV`. -/
def fpsFiv (fps : Word) : Bool := fps.getLsbD 9

/-- `FPS.FIC`. -/
def fpsFic (fps : Word) : Bool := fps.getLsbD 8

/-- `FPS.FD`: double precision. -/
def fpsFd (fps : Word) : Bool := fps.getLsbD 7

/-- `FPS.FL`: long integers. -/
def fpsFl (fps : Word) : Bool := fps.getLsbD 6

/-- `FPS.FT`: truncate. -/
def fpsFt (fps : Word) : Bool := fps.getLsbD 5

/-- The exceptions of the coprocessor (R414); the maintenance trap is never raised. -/
inductive FppError where
  | illegalOpcode
  | divideByZero
  | integerConversion
  | overflow
  | underflow
  | undefinedVariable
deriving DecidableEq, Repr

/-- The code `FEC` records (R414). -/
def FppError.code : FppError → BitVec 4
  | .illegalOpcode => 2
  | .divideByZero => 4
  | .integerConversion => 6
  | .overflow => 8
  | .underflow => 10
  | .undefinedVariable => 12

/-! ### Precision and format -/

/-- The two precisions (R402). -/
inductive Prec where
  | single
  | double
deriving DecidableEq, Repr

/-- The current precision (R402). -/
def precOf (fps : Word) : Prec := if fpsFd fps then .double else .single

/-- The other precision (R502, R505). -/
def Prec.other : Prec → Prec
  | .single => .double
  | .double => .single

/-- `N`, the number of fraction bits with the hidden bit (R402). -/
def Prec.bits : Prec → Nat
  | .single => 24
  | .double => 56

/-- The number of words of a value (R402). -/
def Prec.words : Prec → Nat
  | .single => 2
  | .double => 4

/-- Sign, exponent and fraction of a floating value (R409). -/
structure Fnum where
  s : Bool
  e : Nat
  f : Nat
deriving DecidableEq, Repr

/-- The exponent field of word 0 (R406). -/
def exponentOf (w0 : Word) : Nat := (w0.extractLsb' 7 8).toNat

/-- The words that take part at a precision, the others 0 (R401). -/
def atPrec (p : Prec) (a : Accum) : Accum :=
  match p with
  | .single => { a with w2 := 0, w3 := 0 }
  | .double => a

/-- An accumulator after a write at a precision (R401). -/
def mergePrec (p : Prec) (old new : Accum) : Accum :=
  match p with
  | .single => { old with w0 := new.w0, w1 := new.w1 }
  | .double => new

/-- The stored fraction, without the hidden bit (R406). -/
def storedFraction (p : Prec) (a : Accum) : Nat :=
  let top := (a.w0.extractLsb' 0 7).toNat
  match p with
  | .single => top * 2 ^ 16 + a.w1.toNat
  | .double => ((top * 2 ^ 16 + a.w1.toNat) * 2 ^ 16 + a.w2.toNat) * 2 ^ 16 + a.w3.toNat

/-- `Unpack` (R409). -/
def unpack (p : Prec) (a : Accum) : Fnum :=
  ⟨a.w0.getLsbD 15, exponentOf a.w0, 2 ^ (p.bits - 1) + storedFraction p a⟩

/-- Sign, an exponent of 0 to 255 and a fraction spliced into words (R406, R411). -/
def spliceWords (p : Prec) (s : Bool) (e f : Nat) : Accum :=
  match p with
  | .single =>
    { w0 := BitVec.ofBool s ++ BitVec.ofNat 8 e ++ BitVec.ofNat 7 (f / 2 ^ 16)
      w1 := BitVec.ofNat 16 f }
  | .double =>
    { w0 := BitVec.ofBool s ++ BitVec.ofNat 8 e ++ BitVec.ofNat 7 (f / 2 ^ 48)
      w1 := BitVec.ofNat 16 (f / 2 ^ 32)
      w2 := BitVec.ofNat 16 (f / 2 ^ 16)
      w3 := BitVec.ofNat 16 f }

/-- A result of an arithmetic function: the words, the pair (z, v), and the exceptions raised, in order (R411). -/
structure FResult where
  words : Accum
  z : Bool
  v : Bool
  errs : List FppError
deriving DecidableEq, Repr

/-- The exact zero (R408), with z = 1 and v = 0. -/
def exactZero : FResult := ⟨{}, true, false, []⟩

/-- `Pack(s, e, F)` (R411). -/
def pack (p : Prec) (fps : Word) (s : Bool) (e : Int) (f : Nat) : FResult :=
  let wrapped := (e % 256).toNat
  if e ≤ 0 then
    if fpsFiu fps then ⟨spliceWords p s wrapped f, wrapped == 0, false, [.underflow]⟩ else exactZero
  else if 256 ≤ e then
    if fpsFiv fps then ⟨spliceWords p s wrapped f, wrapped == 0, true, [.overflow]⟩ else ⟨{}, true, true, []⟩
  else ⟨spliceWords p s e.toNat f, false, false, []⟩

/-- `Round(F', g, e)` at N bits (R410). -/
def roundF (n : Nat) (fps : Word) (f : Nat) (g : Bool) (e : Int) : Nat × Int :=
  if !fpsFt fps && g then
    if f + 1 = 2 ^ n then (2 ^ (n - 1), e + 1) else (f + 1, e)
  else (f, e)

/-- Round, then pack at the same precision. -/
def roundPack (p : Prec) (fps : Word) (s : Bool) (f : Nat) (g : Bool) (e : Int) : FResult :=
  let r := roundF p.bits fps f g e
  pack p fps s r.2 r.1

/-- The number of bits of a natural number. -/
def bitLength (n : Nat) : Nat := if n = 0 then 0 else Nat.log2 n + 1

/-! ### Arithmetic -/

/-- `FAdd` of two non-zero operands, the first the larger in magnitude (R440). -/
def fAddOrdered (p : Prec) (fps : Word) (a b : Fnum) : FResult :=
  let x := a.f * 2
  let y := b.f * 2 / 2 ^ (a.e - b.e)
  if a.s = b.s then
    let t := x + y
    if 2 ^ (p.bits + 1) ≤ t then roundPack p fps a.s (t / 4) (t.testBit 1) (a.e + 1)
    else roundPack p fps a.s (t / 2) (t.testBit 0) a.e
  else
    let t := x - y
    if t = 0 then exactZero
    else
      let k := (p.bits + 1) - bitLength t
      let u := t * 2 ^ k
      roundPack p fps a.s (u / 2) (u.testBit 0) ((a.e : Int) - k)

/-- `FAdd` (R440). -/
def fAdd (p : Prec) (fps : Word) (a b : Fnum) : FResult :=
  if a.e = 0 ∧ b.e = 0 then exactZero
  else if b.e = 0 then pack p fps a.s a.e a.f
  else if a.e = 0 then pack p fps b.s b.e b.f
  else if a.e < b.e ∨ (a.e = b.e ∧ a.f < b.f) then fAddOrdered p fps b a
  else fAddOrdered p fps a b

/-- `FSub` (R441). -/
def fSub (p : Prec) (fps : Word) (a b : Fnum) : FResult :=
  fAdd p fps a (if b.e = 0 then b else { b with s := !b.s })

/-- `FMul` (R445). -/
def fMul (p : Prec) (fps : Word) (a b : Fnum) : FResult :=
  if a.e = 0 ∨ b.e = 0 then exactZero
  else
    let n := p.bits
    let m := a.f * b.f
    let e : Int := (a.e : Int) + b.e - 128
    if m.testBit (2 * n - 1) then roundPack p fps (a.s != b.s) (m / 2 ^ n) (m.testBit (n - 1)) e
    else roundPack p fps (a.s != b.s) (m / 2 ^ (n - 1)) (m.testBit (n - 2)) (e - 1)

/-- `FDiv` of a by b, b not zero (R448). -/
def fDiv (p : Prec) (fps : Word) (a b : Fnum) : FResult :=
  if a.e = 0 then exactZero
  else
    let n := p.bits
    let e : Int := (a.e : Int) - b.e + 128
    if b.f ≤ a.f then
      let q := a.f * 2 ^ n / b.f
      roundPack p fps (a.s != b.s) (q / 2) (q.testBit 0) (e + 1)
    else
      let q := a.f * 2 ^ (n + 1) / b.f
      roundPack p fps (a.s != b.s) (q / 2) (q.testBit 0) e

/-- The two results of MODF once the product is normalized at 2N bits: integer part and fraction part (R452). -/
def fModParts (p : Prec) (fps : Word) (s : Bool) (m : Nat) (e : Int) : FResult × FResult :=
  let n := p.bits
  if e ≤ 0 then (exactZero, roundPack p fps s (m / 2 ^ n) (m.testBit (n - 1)) (e + 128))
  else if (n : Int) < e then (pack p fps s (e + 128) (m / 2 ^ n), exactZero)
  else
    let k := e.toNat
    let top := m / 2 ^ (2 * n - k)
    let intPart := pack p fps s (e + 128) (top * 2 ^ (n - k))
    let r := m % 2 ^ (2 * n - k)
    if r = 0 then (intPart, exactZero)
    else
      let lead := (2 * n - k) - bitLength r
      let u := r * 2 ^ (k + lead)
      (intPart, roundPack p fps s (u / 2 ^ n) (u.testBit (n - 1)) (128 - (lead : Int)))

/-- `FMod` (R452): the integer part and the fraction part of a product. -/
def fMod (p : Prec) (fps : Word) (a b : Fnum) : FResult × FResult :=
  if a.e = 0 ∨ b.e = 0 then (exactZero, exactZero)
  else
    let n := p.bits
    let m := a.f * b.f
    let e : Int := (a.e : Int) + b.e - 256
    if m.testBit (2 * n - 1) then fModParts p fps (a.s != b.s) m e
    else fModParts p fps (a.s != b.s) (m * 2) (e - 1)

/-! ### Conversions -/

/-- `IntToF` (R455). -/
def intToF (p : Prec) (fps : Word) (i : Int) : FResult :=
  if i = 0 then exactZero
  else
    let n := p.bits
    let m := i.natAbs
    let l := bitLength m
    if l ≤ n then roundPack p fps (decide (i < 0)) (m * 2 ^ (n - l)) false (128 + l)
    else roundPack p fps (decide (i < 0)) (m / 2 ^ (l - n)) (m.testBit (l - n - 1)) (128 + l)

/-- `FToInt` to W bits (R456): the integer, and whether the conversion failed. -/
def fToInt (p : Prec) (a : Fnum) (w : Nat) : Int × Bool :=
  let n := p.bits
  if a.e ≤ 128 then (0, false)
  else
    let k := a.e - 128
    let m := if k ≤ n then a.f / 2 ^ (n - k) else a.f * 2 ^ (k - n)
    let v : Int := if a.s then -(m : Int) else m
    if 2 ^ (w - 1) - 1 < v ∨ v < -(2 ^ (w - 1)) then (0, true) else (v, false)

/-- `Widen` (R460): the two words of a single, and two of 0. -/
def widen (a : Accum) : FResult := ⟨atPrec .single a, exponentOf a.w0 == 0, false, []⟩

/-- `Narrow` (R461). -/
def narrow (fps : Word) (a : Fnum) : FResult :=
  if a.e = 0 then exactZero else roundPack .single fps a.s (a.f / 2 ^ 32) (a.f.testBit 31) a.e

/-- A number that orders floating values as CMPF does: 0 for every zero, else by sign and then by exponent and
fraction (R497). -/
def fOrder (p : Prec) (a : Fnum) : Int :=
  if a.e = 0 then 0 else if a.s then -((a.e * 2 ^ p.bits + a.f : Nat) : Int) else ((a.e * 2 ^ p.bits + a.f : Nat) : Int)

end Sys2Proof.Machine
end

