-- ==== Sys2Proof/Machine/FppOps.lean ====
section
/-! DEFINITION. The operands of the coprocessor and the raising of its exceptions (52_fpp_instructions.md rules R470
to R474, 50_fpp_state_format.md rules R403, R413). -/

namespace Sys2Proof.Machine

/-! ### Exceptions and condition codes -/

/-- The address of the FPP instruction being executed: the PC has advanced past its one word (R403). -/
def State.fppAddress (s : State) : Word := s.pc - 2

/-- `FpException(code)` (R413), `addr` being the address of the instruction. -/
def State.fppException (s : State) (addr : Word) (e : FppError) : State :=
  let s1 := s.onFpp fun f => { f with fps := setBit f.fps 15, fec := e.code, fea := addr }
  if fpsFid s.fpp.fps then s1 else s1.deferFpp

/-- `FCC(n, z, v, c)` (R470). -/
def Fpp.fcc (f : Fpp) (cc : Cc) : Fpp := { f with fps := putCc f.fps cc }

/-- Write a value at a precision into an accumulator (R401). -/
def Fpp.writeAc (f : Fpp) (p : Prec) (i : Fin 6) (v : Accum) : Fpp :=
  { f with ac := f.ac.set i (mergePrec p f.ac[i] v) }

/-- The accumulator a 2-bit `ac` field names (R401). -/
def acField (ac : Fin 4) : Fin 6 := ac.castLE (by decide)

/-- The flags after an arithmetic result (R470). -/
def ccResult (r : FResult) : Cc := ⟨r.words.w0.getLsbD 15, r.z || exponentOf r.words.w0 == 0, r.v, false⟩

/-- The flags of a value that is only looked at or copied (R489, R495). -/
def ccValue (x : Accum) : Cc := ⟨x.w0.getLsbD 15, exponentOf x.w0 == 0, false, false⟩

/-- What an FPP instruction leaves once all its accesses have succeeded: the new FPP registers and the exceptions it
raised, in order (R413, R470, assumption log 12). -/
def fppCommit (addr : Word) (errs : List FppError) (f : Fpp → Fpp) : M Unit :=
  change fun s => errs.foldl (fun s e => s.fppException addr e) (s.onFpp f)

/-! ### Floating operands -/

/-- Where a floating operand lies: an accumulator, the one word of an immediate, or memory (R471, R472). -/
inductive FPlace where
  | ac (i : Fin 6)
  | imm (a : Word)
  | mem (va : VAddr)
deriving DecidableEq, Repr

/-- Resolve the specifier of a floating operand of a precision; none where it names no accumulator (R471, R472,
R474). -/
def resolveF (sp : OpSpec) (p : Prec) (acc : Access) : M (Option FPlace) :=
  if sp.mode = .direct then
    match sp.reg with
    | .gen i => pure (some (.ac i))
    | .sp => pure none
    | .pc => pure none
  else if sp.isImmediate then look fun s => some (.imm s.pc)
  else do
    let va ← resolve sp (2 * p.words) acc
    pure (some (.mem va))

/-- One word read in the current mode with the intent of the whole operand (R471, R472). -/
def readWordAs (acc : Access) (va : VAddr) : M Word := do
  let s ← get
  let pa ← translate s.cm va acc .word
  physRead pa .word

/-- Words read at rising addresses of one space (R471). -/
def readWordsAs (acc : Access) (va : VAddr) : Nat → M (List Word)
  | 0 => pure []
  | n + 1 => do
    let w ← readWordAs acc va
    let ws ← readWordsAs acc (va.plus 2) n
    pure (w :: ws)

/-- Words written at rising addresses of one space (R472). -/
def writeWordsAt (va : VAddr) : List Word → M Unit
  | [] => pure ()
  | w :: ws => do
    let _ ← memWrite va .word w
    writeWordsAt (va.plus 2) ws

/-- A floating value from its words, missing ones 0 (R471). -/
def accumOfWords (ws : List Word) : Accum := ⟨ws.getD 0 0, ws.getD 1 0, ws.getD 2 0, ws.getD 3 0⟩

/-- The words of a value at a precision, word 0 first (R407). -/
def wordsOfAccum (p : Prec) (a : Accum) : List Word := [a.w0, a.w1, a.w2, a.w3].take p.words

/-- Read a floating operand where it lies; an immediate is one word and advances the PC past it (R471). -/
def readF (pl : FPlace) (p : Prec) (acc : Access) : M Accum :=
  match pl with
  | .ac i => look fun s => atPrec p s.fpp.ac[i]
  | .imm a => do
    let w ← readWordAs acc (inI a)
    change fun s => s.setPc (a + 2)
    pure { w0 := w }
  | .mem va => do
    let ws ← readWordsAs acc va p.words
    pure (accumOfWords ws)

/-- Write a floating operand where it lies; an immediate is one word and advances the PC past it (R472). -/
def writeF (pl : FPlace) (p : Prec) (v : Accum) : M Unit :=
  match pl with
  | .ac i => change fun s => s.onFpp fun f => f.writeAc p i v
  | .imm a => do
    let _ ← memWrite (inI a) .word v.w0
    change fun s => s.setPc (a + 2)
  | .mem va => writeWordsAt va (wordsOfAccum p v)

/-- The exceptions of an operand as read: the undefined variable, in memory only (R414, R471). -/
def sourceErrors (fps : Word) (pl : FPlace) (x : Accum) : List FppError :=
  match pl with
  | .ac _ => []
  | .imm _ | .mem _ => if fpsFiuv fps && x.w0.getLsbD 15 && exponentOf x.w0 == 0 then [.undefinedVariable] else []

/-- An instruction with a floating source: `FSrc`, then what the value makes of the FPP registers and which further
exceptions it raises (R471); an illegal accumulator abandons it (R474). -/
def withSource (ss : OpSpec) (p : Prec) (k : Word → Fpp → Accum → List FppError × Fpp) : M Unit := do
  let s ← get
  let pl ← resolveF ss p .read
  match pl with
  | none => fppCommit s.fppAddress [.illegalOpcode] id
  | some pl => do
    let x ← readF pl p .read
    let out := k s.fpp.fps s.fpp x
    fppCommit s.fppAddress (sourceErrors s.fpp.fps pl x ++ out.1) fun _ => out.2

/-- An instruction with a floating destination: `FDst`, then the flags if it has any, and its exceptions (R472); an
illegal accumulator abandons it (R474). -/
def withDestination (dd : OpSpec) (p : Prec) (v : Accum) (errs : List FppError) (f : Fpp → Fpp) : M Unit := do
  let s ← get
  let pl ← resolveF dd p .write
  match pl with
  | none => fppCommit s.fppAddress [.illegalOpcode] id
  | some pl => do
    writeF pl p v
    fppCommit s.fppAddress errs f

/-- An instruction that reads, changes and writes back a floating operand resolved once (R472, R490, R491). -/
def withModified (dd : OpSpec) (p : Prec) (result : Accum → Accum) : M Unit := do
  let s ← get
  let pl ← resolveF dd p .modify
  match pl with
  | none => fppCommit s.fppAddress [.illegalOpcode] id
  | some pl => do
    let x ← readF pl p .modify
    writeF pl p (result x)
    fppCommit s.fppAddress (sourceErrors s.fpp.fps pl x) fun f =>
      f.fcc ⟨(result x).w0.getLsbD 15, exponentOf x.w0 == 0, false, false⟩

/-! ### Integer operands (R473) -/

/-- `ISrc(spec, 32)`. -/
def readLong (sp : OpSpec) : M (BitVec 32) :=
  if sp.mode = .direct then look fun s => s.readReg sp.reg ++ (0 : Word)
  else if sp.isImmediate then do
    let hi ← fetchExtension
    pure (hi ++ (0 : Word))
  else do
    let va ← resolve sp 4 .read
    let hi ← memRead va .word
    let lo ← memRead (va.plus 2) .word
    pure (hi ++ lo)

/-- `IDst(spec, 32, v)`; the answer is whether the processor status word was written (R29). -/
def writeLong (sp : OpSpec) (v : BitVec 32) : M Bool :=
  if sp.mode = .direct then do
    change fun s => s.writeReg sp.reg (v.extractLsb' 16 16)
    pure false
  else if sp.isImmediate then do
    let s ← get
    let p ← memWrite (inI s.pc) .word (v.extractLsb' 16 16)
    change fun s => s.setPc (s.pc + 2)
    pure p
  else do
    let va ← resolve sp 4 .write
    let p ← memWrite va .word (v.extractLsb' 16 16)
    let q ← memWrite (va.plus 2) .word (v.extractLsb' 0 16)
    pure (p || q)

/-- `ISrc(spec, W)` as a signed number, W being 32 where `long`. -/
def readInteger (sp : OpSpec) (long : Bool) : M Int :=
  if long then do
    let v ← readLong sp
    pure v.toInt
  else do
    let v ← readOp sp .word
    pure v.toInt

/-- `IDst(spec, W, v)`; the answer is whether the processor status word was written (R29). -/
def writeInteger (sp : OpSpec) (long : Bool) (v : Int) : M Bool :=
  if long then writeLong sp (BitVec.ofInt 32 v) else writeOp sp .word (BitVec.ofInt 16 v)

/-- Copy `FPS[3:0]` to the flags of the processor, unless the status word was the destination (R29, R500, R501). -/
def copyFcc (suppressed : Bool) (cc : Cc) : M Unit := setFlagsUnless suppressed fun _ => cc

end Sys2Proof.Machine
end

