-- ==== Sys2Proof/Machine/Fpp.lean ====
section
/-! DEFINITION. The instructions of the floating-point coprocessor (52_fpp_instructions.md rules R480 to R506).
Precision, integer length and rounding mode are read when the instruction starts (R470). -/

namespace Sys2Proof.Machine

/-! ### No operand (R480 to R484) -/

/-- CFCC (R480). -/
def cfccBody : M Unit := change fun s => s.setCc (ccOfWord s.fpp.fps)

/-- Set or clear one bit of `FPS`. -/
def fpsBitBody (bit : Nat) (b : Bool) : M Unit := change fun s => s.onFpp fun f => { f with fps := putBit f.fps bit b }

/-- SETF (R481). -/
def setfBody : M Unit := fpsBitBody 7 false

/-- SETD (R482). -/
def setdBody : M Unit := fpsBitBody 7 true

/-- SETI (R483). -/
def setiBody : M Unit := fpsBitBody 6 false

/-- SETL (R484). -/
def setlBody : M Unit := fpsBitBody 6 true

/-! ### One operand (R485 to R491) -/

/-- LDFPS src (R485). -/
def ldfpsBody (ss : OpSpec) : M Unit := do
  let v ← readOp ss .word
  change fun s => s.onFpp fun f => { f with fps := v &&& 0o147777 }

/-- STFPS dst (R486). -/
def stfpsBody (dd : OpSpec) : M Unit := do
  let s ← get
  let _ ← writeOp dd .word s.fpp.fps
  pure ()

/-- STST dst (R487): one word, the code, into a register or an immediate; else the code and the address. -/
def ststBody (dd : OpSpec) : M Unit := do
  let s ← get
  let code : Word := s.fpp.fec.setWidth 16
  if dd.mode = .direct then change fun s => s.writeReg dd.reg code
  else if dd.isImmediate then do
    let _ ← memWrite (inI s.pc) .word code
    change fun s => s.setPc (s.pc + 2)
  else do
    let va ← resolve dd 4 .write
    writeWordsAt va [code, s.fpp.fea]

/-- CLRF dst (R488). -/
def clrfBody (dd : OpSpec) : M Unit := do
  let s ← get
  withDestination dd (precOf s.fpp.fps) {} [] fun f => f.fcc ⟨false, true, false, false⟩

/-- TSTF src (R489). -/
def tstfBody (ss : OpSpec) : M Unit := do
  let s ← get
  withSource ss (precOf s.fpp.fps) fun _ f x => ([], f.fcc (ccValue x))

/-- The value of ABSF: sign 0, and exact zero for every zero (R490). -/
def absResult (x : Accum) : Accum := if exponentOf x.w0 = 0 then {} else { x with w0 := putBit x.w0 15 false }

/-- The value of NEGF: the sign flipped, and exact zero for every zero (R491). -/
def negResult (x : Accum) : Accum :=
  if exponentOf x.w0 = 0 then {} else { x with w0 := putBit x.w0 15 (!x.w0.getLsbD 15) }

/-- ABSF dst (R490). -/
def absfBody (dd : OpSpec) : M Unit := do
  let s ← get
  withModified dd (precOf s.fpp.fps) absResult

/-- NEGF dst (R491). -/
def negfBody (dd : OpSpec) : M Unit := do
  let s ← get
  withModified dd (precOf s.fpp.fps) negResult

/-! ### Accumulator and operand (R492 to R505) -/

/-- The accumulator and the flags after an arithmetic result (R470). -/
def arithmeticResult (p : Prec) (ac : Fin 4) (f : Fpp) (r : FResult) : List FppError × Fpp :=
  (r.errs, (f.writeAc p (acField ac) r.words).fcc (ccResult r))

/-- The shape of ADDF, SUBF, MULF: the accumulator combined with a source (R470). -/
def arithmeticBody (ac : Fin 4) (ss : OpSpec) (op : Prec → Word → Fnum → Fnum → FResult) : M Unit := do
  let s ← get
  let p := precOf s.fpp.fps
  withSource ss p fun fps f x =>
    arithmeticResult p ac f (op p fps (unpack p f.ac[acField ac]) (unpack p x))

/-- MULF src,ACn (R492). -/
def mulfBody (ac : Fin 4) (ss : OpSpec) : M Unit := arithmeticBody ac ss fMul

/-- ADDF src,ACn (R494). -/
def addfBody (ac : Fin 4) (ss : OpSpec) : M Unit := arithmeticBody ac ss fAdd

/-- SUBF src,ACn (R496): accumulator minus source. -/
def subfBody (ac : Fin 4) (ss : OpSpec) : M Unit := arithmeticBody ac ss fSub

/-- DIVF src,ACn (R499): accumulator divided by source. -/
def divfBody (ac : Fin 4) (ss : OpSpec) : M Unit := do
  let s ← get
  let p := precOf s.fpp.fps
  withSource ss p fun fps f x =>
    if exponentOf x.w0 = 0 then ([.divideByZero], f)
    else arithmeticResult p ac f (fDiv p fps (unpack p f.ac[acField ac]) (unpack p x))

/-- The accumulator that receives the integer part of MODF: `ac | 1` (R493). -/
def acOdd (ac : Fin 4) : Fin 6 := if ac.val < 2 then 1 else 3

/-- MODF src,ACn (R493): the integer part first, then the fraction part. -/
def modfBody (ac : Fin 4) (ss : OpSpec) : M Unit := do
  let s ← get
  let p := precOf s.fpp.fps
  withSource ss p fun fps f x =>
    let r := fMod p fps (unpack p f.ac[acField ac]) (unpack p x)
    let f1 := (f.writeAc p (acOdd ac) r.1.words).writeAc p (acField ac) r.2.words
    (r.1.errs ++ r.2.errs, f1.fcc { ccResult r.2 with v := r.1.v || r.2.v })

/-- LDF src,ACn (R495). -/
def ldfBody (ac : Fin 4) (ss : OpSpec) : M Unit := do
  let s ← get
  let p := precOf s.fpp.fps
  withSource ss p fun _ f x => ([], (f.writeAc p (acField ac) x).fcc (ccValue x))

/-- The flags of CMPF: the source compared with the accumulator (R497). -/
def ccCmpf (p : Prec) (x a : Fnum) : Cc := ⟨decide (fOrder p x < fOrder p a), fOrder p x == fOrder p a, false, false⟩

/-- CMPF src,ACn (R497). -/
def cmpfBody (ac : Fin 4) (ss : OpSpec) : M Unit := do
  let s ← get
  let p := precOf s.fpp.fps
  withSource ss p fun _ f x => ([], f.fcc (ccCmpf p (unpack p x) (unpack p f.ac[acField ac])))

/-- STF ACn,dst (R498). -/
def stfBody (ac : Fin 4) (dd : OpSpec) : M Unit := do
  let s ← get
  withDestination dd (precOf s.fpp.fps) s.fpp.ac[acField ac] [] id

/-- STEXP ACn,dst (R500). -/
def stexpBody (ac : Fin 4) (dd : OpSpec) : M Unit := do
  let s ← get
  let v : Int := (exponentOf (s.fpp.ac[acField ac]).w0 : Int) - 128
  let cc : Cc := ⟨decide (v < 0), v == 0, false, false⟩
  let p ← writeInteger dd false v
  fppCommit s.fppAddress [] fun f => f.fcc cc
  copyFcc p cc

/-- STCFI ACn,dst (R501). -/
def stcfiBody (ac : Fin 4) (dd : OpSpec) : M Unit := do
  let s ← get
  let p := precOf s.fpp.fps
  let r := fToInt p (unpack p s.fpp.ac[acField ac]) (if fpsFl s.fpp.fps then 32 else 16)
  let cc : Cc := ⟨decide (r.1 < 0), r.1 == 0, false, r.2⟩
  let q ← writeInteger dd (fpsFl s.fpp.fps) r.1
  fppCommit s.fppAddress (if r.2 && fpsFic s.fpp.fps then [.integerConversion] else []) fun f => f.fcc cc
  copyFcc q cc

/-- The value of STCFD and LDCDF: a value of precision `p` at the other precision (R502, R505). -/
def convertPrec (p : Prec) (fps : Word) (a : Accum) : FResult :=
  match p with
  | .single => widen a
  | .double => narrow fps (unpack .double a)

/-- STCFD ACn,dst (R502). -/
def stcfdBody (ac : Fin 4) (dd : OpSpec) : M Unit := do
  let s ← get
  let p := precOf s.fpp.fps
  let r := convertPrec p s.fpp.fps s.fpp.ac[acField ac]
  withDestination dd p.other r.words r.errs fun f => f.fcc (ccResult r)

/-- LDCDF src,ACn (R505). -/
def ldcdfBody (ac : Fin 4) (ss : OpSpec) : M Unit := do
  let s ← get
  let p := precOf s.fpp.fps
  withSource ss p.other fun fps f x => arithmeticResult p ac f (convertPrec p.other fps x)

/-- LDEXP src,ACn (R503): the exponent is replaced. -/
def ldexpBody (ac : Fin 4) (ss : OpSpec) : M Unit := do
  let s ← get
  let p := precOf s.fpp.fps
  let x ← readInteger ss false
  let a := unpack p s.fpp.ac[acField ac]
  let out := arithmeticResult p ac s.fpp (pack p s.fpp.fps a.s (x + 128) a.f)
  fppCommit s.fppAddress out.1 fun _ => out.2

/-- LDCIF src,ACn (R504). -/
def ldcifBody (ac : Fin 4) (ss : OpSpec) : M Unit := do
  let s ← get
  let p := precOf s.fpp.fps
  let i ← readInteger ss (fpsFl s.fpp.fps)
  let out := arithmeticResult p ac s.fpp (intToF p s.fpp.fps i)
  fppCommit s.fppAddress out.1 fun _ => out.2

/-- An FPP illegal opcode (R506). -/
def fppIllegalBody (_ir : Word) : M Unit := do
  let s ← get
  fppCommit s.fppAddress [.illegalOpcode] id

/-- Meaning of CFCC. -/
def execCfcc (s : State) : Host.Outcome State Fault Refusal := runBody cfccBody s

/-- Meaning of SETF. -/
def execSetf (s : State) : Host.Outcome State Fault Refusal := runBody setfBody s

/-- Meaning of SETI. -/
def execSeti (s : State) : Host.Outcome State Fault Refusal := runBody setiBody s

/-- Meaning of SETD. -/
def execSetd (s : State) : Host.Outcome State Fault Refusal := runBody setdBody s

/-- Meaning of SETL. -/
def execSetl (s : State) : Host.Outcome State Fault Refusal := runBody setlBody s

/-- Meaning of LDFPS. -/
def execLdfps (ss : OpSpec) (s : State) : Host.Outcome State Fault Refusal := runBody (ldfpsBody ss) s

/-- Meaning of STFPS. -/
def execStfps (dd : OpSpec) (s : State) : Host.Outcome State Fault Refusal := runBody (stfpsBody dd) s

/-- Meaning of STST. -/
def execStst (dd : OpSpec) (s : State) : Host.Outcome State Fault Refusal := runBody (ststBody dd) s

/-- Meaning of CLRF. -/
def execClrf (dd : OpSpec) (s : State) : Host.Outcome State Fault Refusal := runBody (clrfBody dd) s

/-- Meaning of TSTF. -/
def execTstf (ss : OpSpec) (s : State) : Host.Outcome State Fault Refusal := runBody (tstfBody ss) s

/-- Meaning of ABSF. -/
def execAbsf (dd : OpSpec) (s : State) : Host.Outcome State Fault Refusal := runBody (absfBody dd) s

/-- Meaning of NEGF. -/
def execNegf (dd : OpSpec) (s : State) : Host.Outcome State Fault Refusal := runBody (negfBody dd) s

/-- Meaning of MULF. -/
def execMulf (ac : Fin 4) (ss : OpSpec) (s : State) : Host.Outcome State Fault Refusal := runBody (mulfBody ac ss) s

/-- Meaning of MODF. -/
def execModf (ac : Fin 4) (ss : OpSpec) (s : State) : Host.Outcome State Fault Refusal := runBody (modfBody ac ss) s

/-- Meaning of ADDF. -/
def execAddf (ac : Fin 4) (ss : OpSpec) (s : State) : Host.Outcome State Fault Refusal := runBody (addfBody ac ss) s

/-- Meaning of LDF. -/
def execLdf (ac : Fin 4) (ss : OpSpec) (s : State) : Host.Outcome State Fault Refusal := runBody (ldfBody ac ss) s

/-- Meaning of SUBF. -/
def execSubf (ac : Fin 4) (ss : OpSpec) (s : State) : Host.Outcome State Fault Refusal := runBody (subfBody ac ss) s

/-- Meaning of CMPF. -/
def execCmpf (ac : Fin 4) (ss : OpSpec) (s : State) : Host.Outcome State Fault Refusal := runBody (cmpfBody ac ss) s

/-- Meaning of STF. -/
def execStf (ac : Fin 4) (dd : OpSpec) (s : State) : Host.Outcome State Fault Refusal := runBody (stfBody ac dd) s

/-- Meaning of DIVF. -/
def execDivf (ac : Fin 4) (ss : OpSpec) (s : State) : Host.Outcome State Fault Refusal := runBody (divfBody ac ss) s

/-- Meaning of STEXP. -/
def execStexp (ac : Fin 4) (dd : OpSpec) (s : State) : Host.Outcome State Fault Refusal := runBody (stexpBody ac dd) s

/-- Meaning of STCFI. -/
def execStcfi (ac : Fin 4) (dd : OpSpec) (s : State) : Host.Outcome State Fault Refusal := runBody (stcfiBody ac dd) s

/-- Meaning of STCFD. -/
def execStcfd (ac : Fin 4) (dd : OpSpec) (s : State) : Host.Outcome State Fault Refusal := runBody (stcfdBody ac dd) s

/-- Meaning of LDEXP. -/
def execLdexp (ac : Fin 4) (ss : OpSpec) (s : State) : Host.Outcome State Fault Refusal := runBody (ldexpBody ac ss) s

/-- Meaning of LDCIF. -/
def execLdcif (ac : Fin 4) (ss : OpSpec) (s : State) : Host.Outcome State Fault Refusal := runBody (ldcifBody ac ss) s

/-- Meaning of LDCDF. -/
def execLdcdf (ac : Fin 4) (ss : OpSpec) (s : State) : Host.Outcome State Fault Refusal := runBody (ldcdfBody ac ss) s

/-- Meaning of an FPP illegal opcode. -/
def execFppIllegal (ir : Word) (s : State) : Host.Outcome State Fault Refusal := runBody (fppIllegalBody ir) s

end Sys2Proof.Machine
end

