-- ==== Sys2Proof/Machine/SingleOp.lean ====
section
/-! DEFINITION. The single-operand instructions (42_single_operand.md rules R230 to R256). -/

namespace Sys2Proof.Machine

/-- The shape of a read-modify-write instruction: `C_in` is C before the instruction (R230). -/
def modifyBody (w : Width) (dd : OpSpec) (result : Bool → Word → Word) (cc : Bool → Word → Cc) : M Unit := do
  let cin ← look State.carry
  let r ← modifyOp dd w (result cin)
  setFlagsUnless r.2 fun _ => cc cin r.1

/-- The byte form of `modifyBody` (R230). -/
def modifyByteBody (dd : OpSpec) (result : Bool → Byte → Byte) (cc : Bool → Byte → Cc) : M Unit :=
  modifyBody .byte dd (fun c => byteFn (result c)) fun c d => cc c (d.setWidth 8)

/-- CLR dst (R231): written, not read. -/
def clrBody (dd : OpSpec) : M Unit := do
  let p ← writeOp dd .word 0
  setFlagsUnless p fun _ => ccClr

/-- CLRB dst (R232). -/
def clrbBody (dd : OpSpec) : M Unit := do
  let p ← writeOp dd .byte 0
  setFlagsUnless p fun _ => ccClr

/-- TST dst (R245): read only.
R230 suppresses the flags where the destination is the status word, R29 only where it is written; TST, which only reads
it, sets them (DEDUCED, assumption log 19). -/
def tstBody (dd : OpSpec) : M Unit := do
  let d ← readOp dd .word
  setFlagsUnless false fun _ => ccTst d

/-- TSTB dst (R246); its flags where it reads the status word are set as those of TST (DEDUCED, assumption log 19). -/
def tstbBody (dd : OpSpec) : M Unit := do
  let d ← readOp dd .byte
  setFlagsUnless false fun _ => ccTst (d.setWidth 8 : Byte)

/-- SWAB dst (R255). -/
def swabBody (dd : OpSpec) : M Unit :=
  modifyBody .word dd (fun _ d => swabResult d) fun _ d => ccSwab (swabResult d)

/-- SXT dst (R256): the N flag extended over the word; N and C are kept. -/
def sxtBody (dd : OpSpec) : M Unit := do
  let n ← look fun s => pswN s.psw
  let p ← writeOp dd .word (sxtResult n)
  setFlagsUnless p fun s => ⟨n, !n, false, s.carry⟩

/-- COM dst (R233). -/
def comBody (dd : OpSpec) : M Unit := modifyBody .word dd (fun _ d => ~~~ d) (fun _ d => ccCom d)

/-- COMB dst (R234). -/
def combBody (dd : OpSpec) : M Unit := modifyByteBody dd (fun _ d => ~~~ d) (fun _ d => ccCom d)

/-- INC dst (R235). -/
def incBody (dd : OpSpec) : M Unit := modifyBody .word dd (fun _ d => d + 1) (fun c d => ccInc d c)

/-- INCB dst (R236). -/
def incbBody (dd : OpSpec) : M Unit := modifyByteBody dd (fun _ d => d + 1) (fun c d => ccInc d c)

/-- DEC dst (R237). -/
def decBody (dd : OpSpec) : M Unit := modifyBody .word dd (fun _ d => d - 1) (fun c d => ccDec d c)

/-- DECB dst (R238). -/
def decbBody (dd : OpSpec) : M Unit := modifyByteBody dd (fun _ d => d - 1) (fun c d => ccDec d c)

/-- NEG dst (R239). -/
def negBody (dd : OpSpec) : M Unit := modifyBody .word dd (fun _ d => -d) (fun _ d => ccNeg d)

/-- NEGB dst (R240). -/
def negbBody (dd : OpSpec) : M Unit := modifyByteBody dd (fun _ d => -d) (fun _ d => ccNeg d)

/-- ADC dst (R241). -/
def adcBody (dd : OpSpec) : M Unit := modifyBody .word dd (fun c d => d + carryIn c) (fun c d => ccAdc d c)

/-- ADCB dst (R242). -/
def adcbBody (dd : OpSpec) : M Unit := modifyByteBody dd (fun c d => d + carryIn c) (fun c d => ccAdc d c)

/-- SBC dst (R243). -/
def sbcBody (dd : OpSpec) : M Unit := modifyBody .word dd (fun c d => d - carryIn c) (fun c d => ccSbc d c)

/-- SBCB dst (R244). -/
def sbcbBody (dd : OpSpec) : M Unit := modifyByteBody dd (fun c d => d - carryIn c) (fun c d => ccSbc d c)

/-- ROR dst (R247). -/
def rorBody (dd : OpSpec) : M Unit := modifyBody .word dd (fun c d => rorResult d c) (fun c d => ccShiftRight d (rorResult d c))

/-- RORB dst (R248). -/
def rorbBody (dd : OpSpec) : M Unit := modifyByteBody dd (fun c d => rorResult d c) (fun c d => ccShiftRight d (rorResult d c))

/-- ROL dst (R249). -/
def rolBody (dd : OpSpec) : M Unit := modifyBody .word dd (fun c d => rolResult d c) (fun c d => ccShiftLeft d (rolResult d c))

/-- ROLB dst (R250). -/
def rolbBody (dd : OpSpec) : M Unit := modifyByteBody dd (fun c d => rolResult d c) (fun c d => ccShiftLeft d (rolResult d c))

/-- ASR dst (R251). -/
def asrBody (dd : OpSpec) : M Unit := modifyBody .word dd (fun _ d => asrResult d) (fun _ d => ccShiftRight d (asrResult d))

/-- ASRB dst (R252). -/
def asrbBody (dd : OpSpec) : M Unit := modifyByteBody dd (fun _ d => asrResult d) (fun _ d => ccShiftRight d (asrResult d))

/-- ASL dst (R253). -/
def aslBody (dd : OpSpec) : M Unit := modifyBody .word dd (fun _ d => aslResult d) (fun _ d => ccShiftLeft d (aslResult d))

/-- ASLB dst (R254). -/
def aslbBody (dd : OpSpec) : M Unit := modifyByteBody dd (fun _ d => aslResult d) (fun _ d => ccShiftLeft d (aslResult d))

/-- Meaning of CLR. -/
def execClr (dd : OpSpec) (s : State) : Host.Outcome State Fault Refusal := runBody (clrBody dd) s

/-- Meaning of CLRB. -/
def execClrb (dd : OpSpec) (s : State) : Host.Outcome State Fault Refusal := runBody (clrbBody dd) s

/-- Meaning of COM. -/
def execCom (dd : OpSpec) (s : State) : Host.Outcome State Fault Refusal := runBody (comBody dd) s

/-- Meaning of COMB. -/
def execComb (dd : OpSpec) (s : State) : Host.Outcome State Fault Refusal := runBody (combBody dd) s

/-- Meaning of INC. -/
def execInc (dd : OpSpec) (s : State) : Host.Outcome State Fault Refusal := runBody (incBody dd) s

/-- Meaning of INCB. -/
def execIncb (dd : OpSpec) (s : State) : Host.Outcome State Fault Refusal := runBody (incbBody dd) s

/-- Meaning of DEC. -/
def execDec (dd : OpSpec) (s : State) : Host.Outcome State Fault Refusal := runBody (decBody dd) s

/-- Meaning of DECB. -/
def execDecb (dd : OpSpec) (s : State) : Host.Outcome State Fault Refusal := runBody (decbBody dd) s

/-- Meaning of NEG. -/
def execNeg (dd : OpSpec) (s : State) : Host.Outcome State Fault Refusal := runBody (negBody dd) s

/-- Meaning of NEGB. -/
def execNegb (dd : OpSpec) (s : State) : Host.Outcome State Fault Refusal := runBody (negbBody dd) s

/-- Meaning of ADC. -/
def execAdc (dd : OpSpec) (s : State) : Host.Outcome State Fault Refusal := runBody (adcBody dd) s

/-- Meaning of ADCB. -/
def execAdcb (dd : OpSpec) (s : State) : Host.Outcome State Fault Refusal := runBody (adcbBody dd) s

/-- Meaning of SBC. -/
def execSbc (dd : OpSpec) (s : State) : Host.Outcome State Fault Refusal := runBody (sbcBody dd) s

/-- Meaning of SBCB. -/
def execSbcb (dd : OpSpec) (s : State) : Host.Outcome State Fault Refusal := runBody (sbcbBody dd) s

/-- Meaning of TST. -/
def execTst (dd : OpSpec) (s : State) : Host.Outcome State Fault Refusal := runBody (tstBody dd) s

/-- Meaning of TSTB. -/
def execTstb (dd : OpSpec) (s : State) : Host.Outcome State Fault Refusal := runBody (tstbBody dd) s

/-- Meaning of ROR. -/
def execRor (dd : OpSpec) (s : State) : Host.Outcome State Fault Refusal := runBody (rorBody dd) s

/-- Meaning of RORB. -/
def execRorb (dd : OpSpec) (s : State) : Host.Outcome State Fault Refusal := runBody (rorbBody dd) s

/-- Meaning of ROL. -/
def execRol (dd : OpSpec) (s : State) : Host.Outcome State Fault Refusal := runBody (rolBody dd) s

/-- Meaning of ROLB. -/
def execRolb (dd : OpSpec) (s : State) : Host.Outcome State Fault Refusal := runBody (rolbBody dd) s

/-- Meaning of ASR. -/
def execAsr (dd : OpSpec) (s : State) : Host.Outcome State Fault Refusal := runBody (asrBody dd) s

/-- Meaning of ASRB. -/
def execAsrb (dd : OpSpec) (s : State) : Host.Outcome State Fault Refusal := runBody (asrbBody dd) s

/-- Meaning of ASL. -/
def execAsl (dd : OpSpec) (s : State) : Host.Outcome State Fault Refusal := runBody (aslBody dd) s

/-- Meaning of ASLB. -/
def execAslb (dd : OpSpec) (s : State) : Host.Outcome State Fault Refusal := runBody (aslbBody dd) s

/-- Meaning of SWAB. -/
def execSwab (dd : OpSpec) (s : State) : Host.Outcome State Fault Refusal := runBody (swabBody dd) s

/-- Meaning of SXT. -/
def execSxt (dd : OpSpec) (s : State) : Host.Outcome State Fault Refusal := runBody (sxtBody dd) s

end Sys2Proof.Machine
end

