-- ==== Sys2Proof/Machine/System.lean ====
section
/-! DEFINITION. System, trap and condition-code instructions (45_system.md rules R340 to R352, R360). -/

namespace Sys2Proof.Machine

/-- HALT (R341): a real halt in kernel mode, else an illegal halt. -/
def haltBody : M Unit := do
  let s ← get
  if s.cm = .kernel then change (·.setRunState .halt)
  else abortWith s.params.vecIllegalHalt.word (·.cpuError 7)

/-- WAIT (R342). -/
def waitBody : M Unit :=
  change fun s => if pswPri s.psw < s.arbitrate.1 then s.setIrqFlag true else s.setRunState .wait

/-- RTI (R343): the restored T bit traps before the next instruction. -/
def rtiBody : M Unit := do
  returnFromTrap
  change fun s => s.setTrace (pswT s.psw)

/-- RTT (R344): the instruction returned to runs before the trace trap. -/
def rttBody : M Unit := do
  returnFromTrap
  change fun s => s.setTrace false

/-- RESET (R345): no operation outside kernel mode. -/
def resetBody : M Unit :=
  change fun s => if s.cm = .kernel then s.resetEffect.setRunState .reset else s

/-- BPT (R346). -/
def bptBody : M Unit := raiseTrap 0o14

/-- IOT (R347). -/
def iotBody : M Unit := raiseTrap 0o20

/-- EMT (R348): the code is not looked at. -/
def emtBody (_code : BitVec 8) : M Unit := raiseTrap 0o30

/-- TRAP (R349): the code is not looked at. -/
def trapInstrBody (_code : BitVec 8) : M Unit := raiseTrap 0o34

/-- SPL n (R350): no operation outside kernel mode. -/
def splBody (n : BitVec 3) : M Unit :=
  change fun s => if s.cm = .kernel then s.loadPsw ((s.psw &&& 0o177437) ||| ((n.setWidth 16) <<< 5)) else s

/-- CLx (R351). -/
def clxBody (m : BitVec 4) : M Unit := change fun s => s.flags m 0

/-- SEx (R352). -/
def sexBody (m : BitVec 4) : M Unit := change fun s => s.flags m m

/-- A reserved instruction (R360). -/
def reservedBody (_ir : Word) : M Unit := raiseTrap 0o10

/-- Meaning of HALT. -/
def execHalt (s : State) : Host.Outcome State Fault Refusal := runBody haltBody s

/-- Meaning of WAIT. -/
def execWait (s : State) : Host.Outcome State Fault Refusal := runBody waitBody s

/-- Meaning of RTI. -/
def execRti (s : State) : Host.Outcome State Fault Refusal := runBody rtiBody s

/-- Meaning of RTT. -/
def execRtt (s : State) : Host.Outcome State Fault Refusal := runBody rttBody s

/-- Meaning of RESET. -/
def execReset (s : State) : Host.Outcome State Fault Refusal := runBody resetBody s

/-- Meaning of BPT. -/
def execBpt (s : State) : Host.Outcome State Fault Refusal := runBody bptBody s

/-- Meaning of IOT. -/
def execIot (s : State) : Host.Outcome State Fault Refusal := runBody iotBody s

/-- Meaning of EMT. -/
def execEmt (code : BitVec 8) (s : State) : Host.Outcome State Fault Refusal := runBody (emtBody code) s

/-- Meaning of TRAP. -/
def execTrap (code : BitVec 8) (s : State) : Host.Outcome State Fault Refusal := runBody (trapInstrBody code) s

/-- Meaning of SPL. -/
def execSpl (n : BitVec 3) (s : State) : Host.Outcome State Fault Refusal := runBody (splBody n) s

/-- Meaning of CLx. -/
def execClx (m : BitVec 4) (s : State) : Host.Outcome State Fault Refusal := runBody (clxBody m) s

/-- Meaning of SEx. -/
def execSex (m : BitVec 4) (s : State) : Host.Outcome State Fault Refusal := runBody (sexBody m) s

/-- Meaning of a reserved instruction. -/
def execReserved (ir : Word) (s : State) : Host.Outcome State Fault Refusal := runBody (reservedBody ir) s

end Sys2Proof.Machine
end

