-- ==== Sys2Proof/Machine/Dispatch.lean ====
section
/-! DEFINITION. The dispatch: one arm per constructor of Instr, each one call of that instruction's meaning
(30_encoding.md rule R145, 60_exceptions.md rule R634). -/

namespace Sys2Proof.Machine

def exec (i : Instr) (s : State) : Host.Outcome State Fault Refusal :=
  match i with
  | .halt => Sys2Proof.Machine.execHalt s
  | .wait => Sys2Proof.Machine.execWait s
  | .rti => Sys2Proof.Machine.execRti s
  | .bpt => Sys2Proof.Machine.execBpt s
  | .iot => Sys2Proof.Machine.execIot s
  | .reset => Sys2Proof.Machine.execReset s
  | .rtt => Sys2Proof.Machine.execRtt s
  | .jmp dd => Sys2Proof.Machine.execJmp dd s
  | .rts r => Sys2Proof.Machine.execRts r s
  | .spl n => Sys2Proof.Machine.execSpl n s
  | .clx m => Sys2Proof.Machine.execClx m s
  | .sex m => Sys2Proof.Machine.execSex m s
  | .swab dd => Sys2Proof.Machine.execSwab dd s
  | .br off => Sys2Proof.Machine.execBr off s
  | .bne off => Sys2Proof.Machine.execBne off s
  | .beq off => Sys2Proof.Machine.execBeq off s
  | .bge off => Sys2Proof.Machine.execBge off s
  | .blt off => Sys2Proof.Machine.execBlt off s
  | .bgt off => Sys2Proof.Machine.execBgt off s
  | .ble off => Sys2Proof.Machine.execBle off s
  | .jsr r dd => Sys2Proof.Machine.execJsr r dd s
  | .clr dd => Sys2Proof.Machine.execClr dd s
  | .com dd => Sys2Proof.Machine.execCom dd s
  | .inc dd => Sys2Proof.Machine.execInc dd s
  | .dec dd => Sys2Proof.Machine.execDec dd s
  | .neg dd => Sys2Proof.Machine.execNeg dd s
  | .adc dd => Sys2Proof.Machine.execAdc dd s
  | .sbc dd => Sys2Proof.Machine.execSbc dd s
  | .tst dd => Sys2Proof.Machine.execTst dd s
  | .ror dd => Sys2Proof.Machine.execRor dd s
  | .rol dd => Sys2Proof.Machine.execRol dd s
  | .asr dd => Sys2Proof.Machine.execAsr dd s
  | .asl dd => Sys2Proof.Machine.execAsl dd s
  | .mark nn => Sys2Proof.Machine.execMark nn s
  | .mfpi ss => Sys2Proof.Machine.execMfpi ss s
  | .mtpi dd => Sys2Proof.Machine.execMtpi dd s
  | .sxt dd => Sys2Proof.Machine.execSxt dd s
  | .mov ss dd => Sys2Proof.Machine.execMov ss dd s
  | .cmp ss dd => Sys2Proof.Machine.execCmp ss dd s
  | .bit ss dd => Sys2Proof.Machine.execBit ss dd s
  | .bic ss dd => Sys2Proof.Machine.execBic ss dd s
  | .bis ss dd => Sys2Proof.Machine.execBis ss dd s
  | .add ss dd => Sys2Proof.Machine.execAdd ss dd s
  | .movb ss dd => Sys2Proof.Machine.execMovb ss dd s
  | .cmpb ss dd => Sys2Proof.Machine.execCmpb ss dd s
  | .bitb ss dd => Sys2Proof.Machine.execBitb ss dd s
  | .bicb ss dd => Sys2Proof.Machine.execBicb ss dd s
  | .bisb ss dd => Sys2Proof.Machine.execBisb ss dd s
  | .sub ss dd => Sys2Proof.Machine.execSub ss dd s
  | .mul r ss => Sys2Proof.Machine.execMul r ss s
  | .div r ss => Sys2Proof.Machine.execDiv r ss s
  | .ash r ss => Sys2Proof.Machine.execAsh r ss s
  | .ashc r ss => Sys2Proof.Machine.execAshc r ss s
  | .xor r dd => Sys2Proof.Machine.execXor r dd s
  | .sob r off => Sys2Proof.Machine.execSob r off s
  | .bpl off => Sys2Proof.Machine.execBpl off s
  | .bmi off => Sys2Proof.Machine.execBmi off s
  | .bhi off => Sys2Proof.Machine.execBhi off s
  | .blos off => Sys2Proof.Machine.execBlos off s
  | .bvc off => Sys2Proof.Machine.execBvc off s
  | .bvs off => Sys2Proof.Machine.execBvs off s
  | .bcc off => Sys2Proof.Machine.execBcc off s
  | .bcs off => Sys2Proof.Machine.execBcs off s
  | .emt code => Sys2Proof.Machine.execEmt code s
  | .trap code => Sys2Proof.Machine.execTrap code s
  | .clrb dd => Sys2Proof.Machine.execClrb dd s
  | .comb dd => Sys2Proof.Machine.execComb dd s
  | .incb dd => Sys2Proof.Machine.execIncb dd s
  | .decb dd => Sys2Proof.Machine.execDecb dd s
  | .negb dd => Sys2Proof.Machine.execNegb dd s
  | .adcb dd => Sys2Proof.Machine.execAdcb dd s
  | .sbcb dd => Sys2Proof.Machine.execSbcb dd s
  | .tstb dd => Sys2Proof.Machine.execTstb dd s
  | .rorb dd => Sys2Proof.Machine.execRorb dd s
  | .rolb dd => Sys2Proof.Machine.execRolb dd s
  | .asrb dd => Sys2Proof.Machine.execAsrb dd s
  | .aslb dd => Sys2Proof.Machine.execAslb dd s
  | .mfpd ss => Sys2Proof.Machine.execMfpd ss s
  | .mtpd dd => Sys2Proof.Machine.execMtpd dd s
  | .cfcc => Sys2Proof.Machine.execCfcc s
  | .setf => Sys2Proof.Machine.execSetf s
  | .seti => Sys2Proof.Machine.execSeti s
  | .setd => Sys2Proof.Machine.execSetd s
  | .setl => Sys2Proof.Machine.execSetl s
  | .ldfps ss => Sys2Proof.Machine.execLdfps ss s
  | .stfps dd => Sys2Proof.Machine.execStfps dd s
  | .stst dd => Sys2Proof.Machine.execStst dd s
  | .clrf dd => Sys2Proof.Machine.execClrf dd s
  | .tstf ss => Sys2Proof.Machine.execTstf ss s
  | .absf dd => Sys2Proof.Machine.execAbsf dd s
  | .negf dd => Sys2Proof.Machine.execNegf dd s
  | .mulf ac ss => Sys2Proof.Machine.execMulf ac ss s
  | .modf ac ss => Sys2Proof.Machine.execModf ac ss s
  | .addf ac ss => Sys2Proof.Machine.execAddf ac ss s
  | .ldf ac ss => Sys2Proof.Machine.execLdf ac ss s
  | .subf ac ss => Sys2Proof.Machine.execSubf ac ss s
  | .cmpf ac ss => Sys2Proof.Machine.execCmpf ac ss s
  | .stf ac dd => Sys2Proof.Machine.execStf ac dd s
  | .divf ac ss => Sys2Proof.Machine.execDivf ac ss s
  | .stexp ac dd => Sys2Proof.Machine.execStexp ac dd s
  | .stcfi ac dd => Sys2Proof.Machine.execStcfi ac dd s
  | .stcfd ac dd => Sys2Proof.Machine.execStcfd ac dd s
  | .ldexp ac ss => Sys2Proof.Machine.execLdexp ac ss s
  | .ldcif ac ss => Sys2Proof.Machine.execLdcif ac ss s
  | .ldcdf ac ss => Sys2Proof.Machine.execLdcdf ac ss s
  | .reserved ir => Sys2Proof.Machine.execReserved ir s
  | .fppIllegal ir => Sys2Proof.Machine.execFppIllegal ir s

end Sys2Proof.Machine
end

