-- ==== Sys2Proof/Machine/Step.lean ====
section
/-! DEFINITION. One step of the machine: one instruction cycle in run states RUN and STEP, else the events of one
boundary (60_exceptions.md rules R630 to R645). -/

namespace Sys2Proof.Machine

/-- One step. -/
def step (s : State) : Host.Outcome State Fault Refusal :=
  match beginCycle s with
  | .done s' => .next s'
  | .execute i stepping s' =>
    match exec i s' with
    | .next t => .next (t.endCycle stepping)
    | .fault f => .fault f
    | .refused r => .refused r

/-- The state with an instruction of `nbits` bits, and two extension words of 0, stored where `step` fetches its
next instruction (assumption log 6). -/
def State.withFetchWord (s : State) (nbits w : Nat) : State :=
  ((s.readyToFetch.depositAt 4 0).depositAt 2 0).depositAt 0 (BitVec.ofNat 16 (w % 2 ^ nbits))

end Sys2Proof.Machine
end

