-- ==== Sys2Proof/Safety.lean ====
section
/-! DEFINITION. What the statements call a sound state, in the words of the spec's rules, how a run ends
(10_state.md rules R26 to R52, 60_exceptions.md rules R608, R624, 70_reset_and_hazards.md rule R711), address
translation in numbers (20_memory.md rules R101 to R106), and the terms in which the statements say what an instruction
changes and what it leaves. -/

namespace Sys2Proof.Machine

/-- The bits of the control registers that read 0 hold 0: PSW 10:8 (R26), SLR 7:0 (R50), the CPU error register
outside bits 7:2 (R52), MMR0 11:10 (R43), MMR3 outside 5:4 and 2:0 (R46), FPS 13:12 (R402). -/
def State.reservedClear (s : State) : Bool :=
  s.psw &&& 0o003400 == 0 && s.ctl.slr &&& 0o000377 == 0 && s.ctl.cpuErr &&& 0o177403 == 0 &&
    s.mmu.mmr0 &&& 0o006000 == 0 && s.mmu.mmr3 &&& 0o177710 == 0 && s.fpp.fps &&& 0o030000 == 0

/-- Both level fields of PIRQ name the highest level requested, and bits 8, 4 and 0 are 0 (R51). -/
def State.pirqCoherent (s : State) : Bool := s.ctl.pirq == pirqOfWrite s.ctl.pirq

/-- Bits 15, 5 and 4 of every PDR are 0 (R42). -/
def State.pdrReserved (s : State) : Bool := s.mmu.pdr.toList.all fun d => d &&& 0o100060 == 0

/-- Bit 0 of every Unibus map register is 0 (R47). -/
def State.ubmapEven (s : State) : Bool := s.mmu.ubmap.toList.all fun u => !u.getLsbD 0

/-- The page registers of mode 2 hold their reset value 0 (R40). -/
def State.illegalPagesZero (s : State) : Prop :=
  ∀ p : Fin 16, s.mmu.par[pageEntry .illegal p] = 0 ∧ s.mmu.pdr[pageEntry .illegal p] = 0

/-- No trap sequence is in progress between two steps (R65, R608). -/
def State.idle (s : State) : Prop := s.ctl.trapPsw = none

/-- Whenever `irqFlag` is false no request above the processor's priority exists (R624). -/
def State.irqCovered (s : State) : Prop := s.ctl.irqFlag = false → s.arbitrate.1 ≤ pswPri s.psw

/-- Main memory is in its canonical form, and lists nothing at or above the ceiling (R70). -/
def State.memSound (s : State) : Prop :=
  Memory.wf s.mem = true ∧ ∀ a, s.params.memCeiling ≤ a → Memory.read s.mem a = Memory.unlisted

/-- The next step ends the run: it executes a HALT instruction in kernel mode (R711).
A halt through the unrecoverable nested fault of R609 is a fault in the sense of R711, not an end. -/
def State.endsRun (s : State) : Prop := ∃ stepping s', beginCycle s = .execute .halt stepping s' ∧ s'.cm = .kernel

/-! ### Address translation in numbers -/

/-- The page a mode uses for an address: its top three bits, and 8 more in data space where the mode's data space is
enabled (R46, R101). -/
def mappedPage (mmr3 : Word) (m : ProcMode) (va : VAddr) : Fin 16 :=
  let data : Bool := match m with
    | .kernel => mmr3.getLsbD 2
    | .supervisor => mmr3.getLsbD 1
    | .illegal => false
    | .user => mmr3.getLsbD 0
  Fin.ofNat 16 (va.addr.toNat / 2 ^ 13 + if va.space = .d ∧ data = true then 8 else 0)

/-- The address a page gives: 64 times its page address register plus the low 13 bits, modulo 2^22 or, with 18-bit
mapping, modulo 2^18 with the top 8 KB folded into the I/O range (R102). -/
def pageAddress (par mmr3 a : Word) : Nat :=
  let full := (64 * par.toNat + a.toNat % 2 ^ 13) % 2 ^ 22
  let low := full % 2 ^ 18
  if mmr3.getLsbD 4 then full else if low < 0o760000 then low else low + 0o17000000

/-- Where the Unibus window sends one of its addresses, below the I/O range (R104). -/
def windowAddress (u : Mmu) (a : Nat) : Nat :=
  let low := a - 0o17000000
  if u.mmr3.getLsbD 5 then (u.ubmap[Fin.ofNat 32 (low / 2 ^ 13)].toNat + low % 2 ^ 13) % 2 ^ 22 else low

/-- The physical address of the page map, or the bit of the CPU error register its ceiling test sets: 6 for a word at an
odd address of main memory, 5 for an address between the ceiling and the Unibus window, 4 for a window address sent back
at or above the ceiling (R103 to R105). -/
def mappedAddress (s : State) (m : ProcMode) (va : VAddr) (w : Width) : Except Nat Nat :=
  let a := pageAddress s.mmu.par[pageEntry m (mappedPage s.mmu.mmr3 m va)] s.mmu.mmr3 va.addr
  let b := windowAddress s.mmu a
  if a < s.params.memCeiling then if w = .word ∧ a % 2 = 1 then .error 6 else .ok a
  else if a < 0o17000000 then .error 5
  else if a < 0o17760000 then if s.params.memCeiling ≤ b ∧ b < 0o17760000 then .error 4 else .ok b
  else .ok a

/-- The words of the core-owned registers, by address (R60). -/
def coreWord (a : Nat) : Bool :=
  a % 2 == 0 && (a ∈ [0o17777776, 0o17777774, 0o17777772, 0o17777766, 0o17777576, 0o17777574, 0o17777572, 0o17777570,
    0o17772516] || 0o17777600 ≤ a && a < 0o17777700 || 0o17772200 ≤ a && a < 0o17772400 ||
    0o17770200 ≤ a && a < 0o17770400)

/-! ### What an instruction changes -/

/-- `t` is `s` with the four condition flags as given and the rest of the status word unchanged (R27). -/
def Flagged (s t : State) (n z v c : Bool) : Prop :=
  t = s.setPsw t.psw ∧ t.psw >>> 4 = s.psw >>> 4 ∧
    pswN t.psw = n ∧ pswZ t.psw = z ∧ pswV t.psw = v ∧ pswC t.psw = c

/-- The outcome of an instruction that stored a result: the flags as given, but where the processor status word was
itself the destination (`p`) the flags the store left stand (R29). -/
def StoredFlags (p : Bool) (s t : State) (n z v c : Bool) : Prop := if p then t = s else Flagged s t n z v c

/-- Executed in `s`, instruction `i` completes with the result `f old` stored in the destination `dd`, `old` being what
the destination held in `s0`, the state in which it is accessed, and with the flags given for `old` (R185, R200, R230). -/
def ModifyGives (i : Instr) (s s0 : State) (dd : OpSpec) (w : Width) (f : Word → Word) (n z v c : Word → Bool) : Prop :=
  ∀ old p s1, modifyOp dd w f s0 = .ok (old, p) s1 →
    ∃ t, exec i s = .next t ∧ StoredFlags p s1 t (n old) (z old) (v old) (c old)

/-- The byte in the low half of a word. -/
def lowByte (v : Word) : Byte := v.setWidth 8

/-- A function of bytes on the low halves of words. -/
def onByte (f : Byte → Byte) (v : Word) : Word := (f (lowByte v)).setWidth 16

/-- The modes in which resolving a specifier changes its register (R173, R174, R176, R177). -/
def specSteps (sp : OpSpec) (r : Reg) : Prop :=
  sp.reg = r ∧ (sp.mode = .autoInc ∨ sp.mode = .autoIncDeferred ∨ sp.mode = .autoDec ∨ sp.mode = .autoDecDeferred)

/-- The registers an instruction may change through a destination specifier: the one the mode changes, and in mode 0
the destination itself (R185). -/
def specLands (sp : OpSpec) (r : Reg) : Prop := specSteps sp r ∨ (sp.mode = .direct ∧ sp.reg = r)

/-- The PC once a specifier has been resolved: past its extension word if it takes one (30_encoding.md rule R141), and 2
back where the mode decrements the PC itself (R175 to R177). -/
def pcAfter (sp : OpSpec) (pc : Word) : Word :=
  if sp.reg = .pc ∧ (sp.mode = .autoDec ∨ sp.mode = .autoDecDeferred) then pc - 2 else pc + BitVec.ofNat 16 (2 * sp.extWords)

/-- The PC ends at `pc`, unless the PC itself is the destination (R22, R185). -/
def PcStored (dd : OpSpec) (t : State) (pc : Word) : Prop := (dd.mode = .direct ∧ dd.reg = .pc) ∨ t.pc = pc

/-- The physical address a destination is stored at: its specifier resolved in the state, and the address translated;
no address for a register. -/
def destAddress (dd : OpSpec) (w : Width) (acc : Access) (s : State) : List Nat :=
  match resolvePlace dd w acc s with
  | .ok (.mem va) s1 =>
    match translate s1.cm va acc w s1 with
    | .ok pa _ => [pa.toNat]
    | .error _ _ => []
  | _ => []

/-- The physical addresses of the words a run of word stores reaches, in order: each address translated in the state
the stores before it left (52_fpp_instructions.md rule R472). -/
def wordAddresses (va : VAddr) (s : State) : List Word → List Nat
  | [] => []
  | v :: vs =>
    match translate s.cm va .write .word s with
    | .ok pa s1 =>
      match physWrite pa .word v s1 with
      | .ok _ s2 => pa.toNat :: wordAddresses (va.plus 2) s2 vs
      | .error _ _ => [pa.toNat]
    | .error _ _ => []

/-- The physical addresses of the words a floating destination is stored at (R472). -/
def placeAddresses (pl : FPlace) (p : Prec) (v : Accum) (s : State) : List Nat :=
  match pl with
  | .ac _ => []
  | .imm a => wordAddresses (inI a) s [v.w0]
  | .mem va => wordAddresses va s (wordsOfAccum p v)

/-- The words of an operand lie in main memory: translated in order at `va`, `va + 2` and so on, all with the intent
`acc`, they are at the even addresses `pas`, and `t` is the state after (20_memory.md rule R89, 52_fpp_instructions.md
rules R471 to R473). -/
def wordsAt (acc : Access) (va : VAddr) (s : State) : List PAddr → State → Prop
  | [], t => t = s
  | pa :: pas, t => pa.toNat < s.params.memCeiling ∧ pa.getLsbD 0 = false ∧
      ∃ u, translate s.cm va acc .word s = .ok pa u ∧ wordsAt acc ⟨va.space, va.addr + 2⟩ u pas t

/-- What memory holds once words have been stored in order at addresses: each word, unless a later one was stored over
it (R472). -/
def wordsStored (m : Memory) : List PAddr → List Word → Prop
  | pa :: pas, w :: ws => (pa ∉ pas → Memory.readWord m pa.toNat = w) ∧ wordsStored m pas ws
  | _, _ => True

/-- Every byte of memory outside the `len` bytes stored at each of the addresses `dst` reads as before. -/
def MemFrame (s t : State) (dst : List Nat) (len : Nat) : Prop :=
  ∀ a, (∀ b ∈ dst, a < b ∨ b + len ≤ a) → Memory.read t.mem a = Memory.read s.mem a

/-- Every general register and stack pointer slot but those the active view of `s` gives the registers in `T` holds
what it held (R20, R21, R23). -/
def RegFrame (s t : State) (T : Reg → Prop) : Prop :=
  (∀ rs i, ¬ (rs = pswRs s.psw ∧ T (.gen i)) → t.readGen rs i = s.readGen rs i) ∧
    ∀ m, ¬ (m = s.cm ∧ T .sp) → t.readSpm m = s.readSpm m

/-- The special registers are unchanged, but for what every access may record: the A and W bits of a PDR (R42), the
trap bit of MMR0 (R112), MMR1 (R182), the page last used (R48) and the yellow-zone bit of the CPU error register
(R184). -/
structure SpecialFrame (s t : State) : Prop where
  par : t.mmu.par = s.mmu.par
  pdr : ∀ e : Fin 64, t.mmu.pdr[e] &&& 0o177477 = s.mmu.pdr[e] &&& 0o177477
  mmr0 : t.mmu.mmr0 &&& 0o167777 = s.mmu.mmr0 &&& 0o167777
  mmr2 : t.mmu.mmr2 = s.mmu.mmr2
  mmr3 : t.mmu.mmr3 = s.mmu.mmr3
  ubmap : t.mmu.ubmap = s.mmu.ubmap
  slr : t.ctl.slr = s.ctl.slr
  pirq : t.ctl.pirq = s.ctl.pirq
  cpuErr : t.ctl.cpuErr &&& 0o177767 = s.ctl.cpuErr &&& 0o177767
  disp : t.ctl.disp = s.ctl.disp
  swr : t.ctl.swr = s.ctl.swr
  trapPsw : t.ctl.trapPsw = s.ctl.trapPsw
  runState : t.ctl.runState = s.ctl.runState
  psw : t.psw >>> 4 = s.psw >>> 4
  params : t.params = s.params
  inputs : t.inputs = s.inputs

/-- Every address stored at is in main memory: no I/O-page register is written (R60). -/
def InMain (s : State) (dst : List Nat) : Prop := ∀ b ∈ dst, b < s.params.memCeiling

/-- What a mode that changes its register leaves: the register moved by `d`, the change recorded in MMR1 unless it is the
PC's or an abort is frozen there (R182), and everything else unchanged but for what an access may record. -/
structure SteppedBy (s t : State) (r : Reg) (d : Int) : Prop where
  reg : t.readReg r = s.readReg r + BitVec.ofInt 16 d
  others : RegFrame s t (· = r)
  pc : r ≠ .pc → t.pc = s.pc
  mmr1 : t.mmu.mmr1 = if r = .pc ∨ s.mmu.mmr0.extractLsb' 13 3 ≠ 0 then s.mmu.mmr1
    else (s.mmu.mmr1 <<< 8) ||| BitVec.ofNat 16 (8 * (d % 32).toNat + r.code)
  mem : t.mem = s.mem
  psw : t.psw = s.psw
  fpp : t.fpp = s.fpp
  special : SpecialFrame s t

/-- What an instruction leaves unchanged: memory outside the bytes stored, the coprocessor, and, unless a store went to
the I/O page, the registers outside `T` and the special registers. -/
def InstrFrame (s t : State) (T : Reg → Prop) (dst : List Nat) (len : Nat) : Prop :=
  MemFrame s t dst len ∧ t.fpp = s.fpp ∧ (InMain s dst → RegFrame s t T ∧ SpecialFrame s t)

/-- `t` with MMR0 and the CPU error register of `s`, the two registers an abort records its cause in (R84, R110). -/
def State.exceptCause (t s : State) : State :=
  (t.setMmu { t.mmu with mmr0 := s.mmu.mmr0 }).setCtl { t.ctl with cpuErr := s.ctl.cpuErr }

/-- What an instruction leaves that an abort or a trap ended before anything was stored: memory, the coprocessor, the
status word and every register outside `T` as before, and the special registers as after an access, but for the cause of
the abort (R12, R183). -/
structure AbortFrame (s t : State) (T : Reg → Prop) : Prop where
  regs : RegFrame s t T
  mem : t.mem = s.mem
  fpp : t.fpp = s.fpp
  psw : t.psw = s.psw
  special : SpecialFrame s (t.exceptCause s)

/-- What an abort leaves inside a run of word stores at `dst`: the words before it stay written, and one of them may be a
register of the I/O page; all else as in `AbortFrame` (R183, R472). -/
structure PartialStore (s t : State) (T : Reg → Prop) (dst : List Nat) : Prop where
  regs : RegFrame s t T
  mem : MemFrame s t dst 2
  fpp : t.fpp = s.fpp
  main : InMain s dst → t.psw = s.psw ∧ SpecialFrame s (t.exceptCause s)

/-- The address a push stores at (R186). -/
def pushAddress (s : State) : List Nat :=
  let s1 := s.step .sp (-2)
  match translate s1.cm (inD (s1.readReg .sp)) .write .word s1 with
  | .ok pa _ => [pa.toNat]
  | .error _ _ => []

/-- Relocation is off for every intent (R88). -/
def State.unmapped (s : State) : Prop := mmr0Enb s.mmu.mmr0 = false ∧ mmr0Mnt s.mmu.mmr0 = false

/-- What an FPP instruction leaves in the coprocessor: the registers `f`, with the exceptions `errs` of the
instruction at `addr` recorded, and the trap requested unless disabled (R413); everything else as in `s`. -/
structure FppOutcome (addr : Word) (errs : List FppError) (f : Fpp) (s t : State) : Prop where
  ac : t.fpp.ac = f.ac
  fps : t.fpp.fps = if errs = [] then f.fps else f.fps ||| 0o100000
  fec : t.fpp.fec = (errs.getLast?.map FppError.code).getD f.fec
  fea : t.fpp.fea = if errs = [] then f.fea else addr
  rest : t = (s.setFpp t.fpp).onCtl fun c =>
    { c with pending := { c.pending with fpp := c.pending.fpp || (!errs.isEmpty && !fpsFid f.fps) } }

/-- `g` is `f` with the four condition codes as given (R470). -/
def FppFlagged (f g : Fpp) (n z v c : Bool) : Prop :=
  g = { f with fps := g.fps } ∧ g.fps >>> 4 = f.fps >>> 4 ∧
    pswN g.fps = n ∧ pswZ g.fps = z ∧ pswV g.fps = v ∧ pswC g.fps = c

/-- The result of magnitude `m / 2^d`, at least 2^(N-1) and below 2^N, and exponent `e`: rounded to the nearest integer, a
half away from zero, or truncated where FT is set, a carry out of N bits moving into the exponent, and then packed
(50_fpp_state_format.md rules R410, R411). -/
def rounded (p : Prec) (fps : Word) (s : Bool) (m d : Nat) (e : Int) : FResult :=
  let f := (m + if fps.getLsbD 5 then 0 else 2 ^ (d - 1)) / 2 ^ d
  if f = 2 ^ p.bits then pack p fps s (e + 1) (2 ^ (p.bits - 1)) else pack p fps s e f

/-- The exact zero as a result (50_fpp_state_format.md rule R408). -/
def zeroResult : FResult := ⟨{}, true, false, []⟩

/-- Whether an instruction belongs to the coprocessor (R150). -/
def isFppInstr : Instr → Bool
  | .cfcc | .setf | .seti | .setd | .setl => true
  | .ldfps _ | .stfps _ | .stst _ | .clrf _ | .tstf _ | .absf _ | .negf _ => true
  | .mulf _ _ | .modf _ _ | .addf _ _ | .ldf _ _ | .subf _ _ | .cmpf _ _ | .stf _ _ | .divf _ _ => true
  | .stexp _ _ | .stcfi _ _ | .stcfd _ _ | .ldexp _ _ | .ldcif _ _ | .ldcdf _ _ => true
  | .fppIllegal _ => true
  | _ => false

end Sys2Proof.Machine
end

