-- ==== Sys2Proof/Certificates/Slice0/Obligations.lean ====
section
/-! DEFINITION. The statements for the provers, in the order of the spec: encodings, the cycle, reset and the invariants
every step keeps, operands and translation, the instructions family by family, traps and interrupts, frames. -/

open Sys2Proof Sys2Proof.Machine

/-! ### Encodings -/

/-- The encoding of every instruction decodes to it, operands and all, whatever bytes follow (R142, R146 to R150). -/
def Obligations.DecodeEncode : Prop :=
  ∀ i : Instr, i.wf = true → ∀ rest, decode (encode i ++ rest) = .ok (i, rest)

/-- Every one of the 65,536 instruction words selects one instruction, whose encoding it is (R145, which the spec marks as
derived from its tables). -/
def Obligations.EncodeDecode : Prop :=
  ∀ w : Word, (decodeWord w).wf = true ∧ encodeWord (decodeWord w) = w

/-- A few words written out from the tables of R146 to R150 and R160, one or more of each family. -/
def Obligations.DecodeWords : Prop :=
  decodeTableWord 16 0o010102 = some (.mov ⟨.direct, .gen 1⟩ ⟨.direct, .gen 2⟩) ∧
  decodeTableWord 16 0o162737 = some (.sub ⟨.autoInc, .pc⟩ ⟨.autoIncDeferred, .pc⟩) ∧
  decodeTableWord 16 0o105266 = some (.incb ⟨.index, .sp⟩) ∧
  decodeTableWord 16 0o071201 = some (.div (.gen 2) ⟨.direct, .gen 1⟩) ∧
  decodeTableWord 16 0o001376 = some (.bne 0o376) ∧
  decodeTableWord 16 0o004737 = some (.jsr .pc ⟨.autoIncDeferred, .pc⟩) ∧
  decodeTableWord 16 0o077203 = some (.sob (.gen 2) 3) ∧
  decodeTableWord 16 0o000002 = some .rti ∧
  decodeTableWord 16 0o000261 = some (.sex 1) ∧
  decodeTableWord 16 0o104445 = some (.trap 0o45) ∧
  decodeTableWord 16 0o106521 = some (.mfpd ⟨.autoInc, .gen 1⟩) ∧
  decodeTableWord 16 0o172127 = some (.addf 1 ⟨.autoInc, .pc⟩) ∧
  decodeTableWord 16 0o000210 = some (.reserved 0o000210) ∧
  decodeTableWord 16 0o170003 = some (.fppIllegal 0o170003)

/-! ### The instruction cycle -/

/-- With no interrupt due, and nothing deferred or scheduled, a step fetches the word at the PC, moves the PC past it and
executes the instruction its bytes decode to; a stepped machine then halts; a fetch that aborts takes its trap and ends
the cycle (R630 to R636, R642).
No interrupt is due when none is flagged, or at the first boundary after the priority was lowered, which only ends the
delay: exactly one more instruction runs (R630).
In the state the word is read in, the trace trap is requested exactly where PSW.T is set, and, unless an abort is frozen,
MMR1 is 0 and MMR2 the PC; nothing else has changed (R632, R633).
The state is the one after the events of the boundary, of which BoundaryEvents speaks: the state itself where nothing is
scheduled (R646). -/
def Obligations.StepRunsDecoded : Prop :=
  ∀ before s : State, s = before.takeInputs → (s.ctl.irqFlag = false ∨ s.ctl.irqDelay = true) → s.ctl.pending = {} →
    let f := { s with
      mmu := if s.mmu.mmr0.extractLsb' 13 3 = 0 then { s.mmu with mmr1 := 0, mmr2 := s.pc } else s.mmu
      ctl := { s.ctl with
        irqDelay := if s.ctl.irqFlag then false else s.ctl.irqDelay
        pending := { trace := s.psw.getLsbD 4 } } }
    (before.inputs = [] → s = before) ∧
    (∀ ir s1 i rest, memRead (inI s.pc) .word f = .ok ir s1 →
      decode (bytesOfWord ir ++ rest) = .ok (i, rest) →
      (s.ctl.runState = .run → step before = exec i (s1.setPc (s.pc + 2))) ∧
      (s.ctl.runState = .step →
        ∀ t, exec i (s1.setPc (s.pc + 2)) = .next t → step before = .next (t.setRunState .halt))) ∧
    (∀ v s1, memRead (inI s.pc) .word f = .error v s1 →
      (s.ctl.runState = .run → step before = .next (trapSeq v s1)) ∧
      (s.ctl.runState = .step → step before = .next ((trapSeq v s1).setRunState .halt)))

/-- At a boundary, an interrupt check grants exactly when some request stands above the processor's priority; PIRQ wins
over devices of its level and is not consumed, and a device's request is consumed by its grant; a waiting machine then
runs (R621, R622).
The check is made only where `irqFlag` is set, and not while `irqDelay` is: such a boundary ends the delay and nothing
else, so a lowered priority delays a grant by exactly one instruction (R630); a waiting machine checks whatever the delay
(R643).
Then one deferred trap is taken, in the order MMU trap, yellow zone, FPP exception, trace, and taking any first trap
clears the others (R602, R631).
Then the trace trap is requested exactly where PSW.T is set, MMR1 and MMR2 are loaded unless an abort is frozen, the word
at the PC is read and the PC moves past it; a fetch that aborts takes its trap (R632, R633, R635), and else the
instruction the word decodes to is executed (R634), after which a stepped machine halts (R642).
Before all that the events scheduled for the boundary happen, in their order (R646): RUN and STEP requests act on a
halted machine, HALT on any (R640), a RESET request does what the RESET instruction does in kernel mode (R702), boot
loads the image and starts it in kernel mode (R706), the hard reset is power-up but for memory and the accumulators
(R701), a device raises or withdraws its request (R620, R67); a machine that is then halted does nothing more (R645), and
one in the RESET state runs at once (R644).
The model's choices in this are that a step of a waiting or a halted machine is the events of one boundary, and that the
RESET state lasts no time (log entry 7), the schedule of events (log entry 4), and that a device which is reset holds no
request any more (log entry 5). -/
def Obligations.BoundaryEvents : Prop :=
  (∀ before s : State, s = before.takeInputs →
    (before.inputs = [] → s = before) ∧
    (∀ es rest, before.inputs = es :: rest →
      s = es.foldl (fun u e => u.applyInput e) { before with inputs := rest }) ∧
    (∀ stepping : Bool, s.ctl.runState = (if stepping then .step else .run) →
      (s.ctl.irqFlag = false → beginCycle before = afterBoundary stepping s) ∧
      (s.ctl.irqFlag = true → s.ctl.irqDelay = true →
        beginCycle before = afterBoundary stepping (s.setIrqDelay false)) ∧
      (s.ctl.irqFlag = true → s.ctl.irqDelay = false → beginCycle before = afterBoundary stepping s.interruptCheck.2)) ∧
    (s.ctl.runState = .wait →
      (s.ctl.irqFlag = false → step before = .next s) ∧
      (s.ctl.irqFlag = true →
        let g := (s.setIrqDelay false).interruptCheck
        (g.1 = false → step before = .next ((s.setIrqDelay false).setIrqFlag false)) ∧
        (g.1 = true → beginCycle before = afterBoundary false g.2))) ∧
    (s.ctl.runState = .halt → step before = .next s) ∧
    (s.ctl.runState = .reset →
      (s.ctl.irqFlag = false → beginCycle before = afterBoundary false (s.setRunState .run)) ∧
      (s.ctl.irqFlag = true → s.ctl.irqDelay = true →
        beginCycle before = afterBoundary false ((s.setRunState .run).setIrqDelay false)) ∧
      (s.ctl.irqFlag = true → s.ctl.irqDelay = false →
        beginCycle before = afterBoundary false (s.setRunState .run).interruptCheck.2))) ∧
  (∀ s : State,
    let still := s.ctl.runState = .halt
    let quiet := s.devices.map fun d => { d with request := none }
    (still → s.applyInput .run = { s with ctl := { s.ctl with runState := .run } } ∧
      s.applyInput .step = { s with ctl := { s.ctl with runState := .step } }) ∧
    (¬ still → s.applyInput .run = s ∧ s.applyInput .step = s) ∧
    s.applyInput .halt = { s with ctl := { s.ctl with runState := .halt } } ∧
    s.applyInput .reset = { s with
      devices := quiet
      mmu := { s.mmu with
        mmr0 := 0, mmr3 := 0, lastPage := 0
        par := if s.params.resetClearsPageTables then Vector.replicate 64 0 else s.mmu.par
        pdr := if s.params.resetClearsPageTables then Vector.replicate 64 0 else s.mmu.pdr }
      ctl := { s.ctl with
        pirq := 0, slr := 0, cpuErr := 0
        runState := if still ∨ s.ctl.runState = .step then .halt else .reset } } ∧
    (s.params.boot = none → s.applyInput .boot = s) ∧
    (∀ b, s.params.boot = some b → Memory.wf s.mem = true →
      ∃ m, s.applyInput .boot = { s with
          mem := m, psw := 0, pc := b.base, spm := s.spm.set 0 b.base, devices := quiet
          ctl := { s.ctl with
            pirq := 0, trapPsw := none, pending := {}, irqFlag := false, irqDelay := false, runState := .run } } ∧
        (∀ k w, b.image[k]? = some w → Memory.readWord m (b.base.toNat + 2 * k) = w) ∧
        ∀ a, a < b.base.toNat ∨ b.base.toNat + 2 * b.image.length ≤ a → Memory.read m a = Memory.read s.mem a) ∧
    s.applyInput .hardReset = { State.reset with
      mem := s.mem, params := s.params, devices := quiet, inputs := s.inputs, draws := s.draws
      fpp := { State.reset.fpp with ac := s.fpp.ac }
      ctl := { State.reset.ctl with swr := s.ctl.swr } } ∧
    (∀ v, s.applyInput (.switches v) = { s with ctl := { s.ctl with swr := v } }) ∧
    (∀ k level vector,
      (s.devices.length ≤ k → s.applyInput (.raise k level vector) = s ∧ s.applyInput (.drop k) = s) ∧
      ∀ pre d post, s.devices = pre ++ d :: post → pre.length = k →
        s.applyInput (.raise k level vector) = { s with
          devices := pre ++ { d with request := some ⟨level, vector⟩ } :: post
          ctl := { s.ctl with irqFlag := true } } ∧
        s.applyInput (.drop k) = { s with devices := pre ++ { d with request := none } :: post })) ∧
  ∀ s : State,
    let awake := fun (u : State) => if u.ctl.runState = .wait then u.setRunState .run else u
    ((s.interruptCheck).1 = true ↔
      pswPri s.psw < pirLevelField s.ctl.pirq ∨
        ∃ d ∈ s.devices, ∃ r, d.request = some r ∧ pswPri s.psw < r.level.toNat) ∧
    ((s.interruptCheck).1 = false → (s.interruptCheck).2 = s.setIrqFlag false) ∧
    (pswPri s.psw < pirLevelField s.ctl.pirq →
      (∀ d ∈ s.devices, ∀ r, d.request = some r → r.level.toNat ≤ pirLevelField s.ctl.pirq) →
      (s.interruptCheck).2 = trapSeq 0o240 ((awake s).setIrqFlag true)) ∧
    (∀ pre d post r, s.devices = pre ++ d :: post → d.request = some r →
      pswPri s.psw < r.level.toNat → pirLevelField s.ctl.pirq < r.level.toNat →
      (∀ e ∈ pre, ∀ q, e.request = some q → q.level.toNat < r.level.toNat) →
      (∀ e ∈ post, ∀ q, e.request = some q → q.level.toNat ≤ r.level.toNat) →
      (s.interruptCheck).2 =
        trapSeq r.vector ((awake (s.setDevices (pre ++ { d with request := none } :: post))).setIrqFlag true)) ∧
    (∀ stepping, s.ctl.runState ≠ .halt → s.deferredTrap.ctl.runState ≠ .halt →
      afterBoundary stepping s = fetchInstr stepping s.deferredTrap) ∧
    (∀ stepping : Bool,
      let f := { s with
        mmu := if s.mmu.mmr0.extractLsb' 13 3 = 0 then { s.mmu with mmr1 := 0, mmr2 := s.pc } else s.mmu
        ctl := { s.ctl with pending := { s.ctl.pending with trace := s.psw.getLsbD 4 } } }
      let ended := fun (u : State) => if stepping then u.setRunState .halt else u
      (∀ ir t, memRead (inI s.pc) .word f = .ok ir t →
        fetchInstr stepping s = .execute (decodeWord ir) stepping (t.setPc (s.pc + 2))) ∧
      (∀ v t, memRead (inI s.pc) .word f = .error v t → fetchInstr stepping s = .done (ended (trapSeq v t))) ∧
      ∀ i t u, beginCycle s = .execute i stepping t → exec i t = .next u → step s = .next (ended u)) ∧
    (∀ t, beginCycle s = .done t → step s = .next t) ∧
    s.deferredTrap =
      (if s.ctl.pending.mmu then trapSeq 0o250 s else if s.ctl.pending.yellow then trapSeq 0o4 s
        else if s.ctl.pending.fpp then trapSeq 0o244 s else if s.ctl.pending.trace then trapSeq 0o14 s else s) ∧
    (s.ctl.trapPsw = none → ∀ v, (trapEnter v s).2.2.ctl.pending = {})

/-! ### Reset and invariants -/

/-- The machine after power-up (R75, R700). -/
def Obligations.ResetState : Prop :=
  (∀ rs i, State.reset.readGen rs i = 0) ∧ (∀ m, State.reset.readSpm m = 0) ∧ State.reset.pc = 0 ∧
  State.reset.psw = 0 ∧ State.reset.cm = .kernel ∧ State.reset.pm = .kernel ∧
  (∀ e : Fin 64, State.reset.mmu.par[e] = 0 ∧ State.reset.mmu.pdr[e] = 0) ∧
  State.reset.mmu.mmr0 = 0 ∧ State.reset.mmu.mmr1 = 0 ∧ State.reset.mmu.mmr2 = 0 ∧ State.reset.mmu.mmr3 = 0 ∧
  (∀ k : Fin 32, State.reset.mmu.ubmap[k] = 0) ∧ State.reset.mmu.lastPage = 0 ∧
  State.reset.ctl.slr = 0 ∧ State.reset.ctl.pirq = 0 ∧ State.reset.ctl.cpuErr = 0 ∧ State.reset.ctl.disp = 0 ∧
  State.reset.ctl.trapPsw = none ∧ State.reset.ctl.pending = {} ∧
  State.reset.ctl.irqFlag = false ∧ State.reset.ctl.irqDelay = false ∧ State.reset.ctl.runState = .halt ∧
  State.reset.fpp.fps = 0 ∧ State.reset.fpp.fec = 0 ∧ State.reset.fpp.fea = 0 ∧
  (∀ k : Fin 6, State.reset.fpp.ac[k] = {}) ∧ (∀ a, Memory.read State.reset.mem a = 0)

/-- The machine after power-up meets every invariant stated below. -/
def Obligations.ResetSound : Prop :=
  State.reset.params.wf = true ∧ devicesWf State.reset.devices = true ∧ State.reset.memSound ∧
    State.reset.reservedClear = true ∧ State.reset.pirqCoherent = true ∧ State.reset.pdrReserved = true ∧
    State.reset.ubmapEven = true ∧ State.reset.illegalPagesZero ∧ State.reset.idle ∧ State.reset.irqCovered

/-- Every step keeps memory in its canonical form and inside main memory, never changes the parameters or the range of a
registered device, and so keeps the constraints on the devices (R8, R70). -/
def Obligations.StepKeepsMemory : Prop :=
  ∀ s t, s.params.wf = true → s.memSound → step s = .next t →
    t.params = s.params ∧ t.memSound ∧ t.devices.map Device.range = s.devices.map Device.range ∧
      (devicesWf s.devices = true → devicesWf t.devices = true)

/-- Every step keeps the bits that read 0 at 0 and the level fields of PIRQ computed (R26, R42, R43, R46, R47, R50, R51,
R52, R402). -/
def Obligations.StepKeepsReserved : Prop :=
  ∀ s t, s.reservedClear = true → s.pirqCoherent = true → s.pdrReserved = true → s.ubmapEven = true →
    step s = .next t →
    t.reservedClear = true ∧ t.pirqCoherent = true ∧ t.pdrReserved = true ∧ t.ubmapEven = true

/-- No step changes the page registers of mode 2 from 0 (R40). -/
def Obligations.StepKeepsIllegalPages : Prop :=
  ∀ s t, s.illegalPagesZero → step s = .next t → t.illegalPagesZero

/-- Every step keeps the invariant of R624, which the spec marks as derived: with `irqFlag` false no request stands above
the processor's priority. -/
def Obligations.StepKeepsIrqCover : Prop :=
  ∀ s t, s.irqCovered → step s = .next t → t.irqCovered

/-- No trap sequence is in progress between two steps (R65, R608). -/
def Obligations.StepLeavesIdle : Prop :=
  ∀ s t, s.idle → step s = .next t → t.idle

/-- No instruction outside the coprocessor's changes a register of the coprocessor, trapped or not (R400, R405). -/
def Obligations.FppUntouched : Prop :=
  ∀ i s t, isFppInstr i = false → exec i s = .next t → t.fpp = s.fpp

/-! ### Operands, stack and translation -/

/-- Mode 0 reads and writes the register itself; a byte operation uses and changes only bits 7:0 (R185).
A floating operand is an accumulator, of which single precision uses and changes two words (R401, R471, R472); registers 6
and 7 name none (R474).
A long integer operand is the register as its high half, with a low half of 0 (R473). -/
def Obligations.OperandsDirect : Prop :=
  (∀ r s,
    readOp ⟨.direct, r⟩ .word s = .ok (s.readReg r) s ∧
    readOp ⟨.direct, r⟩ .byte s = .ok ((lowByte (s.readReg r)).setWidth 16) s ∧
    (∀ v, writeOp ⟨.direct, r⟩ .word v s = .ok false (s.writeReg r v)) ∧
    (∀ v, writeOp ⟨.direct, r⟩ .byte v s =
      .ok false (s.writeReg r ((s.readReg r).extractLsb' 8 8 ++ lowByte v))) ∧
    (∀ f, modifyOp ⟨.direct, r⟩ .word f s = .ok (s.readReg r, false) (s.writeReg r (f (s.readReg r)))) ∧
    (∀ f, modifyOp ⟨.direct, r⟩ .byte (onByte f) s =
      .ok ((lowByte (s.readReg r)).setWidth 16, false)
        (s.writeReg r ((s.readReg r).extractLsb' 8 8 ++ f (lowByte (s.readReg r))))) ∧
    (∀ v, (s.writeReg r v).readReg r = v) ∧ (∀ v, RegFrame s (s.writeReg r v) (· = r))) ∧
  (∀ (i : Fin 6) (s : State) (v : Accum) acc,
    let a := s.fpp.ac[i]
    (∀ p, resolveF ⟨.direct, .gen i⟩ p acc s = .ok (some (.ac i)) s ∧
      resolveF ⟨.direct, .sp⟩ p acc s = .ok none s ∧ resolveF ⟨.direct, .pc⟩ p acc s = .ok none s) ∧
    readF (.ac i) .single acc s = .ok ⟨a.w0, a.w1, 0, 0⟩ s ∧ readF (.ac i) .double acc s = .ok a s ∧
    writeF (.ac i) .single v s =
      .ok () (s.setFpp { s.fpp with ac := s.fpp.ac.set i ⟨v.w0, v.w1, a.w2, a.w3⟩ }) ∧
    writeF (.ac i) .double v s = .ok () (s.setFpp { s.fpp with ac := s.fpp.ac.set i v })) ∧
  (∀ r s (v : Int),
    readInteger ⟨.direct, r⟩ false s = .ok (s.readReg r).toInt s ∧
    readInteger ⟨.direct, r⟩ true s = .ok (2 ^ 16 * (s.readReg r).toInt) s ∧
    writeInteger ⟨.direct, r⟩ false v s = .ok false (s.writeReg r (BitVec.ofInt 16 v)) ∧
    writeInteger ⟨.direct, r⟩ true v s = .ok false (s.writeReg r (BitVec.ofInt 16 (v / 2 ^ 16))))

/-- An operand in main memory: a read answers its bytes, low byte at the lower address, and a store changes exactly
them (R81, R84, R85, R125, R126, R127, R185).
A floating operand is two or four words at rising addresses, word 0 first, and a long integer two, its high half first; an
immediate is one word, the words after it 0, and the PC moves past it (R407, R471, R472, R473). -/
def Obligations.OperandsMemory : Prop :=
  (∀ sp w s va s1 pa s2, Memory.wf s.mem = true → sp.mode ≠ .direct → s2.params.wf = true →
    pa.toNat < s2.params.memCeiling →
    (w = .word → pa.getLsbD 0 = false) →
    (resolve sp w.len .read s = .ok va s1 → translate s1.cm va .read w s1 = .ok pa s2 →
      (w = .byte → readOp sp w s = .ok ((Memory.read s2.mem pa.toNat).setWidth 16) s2) ∧
      (w = .word → readOp sp w s = .ok (Memory.read s2.mem (pa.toNat + 1) ++ Memory.read s2.mem pa.toNat) s2)) ∧
    (resolve sp w.len .write s = .ok va s1 → translate s1.cm va .write w s1 = .ok pa s2 →
      ∀ v, ∃ t, writeOp sp w v s = .ok false t ∧ t = s2.setMem t.mem ∧ MemFrame s2 t [pa.toNat] w.len ∧
        Memory.read t.mem pa.toNat = lowByte v ∧
        (w = .word → Memory.read t.mem (pa.toNat + 1) = v.extractLsb' 8 8)) ∧
    (resolve sp w.len .modify s = .ok va s1 → translate s1.cm va .modify w s1 = .ok pa s2 →
      ∀ f, ∃ old t, modifyOp sp w f s = .ok (old, false) t ∧ old = readMain s2.mem pa w ∧
        t = s2.setMem t.mem ∧ MemFrame s2 t [pa.toNat] w.len ∧
        Memory.read t.mem pa.toNat = lowByte (f old) ∧
        (w = .word → Memory.read t.mem (pa.toNat + 1) = (f old).extractLsb' 8 8))) ∧
  (∀ sp p acc s va s1, sp.mode ≠ .direct → sp.isImmediate = false →
    resolve sp (if p = .single then 4 else 8) acc s = .ok va s1 → resolveF sp p acc s = .ok (some (.mem va)) s1) ∧
  (∀ va acc s t a b c d,
    (wordsAt acc va s [a, b] t →
      readF (.mem va) .single acc s =
        .ok ⟨Memory.readWord s.mem a.toNat, Memory.readWord s.mem b.toNat, 0, 0⟩ t) ∧
    (wordsAt acc va s [a, b, c, d] t →
      readF (.mem va) .double acc s =
        .ok ⟨Memory.readWord s.mem a.toNat, Memory.readWord s.mem b.toNat, Memory.readWord s.mem c.toNat,
          Memory.readWord s.mem d.toNat⟩ t)) ∧
  (∀ va s t a b c d (v : Accum), Memory.wf s.mem = true → s.params.wf = true →
    (wordsAt .write va s [a, b] t →
      ∃ m, writeF (.mem va) .single v s = .ok () (t.setMem m) ∧ MemFrame s (t.setMem m) [a.toNat, b.toNat] 2 ∧
        wordsStored m [a, b] [v.w0, v.w1]) ∧
    (wordsAt .write va s [a, b, c, d] t →
      ∃ m, writeF (.mem va) .double v s = .ok () (t.setMem m) ∧
        MemFrame s (t.setMem m) [a.toNat, b.toNat, c.toNat, d.toNat] 2 ∧
        wordsStored m [a, b, c, d] [v.w0, v.w1, v.w2, v.w3])) ∧
  (∀ p acc s t a (v : Accum) (x : Int), Memory.wf s.mem = true → s.params.wf = true →
    resolveF ⟨.autoInc, .pc⟩ p acc s = .ok (some (.imm s.pc)) s ∧
    (wordsAt acc (inI s.pc) s [a] t →
      readF (.imm s.pc) p acc s = .ok ⟨Memory.readWord s.mem a.toNat, 0, 0, 0⟩ (t.setPc (s.pc + 2))) ∧
    (wordsAt .read (inI s.pc) s [a] t →
      readInteger ⟨.autoInc, .pc⟩ true s =
        .ok (2 ^ 16 * (Memory.readWord s.mem a.toNat).toInt) (t.setPc (s.pc + 2))) ∧
    (wordsAt .write (inI s.pc) s [a] t →
      (∃ m, writeF (.imm s.pc) p v s = .ok () ((t.setMem m).setPc (s.pc + 2)) ∧ MemFrame s (t.setMem m) [a.toNat] 2 ∧
        Memory.readWord m a.toNat = v.w0) ∧
      ∃ m, writeInteger ⟨.autoInc, .pc⟩ true x s = .ok false ((t.setMem m).setPc (s.pc + 2)) ∧
        MemFrame s (t.setMem m) [a.toNat] 2 ∧ Memory.readWord m a.toNat = BitVec.ofInt 16 (x / 2 ^ 16))) ∧
  (∀ sp s va s1 t a b (x : Int), sp.mode ≠ .direct → sp.isImmediate = false → Memory.wf s.mem = true →
    s.params.wf = true →
    (resolve sp 4 .read s = .ok va s1 → wordsAt .read va s1 [a, b] t →
      readInteger sp true s =
        .ok (2 ^ 16 * (Memory.readWord s.mem a.toNat).toInt + (Memory.readWord s.mem b.toNat).toNat) t) ∧
    (resolve sp 4 .write s = .ok va s1 → wordsAt .write va s1 [a, b] t →
      ∃ m, writeInteger sp true x s = .ok false (t.setMem m) ∧ MemFrame s (t.setMem m) [a.toNat, b.toNat] 2 ∧
        wordsStored m [a, b] [BitVec.ofInt 16 (x / 2 ^ 16), BitVec.ofInt 16 x])) ∧
  (∀ sp s (x : Int),
    (∀ v s1, readOp sp .word s = .ok v s1 → readInteger sp false s = .ok v.toInt s1) ∧
    (∀ q s1, writeOp sp .word (BitVec.ofInt 16 x) s = .ok q s1 → writeInteger sp false x s = .ok q s1))

/-- The address each mode gives, and what it leaves: its register stepped and the step recorded in MMR1, the PC moved past
an index word, the stack checked where mode 4 writes through the stack pointer; a pointer or an index word that cannot be
read leaves the register as it was (R172 to R182, R184). -/
def Obligations.ResolverModes : Prop :=
  ∀ r len acc s,
    let space := fun (a : Word) => if r = .pc then inI a else inD a
    let size : Nat := if r = .pc then 2 else if r = .sp then len + len % 2 else len
    resolve ⟨.deferred, r⟩ len acc s = .ok (space (s.readReg r)) s ∧
    (∃ t, resolve ⟨.autoInc, r⟩ len acc s = .ok (space (s.readReg r)) t ∧ SteppedBy s t r size) ∧
    (∀ ptr s1, memRead (space (s.readReg r)) .word s = .ok ptr s1 →
      ∃ t, resolve ⟨.autoIncDeferred, r⟩ len acc s = .ok (inD ptr) t ∧ SteppedBy s t r 2) ∧
    (∀ v s1, memRead (space (s.readReg r)) .word s = .error v s1 →
      resolve ⟨.autoIncDeferred, r⟩ len acc s = .error v s1) ∧
    (∃ t, SteppedBy s t r (-(size : Int)) ∧
      let a := s.readReg r - BitVec.ofNat 16 size
      (acc = .read ∨ r ≠ .sp → resolve ⟨.autoDec, r⟩ len acc s = .ok (space a) t) ∧
      (acc ≠ .read → r = .sp →
        (∀ u, stackCheck a t = .ok () u → resolve ⟨.autoDec, r⟩ len acc s = .ok (space a) u) ∧
        (∀ v u, stackCheck a t = .error v u → resolve ⟨.autoDec, r⟩ len acc s = .error v u))) ∧
    (∀ ptr s1, memRead (space (s.readReg r - 2)) .word s = .ok ptr s1 →
      ∃ t, resolve ⟨.autoDecDeferred, r⟩ len acc s = .ok (inD ptr) t ∧ SteppedBy s t r (-2)) ∧
    (∀ v s1, memRead (space (s.readReg r - 2)) .word s = .error v s1 →
      resolve ⟨.autoDecDeferred, r⟩ len acc s = .error v s1) ∧
    (∀ x s1, memRead (inI s.pc) .word s = .ok x s1 →
      let base := if r = .pc then s.pc + 2 else s.readReg r
      resolve ⟨.index, r⟩ len acc s = .ok (inD (x + base)) (s1.setPc (s.pc + 2)) ∧ s1.mmu.mmr1 = s.mmu.mmr1 ∧
      (∀ ptr s2, memRead (inD (x + base)) .word (s1.setPc (s.pc + 2)) = .ok ptr s2 →
        resolve ⟨.indexDeferred, r⟩ len acc s = .ok (inD ptr) s2 ∧ s2.mmu.mmr1 = s.mmu.mmr1) ∧
      ∀ v s2, memRead (inD (x + base)) .word (s1.setPc (s.pc + 2)) = .error v s2 →
        resolve ⟨.indexDeferred, r⟩ len acc s = .error v s2) ∧
    (∀ v s1, memRead (inI s.pc) .word s = .error v s1 →
      resolve ⟨.index, r⟩ len acc s = .error v s1 ∧ resolve ⟨.indexDeferred, r⟩ len acc s = .error v s1)

/-- The stack-limit check: nothing outside kernel mode or above the limit; yellow zone deferred; red zone an abort with
the kernel stack pointer forced to 4 (R184).
A push moves the stack pointer first, whatever happens then, has the address translated before the check, and makes the
check of the new stack pointer unless told not to (R186): above the limit, outside kernel mode or unchecked it stores the
word; in the yellow zone it does so too, with the CPU error bit set and the trap left pending; in the red zone it aborts
through 4 with the stack pointer at 4 and nothing stored. -/
def Obligations.StackLimit : Prop :=
  (∀ (a : Word) (s : State),
    let sl : Nat := ((s.ctl.slr &&& 0o177400) ||| 0o377).toNat
    (s.cm ≠ .kernel ∨ sl < a.toNat → stackCheck a s = .ok () s) ∧
    (s.cm = .kernel → a.toNat ≤ sl → sl < a.toNat + 32 →
      ∃ t, stackCheck a s = .ok () t ∧ t = s.setCtl t.ctl ∧
        t.ctl = { s.ctl with cpuErr := s.ctl.cpuErr ||| 0o10, pending := { s.ctl.pending with yellow := true } }) ∧
    (s.cm = .kernel → a.toNat + 32 ≤ sl →
      ∃ t, stackCheck a s = .error 0o4 t ∧ t.ctl = { s.ctl with cpuErr := s.ctl.cpuErr ||| 0o4 } ∧
        t.readSpm .kernel = 4 ∧ t = (s.setCtl t.ctl).setSpm t.spm ∧
        ∀ m, m ≠ .kernel → t.readSpm m = s.readSpm m)) ∧
  ∀ (v : Word) (checked : Bool) (s : State),
    let sl : Nat := ((s.ctl.slr &&& 0o177400) ||| 0o377).toNat
    let a := s.readReg .sp - 2
    ∃ s1, SteppedBy s s1 .sp (-2) ∧
      (∀ e t, translate s.cm (inD a) .write .word s1 = .error e t → push v checked s = .error e t) ∧
      ∀ pa s2, translate s.cm (inD a) .write .word s1 = .ok pa s2 →
        s2.readReg .sp = a ∧ s2.mem = s.mem ∧
        (checked = true → s.cm = .kernel → a.toNat + 32 ≤ sl →
          ∃ t, push v checked s = .error 0o4 t ∧ t.ctl = { s2.ctl with cpuErr := s2.ctl.cpuErr ||| 0o4 } ∧
            t.readSpm .kernel = 4 ∧ t = (s2.setCtl t.ctl).setSpm t.spm ∧ t.mem = s.mem ∧
            ∀ m, m ≠ .kernel → t.readSpm m = s2.readSpm m) ∧
        (pa.toNat < s.params.memCeiling → pa.getLsbD 0 = false →
          let stored := s2.setMem (Memory.writeWord s.mem pa.toNat v)
          (checked = false ∨ s.cm ≠ .kernel ∨ sl < a.toNat → ∃ p, push v checked s = .ok p stored) ∧
          (checked = true → s.cm = .kernel → a.toNat ≤ sl → sl < a.toNat + 32 →
            ∃ p, push v checked s = .ok p (stored.setCtl { s2.ctl with
              cpuErr := s2.ctl.cpuErr ||| 0o10, pending := { s2.ctl.pending with yellow := true } })))

/-- With the MMU disabled for the intent, a word at an odd address faults and any other address is mapped directly,
the top 8 KB to the I/O range; either way the page last used becomes 0 (R90, R91). -/
def Obligations.DirectMapping : Prop :=
  ∀ m va acc w s, mmuEnabled s.mmu.mmr0 acc = false →
    let s0 := s.onMmu fun u => { u with lastPage := 0 }
    (w = .word → va.addr.getLsbD 0 = true →
      translate m va acc w s = .error 0o4 (s0.onCtl fun c => { c with cpuErr := c.cpuErr ||| 0o100 })) ∧
    (w = .byte ∨ va.addr.getLsbD 0 = false →
      ∃ pa, translate m va acc w s = .ok pa s0 ∧
        pa.toNat = (if va.addr.toNat < 0o160000 then va.addr.toNat else va.addr.toNat + 0o17600000))

/-- A mapped access whose address the ceiling test refuses aborts through 4, whatever the page allows; one to a page that
does not allow it, or that is too short for it, aborts through 0o250 with memory unchanged, A and W set as the
access-control field says, and, unless an abort is frozen, the cause in MMR0 (R103 to R110, R113). -/
def Obligations.PageProtection : Prop :=
  ∀ m va acc w s, s.params.wf = true → (s.mmu.mmr0.getLsbD 0 || (s.mmu.mmr0.getLsbD 8 && acc.wr)) = true →
    let p := mappedPage s.mmu.mmr3 m va
    let e := pageEntry m p
    let d := s.mmu.pdr[e]
    let acf := (d.extractLsb' 0 3).toNat
    let plf := (d.extractLsb' 8 7).toNat
    let blk := (va.addr.extractLsb' 6 7).toNat
    let anr := acf == 0 || acf == 3 || acf == 7
    let aro := (acf == 1 || acf == 2) && acc.wr
    let apl := if d.getLsbD 3 then decide (blk < plf) else decide (plf < blk)
    (∀ b, mappedAddress s m va w = .error b →
      translate m va acc w s = .error 0o4 (s.setCtl { s.ctl with cpuErr := s.ctl.cpuErr ||| BitVec.ofNat 16 (2 ^ b) })) ∧
    (∀ a, mappedAddress s m va w = .ok a → (anr || aro || apl) = true →
      ∃ t, translate m va acc w s = .error 0o250 t ∧
        t = s.setMmu { s.mmu with
          pdr := s.mmu.pdr.set e (if anr || aro then d else d ||| 0o200 ||| (if acc.wr then 0o100 else 0))
          lastPage := if a = 0o17777572 then s.mmu.lastPage else BitVec.ofNat 6 (16 * (modeNumber m).val + p.val)
          mmr0 := t.mmu.mmr0 } ∧
        (s.mmu.mmr0.extractLsb' 13 3 = 0 →
          t.mmu.mmr0.getLsbD 15 = anr ∧ t.mmu.mmr0.getLsbD 14 = apl ∧ t.mmu.mmr0.getLsbD 13 = aro ∧
          t.mmu.mmr0.extractLsb' 8 5 = s.mmu.mmr0.extractLsb' 8 5 ∧
          t.mmu.mmr0.getLsbD 7 = (s.mmu.mmr0.getLsbD 7 || s.ctl.trapPsw.isSome) ∧
          t.mmu.mmr0.extractLsb' 1 6 = t.mmu.lastPage ∧ t.mmu.mmr0.getLsbD 0 = s.mmu.mmr0.getLsbD 0) ∧
        (s.mmu.mmr0.extractLsb' 13 3 ≠ 0 → t.mmu.mmr0 = s.mmu.mmr0))

/-- A mapped translation succeeds exactly where the ceiling test admits the address and the page allows the access and
reaches so far.
It gives the address of R102 to R104: page base plus offset, truncated or folded, and through the Unibus window where it
falls there.
It leaves the page recorded as the last used but at the address of MMR0, its A bit set, its W bit too for a write, every
other page register as it was, and the MMU trap requested where the page asks for it (R101 to R109, R112). -/
def Obligations.MappedAccess : Prop :=
  ∀ m va acc w s, s.params.wf = true → (s.mmu.mmr0.getLsbD 0 || (s.mmu.mmr0.getLsbD 8 && acc.wr)) = true →
    let p := mappedPage s.mmu.mmr3 m va
    let e := pageEntry m p
    let d := s.mmu.pdr[e]
    let acf := (d.extractLsb' 0 3).toNat
    let plf := (d.extractLsb' 8 7).toNat
    let blk := (va.addr.extractLsb' 6 7).toNat
    let traps := (acf == 1 && !acc.wr) || acf == 4 || (acf == 5 && acc.wr)
    let asks := traps && s.mmu.mmr0.extractLsb' 12 4 == 0
    let allowed := (acf = 4 ∨ acf = 5 ∨ acf = 6 ∨ (acc.wr = false ∧ (acf = 1 ∨ acf = 2))) ∧
      (d.getLsbD 3 = false → blk ≤ plf) ∧ (d.getLsbD 3 = true → plf ≤ blk)
    (∀ a, mappedAddress s m va w = .ok a → allowed → ∃ pa t, translate m va acc w s = .ok pa t) ∧
    ∀ pa t, translate m va acc w s = .ok pa t →
      mappedAddress s m va w = .ok pa.toNat ∧ allowed ∧
      t.mmu = { s.mmu with
        pdr := s.mmu.pdr.set e (d ||| 0o200 ||| (if acc.wr then 0o100 else 0))
        lastPage := if pa.toNat = 0o17777572 then s.mmu.lastPage else BitVec.ofNat 6 (16 * (modeNumber m).val + p.val)
        mmr0 := if asks then s.mmu.mmr0 ||| 0o10000 else s.mmu.mmr0 } ∧
      t.ctl = { s.ctl with
        pending := { s.ctl.pending with mmu := s.ctl.pending.mmu || (asks && s.mmu.mmr0.getLsbD 9) } } ∧
      t = (s.setMmu t.mmu).setCtl t.ctl

/-- What software reads in the core-owned registers, and what a word or a byte written to one leaves in it (R29, R41 to
R53, R60, R61, R84, R85): reading changes nothing, a byte read is its half of the word read, a byte written is the word
written with the other half as read.
An address of the I/O range with neither such a register nor a device times out (R62, R97), a word at an odd address too
(90_conflicts.md C7).
One in the range of a device is answered by that device, its value at the width of the access; a fault it answers is a bus
timeout through 4; the answer may change the device's request, and one that raises it flags the interrupt check; no other
device is touched (R96 to R98).
What a device answers is the free value `Config.deviceReply` (log entry 3).
Below the I/O range a word at an odd address is refused, and so is an address at or above the ceiling (R84, R85).
That the byte written to the display is merged with the switches is log entry 10, and that a core-owned register answers a
word at its odd address as at its even one is log entry 18, both the model's choice.
A write of the status word changes nothing else, but that one which lowers the priority flags the interrupt check with its
one-instruction delay (R28, R29). -/
def Obligations.CoreRegisters : Prop :=
  ∀ (s : State) (v : Word), s.params.wf = true →
    (let lowering := fun (t : State) => t = (s.setPsw t.psw).setCtl t.ctl ∧
       (pswPri t.psw < pswPri s.psw → t.ctl = { s.ctl with irqFlag := true, irqDelay := true }) ∧
       (pswPri s.psw ≤ pswPri t.psw → t.ctl = s.ctl)
     (∃ t, physWrite 0o17777776 .word v s = .ok () t ∧ t.psw = (v &&& 0o174357) ||| (s.psw &&& 0o20) ∧ lowering t) ∧
     (∃ t, physWrite 0o17777776 .byte v s = .ok () t ∧ t.psw = (s.psw &&& 0o174020) ||| (v &&& 0o357) ∧ lowering t) ∧
     (∃ t, physWrite 0o17777777 .byte v s = .ok () t ∧ t.psw = ((v <<< 8) &&& 0o174000) ||| (s.psw &&& 0o377) ∧
       lowering t)) ∧
    (∃ t, physWrite 0o17777774 .word v s = .ok () t ∧ t.ctl.slr = v &&& 0o177400 ∧ t.psw = s.psw) ∧
    (∃ t, physWrite 0o17777772 .word v s = .ok () t ∧ t.ctl.pirq &&& 0o177000 = v &&& 0o177000 ∧
      t.ctl.pirq &&& 0o421 = 0 ∧ t.ctl.irqFlag = true ∧ t.ctl.pirq.extractLsb' 1 3 = t.ctl.pirq.extractLsb' 5 3 ∧
      (∀ k : Fin 8, t.ctl.pirq.getLsbD (8 + k.val) = true → k.val ≤ pirLevelField t.ctl.pirq) ∧
      (pirLevelField t.ctl.pirq ≠ 0 → t.ctl.pirq.getLsbD (8 + pirLevelField t.ctl.pirq) = true)) ∧
    (∃ t, physWrite 0o17777766 .word v s = .ok () t ∧ t.ctl.cpuErr = 0) ∧
    (∃ t, physWrite 0o17777572 .word v s = .ok () t ∧
      t.mmu.mmr0 = (v &&& 0o171601) ||| (s.mmu.mmr0 &&& 0o000176)) ∧
    physWrite 0o17777574 .word v s = .ok () s ∧ physWrite 0o17777576 .word v s = .ok () s ∧
    physWrite 0o17777570 .word v s = .ok () (s.setCtl { s.ctl with disp := v }) ∧
    (∃ t, physWrite 0o17772516 .word v s = .ok () t ∧ t.mmu.mmr3 = v &&& 0o67) ∧
    (∀ p : Fin 8, ∀ b : PAddr × ProcMode × Nat,
      b ∈ [(0o17772300, .kernel, 0), (0o17772320, .kernel, 8), (0o17772200, .supervisor, 0),
        (0o17772220, .supervisor, 8), (0o17777600, .user, 0), (0o17777620, .user, 8)] →
      let e := pageEntry b.2.1 (Fin.ofNat 16 (b.2.2 + p.val))
      let a := b.1 + BitVec.ofNat 22 (2 * p.val)
      (∃ t, physWrite a .word v s = .ok () t ∧ t.mmu.pdr = s.mmu.pdr.set e (v &&& 0o077417) ∧
        t.mmu.par = s.mmu.par) ∧
      (∃ t, physWrite (a + 0o40) .word v s = .ok () t ∧ t.mmu.par = s.mmu.par.set e v ∧
        t.mmu.pdr = s.mmu.pdr.set e (s.mmu.pdr[e] &&& 0o177477)) ∧
      physRead a .word s = .ok s.mmu.pdr[e] s ∧ physRead (a + 0o40) .word s = .ok s.mmu.par[e] s) ∧
    (∀ k : Fin 32,
      let a : PAddr := 0o17770200 + BitVec.ofNat 22 (4 * k.val)
      let u := s.mmu.ubmap[k]
      physWrite a .word v s = .ok () (s.setMmu { s.mmu with
        ubmap := s.mmu.ubmap.set k ((u &&& 0o17600000) ||| (v &&& 0o177776).setWidth 22) }) ∧
      physWrite (a + 2) .word v s = .ok () (s.setMmu { s.mmu with
        ubmap := s.mmu.ubmap.set k (((v &&& 0o77).setWidth 22 <<< 16) ||| (u &&& 0o177777)) }) ∧
      physRead a .word s = .ok (u.setWidth 16) s ∧ physRead (a + 2) .word s = .ok ((u >>> 16).setWidth 16) s) ∧
    physRead 0o17777776 .word s = .ok s.psw s ∧ physRead 0o17777774 .word s = .ok s.ctl.slr s ∧
    physRead 0o17777772 .word s = .ok s.ctl.pirq s ∧ physRead 0o17777766 .word s = .ok s.ctl.cpuErr s ∧
    physRead 0o17777572 .word s = .ok (if s.mmu.mmr0.extractLsb' 13 3 = 0
      then (s.mmu.mmr0 &&& 0o177601) ||| (s.mmu.lastPage.setWidth 16 <<< 1) else s.mmu.mmr0) s ∧
    physRead 0o17777574 .word s = .ok s.mmu.mmr1 s ∧ physRead 0o17777576 .word s = .ok s.mmu.mmr2 s ∧
    physRead 0o17777570 .word s = .ok s.ctl.swr s ∧ physRead 0o17772516 .word s = .ok s.mmu.mmr3 s ∧
    (∀ a : PAddr, coreWord a.toNat = true →
      ∃ u, physRead a .word s = .ok u s ∧ physRead (a + 1) .word s = .ok u s ∧
        physRead a .byte s = .ok ((lowByte u).setWidth 16) s ∧
        physRead (a + 1) .byte s = .ok ((u.extractLsb' 8 8).setWidth 16) s ∧
        physWrite (a + 1) .word v s = physWrite a .word v s ∧
        physWrite a .byte v s = physWrite a .word (u.extractLsb' 8 8 ++ lowByte v) s ∧
        physWrite (a + 1) .byte v s = physWrite a .word (lowByte v ++ lowByte u) s) ∧
    (∀ (a : PAddr) w, 0o17760000 ≤ a.toNat → coreWord (a.toNat / 2 * 2) = false →
      ((∀ d ∈ s.devices, d.contains a = false) →
        let t := s.setCtl { s.ctl with cpuErr := s.ctl.cpuErr ||| 0o20 }
        physRead a w s = .error 0o4 t ∧ physWrite a w v s = .error 0o4 t) ∧
      ∀ pre d post, s.devices = pre ++ d :: post → d.contains a = true → (∀ e ∈ pre, e.contains a = false) →
        let r := Config.deviceReply s.draws
        let request := match r.change with
          | .keep => d.request
          | .drop => none
          | .raise level vector => some ⟨level, vector⟩
        let raised : Bool := match r.change with
          | .raise _ _ => true
          | _ => false
        let t := { s with
          draws := s.draws + 1
          devices := pre ++ { d with request := request } :: post
          ctl := { s.ctl with irqFlag := s.ctl.irqFlag || raised } }
        let f := t.setCtl { t.ctl with cpuErr := s.ctl.cpuErr ||| 0o20 }
        (r.fault = true → physRead a w s = .error 0o4 f ∧ physWrite a w v s = .error 0o4 f) ∧
        (r.fault = false →
          physRead a w s = .ok (if w = .byte then r.value &&& 0o377 else r.value) t ∧ physWrite a w v s = .ok () t)) ∧
    (∀ (a : PAddr) w, a.toNat < 0o17760000 →
      (w = .word → a.getLsbD 0 = true →
        let t := s.setCtl { s.ctl with cpuErr := s.ctl.cpuErr ||| 0o100 }
        physRead a w s = .error 0o4 t ∧ physWrite a w v s = .error 0o4 t) ∧
      (w = .byte ∨ a.getLsbD 0 = false → s.params.memCeiling ≤ a.toNat →
        let t := s.setCtl { s.ctl with cpuErr := s.ctl.cpuErr ||| 0o40 }
        physRead a w s = .error 0o4 t ∧ physWrite a w v s = .error 0o4 t))

/-! ### Double-operand and single-operand instructions -/

/-- MOV and MOVB store the source; a register receives the sign-extended byte of MOVB (R203, R204). -/
def Obligations.MovResult : Prop :=
  ∀ ss dd s src s1,
    (readOp ss .word s = .ok src s1 → ∀ p s2, writeOp dd .word src s1 = .ok p s2 →
      ∃ t, exec (.mov ss dd) s = .next t ∧ StoredFlags p s2 t src.msb (src == 0) false s.carry) ∧
    (readOp ss .byte s = .ok src s1 →
      (∀ p s2, dd.mode ≠ .direct → writeOp dd .byte src s1 = .ok p s2 →
        ∃ t, exec (.movb ss dd) s = .next t ∧
          StoredFlags p s2 t (lowByte src).msb (lowByte src == 0) false s.carry) ∧
      (dd.mode = .direct →
        ∃ t, exec (.movb ss dd) s = .next t ∧
          Flagged (s1.writeReg dd.reg ((lowByte src).signExtend 16)) t (lowByte src).msb (lowByte src == 0) false
            s.carry))

/-- CMP, CMPB, BIT, BITB, TST and TSTB read their operands, store nothing and set the flags (R205 to R208, R245,
R246).
That they set them where the destination is the processor status word too, which they only read, is log entry 19, the
model's choice. -/
def Obligations.CompareResult : Prop :=
  ∀ ss dd s src s1 dst s2,
    (readOp ss .word s = .ok src s1 → readOp dd .word s1 = .ok dst s2 →
      (∃ t, exec (.cmp ss dd) s = .next t ∧
        Flagged s2 t (src - dst).msb (src - dst == 0) (src.msb != dst.msb && (src - dst).msb == dst.msb)
          (decide (src.toNat < dst.toNat))) ∧
      (∃ t, exec (.bit ss dd) s = .next t ∧ Flagged s2 t (src &&& dst).msb (src &&& dst == 0) false s.carry)) ∧
    (readOp ss .byte s = .ok src s1 → readOp dd .byte s1 = .ok dst s2 →
      (∃ t, exec (.cmpb ss dd) s = .next t ∧
        let a := lowByte src
        let b := lowByte dst
        Flagged s2 t (a - b).msb (a - b == 0) (a.msb != b.msb && (a - b).msb == b.msb)
          (decide (a.toNat < b.toNat))) ∧
      (∃ t, exec (.bitb ss dd) s = .next t ∧
        Flagged s2 t (lowByte src &&& lowByte dst).msb (lowByte src &&& lowByte dst == 0) false s.carry)) ∧
    (readOp dd .word s = .ok dst s2 →
      ∃ t, exec (.tst dd) s = .next t ∧ Flagged s2 t dst.msb (dst == 0) false false) ∧
    (readOp dd .byte s = .ok dst s2 →
      ∃ t, exec (.tstb dd) s = .next t ∧ Flagged s2 t (lowByte dst).msb (lowByte dst == 0) false false)

/-- BIC, BICB, BIS, BISB and XOR: the result stored, N and Z from it, V cleared, C kept (R209 to R212, R285). -/
def Obligations.LogicResult : Prop :=
  (∀ ss dd s src s1, readOp ss .word s = .ok src s1 →
    ModifyGives (.bic ss dd) s s1 dd .word (fun d => d &&& ~~~src) (fun d => (d &&& ~~~src).msb)
      (fun d => d &&& ~~~src == 0) (fun _ => false) (fun _ => s.carry) ∧
    ModifyGives (.bis ss dd) s s1 dd .word (fun d => d ||| src) (fun d => (d ||| src).msb)
      (fun d => d ||| src == 0) (fun _ => false) (fun _ => s.carry)) ∧
  (∀ ss dd s src s1, readOp ss .byte s = .ok src s1 →
    ModifyGives (.bicb ss dd) s s1 dd .byte (onByte fun d => d &&& ~~~lowByte src)
      (fun d => (lowByte d &&& ~~~lowByte src).msb) (fun d => lowByte d &&& ~~~lowByte src == 0) (fun _ => false)
      (fun _ => s.carry) ∧
    ModifyGives (.bisb ss dd) s s1 dd .byte (onByte fun d => d ||| lowByte src)
      (fun d => (lowByte d ||| lowByte src).msb) (fun d => lowByte d ||| lowByte src == 0) (fun _ => false)
      (fun _ => s.carry)) ∧
  (∀ r dd s pl s1 old p s2, resolvePlace dd .word .modify s = .ok pl s1 →
    modifyPlace pl .word (fun d => d ^^^ s1.readReg r) s1 = .ok (old, p) s2 →
    ∃ t, exec (.xor r dd) s = .next t ∧
      StoredFlags p s2 t (old ^^^ s1.readReg r).msb (old ^^^ s1.readReg r == 0) false s.carry)

/-- ADD and SUB: the sum, and destination minus source, with the carry and the borrow (R213, R214). -/
def Obligations.AddSubResult : Prop :=
  ∀ ss dd s src s1, readOp ss .word s = .ok src s1 →
    ModifyGives (.add ss dd) s s1 dd .word (fun d => d + src) (fun d => (d + src).msb) (fun d => d + src == 0)
      (fun d => src.msb == d.msb && (d + src).msb != src.msb) (fun d => decide (2 ^ 16 ≤ d.toNat + src.toNat)) ∧
    ModifyGives (.sub ss dd) s s1 dd .word (fun d => d - src) (fun d => (d - src).msb) (fun d => d - src == 0)
      (fun d => src.msb != d.msb && (d - src).msb == src.msb) (fun d => decide (d.toNat < src.toNat))

/-- CLR, CLRB and SXT write their destination without reading it (R231, R232, R256; that SXT too leaves the flags alone
where it stores in the status word is log entry 9). -/
def Obligations.ClearExtendResult : Prop :=
  ∀ dd s p s1,
    (writeOp dd .word 0 s = .ok p s1 →
      ∃ t, exec (.clr dd) s = .next t ∧ StoredFlags p s1 t false true false false) ∧
    (writeOp dd .byte 0 s = .ok p s1 →
      ∃ t, exec (.clrb dd) s = .next t ∧ StoredFlags p s1 t false true false false) ∧
    (writeOp dd .word (if pswN s.psw then 0o177777 else 0) s = .ok p s1 →
      ∃ t, exec (.sxt dd) s = .next t ∧ StoredFlags p s1 t (pswN s.psw) (!pswN s.psw) false s.carry)

/-- COM, NEG, their byte forms, and SWAB (R233, R234, R239, R240, R255). -/
def Obligations.ComplementResult : Prop :=
  ∀ dd s,
    ModifyGives (.com dd) s s dd .word (fun d => ~~~d) (fun d => (~~~d).msb) (fun d => ~~~d == 0) (fun _ => false)
      (fun _ => true) ∧
    ModifyGives (.comb dd) s s dd .byte (onByte fun d => ~~~d) (fun d => (~~~lowByte d).msb)
      (fun d => ~~~lowByte d == 0) (fun _ => false) (fun _ => true) ∧
    ModifyGives (.neg dd) s s dd .word (fun d => 0 - d) (fun d => (0 - d).msb) (fun d => d == 0)
      (fun d => 0 - d == 0o100000) (fun d => d != 0) ∧
    ModifyGives (.negb dd) s s dd .byte (onByte fun d => 0 - d) (fun d => (0 - lowByte d).msb)
      (fun d => lowByte d == 0) (fun d => 0 - lowByte d == 0o200) (fun d => lowByte d != 0) ∧
    ModifyGives (.swab dd) s s dd .word (fun d => d.extractLsb' 0 8 ++ d.extractLsb' 8 8) (fun d => d.getLsbD 15)
      (fun d => d.extractLsb' 8 8 == 0) (fun _ => false) (fun _ => false)

/-- INC, DEC and their byte forms; C is kept (R235 to R238). -/
def Obligations.IncrementResult : Prop :=
  ∀ dd s,
    ModifyGives (.inc dd) s s dd .word (fun d => d + 1) (fun d => (d + 1).msb) (fun d => d + 1 == 0)
      (fun d => d == 0o077777) (fun _ => s.carry) ∧
    ModifyGives (.incb dd) s s dd .byte (onByte fun d => d + 1) (fun d => (lowByte d + 1).msb)
      (fun d => lowByte d + 1 == 0) (fun d => lowByte d == 0o177) (fun _ => s.carry) ∧
    ModifyGives (.dec dd) s s dd .word (fun d => d - 1) (fun d => (d - 1).msb) (fun d => d - 1 == 0)
      (fun d => d == 0o100000) (fun _ => s.carry) ∧
    ModifyGives (.decb dd) s s dd .byte (onByte fun d => d - 1) (fun d => (lowByte d - 1).msb)
      (fun d => lowByte d - 1 == 0) (fun d => lowByte d == 0o200) (fun _ => s.carry)

/-- ADC, SBC and their byte forms (R241 to R244). -/
def Obligations.CarryResult : Prop :=
  ∀ dd s,
    let c1 : Word := if s.carry then 1 else 0
    let c8 : Byte := if s.carry then 1 else 0
    ModifyGives (.adc dd) s s dd .word (fun d => d + c1) (fun d => (d + c1).msb) (fun d => d + c1 == 0)
      (fun d => d == 0o077777 && s.carry) (fun d => d == 0o177777 && s.carry) ∧
    ModifyGives (.adcb dd) s s dd .byte (onByte fun d => d + c8) (fun d => (lowByte d + c8).msb)
      (fun d => lowByte d + c8 == 0) (fun d => lowByte d == 0o177 && s.carry)
      (fun d => lowByte d == 0o377 && s.carry) ∧
    ModifyGives (.sbc dd) s s dd .word (fun d => d - c1) (fun d => (d - c1).msb) (fun d => d - c1 == 0)
      (fun d => d == 0o100000 && s.carry) (fun d => d == 0 && s.carry) ∧
    ModifyGives (.sbcb dd) s s dd .byte (onByte fun d => d - c8) (fun d => (lowByte d - c8).msb)
      (fun d => lowByte d - c8 == 0) (fun d => lowByte d == 0o200 && s.carry) (fun d => lowByte d == 0 && s.carry)

/-- ROR, ROL, ASR, ASL and their byte forms: C is the bit shifted out, V the exclusive-or of the new N and C (R247 to
R254). -/
def Obligations.ShiftOneResult : Prop :=
  ∀ dd s,
    let c1 : BitVec 1 := BitVec.ofBool s.carry
    ModifyGives (.ror dd) s s dd .word (fun d => c1 ++ d.extractLsb' 1 15) (fun _ => s.carry)
      (fun d => !s.carry && d.extractLsb' 1 15 == 0) (fun d => s.carry != d.getLsbD 0) (fun d => d.getLsbD 0) ∧
    ModifyGives (.rorb dd) s s dd .byte (onByte fun d => c1 ++ d.extractLsb' 1 7) (fun _ => s.carry)
      (fun d => !s.carry && d.extractLsb' 1 7 == 0) (fun d => s.carry != d.getLsbD 0) (fun d => d.getLsbD 0) ∧
    ModifyGives (.rol dd) s s dd .word (fun d => d.extractLsb' 0 15 ++ c1) (fun d => d.getLsbD 14)
      (fun d => !s.carry && d.extractLsb' 0 15 == 0) (fun d => d.getLsbD 14 != d.getLsbD 15) (fun d => d.getLsbD 15) ∧
    ModifyGives (.rolb dd) s s dd .byte (onByte fun d => d.extractLsb' 0 7 ++ c1) (fun d => d.getLsbD 6)
      (fun d => !s.carry && d.extractLsb' 0 7 == 0) (fun d => d.getLsbD 6 != d.getLsbD 7) (fun d => d.getLsbD 7) ∧
    ModifyGives (.asr dd) s s dd .word (fun d => d.sshiftRight 1) (fun d => d.msb)
      (fun d => d.sshiftRight 1 == 0) (fun d => d.msb != d.getLsbD 0) (fun d => d.getLsbD 0) ∧
    ModifyGives (.asrb dd) s s dd .byte (onByte fun d => d.sshiftRight 1) (fun d => (lowByte d).msb)
      (fun d => (lowByte d).sshiftRight 1 == 0) (fun d => (lowByte d).msb != d.getLsbD 0) (fun d => d.getLsbD 0) ∧
    ModifyGives (.asl dd) s s dd .word (fun d => d + d) (fun d => d.getLsbD 14) (fun d => d + d == 0)
      (fun d => d.getLsbD 14 != d.getLsbD 15) (fun d => d.getLsbD 15) ∧
    ModifyGives (.aslb dd) s s dd .byte (onByte fun d => d + d) (fun d => d.getLsbD 6)
      (fun d => lowByte d + lowByte d == 0) (fun d => d.getLsbD 6 != d.getLsbD 7) (fun d => d.getLsbD 7)

/-! ### Register-source instructions -/

/-- MUL: the 32-bit signed product in the register pair, high word first (R280, R281). -/
def Obligations.MulResult : Prop :=
  ∀ r ss s src s1, readOp ss .word s = .ok src s1 →
    let p : Int := (s1.readReg r).toInt * src.toInt
    ∃ t, exec (.mul r ss) s = .next t ∧
      Flagged ((s1.writeReg r (BitVec.ofInt 16 (p / 2 ^ 16))).writeReg (regOrOne r) (BitVec.ofInt 16 p)) t
        (decide (p < 0)) (decide (p = 0)) false (decide (p < -2 ^ 15 ∨ 2 ^ 15 ≤ p))

/-- DIV: quotient truncated toward zero and remainder with the sign of the dividend; a zero divisor and a quotient
that does not fit leave the registers unchanged (R280, R282; log entry 13). -/
def Obligations.DivResult : Prop :=
  ∀ r ss s src s1, readOp ss .word s = .ok src s1 →
    let d : Int := (s1.readReg r ++ s1.readReg (regOrOne r)).toInt
    let q : Int := d.tdiv src.toInt
    ∃ t, exec (.div r ss) s = .next t ∧
      (src = 0 → Flagged s1 t false true true true) ∧
      (src ≠ 0 → ¬ (-2 ^ 15 ≤ q ∧ q < 2 ^ 15) → Flagged s1 t (decide (q < 0)) false true false) ∧
      (src ≠ 0 → -2 ^ 15 ≤ q → q < 2 ^ 15 →
        Flagged ((s1.writeReg r (BitVec.ofInt 16 q)).writeReg (regOrOne r)
          (BitVec.ofInt 16 (d.tmod src.toInt))) t (decide (q < 0)) (decide (q = 0)) false false)

/-- ASH and ASHC: an arithmetic shift of one register, or of a pair, by a signed six-bit count (R283, R284). -/
def Obligations.ArithmeticShiftResult : Prop :=
  ∀ r ss s src s1, readOp ss .word s = .ok src s1 →
    let n : Int := (src.extractLsb' 0 6).toInt
    let k : Nat := n.natAbs
    (let d := s1.readReg r
     ∃ t res v c, exec (.ash r ss) s = .next t ∧ Flagged (s1.writeReg r res) t res.msb (res == 0) v c ∧
      (n = 0 → res = d ∧ v = false ∧ c = false) ∧
      (0 < n → res = d <<< k ∧ c = (decide (k ≤ 16) && d.getLsbD (16 - k)) ∧
        (v = false ↔ ∀ j ≤ k, (decide (j ≤ 15) && d.getLsbD (15 - j)) = d.msb)) ∧
      (n < 0 → res = BitVec.ofInt 16 (d.toInt / 2 ^ k) ∧ v = false ∧
        c = if k ≤ 16 then d.getLsbD (k - 1) else d.msb)) ∧
    (let d := s1.readReg r ++ s1.readReg (regOrOne r)
     ∃ t, ∃ (res : BitVec 32) (v c : Bool), exec (.ashc r ss) s = .next t ∧
      Flagged ((s1.writeReg r (res.extractLsb' 16 16)).writeReg (regOrOne r) (res.extractLsb' 0 16)) t res.msb
        (res == 0) v c ∧
      (n = 0 → res = d ∧ v = false ∧ c = false) ∧
      (0 < n → res = d <<< k ∧ c = d.getLsbD (32 - k) ∧
        (v = false ↔ ∀ j ≤ k, d.getLsbD (31 - j) = d.msb)) ∧
      (n < 0 → res = BitVec.ofInt 32 (d.toInt / 2 ^ k) ∧ v = false ∧ c = d.getLsbD (k - 1)))

/-! ### Control transfer -/

/-- The fifteen branches: the PC moves by twice the signed offset exactly where the condition holds, and nothing else
changes (R300 to R315). -/
def Obligations.BranchResult : Prop :=
  ∀ (off : BitVec 8) (s : State),
    let n := pswN s.psw
    let z := pswZ s.psw
    let v := pswV s.psw
    let c := pswC s.psw
    let moved := s.setPc (s.pc + BitVec.ofInt 16 (2 * off.toInt))
    exec (.br off) s = .next moved ∧
    exec (.bne off) s = .next (if z = false then moved else s) ∧
    exec (.beq off) s = .next (if z = true then moved else s) ∧
    exec (.bge off) s = .next (if (n ^^ v) = false then moved else s) ∧
    exec (.blt off) s = .next (if (n ^^ v) = true then moved else s) ∧
    exec (.bgt off) s = .next (if (z || (n ^^ v)) = false then moved else s) ∧
    exec (.ble off) s = .next (if (z || (n ^^ v)) = true then moved else s) ∧
    exec (.bpl off) s = .next (if n = false then moved else s) ∧
    exec (.bmi off) s = .next (if n = true then moved else s) ∧
    exec (.bhi off) s = .next (if (c || z) = false then moved else s) ∧
    exec (.blos off) s = .next (if (c || z) = true then moved else s) ∧
    exec (.bvc off) s = .next (if v = false then moved else s) ∧
    exec (.bvs off) s = .next (if v = true then moved else s) ∧
    exec (.bcc off) s = .next (if c = false then moved else s) ∧
    exec (.bcs off) s = .next (if c = true then moved else s)

/-- SOB: the register is decremented, and the PC moves back by twice the offset unless it became 0; nothing else changes,
so flags are unchanged, no memory is accessed and no exception is raised (R324). -/
def Obligations.SobResult : Prop :=
  ∀ r (off : BitVec 6) s,
    ∃ t, exec (.sob r off) s = .next t ∧ t.psw = s.psw ∧ InstrFrame s t (· = r) [] 0 ∧
      (r ≠ .pc → t.readReg r = s.readReg r - 1 ∧
        (t.pc = if s.readReg r = 1 then s.pc else s.pc - BitVec.ofNat 16 (2 * off.toNat)) ∧
        t = (s.writeReg r (s.readReg r - 1)).setPc t.pc) ∧
      (r = .pc → t = if s.pc = 1 then s.setPc 0 else s.setPc (s.pc - 1 - BitVec.ofNat 16 (2 * off.toNat)))

/-- JMP goes to the address of its operand; JSR pushes the link register first, then puts the PC in it and goes to the
address resolved before the push; mode 0 traps, nothing pushed (R171, R320, R321).
The push moves the stack pointer down by 2 and stores the word there (R186); that it checks the stack limit is said in
StackLimit, and what its abort leaves in FrameFlow.
The last clause says of mode 1 with relocation off, on conditions of the state alone, that both complete. -/
def Obligations.JumpResult : Prop :=
  ∀ r dd s,
    (∀ va s1, resolve dd 2 .read s = .ok va s1 →
      exec (.jmp dd) s = .next (s1.setPc va.addr) ∧
      ∀ p s2, push (s1.readReg r) true s1 = .ok p s2 →
        exec (.jsr r dd) s = .next ((s2.writeReg r s1.pc).setPc va.addr) ∧
        (Memory.wf s1.mem = true → ∀ a, pushAddress s1 = [a] → a < s1.params.memCeiling →
          s2.readReg .sp = s1.readReg .sp - 2 ∧ Memory.readWord s2.mem a = s1.readReg r ∧
            MemFrame s1 s2 [a] 2 ∧ RegFrame s1 s2 (· = .sp) ∧ s2.psw = s1.psw ∧ s2.pc = s1.pc)) ∧
    (dd.mode = .deferred →
      exec (.jmp dd) s = .next (s.setPc (s.readReg dd.reg)) ∧
      (let a := s.readReg .sp - 2
       Memory.wf s.mem = true → s.unmapped → a.getLsbD 0 = false →
       a.toNat < s.params.memCeiling → a.toNat < 0o160000 → (s.cm ≠ .kernel ∨ effectiveLimit s.ctl.slr < a.toNat) →
       ∃ t, exec (.jsr r dd) s = .next t ∧ t.pc = s.readReg dd.reg ∧ (r ≠ .pc → t.readReg r = s.pc) ∧
        (r ≠ .sp → t.readReg .sp = a) ∧ Memory.readWord t.mem a.toNat = s.readReg r ∧ MemFrame s t [a.toNat] 2 ∧
        RegFrame s t (fun x => x = r ∨ x = .sp) ∧ t.psw = s.psw ∧ t.fpp = s.fpp)) ∧
    (dd.mode = .direct →
      exec (.jmp dd) s = .next (trapSeq s.params.vecIllegalMode.word s) ∧
      exec (.jsr r dd) s = .next (trapSeq s.params.vecIllegalMode.word s))

/-- RTS jumps to the link register and pops into it; MARK cleans the stack up through register 5 (R322, R323). -/
def Obligations.ReturnFromSubroutine : Prop :=
  (∀ r s v s1, memRead (inD (s.readReg .sp)) .word s = .ok v s1 →
    ∃ t, exec (.rts r) s = .next t ∧ t.psw = s.psw ∧ InstrFrame s t (fun x => x = r ∨ x = .sp) [] 0 ∧
      (r = .pc → t.pc = v ∧ t.readReg .sp = s.readReg .sp + 2) ∧
      (r = .sp → t.pc = s.readReg .sp + 2 ∧ t.readReg .sp = v) ∧
      (r ≠ .pc → r ≠ .sp → t.pc = s.readReg r ∧ t.readReg r = v ∧ t.readReg .sp = s.readReg .sp + 2)) ∧
  (∀ (nn : BitVec 6) s v s1,
    let a := s.pc + BitVec.ofNat 16 (2 * nn.toNat)
    memRead (inD a) .word (s.writeReg .sp a) = .ok v s1 →
    ∃ t, exec (.mark nn) s = .next t ∧ t.psw = s.psw ∧ InstrFrame s t (fun x => x = .gen 5 ∨ x = .sp) [] 0 ∧
      t.pc = s.readReg (.gen 5) ∧ t.readReg (.gen 5) = v ∧ t.readReg .sp = a + 2)

/-! ### System instructions -/

/-- HALT halts in kernel mode and is an illegal halt outside it; WAIT waits in any mode unless some request stands above
the priority (R341, R342). -/
def Obligations.HaltWaitResult : Prop :=
  ∀ s : State,
    (s.cm = .kernel → exec .halt s = .next (s.setRunState .halt)) ∧
    (s.cm ≠ .kernel →
      ∃ s1, s1 = s.setCtl { s.ctl with cpuErr := s.ctl.cpuErr ||| 0o200 } ∧
        exec .halt s = .next (trapSeq s.params.vecIllegalHalt.word s1)) ∧
    ((pswPri s.psw < pirLevelField s.ctl.pirq ∨
        ∃ d ∈ s.devices, ∃ r, d.request = some r ∧ pswPri s.psw < r.level.toNat) →
      exec .wait s = .next (s.setIrqFlag true)) ∧
    (¬ (pswPri s.psw < pirLevelField s.ctl.pirq ∨
        ∃ d ∈ s.devices, ∃ r, d.request = some r ∧ pswPri s.psw < r.level.toNat) →
      exec .wait s = .next (s.setRunState .wait))

/-- RTI and RTT restore PC and status word from the stack, whole in kernel mode and restricted outside it; RTI traps at
once on a restored T bit, RTT one instruction later (R343, R344). -/
def Obligations.ReturnFromTrap : Prop :=
  ∀ s newPc s1 stacked s2, memRead (inD (s.readReg .sp)) .word s = .ok newPc s1 →
    memRead (inD (s.readReg .sp + 2)) .word s1 = .ok stacked s2 →
    let loaded : Word :=
      if s.cm = .kernel then stacked &&& 0o174377
      else (stacked &&& 0o174037) ||| (s.psw &&& 0o174340)
    ∀ i, (i = .rti ∨ i = .rtt) →
      ∃ t, exec i s = .next t ∧ t.pc = newPc ∧ t.psw = loaded ∧
        t.readSpm s.cm = s.readReg .sp + 4 ∧ (∀ m, m ≠ s.cm → t.readSpm m = s.readSpm m) ∧
        t.gr0 = s.gr0 ∧ t.gr1 = s.gr1 ∧ t.mem = s.mem ∧ t.fpp = s.fpp ∧ SpecialFrame s (t.setPsw s.psw) ∧
        t.ctl.pending.trace = (decide (i = .rti) && stacked.getLsbD 4) ∧
        (pswPri loaded < pswPri s.psw → t.ctl.irqFlag = true ∧ t.ctl.irqDelay = true)

/-- RESET: in kernel mode the listed registers become 0 and every device is reset; outside it nothing happens (R345).
That a device which is reset holds no request any more is log entry 5 (DEDUCED), the model's choice: R345 says only that
`reset()` of every device is invoked. -/
def Obligations.ResetInstruction : Prop :=
  ∀ s : State,
    (s.cm ≠ .kernel → exec .reset s = .next s) ∧
    (s.cm = .kernel →
      ∃ t, exec .reset s = .next t ∧ t.mmu.mmr0 = 0 ∧ t.mmu.mmr3 = 0 ∧ t.mmu.lastPage = 0 ∧ t.ctl.pirq = 0 ∧
        t.ctl.slr = 0 ∧ t.ctl.cpuErr = 0 ∧ t.ctl.runState = .reset ∧ (∀ d ∈ t.devices, d.request = none) ∧
        (s.params.resetClearsPageTables = true → ∀ e : Fin 64, t.mmu.par[e] = 0 ∧ t.mmu.pdr[e] = 0) ∧
        (s.params.resetClearsPageTables = false → t.mmu.par = s.mmu.par ∧ t.mmu.pdr = s.mmu.pdr) ∧
        t.gr0 = s.gr0 ∧ t.gr1 = s.gr1 ∧ t.spm = s.spm ∧ t.pc = s.pc ∧ t.psw = s.psw ∧ t.mmu.mmr1 = s.mmu.mmr1 ∧
        t.mmu.mmr2 = s.mmu.mmr2 ∧ t.mmu.ubmap = s.mmu.ubmap ∧ t.ctl.pending = s.ctl.pending ∧ t.fpp = s.fpp ∧
        t.mem = s.mem ∧ t.ctl.disp = s.ctl.disp ∧ t.ctl.irqFlag = s.ctl.irqFlag)

/-- BPT, IOT, EMT, TRAP and every reserved instruction take the trap sequence through their vectors and do nothing else
(R346 to R349, R360). -/
def Obligations.TrapInstructions : Prop :=
  ∀ s : State,
    exec .bpt s = .next (trapSeq 0o14 s) ∧ exec .iot s = .next (trapSeq 0o20 s) ∧
    (∀ code, exec (.emt code) s = .next (trapSeq 0o30 s)) ∧
    (∀ code, exec (.trap code) s = .next (trapSeq 0o34 s)) ∧
    (∀ w, exec (.reserved w) s = .next (trapSeq 0o10 s))

/-- SPL loads the priority in kernel mode only; the condition-code operations clear and set the flags of their mask
(R350, R351, R352). -/
def Obligations.PriorityAndFlags : Prop :=
  ∀ s : State,
    (∀ n : BitVec 3, s.cm ≠ .kernel → exec (.spl n) s = .next s) ∧
    (∀ n : BitVec 3, s.cm = .kernel → s.psw &&& 0o003400 = 0 →
      ∃ t, exec (.spl n) s = .next t ∧ pswPri t.psw = n.toNat ∧ t.psw &&& 0o177437 = s.psw &&& 0o177437 ∧
        t = (s.setPsw t.psw).setCtl t.ctl ∧
        (n.toNat < pswPri s.psw → t.ctl = { s.ctl with irqFlag := true, irqDelay := true }) ∧
        (pswPri s.psw ≤ n.toNat → t.ctl = s.ctl)) ∧
    (∀ m : BitVec 4,
      (∃ t, exec (.clx m) s = .next t ∧
        Flagged s t (pswN s.psw && !m.getLsbD 3) (pswZ s.psw && !m.getLsbD 2) (pswV s.psw && !m.getLsbD 1)
          (pswC s.psw && !m.getLsbD 0)) ∧
      (∃ t, exec (.sex m) s = .next t ∧
        Flagged s t (pswN s.psw || m.getLsbD 3) (pswZ s.psw || m.getLsbD 2) (pswV s.psw || m.getLsbD 1)
          (pswC s.psw || m.getLsbD 0)))

/-- MFPI, MFPD, MTPI and MTPD: the previous mode's word pushed, and the popped word stored in the previous mode; through
register 6 in mode 0 the previous mode's stack pointer (R370 to R373; the flags of a move that stores in the status word
are log entry 9). -/
def Obligations.PreviousModeMoves : Prop :=
  ∀ sp s,
    (sp.mode = .direct →
      let v := if sp.reg = .sp ∧ s.pm ≠ s.cm then s.readSpm s.pm else s.readReg sp.reg
      ∀ p s1, push v true s = .ok p s1 → ∀ i, (i = .mfpi sp ∨ i = .mfpd sp) →
        ∃ t, exec i s = .next t ∧ StoredFlags p s1 t v.msb (v == 0) false s.carry) ∧
    (∀ va s1, sp.mode ≠ .direct → resolve sp 2 .read s = .ok va s1 →
      ∀ i vb, ((i = .mfpi sp ∧ vb = if s.cm = .user ∧ s.pm = .user then va else inI va.addr) ∨
          (i = .mfpd sp ∧ vb = va)) →
        ∀ v s2 p s3, memReadM s.pm vb .word s1 = .ok v s2 → push v true s2 = .ok p s3 →
          ∃ t, exec i s = .next t ∧ StoredFlags p s3 t v.msb (v == 0) false s.carry) ∧
    (∀ v s1, pop s = .ok v s1 →
      (sp.mode = .direct → ∀ i, (i = .mtpi sp ∨ i = .mtpd sp) →
        ∃ t, exec i s = .next t ∧
          Flagged (if sp.reg = .sp ∧ s.pm ≠ s.cm then s1.writeSpm s.pm v else s1.writeReg sp.reg v) t v.msb (v == 0)
            false s.carry) ∧
      (sp.mode ≠ .direct → ∀ va s2, resolve sp 2 .write s1 = .ok va s2 →
        ∀ i vb, ((i = .mtpi sp ∧ vb = inI va.addr) ∨ (i = .mtpd sp ∧ vb = va)) →
          ∀ p s3, memWriteM s.pm vb .word v s2 = .ok p s3 →
            ∃ t, exec i s = .next t ∧ StoredFlags p s3 t v.msb (v == 0) false s.carry))

/-! ### The trap sequence -/

/-- Taking a trap with relocation off: the vector's PC and status word are loaded, the previous mode is the mode before,
the old status word and PC are pushed on the new mode's stack; every other field of the state is as said here
(R602, R604 to R608). -/
def Obligations.TrapEntry : Prop :=
  ∀ (v : Word) (s : State),
    let old := s.psw
    let new : Word := (Memory.readWord s.mem (v.toNat + 2) &&& 0o144377) ||| ((old >>> 2) &&& 0o030000)
    let m := pswCm new
    let sp := s.readSpm m
    s.params.wf = true → Memory.wf s.mem = true → s.unmapped → s.ctl.trapPsw = none →
    v.getLsbD 0 = false → v.toNat + 3 < s.params.memCeiling → v.toNat + 3 < 0o160000 →
    sp.getLsbD 0 = false → 4 ≤ sp.toNat → sp.toNat ≤ s.params.memCeiling → sp.toNat ≤ 0o160000 →
    (m = .kernel → effectiveLimit s.ctl.slr + 4 < sp.toNat) →
    let t := trapSeq v s
    t.pc = Memory.readWord s.mem v.toNat ∧ t.psw = new ∧ t.readSpm m = sp - 4 ∧
      (∀ m', m' ≠ m → t.readSpm m' = s.readSpm m') ∧ t.gr0 = s.gr0 ∧ t.gr1 = s.gr1 ∧
      Memory.readWord t.mem (sp.toNat - 2) = old ∧ Memory.readWord t.mem (sp.toNat - 4) = s.pc ∧
      MemFrame s t [sp.toNat - 4] 4 ∧ t.fpp = s.fpp ∧ t.ctl.trapPsw = none ∧ t.ctl.pending = {} ∧
      t.ctl.cpuErr = s.ctl.cpuErr ∧ t.ctl.runState = s.ctl.runState ∧ t.ctl.slr = s.ctl.slr ∧
      t.ctl.pirq = s.ctl.pirq ∧ t.ctl.disp = s.ctl.disp ∧ t.ctl.swr = s.ctl.swr ∧ t.mmu.par = s.mmu.par ∧
      t.mmu.pdr = s.mmu.pdr ∧ t.mmu.mmr0 = s.mmu.mmr0 ∧ t.mmu.mmr3 = s.mmu.mmr3 ∧ t.mmu.ubmap = s.mmu.ubmap ∧
      t.mmu.lastPage = 0 ∧ t.params = s.params ∧ t.devices = s.devices ∧ t.inputs = s.inputs ∧ t.draws = s.draws ∧
      (s.mmu.mmr0.extractLsb' 13 3 = 0 → t.mmu.mmr1 = 0o173366 ∧ t.mmu.mmr2 = v) ∧
      (s.mmu.mmr0.extractLsb' 13 3 ≠ 0 → t.mmu.mmr1 = s.mmu.mmr1 ∧ t.mmu.mmr2 = s.mmu.mmr2) ∧
      t.ctl.irqFlag = (s.ctl.irqFlag || decide (pswPri new < pswPri old)) ∧
      t.ctl.irqDelay = (s.ctl.irqDelay || decide (pswPri new < pswPri old))

/-- A trap raised in kernel mode while another is being taken goes through vector 4 with the kernel stack pointer at 4 and
the double-trap bit set, and pushes without a stack check, whichever mode the vector's status word names.
One raised outside kernel mode keeps its vector and its stack pointer, marks no double trap, and clears no deferred trap;
in both the status word pushed, and the previous mode, are those of the first trap.
The pushes of a first trap, and of one nested outside kernel mode, make the stack check where the handler is in kernel
mode: in the yellow zone the trap is taken all the same, with the CPU error bit set and the yellow-zone trap left pending;
where a push reaches the red zone it stores nothing and aborts through 4, which is a trap nested in kernel mode.
An access of the nested sequence that fails too halts the machine (R603, R606, R607, R609). -/
def Obligations.DoubleTrap : Prop :=
  (∀ (v : Word) (s : State) (snapshot : Word),
    let new : Word := (Memory.readWord s.mem 6 &&& 0o144377) ||| ((snapshot >>> 2) &&& 0o030000)
    let m := pswCm new
    let sp := if m = .kernel then 4 else s.readSpm m
    s.params.wf = true → Memory.wf s.mem = true → s.unmapped → s.ctl.trapPsw = some snapshot → s.cm = .kernel →
    8 ≤ s.params.memCeiling → sp.getLsbD 0 = false → 4 ≤ sp.toNat → sp.toNat ≤ s.params.memCeiling →
    sp.toNat ≤ 0o160000 →
    let t := trapSeq v s
    let lowered := decide (pswPri new < pswPri s.psw)
    t = trapNested v s ∧ t.pc = Memory.readWord s.mem 4 ∧ t.psw = new ∧ t.readSpm m = sp - 4 ∧
      (∀ m', m' ≠ m → t.readSpm m' = if m' = .kernel then 4 else s.readSpm m') ∧ t.gr0 = s.gr0 ∧ t.gr1 = s.gr1 ∧
      Memory.readWord t.mem (sp.toNat - 2) = snapshot ∧ Memory.readWord t.mem (sp.toNat - 4) = s.pc ∧
      MemFrame s t [sp.toNat - 4] 4 ∧ t.fpp = s.fpp ∧
      t.ctl = { s.ctl with
        cpuErr := s.ctl.cpuErr ||| 0o4, trapPsw := none
        irqFlag := s.ctl.irqFlag || lowered, irqDelay := s.ctl.irqDelay || lowered }) ∧
  (∀ (v : Word) (s : State) (snapshot : Word),
    let new : Word := (Memory.readWord s.mem (v.toNat + 2) &&& 0o144377) ||| ((snapshot >>> 2) &&& 0o030000)
    let m := pswCm new
    let sp := s.readSpm m
    s.params.wf = true → Memory.wf s.mem = true → s.unmapped → s.ctl.trapPsw = some snapshot → s.cm ≠ .kernel →
    v.getLsbD 0 = false → v.toNat + 3 < s.params.memCeiling → v.toNat + 3 < 0o160000 →
    sp.getLsbD 0 = false → 4 ≤ sp.toNat → sp.toNat ≤ s.params.memCeiling → sp.toNat ≤ 0o160000 →
    (m = .kernel → effectiveLimit s.ctl.slr + 4 < sp.toNat) →
    let t := trapSeq v s
    let lowered := decide (pswPri new < pswPri s.psw)
    t = trapNested v s ∧ t.pc = Memory.readWord s.mem v.toNat ∧ t.psw = new ∧ t.readSpm m = sp - 4 ∧
      (∀ m', m' ≠ m → t.readSpm m' = s.readSpm m') ∧ t.gr0 = s.gr0 ∧ t.gr1 = s.gr1 ∧
      Memory.readWord t.mem (sp.toNat - 2) = snapshot ∧ Memory.readWord t.mem (sp.toNat - 4) = s.pc ∧
      MemFrame s t [sp.toNat - 4] 4 ∧ t.fpp = s.fpp ∧
      t.ctl = { s.ctl with
        trapPsw := none, irqFlag := s.ctl.irqFlag || lowered, irqDelay := s.ctl.irqDelay || lowered }) ∧
  (∀ (v : Word) (s : State),
    let snapshot := s.ctl.trapPsw.getD s.psw
    let pending : Pending := if s.ctl.trapPsw = none then {} else s.ctl.pending
    let new : Word := (Memory.readWord s.mem (v.toNat + 2) &&& 0o144377) ||| ((snapshot >>> 2) &&& 0o030000)
    let sp := s.readSpm .kernel
    let sl := effectiveLimit s.ctl.slr
    s.params.wf = true → Memory.wf s.mem = true → s.unmapped → (s.ctl.trapPsw = none ∨ s.cm ≠ .kernel) →
    v.getLsbD 0 = false → v.toNat + 3 < s.params.memCeiling → v.toNat + 3 < 0o160000 →
    sp.getLsbD 0 = false → 4 ≤ sp.toNat → sp.toNat ≤ s.params.memCeiling → sp.toNat ≤ 0o160000 →
    pswCm new = .kernel →
    let t := trapSeq v s
    let flagged := s.ctl.irqFlag || decide (pswPri new < pswPri s.psw)
    let delayed := s.ctl.irqDelay || decide (pswPri new < pswPri s.psw)
    (sp.toNat ≤ sl + 4 → sl + 4 < sp.toNat + 32 →
      t.pc = Memory.readWord s.mem v.toNat ∧ t.psw = new ∧ t.readSpm .kernel = sp - 4 ∧
        (∀ m, m ≠ .kernel → t.readSpm m = s.readSpm m) ∧ t.gr0 = s.gr0 ∧ t.gr1 = s.gr1 ∧
        Memory.readWord t.mem (sp.toNat - 2) = snapshot ∧ Memory.readWord t.mem (sp.toNat - 4) = s.pc ∧
        MemFrame s t [sp.toNat - 4] 4 ∧ t.fpp = s.fpp ∧
        t.ctl = { s.ctl with
          cpuErr := s.ctl.cpuErr ||| 0o10, trapPsw := none, pending := { pending with yellow := true }
          irqFlag := flagged, irqDelay := delayed }) ∧
    (sp.toNat + 28 ≤ sl →
      ∃ u, t = trapNested 0o4 u ∧ u.pc = s.pc ∧ u.psw = new ∧ u.readSpm .kernel = 4 ∧
        (∀ m, m ≠ .kernel → u.readSpm m = s.readSpm m) ∧ u.gr0 = s.gr0 ∧ u.gr1 = s.gr1 ∧ u.fpp = s.fpp ∧
        u.unmapped ∧ u.params = s.params ∧
        (sp.toNat + 30 ≤ sl → u.mem = s.mem ∧
          u.ctl = { s.ctl with
            cpuErr := s.ctl.cpuErr ||| 0o4, trapPsw := some snapshot, pending := pending
            irqFlag := flagged, irqDelay := delayed }) ∧
        (sl < sp.toNat + 30 → u.mem = Memory.writeWord s.mem (sp.toNat - 2) snapshot ∧
          u.ctl = { s.ctl with
            cpuErr := s.ctl.cpuErr ||| 0o14, trapPsw := some snapshot, pending := { pending with yellow := true }
            irqFlag := flagged, irqDelay := delayed }))) ∧
  (∀ v s e s1, trapBody (trapEnter v s).1 (trapEnter v s).2.1 (trapEnter v s).2.2 = .error e s1 →
    trapSeq v s = trapNested e s1 ∧
    ∀ e' s2, trapBody (trapEnter e s1).1 (trapEnter e s1).2.1 (trapEnter e s1).2.2 = .error e' s2 →
      (trapSeq v s).ctl.runState = .halt ∧ (trapSeq v s).ctl.trapPsw = none)

/-! ### The floating-point coprocessor -/

/-- CFCC copies the floating condition codes to the processor; SETF, SETD, SETI and SETL change one bit of FPS (R480 to
R484). -/
def Obligations.FppModeInstructions : Prop :=
  ∀ s : State,
    (∃ t, exec .cfcc s = .next t ∧
      Flagged s t (pswN s.fpp.fps) (pswZ s.fpp.fps) (pswV s.fpp.fps) (pswC s.fpp.fps)) ∧
    exec .setf s = .next (s.setFpp { s.fpp with fps := s.fpp.fps &&& 0o177577 }) ∧
    exec .setd s = .next (s.setFpp { s.fpp with fps := s.fpp.fps ||| 0o000200 }) ∧
    exec .seti s = .next (s.setFpp { s.fpp with fps := s.fpp.fps &&& 0o177677 }) ∧
    exec .setl s = .next (s.setFpp { s.fpp with fps := s.fpp.fps ||| 0o000100 })

/-- LDFPS loads the writable bits of FPS; STFPS stores FPS; STST stores the error code and, in memory, the error address
(R485, R486, R487). -/
def Obligations.FppStatusInstructions : Prop :=
  ∀ sp s,
    (∀ v s1, readOp sp .word s = .ok v s1 →
      exec (.ldfps sp) s = .next (s1.setFpp { s.fpp with fps := v &&& 0o147777 })) ∧
    (∀ p s1, writeOp sp .word s.fpp.fps s = .ok p s1 → exec (.stfps sp) s = .next s1) ∧
    (sp.mode = .direct → exec (.stst sp) s = .next (s.writeReg sp.reg (s.fpp.fec.setWidth 16))) ∧
    (sp.isImmediate = true → ∀ p s1, memWrite (inI s.pc) .word (s.fpp.fec.setWidth 16) s = .ok p s1 →
      exec (.stst sp) s = .next (s1.setPc (s.pc + 2))) ∧
    (sp.mode ≠ .direct → sp.isImmediate = false → ∀ va s1 p s2 q s3, resolve sp 4 .write s = .ok va s1 →
      memWrite va .word (s.fpp.fec.setWidth 16) s1 = .ok p s2 →
      memWrite (va.plus 2) .word s.fpp.fea s2 = .ok q s3 → exec (.stst sp) s = .next s3)

/-- CLRF, TSTF, ABSF and NEGF: the operand cleared, tested, made positive, and negated, every zero becoming the exact
zero (R488 to R491; the order of access and exception is log entry 12).
A floating source raises the undefined variable where it is in memory or an immediate, its sign bit is set, its exponent
is 0 and FIUV is set, an accumulator never (R471, R414); and the codes of the exceptions are those of R414. -/
def Obligations.FppOneOperand : Prop :=
  (∀ (fps : Word) (x : Accum),
    (∀ i, sourceErrors fps (.ac i) x = []) ∧
    ∀ pl, ((∃ a, pl = .imm a) ∨ ∃ va, pl = .mem va) →
      (x.w0.msb = true → x.w0.toNat / 2 ^ 7 % 2 ^ 8 = 0 → fps.getLsbD 11 = true →
        sourceErrors fps pl x = [.undefinedVariable]) ∧
      ((x.w0.msb = false ∨ x.w0.toNat / 2 ^ 7 % 2 ^ 8 ≠ 0 ∨ fps.getLsbD 11 = false) → sourceErrors fps pl x = [])) ∧
  (FppError.code .illegalOpcode = 2 ∧ FppError.code .divideByZero = 4 ∧ FppError.code .integerConversion = 6 ∧
    FppError.code .overflow = 8 ∧ FppError.code .underflow = 10 ∧ FppError.code .undefinedVariable = 12) ∧
  ∀ sp s pl,
    let p := precOf s.fpp.fps
    (∀ s1 s2, resolveF sp p .write s = .ok (some pl) s1 → writeF pl p {} s1 = .ok () s2 →
      ∃ t g, exec (.clrf sp) s = .next t ∧ FppFlagged s2.fpp g false true false false ∧
        FppOutcome (s.pc - 2) [] g s2 t) ∧
    (∀ s1 x s2, resolveF sp p .read s = .ok (some pl) s1 → readF pl p .read s1 = .ok x s2 →
      ∃ t g, exec (.tstf sp) s = .next t ∧ FppFlagged s.fpp g x.w0.msb (exponentOf x.w0 == 0) false false ∧
        FppOutcome (s.pc - 2) (sourceErrors s.fpp.fps pl x) g s2 t) ∧
    (∀ s1 x s2 i y s3, resolveF sp p .modify s = .ok (some pl) s1 → readF pl p .modify s1 = .ok x s2 →
      ((i = .absf sp ∧ y = if exponentOf x.w0 = 0 then {} else { x with w0 := x.w0 &&& 0o077777 }) ∨
        (i = .negf sp ∧ y = if exponentOf x.w0 = 0 then {} else { x with w0 := x.w0 ^^^ 0o100000 })) →
      writeF pl p y s2 = .ok () s3 →
      ∃ t g, exec i s = .next t ∧ FppFlagged s3.fpp g y.w0.msb (exponentOf x.w0 == 0) false false ∧
        FppOutcome (s.pc - 2) (sourceErrors s.fpp.fps pl x) g s3 t)

/-- ADDF, SUBF, MULF, DIVF and MODF: the accumulator combined with the source, the flags from the result, and the
exceptions of the source and of the result recorded, in the order of log entry 12; a zero divisor leaves accumulator and
flags (R470, R492, R493, R494, R496, R499). -/
def Obligations.FppArithmetic : Prop :=
  ∀ (ac : Fin 4) ss s pl s1 x s2,
    let p := precOf s.fpp.fps
    let fps := s.fpp.fps
    let k := acField ac
    let a := unpack p s.fpp.ac[k]
    let b := unpack p x
    let undef := sourceErrors fps pl x
    resolveF ss p .read s = .ok (some pl) s1 → readF pl p .read s1 = .ok x s2 →
    (∀ i r, ((i = .addf ac ss ∧ r = fAdd p fps a b) ∨ (i = .subf ac ss ∧ r = fSub p fps a b) ∨
        (i = .mulf ac ss ∧ r = fMul p fps a b) ∨ (i = .divf ac ss ∧ b.e ≠ 0 ∧ r = fDiv p fps a b)) →
      ∃ t g, exec i s = .next t ∧
        FppFlagged { s.fpp with ac := s.fpp.ac.set k (mergePrec p s.fpp.ac[k] r.words) } g r.words.w0.msb
          (r.z || exponentOf r.words.w0 == 0) r.v false ∧
        FppOutcome (s.pc - 2) (undef ++ r.errs) g s2 t) ∧
    (b.e = 0 →
      ∃ t, exec (.divf ac ss) s = .next t ∧ FppOutcome (s.pc - 2) (undef ++ [.divideByZero]) s.fpp s2 t) ∧
    (let r := fMod p fps a b
     let odd : Fin 6 := ⟨ac.val ||| 1, by
       have := ac.isLt
       have h : ac.val ||| 1 < 4 := Nat.or_lt_two_pow (n := 2) (by omega) (by decide)
       omega⟩
     let ac1 := s.fpp.ac.set odd (mergePrec p s.fpp.ac[odd] r.1.words)
     ∃ t g, exec (.modf ac ss) s = .next t ∧
      FppFlagged { s.fpp with ac := ac1.set k (mergePrec p ac1[k] r.2.words) } g r.2.words.w0.msb
        (r.2.z || exponentOf r.2.words.w0 == 0) (r.1.v || r.2.v) false ∧
      FppOutcome (s.pc - 2) (undef ++ (r.1.errs ++ r.2.errs)) g s2 t)

/-- LDF copies the source bit for bit; CMPF compares the source with the accumulator as numbers; STF stores the
accumulator with no flags (R495, R497, R498). -/
def Obligations.FppMoveCompare : Prop :=
  ∀ (ac : Fin 4) sp s pl,
    let p := precOf s.fpp.fps
    let k := acField ac
    (∀ s1 x s2, resolveF sp p .read s = .ok (some pl) s1 → readF pl p .read s1 = .ok x s2 →
      let a := unpack p s.fpp.ac[k]
      let b := unpack p x
      let undef := sourceErrors s.fpp.fps pl x
      (∃ t g, exec (.ldf ac sp) s = .next t ∧
        FppFlagged { s.fpp with ac := s.fpp.ac.set k (mergePrec p s.fpp.ac[k] x) } g x.w0.msb
          (exponentOf x.w0 == 0) false false ∧
        FppOutcome (s.pc - 2) undef g s2 t) ∧
      (∃ t g less equal, exec (.cmpf ac sp) s = .next t ∧ FppFlagged s.fpp g less equal false false ∧
        FppOutcome (s.pc - 2) undef g s2 t ∧
        (b.e = 0 → less = (decide (a.e ≠ 0) && !a.s) ∧ equal = decide (a.e = 0)) ∧
        (b.e ≠ 0 → a.e = 0 → less = b.s ∧ equal = false) ∧
        (b.e ≠ 0 → a.e ≠ 0 → b.s ≠ a.s → less = b.s ∧ equal = false) ∧
        (b.e ≠ 0 → a.e ≠ 0 → b.s = a.s → equal = decide (b.e = a.e ∧ b.f = a.f) ∧
          (b.s = false → less = decide (b.e < a.e ∨ (b.e = a.e ∧ b.f < a.f))) ∧
          (b.s = true → less = decide (a.e < b.e ∨ (a.e = b.e ∧ a.f < b.f)))))) ∧
    (∀ s1 s2, resolveF sp p .write s = .ok (some pl) s1 → writeF pl p s.fpp.ac[k] s1 = .ok () s2 →
      exec (.stf ac sp) s = .next s2)

/-- STEXP and STCFI store an integer and copy their codes to the processor's flags; LDEXP replaces the exponent and
LDCIF converts an integer (R500, R501, R503, R504; the flags of a store in the status word are log entry 9, the order of
the exceptions log entry 12). -/
def Obligations.FppIntegers : Prop :=
  ∀ (ac : Fin 4) sp s,
    let p := precOf s.fpp.fps
    let fps := s.fpp.fps
    let k := acField ac
    let a := unpack p s.fpp.ac[k]
    (let v : Int := (a.e : Int) - 128
     ∀ q s1, writeOp sp .word (BitVec.ofInt 16 v) s = .ok q s1 →
      ∃ t g s2, exec (.stexp ac sp) s = .next t ∧
        FppFlagged s1.fpp g (decide (v < 0)) (decide (v = 0)) false false ∧ FppOutcome (s.pc - 2) [] g s1 s2 ∧
        StoredFlags q s2 t (decide (v < 0)) (decide (v = 0)) false false) ∧
    (let long := fps.getLsbD 6
     let r := fToInt p a (if long then 32 else 16)
     ∀ q s1, writeInteger sp long r.1 s = .ok q s1 →
      ∃ t g s2, exec (.stcfi ac sp) s = .next t ∧
        FppFlagged s1.fpp g (decide (r.1 < 0)) (decide (r.1 = 0)) false r.2 ∧
        FppOutcome (s.pc - 2) (if r.2 = true ∧ fps.getLsbD 8 = true then [.integerConversion] else []) g s1 s2 ∧
        StoredFlags q s2 t (decide (r.1 < 0)) (decide (r.1 = 0)) false r.2) ∧
    (∀ x s1, readOp sp .word s = .ok x s1 →
      let r := pack p fps a.s (x.toInt + 128) a.f
      ∃ t g, exec (.ldexp ac sp) s = .next t ∧
        FppFlagged { s.fpp with ac := s.fpp.ac.set k (mergePrec p s.fpp.ac[k] r.words) } g r.words.w0.msb
          (r.z || exponentOf r.words.w0 == 0) r.v false ∧
        FppOutcome (s.pc - 2) r.errs g s1 t) ∧
    (∀ x s1, readInteger sp (fps.getLsbD 6) s = .ok x s1 →
      let r := intToF p fps x
      ∃ t g, exec (.ldcif ac sp) s = .next t ∧
        FppFlagged { s.fpp with ac := s.fpp.ac.set k (mergePrec p s.fpp.ac[k] r.words) } g r.words.w0.msb
          (r.z || exponentOf r.words.w0 == 0) r.v false ∧
        FppOutcome (s.pc - 2) r.errs g s1 t)

/-- STCFD stores the accumulator, and LDCDF loads the source, at the other precision: single widened exactly, double
rounded (R502, R505). -/
def Obligations.FppPrecision : Prop :=
  ∀ (ac : Fin 4) sp s pl,
    let p := precOf s.fpp.fps
    let fps := s.fpp.fps
    let k := acField ac
    (let r := if fps.getLsbD 7 then narrow fps (unpack .double s.fpp.ac[k]) else widen s.fpp.ac[k]
     ∀ s1 s2, resolveF sp p.other .write s = .ok (some pl) s1 → writeF pl p.other r.words s1 = .ok () s2 →
      ∃ t g, exec (.stcfd ac sp) s = .next t ∧
        FppFlagged s2.fpp g r.words.w0.msb (r.z || exponentOf r.words.w0 == 0) r.v false ∧
        FppOutcome (s.pc - 2) r.errs g s2 t) ∧
    (∀ s1 x s2, resolveF sp p.other .read s = .ok (some pl) s1 → readF pl p.other .read s1 = .ok x s2 →
      let r := if fps.getLsbD 7 then widen x else narrow fps (unpack .double x)
      ∃ t g, exec (.ldcdf ac sp) s = .next t ∧
        FppFlagged { s.fpp with ac := s.fpp.ac.set k (mergePrec p s.fpp.ac[k] r.words) } g r.words.w0.msb
          (r.z || exponentOf r.words.w0 == 0) r.v false ∧
        FppOutcome (s.pc - 2) (sourceErrors fps pl x ++ r.errs) g s2 t)

/-- An FPP illegal opcode, and a floating operand that names no accumulator, record exception 2, request its trap unless
FID is set, and do nothing else (R474, R506). -/
def Obligations.FppIllegal : Prop :=
  ∀ (s : State) (ac : Fin 4) (sp : OpSpec) (i : Instr),
    ((∃ w, i = .fppIllegal w) ∨
      (sp.mode = .direct ∧ (sp.reg = .sp ∨ sp.reg = .pc) ∧
        (i = .clrf sp ∨ i = .tstf sp ∨ i = .absf sp ∨ i = .negf sp ∨ i = .mulf ac sp ∨ i = .modf ac sp ∨
          i = .addf ac sp ∨ i = .ldf ac sp ∨ i = .subf ac sp ∨ i = .cmpf ac sp ∨ i = .stf ac sp ∨ i = .divf ac sp ∨
          i = .stcfd ac sp ∨ i = .ldcdf ac sp))) →
    ∃ t, exec i s = .next t ∧ FppOutcome (s.pc - 2) [.illegalOpcode] s.fpp s t

/-- Unpacking what was packed gives the same sign, exponent and fraction for every exponent strictly between the
underflow and overflow boundaries, with nothing raised (R412, which the spec marks as derived from R409 and R411).
At and below 0, and at and above 256, the exponent is kept modulo 256 and the exception raised where its trap is enabled,
and the result is the exact zero where it is not; Z says whether the stored exponent is 0, V an overflow (R411).
Sign, exponent and fraction of a value are the fields of its words (R406, R409). -/
def Obligations.PackRoundTrip : Prop :=
  (∀ (p : Prec) (fps : Word) (s : Bool) (e : Int) (f : Nat), 2 ^ (p.bits - 1) ≤ f → f < 2 ^ p.bits →
    let r := pack p fps s e f
    (1 ≤ e → e ≤ 255 → r.z = false ∧ r.v = false ∧ r.errs = [] ∧ unpack p r.words = ⟨s, e.toNat, f⟩) ∧
    (e ≤ 0 → fps.getLsbD 10 = true → r.z = decide (e % 256 = 0) ∧ r.v = false ∧ r.errs = [.underflow] ∧
      unpack p r.words = ⟨s, (e % 256).toNat, f⟩) ∧
    (e ≤ 0 → fps.getLsbD 10 = false → r = zeroResult) ∧
    (256 ≤ e → fps.getLsbD 9 = true → r.z = decide (e % 256 = 0) ∧ r.v = true ∧ r.errs = [.overflow] ∧
      unpack p r.words = ⟨s, (e % 256).toNat, f⟩) ∧
    (256 ≤ e → fps.getLsbD 9 = false → r = { zeroResult with v := true })) ∧
  (∀ x : Accum,
    let top := x.w0.toNat % 2 ^ 7
    unpack .single x = ⟨x.w0.msb, x.w0.toNat / 2 ^ 7 % 2 ^ 8, 2 ^ 23 + (top * 2 ^ 16 + x.w1.toNat)⟩ ∧
    unpack .double x = ⟨x.w0.msb, x.w0.toNat / 2 ^ 7 % 2 ^ 8,
      2 ^ 55 + (((top * 2 ^ 16 + x.w1.toNat) * 2 ^ 16 + x.w2.toNat) * 2 ^ 16 + x.w3.toNat)⟩)

/-- Laws of the arithmetic on every value that is not zero, none of which raises anything: adding zero gives the value
bit for bit, adding or subtracting so that it cancels gives the exact zero, multiplying and dividing by one give the value;
zero times anything and zero divided by anything are the exact zero; addition and multiplication commute.
The first two and the commutation of addition are R442, which the spec marks as derived from R440; the others are
derived from R440, R441, R445 and R448.
Then, in numbers, what the sum, the product and the quotient of normalized operands are before they are rounded (R440,
R441, R445, R448), the integer part and the fraction part of MODF (R452), and the two conversions of precision, of which
widening and then narrowing gives a single value back (R460, R461). -/
def Obligations.ArithmeticLaws : Prop :=
  ∀ (p : Prec) (fps : Word),
    (∀ x z : Accum, exponentOf x.w0 ≠ 0 → exponentOf z.w0 = 0 →
      let a := unpack p x
      let one : Fnum := ⟨false, 129, 2 ^ (p.bits - 1)⟩
      let kept : FResult := ⟨atPrec p x, false, false, []⟩
      fAdd p fps a (unpack p z) = kept ∧ fSub p fps a (unpack p z) = kept ∧
      fAdd p fps a { a with s := !a.s } = ⟨{}, true, false, []⟩ ∧ fSub p fps a a = ⟨{}, true, false, []⟩ ∧
      fMul p fps a one = kept ∧ fDiv p fps a one = kept) ∧
    (∀ a b : Fnum, fAdd p fps a b = fAdd p fps b a ∧ fMul p fps a b = fMul p fps b a ∧
      (a.e = 0 → fMul p fps a b = ⟨{}, true, false, []⟩ ∧ fDiv p fps a b = ⟨{}, true, false, []⟩)) ∧
    (∀ a b : Fnum, fSub p fps a b = fAdd p fps a { b with s := !b.s } ∧
      (a.e = 0 ∨ b.e = 0 → fMod p fps a b = (zeroResult, zeroResult))) ∧
    (∀ a b : Fnum, a.e ≠ 0 → b.e ≠ 0 → 2 ^ (p.bits - 1) ≤ a.f → a.f < 2 ^ p.bits → 2 ^ (p.bits - 1) ≤ b.f →
      b.f < 2 ^ p.bits →
      let n := p.bits
      let s := a.s != b.s
      (b.e < a.e ∨ (b.e = a.e ∧ b.f ≤ a.f) →
        let x := 2 * a.f
        let y := 2 * b.f / 2 ^ (a.e - b.e)
        (a.s = b.s → fAdd p fps a b =
          if 2 ^ (n + 1) ≤ x + y then rounded p fps a.s (x + y) 2 (a.e + 1) else rounded p fps a.s (x + y) 1 a.e) ∧
        (a.s ≠ b.s → (x = y → fAdd p fps a b = zeroResult) ∧
          ∀ k : Nat, 2 ^ n ≤ (x - y) * 2 ^ k → (x - y) * 2 ^ k < 2 ^ (n + 1) →
            fAdd p fps a b = rounded p fps a.s ((x - y) * 2 ^ k) 1 (a.e - k))) ∧
      (let d : Int := (a.e : Int) - b.e + 128
       fDiv p fps a b = (if b.f ≤ a.f then rounded p fps s (a.f * 2 ^ n / b.f) 1 (d + 1)
        else rounded p fps s (a.f * 2 ^ (n + 1) / b.f) 1 d)) ∧
      (let carry : Bool := decide (2 ^ (2 * n - 1) ≤ a.f * b.f)
       let m := if carry then a.f * b.f else 2 * (a.f * b.f)
       let e : Int := (a.e : Int) + b.e - 256 - if carry then 0 else 1
       fMul p fps a b = rounded p fps s m n (e + 128) ∧
       (e ≤ 0 → fMod p fps a b = (zeroResult, fMul p fps a b)) ∧
       ((n : Int) < e → fMod p fps a b = (pack p fps s (e + 128) (m / 2 ^ n), zeroResult)) ∧
       (1 ≤ e → e ≤ n →
        let d := 2 * n - e.toNat
        (fMod p fps a b).1 = pack p fps s (e + 128) (m / 2 ^ d * 2 ^ (n - e.toNat)) ∧
        (m % 2 ^ d = 0 → (fMod p fps a b).2 = zeroResult) ∧
        ∀ k : Nat, 2 ^ (2 * n - 1) ≤ m % 2 ^ d * 2 ^ k → m % 2 ^ d * 2 ^ k < 2 ^ (2 * n) →
          (fMod p fps a b).2 = rounded p fps s (m % 2 ^ d * 2 ^ k) n (e + 128 - k)))) ∧
    (∀ x : Accum,
      widen x = ⟨⟨x.w0, x.w1, 0, 0⟩, exponentOf x.w0 == 0, false, []⟩ ∧
      narrow fps (unpack .double (widen x).words) =
        if exponentOf x.w0 = 0 then zeroResult else ⟨⟨x.w0, x.w1, 0, 0⟩, false, false, []⟩) ∧
    (∀ a : Fnum, (a.e = 0 → narrow fps a = zeroResult) ∧
      (a.e ≠ 0 → 2 ^ 55 ≤ a.f → a.f < 2 ^ 56 → narrow fps a = rounded .single fps a.s a.f 32 a.e))

/-- Converting an integer to floating and back gives it back: every 16-bit integer at either precision, every 32-bit
integer in double (the property P8 of R468, which the spec marks as derived from R455 and R456).
A floating value, of magnitude `f / 2^N * 2^(e - 128)`, gives its integer part, the fraction cut off toward zero, and fails
with the value 0 exactly where that integer is outside the W bits, of which the most negative one is inside (R456).
An integer whose magnitude has at most N bits converts exactly, one with more is rounded, or truncated where FT is set
(R455). -/
def Obligations.IntegerRoundTrip : Prop :=
  (∀ (p : Prec) (a : Fnum) (w : Nat), a.f < 2 ^ p.bits →
    let m := a.f * 2 ^ a.e / 2 ^ (p.bits + 128)
    let v : Int := if a.s then -m else m
    (-(2 ^ (w - 1)) ≤ v → v < 2 ^ (w - 1) → fToInt p a w = (v, false)) ∧
    (v < -(2 ^ (w - 1)) ∨ 2 ^ (w - 1) ≤ v → fToInt p a w = (0, true))) ∧
  (∀ (p : Prec) (fps : Word) (i : Int) (l : Nat), 2 ^ l ≤ i.natAbs → i.natAbs < 2 ^ (l + 1) →
    let r := intToF p fps i
    let neg := decide (i < 0)
    (l < p.bits → r.z = false ∧ r.v = false ∧ r.errs = [] ∧
      unpack p r.words = ⟨neg, l + 129, i.natAbs * 2 ^ (p.bits - 1 - l)⟩) ∧
    (p.bits ≤ l → r = rounded p fps neg i.natAbs (l + 1 - p.bits) (l + 129))) ∧
  (∀ (p : Prec) (fps : Word), intToF p fps 0 = zeroResult) ∧
  (∀ (p : Prec) (fps : Word) (i : BitVec 16), fToInt p (unpack p (intToF p fps i.toInt).words) 16 = (i.toInt, false)) ∧
  (∀ (fps : Word) (i : BitVec 32),
    fToInt .double (unpack .double (intToF .double fps i.toInt).words) 32 = (i.toInt, false))

/-! ### Frames -/

/-- What the instructions that only read their operands leave unchanged: all of memory, every register but those the
modes step and the destination registers, the special registers and the coprocessor.
The PC ends past the extension words of the specifiers (R141).
Where reading an operand aborts, the instruction takes the trap at once, in the state the abort left: no flag, no
destination register and no memory is changed, and what a mode had stepped stays stepped (R12, R183, R201, R635). -/
def Obligations.FrameReading : Prop :=
  (∀ w ss dd s src s1 dst s2 i t, readOp ss w s = .ok src s1 → readOp dd w s1 = .ok dst s2 →
    ((w = .word ∧ (i = .cmp ss dd ∨ i = .bit ss dd)) ∨ (w = .byte ∧ (i = .cmpb ss dd ∨ i = .bitb ss dd))) →
    exec i s = .next t →
    InstrFrame s t (fun x => specSteps ss x ∨ specSteps dd x) [] 0 ∧ t.pc = pcAfter dd (pcAfter ss s.pc)) ∧
  (∀ w dd s dst s1 i t, readOp dd w s = .ok dst s1 → ((w = .word ∧ i = .tst dd) ∨ (w = .byte ∧ i = .tstb dd)) →
    exec i s = .next t → InstrFrame s t (specSteps dd) [] 0 ∧ t.pc = pcAfter dd s.pc) ∧
  (∀ r ss s src s1 i t, readOp ss .word s = .ok src s1 →
    (i = .mul r ss ∨ i = .div r ss ∨ i = .ashc r ss) → exec i s = .next t →
    InstrFrame s t (fun x => specSteps ss x ∨ x = r ∨ x = regOrOne r) [] 0 ∧
      (r ≠ .sp → r ≠ .pc → t.pc = pcAfter ss s.pc)) ∧
  (∀ r ss s src s1 t, readOp ss .word s = .ok src s1 → exec (.ash r ss) s = .next t →
    InstrFrame s t (fun x => specSteps ss x ∨ x = r) [] 0 ∧ (r ≠ .pc → t.pc = pcAfter ss s.pc)) ∧
  (∀ w ss dd s v u i, (readOp ss w s = .error v u ∨ ∃ src s1, readOp ss w s = .ok src s1 ∧ readOp dd w s1 = .error v u) →
    ((w = .word ∧ (i = .cmp ss dd ∨ i = .bit ss dd)) ∨ (w = .byte ∧ (i = .cmpb ss dd ∨ i = .bitb ss dd))) →
    exec i s = .next (trapSeq v u) ∧ AbortFrame s u (fun x => specSteps ss x ∨ specSteps dd x)) ∧
  (∀ w r ss s v u i, readOp ss w s = .error v u →
    ((w = .word ∧ (i = .tst ss ∨ i = .mul r ss ∨ i = .div r ss ∨ i = .ash r ss ∨ i = .ashc r ss)) ∨
      (w = .byte ∧ i = .tstb ss)) →
    exec i s = .next (trapSeq v u) ∧ AbortFrame s u (specSteps ss))

/-- What the instructions that store one operand leave unchanged: every byte of memory but those at the destination,
every register but those the modes step and a register destination, the coprocessor, and the special registers unless
the destination is in the I/O page.
The PC ends past the extension words of the specifiers (R141), unless it is itself the destination.
Where an access aborts, reading the source or reaching the destination, the instruction takes the trap at once, in the
state the abort left: the destination and the flags are as they were, what the modes had stepped stays stepped, and no
value about to be stored makes a difference (R12, R183, R201, R635). -/
def Obligations.FrameStoring : Prop :=
  (∀ ss dd s src s1 p s2 t, Memory.wf s.mem = true → readOp ss .word s = .ok src s1 →
    writeOp dd .word src s1 = .ok p s2 → exec (.mov ss dd) s = .next t →
    RegFrame s t (fun x => specSteps ss x ∨ specLands dd x) ∧
      InstrFrame s t (fun x => specSteps ss x ∨ specLands dd x) (destAddress dd .word .write s1) 2 ∧
      PcStored dd t (pcAfter dd (pcAfter ss s.pc))) ∧
  (∀ ss dd s src s1 p s2 t, Memory.wf s.mem = true → readOp ss .byte s = .ok src s1 →
    writeOp dd .byte src s1 = .ok p s2 → exec (.movb ss dd) s = .next t →
    RegFrame s t (fun x => specSteps ss x ∨ specLands dd x) ∧
      InstrFrame s t (fun x => specSteps ss x ∨ specLands dd x) (destAddress dd .byte .write s1) 1 ∧
      PcStored dd t (pcAfter dd (pcAfter ss s.pc))) ∧
  (∀ w dd s v p s1 i t, Memory.wf s.mem = true → writeOp dd w v s = .ok p s1 →
    ((w = .word ∧ (i = .clr dd ∨ i = .sxt dd)) ∨ (w = .byte ∧ i = .clrb dd)) → exec i s = .next t →
    RegFrame s t (specLands dd) ∧ InstrFrame s t (specLands dd) (destAddress dd w .write s) w.len ∧
      PcStored dd t (pcAfter dd s.pc)) ∧
  (∀ w ss dd s src s1 f o s2 i t, Memory.wf s.mem = true → readOp ss w s = .ok src s1 →
    modifyOp dd w f s1 = .ok o s2 →
    ((w = .word ∧ (i = .bic ss dd ∨ i = .bis ss dd ∨ i = .add ss dd ∨ i = .sub ss dd)) ∨
      (w = .byte ∧ (i = .bicb ss dd ∨ i = .bisb ss dd))) → exec i s = .next t →
    RegFrame s t (fun x => specSteps ss x ∨ specLands dd x) ∧
      InstrFrame s t (fun x => specSteps ss x ∨ specLands dd x) (destAddress dd w .modify s1) w.len ∧
      PcStored dd t (pcAfter dd (pcAfter ss s.pc))) ∧
  (∀ w dd s f o s1 i t, Memory.wf s.mem = true → modifyOp dd w f s = .ok o s1 →
    ((w = .word ∧ (i = .com dd ∨ i = .inc dd ∨ i = .dec dd ∨ i = .neg dd ∨ i = .adc dd ∨ i = .sbc dd ∨ i = .ror dd ∨
        i = .rol dd ∨ i = .asr dd ∨ i = .asl dd ∨ i = .swab dd ∨ ∃ r, i = .xor r dd)) ∨
      (w = .byte ∧ (i = .comb dd ∨ i = .incb dd ∨ i = .decb dd ∨ i = .negb dd ∨ i = .adcb dd ∨ i = .sbcb dd ∨
        i = .rorb dd ∨ i = .rolb dd ∨ i = .asrb dd ∨ i = .aslb dd))) → exec i s = .next t →
    RegFrame s t (specLands dd) ∧ InstrFrame s t (specLands dd) (destAddress dd w .modify s) w.len ∧
      PcStored dd t (pcAfter dd s.pc)) ∧
  (∀ w ss dd s v u i,
    ((w = .word ∧ (i = .mov ss dd ∨ i = .bic ss dd ∨ i = .bis ss dd ∨ i = .add ss dd ∨ i = .sub ss dd)) ∨
      (w = .byte ∧ (i = .movb ss dd ∨ i = .bicb ss dd ∨ i = .bisb ss dd))) →
    (readOp ss w s = .error v u → exec i s = .next (trapSeq v u) ∧ AbortFrame s u (specSteps ss)) ∧
    ∀ src s1, readOp ss w s = .ok src s1 →
      (∃ x, (i = .mov ss dd ∨ i = .movb ss dd) ∧ writeOp dd w x s1 = .error v u) ∨
        (∃ f, i ≠ .mov ss dd ∧ i ≠ .movb ss dd ∧ modifyOp dd w f s1 = .error v u) →
      exec i s = .next (trapSeq v u) ∧ AbortFrame s u (fun x => specSteps ss x ∨ specSteps dd x)) ∧
  (∀ w dd s x v u i, writeOp dd w x s = .error v u →
    ((w = .word ∧ (i = .clr dd ∨ i = .sxt dd)) ∨ (w = .byte ∧ i = .clrb dd)) →
    exec i s = .next (trapSeq v u) ∧ AbortFrame s u (specSteps dd)) ∧
  (∀ w dd s f v u i, modifyOp dd w f s = .error v u →
    ((w = .word ∧ (i = .com dd ∨ i = .inc dd ∨ i = .dec dd ∨ i = .neg dd ∨ i = .adc dd ∨ i = .sbc dd ∨ i = .ror dd ∨
        i = .rol dd ∨ i = .asr dd ∨ i = .asl dd ∨ i = .swab dd ∨ ∃ r, i = .xor r dd)) ∨
      (w = .byte ∧ (i = .comb dd ∨ i = .incb dd ∨ i = .decb dd ∨ i = .negb dd ∨ i = .adcb dd ∨ i = .sbcb dd ∨
        i = .rorb dd ∨ i = .rolb dd ∨ i = .asrb dd ∨ i = .aslb dd))) →
    exec i s = .next (trapSeq v u) ∧ AbortFrame s u (specSteps dd))

/-- What jumps, subroutine calls and the moves to and from the previous mode leave unchanged, beside what their results
say: memory outside the word pushed or stored, the coprocessor, and, unless a store went to the I/O page, the registers
not named and the special registers.
After a move the PC ends past the extension word of its specifier (R141), unless it is itself the destination.
Where an access of one of these, or of RTS, MARK, RTI or RTT, aborts, the instruction takes the trap at once, in the state
the abort left: nothing stored, no flag changed, and no register but those the specifier, the push or the pop had stepped
(R12, R183, R635). -/
def Obligations.FrameFlow : Prop :=
  (∀ dd s va s1 t, resolve dd 2 .read s = .ok va s1 → exec (.jmp dd) s = .next t →
    InstrFrame s t (specSteps dd) [] 0 ∧ t.psw = s.psw) ∧
  (∀ r dd s va s1 p s2 t, Memory.wf s.mem = true → resolve dd 2 .read s = .ok va s1 →
    push (s1.readReg r) true s1 = .ok p s2 → exec (.jsr r dd) s = .next t →
    InstrFrame s t (fun x => specSteps dd x ∨ x = r ∨ x = .sp) (pushAddress s1) 2 ∧
      (InMain s (pushAddress s1) → t.psw = s.psw)) ∧
  (∀ sp s t v p s1, Memory.wf s.mem = true → sp.mode = .direct → push v true s = .ok p s1 →
    ∀ i, (i = .mfpi sp ∨ i = .mfpd sp) → exec i s = .next t →
    RegFrame s t (· = .sp) ∧ InstrFrame s t (· = .sp) (pushAddress s) 2 ∧ t.pc = s.pc) ∧
  (∀ sp s va s1 v s2 p s3 i vb t, Memory.wf s.mem = true → sp.mode ≠ .direct →
    resolve sp 2 .read s = .ok va s1 →
    ((i = .mfpi sp ∧ vb = if s.cm = .user ∧ s.pm = .user then va else inI va.addr) ∨ (i = .mfpd sp ∧ vb = va)) →
    memReadM s.pm vb .word s1 = .ok v s2 → push v true s2 = .ok p s3 → exec i s = .next t →
    RegFrame s t (fun x => specSteps sp x ∨ x = .sp) ∧
      InstrFrame s t (fun x => specSteps sp x ∨ x = .sp) (pushAddress s2) 2 ∧ t.pc = pcAfter sp s.pc) ∧
  (∀ sp s v s1 i t, sp.mode = .direct → pop s = .ok v s1 → (i = .mtpi sp ∨ i = .mtpd sp) → exec i s = .next t →
    MemFrame s t [] 0 ∧ t.fpp = s.fpp ∧ SpecialFrame s t ∧ PcStored sp t s.pc ∧
      (sp.reg ≠ .sp → RegFrame s t (fun x => x = sp.reg ∨ x = .sp)) ∧
      (sp.reg = .sp → t.gr0 = s.gr0 ∧ t.gr1 = s.gr1 ∧ ∀ m, m ≠ s.cm → m ≠ s.pm → t.readSpm m = s.readSpm m)) ∧
  (∀ sp s v s1 va s2 p s3 i vb t, Memory.wf s.mem = true → sp.mode ≠ .direct → pop s = .ok v s1 →
    resolve sp 2 .write s1 = .ok va s2 →
    ((i = .mtpi sp ∧ vb = inI va.addr) ∨ (i = .mtpd sp ∧ vb = va)) →
    memWriteM s.pm vb .word v s2 = .ok p s3 → exec i s = .next t →
    let dst : List Nat := match translate s.pm vb .write .word s2 with
      | .ok pa _ => [pa.toNat]
      | .error _ _ => []
    RegFrame s t (fun x => specSteps sp x ∨ x = .sp) ∧ InstrFrame s t (fun x => specSteps sp x ∨ x = .sp) dst 2 ∧
      t.pc = pcAfter sp s.pc) ∧
  (∀ r dd s v u, resolve dd 2 .read s = .error v u → ∀ i, (i = .jmp dd ∨ i = .jsr r dd) →
    exec i s = .next (trapSeq v u) ∧ AbortFrame s u (specSteps dd)) ∧
  (∀ r dd s va s1 v u, resolve dd 2 .read s = .ok va s1 → push (s1.readReg r) true s1 = .error v u →
    exec (.jsr r dd) s = .next (trapSeq v u) ∧ AbortFrame s u (fun x => specSteps dd x ∨ x = .sp)) ∧
  (∀ r s v u, memRead (inD (s.readReg .sp)) .word s = .error v u → ∀ i, (i = .rts r ∨ i = .rti ∨ i = .rtt) →
    exec i s = .next (trapSeq v u) ∧ AbortFrame s u fun _ => False) ∧
  (∀ s newPc s1 v u, memRead (inD (s.readReg .sp)) .word s = .ok newPc s1 →
    memRead (inD (s.readReg .sp + 2)) .word s1 = .error v u → ∀ i, (i = .rti ∨ i = .rtt) →
    exec i s = .next (trapSeq v u) ∧ AbortFrame s u fun _ => False) ∧
  (∀ (nn : BitVec 6) s v u,
    let a := s.pc + BitVec.ofNat 16 (2 * nn.toNat)
    memRead (inD a) .word (s.writeReg .sp a) = .error v u →
    exec (.mark nn) s = .next (trapSeq v u) ∧ AbortFrame s u (· = .sp)) ∧
  (∀ sp s e u i, (i = .mfpi sp ∨ i = .mfpd sp) →
    (sp.mode = .direct →
      push (if sp.reg = .sp ∧ s.pm ≠ s.cm then s.readSpm s.pm else s.readReg sp.reg) true s = .error e u →
      exec i s = .next (trapSeq e u) ∧ AbortFrame s u (· = .sp)) ∧
    (sp.mode ≠ .direct → resolve sp 2 .read s = .error e u →
      exec i s = .next (trapSeq e u) ∧ AbortFrame s u (specSteps sp)) ∧
    ∀ va s1 vb, sp.mode ≠ .direct → resolve sp 2 .read s = .ok va s1 →
      vb = (if i = .mfpd sp ∨ (s.cm = .user ∧ s.pm = .user) then va else inI va.addr) →
      (memReadM s.pm vb .word s1 = .error e u → exec i s = .next (trapSeq e u) ∧ AbortFrame s u (specSteps sp)) ∧
      ∀ v s2, memReadM s.pm vb .word s1 = .ok v s2 → push v true s2 = .error e u →
        exec i s = .next (trapSeq e u) ∧ AbortFrame s u (fun x => specSteps sp x ∨ x = .sp)) ∧
  (∀ sp s e u i, (i = .mtpi sp ∨ i = .mtpd sp) →
    (pop s = .error e u → exec i s = .next (trapSeq e u) ∧ AbortFrame s u fun _ => False) ∧
    ∀ v s1, pop s = .ok v s1 → sp.mode ≠ .direct →
      (resolve sp 2 .write s1 = .error e u →
        exec i s = .next (trapSeq e u) ∧ AbortFrame s u (fun x => specSteps sp x ∨ x = .sp)) ∧
      ∀ va s2, resolve sp 2 .write s1 = .ok va s2 →
        memWriteM s.pm (if i = .mtpd sp then va else inI va.addr) .word v s2 = .error e u →
        exec i s = .next (trapSeq e u) ∧ AbortFrame s u (fun x => specSteps sp x ∨ x = .sp))

/-- What the coprocessor's instructions leave unchanged: with a source, all of memory and, but for the registers the mode
steps, every register of the processor; with a destination, memory outside the words stored as well.
The PC ends past the extension word of the specifier (R141), unless it is itself the destination.
Where an access aborts, the instruction takes the trap at once, in the state the abort left: the registers of the
coprocessor, its exceptions and the processor's flags are as they were, and of a destination in memory only the words
before the one that aborted are stored (R12, R183, R472, R635). -/
def Obligations.FrameFpp : Prop :=
  (∀ (ac : Fin 4) ss s pl s1 x s2 i t q,
    ((q = precOf s.fpp.fps ∧ (i = .tstf ss ∨ i = .mulf ac ss ∨ i = .modf ac ss ∨ i = .addf ac ss ∨ i = .ldf ac ss ∨
        i = .subf ac ss ∨ i = .cmpf ac ss ∨ i = .divf ac ss)) ∨
      (q = (precOf s.fpp.fps).other ∧ i = .ldcdf ac ss)) →
    resolveF ss q .read s = .ok (some pl) s1 → readF pl q .read s1 = .ok x s2 → exec i s = .next t →
    RegFrame s t (specSteps ss) ∧ t.mem = s.mem ∧ t.psw = s.psw ∧ SpecialFrame s t ∧
      t.pc = pcAfter ss s.pc ∧ (∀ k : Fin 6, k ≠ acField ac → k.val ≠ ac.val ||| 1 → t.fpp.ac[k] = s.fpp.ac[k])) ∧
  (∀ (ac : Fin 4) ss s i t v s1, (i = .ldexp ac ss ∨ i = .ldfps ss) → readOp ss .word s = .ok v s1 →
    exec i s = .next t → RegFrame s t (specSteps ss) ∧ t.mem = s.mem ∧ t.psw = s.psw ∧ SpecialFrame s t ∧
      t.pc = pcAfter ss s.pc) ∧
  (∀ (ac : Fin 4) ss s t v s1, readInteger ss (s.fpp.fps.getLsbD 6) s = .ok v s1 →
    exec (.ldcif ac ss) s = .next t → RegFrame s t (specSteps ss) ∧ t.mem = s.mem ∧ t.psw = s.psw ∧ SpecialFrame s t ∧
      t.pc = pcAfter ss s.pc) ∧
  (∀ (ac : Fin 4) dd s pl s1 v s2 i t q, Memory.wf s.mem = true →
    ((q = precOf s.fpp.fps ∧ ((i = .clrf dd ∧ v = {}) ∨ (i = .stf ac dd ∧ v = s.fpp.ac[acField ac]))) ∨
      (q = (precOf s.fpp.fps).other ∧ i = .stcfd ac dd ∧
        v = (convertPrec (precOf s.fpp.fps) s.fpp.fps s.fpp.ac[acField ac]).words)) →
    resolveF dd q .write s = .ok (some pl) s1 → writeF pl q v s1 = .ok () s2 → exec i s = .next t →
    RegFrame s t (specSteps dd) ∧ t.pc = pcAfter dd s.pc ∧ MemFrame s t (placeAddresses pl q v s1) 2 ∧
      (InMain s (placeAddresses pl q v s1) → t.psw = s.psw ∧ SpecialFrame s t) ∧
      (∀ k : Fin 6, pl ≠ .ac k → t.fpp.ac[k] = s.fpp.ac[k])) ∧
  (∀ dd s pl s1 x s2 i y s3 t,
    let q := precOf s.fpp.fps
    Memory.wf s.mem = true → resolveF dd q .modify s = .ok (some pl) s1 → readF pl q .modify s1 = .ok x s2 →
    ((i = .absf dd ∧ y = absResult x) ∨ (i = .negf dd ∧ y = negResult x)) → writeF pl q y s2 = .ok () s3 →
    exec i s = .next t →
    RegFrame s t (specSteps dd) ∧ t.pc = pcAfter dd s.pc ∧ MemFrame s t (placeAddresses pl q y s2) 2 ∧
      (InMain s (placeAddresses pl q y s2) → t.psw = s.psw ∧ SpecialFrame s t) ∧
      (∀ k : Fin 6, pl ≠ .ac k → t.fpp.ac[k] = s.fpp.ac[k])) ∧
  (∀ (ac : Fin 4) dd s v p s1 i t, Memory.wf s.mem = true →
    (i = .stexp ac dd ∨ i = .stfps dd ∨ (i = .stcfi ac dd ∧ s.fpp.fps.getLsbD 6 = false)) →
    writeOp dd .word v s = .ok p s1 → exec i s = .next t →
    RegFrame s t (specLands dd) ∧ MemFrame s t (destAddress dd .word .write s) 2 ∧ t.fpp.ac = s.fpp.ac ∧
      PcStored dd t (pcAfter dd s.pc) ∧ (InMain s (destAddress dd .word .write s) → SpecialFrame s t)) ∧
  (∀ (ac : Fin 4) dd s i (hi lo : Word) t, Memory.wf s.mem = true →
    ((i = .stst dd ∧ hi = s.fpp.fec.setWidth 16 ∧ lo = s.fpp.fea) ∨
      (i = .stcfi ac dd ∧ s.fpp.fps.getLsbD 6 = true ∧
        hi ++ lo = BitVec.ofInt 32 (fToInt (precOf s.fpp.fps) (unpack (precOf s.fpp.fps) s.fpp.ac[acField ac]) 32).1)) →
    exec i s = .next t →
    (dd.mode = .direct → RegFrame s t (· = dd.reg) ∧ t.mem = s.mem ∧ t.fpp.ac = s.fpp.ac ∧ SpecialFrame s t ∧
      PcStored dd t s.pc) ∧
    (dd.isImmediate = true → ∀ p s1, memWrite (inI s.pc) .word hi s = .ok p s1 →
      RegFrame s t (fun _ => False) ∧ t.pc = s.pc + 2 ∧ MemFrame s t (wordAddresses (inI s.pc) s [hi]) 2 ∧
        t.fpp.ac = s.fpp.ac ∧ (InMain s (wordAddresses (inI s.pc) s [hi]) → SpecialFrame s t)) ∧
    (dd.mode ≠ .direct → dd.isImmediate = false → ∀ va s1 s2, resolve dd 4 .write s = .ok va s1 →
      writeWordsAt va [hi, lo] s1 = .ok () s2 →
      RegFrame s t (specSteps dd) ∧ t.pc = pcAfter dd s.pc ∧ MemFrame s t (wordAddresses va s1 [hi, lo]) 2 ∧
        t.fpp.ac = s.fpp.ac ∧ (InMain s (wordAddresses va s1 [hi, lo]) → SpecialFrame s t))) ∧
  (∀ (ac : Fin 4) ss s v u i q,
    ((q = precOf s.fpp.fps ∧ (i = .tstf ss ∨ i = .mulf ac ss ∨ i = .modf ac ss ∨ i = .addf ac ss ∨ i = .ldf ac ss ∨
        i = .subf ac ss ∨ i = .cmpf ac ss ∨ i = .divf ac ss)) ∨
      (q = (precOf s.fpp.fps).other ∧ i = .ldcdf ac ss)) →
    (resolveF ss q .read s = .error v u ∨
      ∃ pl s1, resolveF ss q .read s = .ok (some pl) s1 ∧ readF pl q .read s1 = .error v u) →
    exec i s = .next (trapSeq v u) ∧ AbortFrame s u (specSteps ss)) ∧
  (∀ (ac : Fin 4) ss s v u i,
    (((i = .ldexp ac ss ∨ i = .ldfps ss) ∧ readOp ss .word s = .error v u) ∨
      (i = .ldcif ac ss ∧ readInteger ss (s.fpp.fps.getLsbD 6) s = .error v u)) →
    exec i s = .next (trapSeq v u) ∧ AbortFrame s u (specSteps ss)) ∧
  (∀ (ac : Fin 4) dd s x v u i q, Memory.wf s.mem = true →
    ((q = precOf s.fpp.fps ∧ ((i = .clrf dd ∧ x = {}) ∨ (i = .stf ac dd ∧ x = s.fpp.ac[acField ac]))) ∨
      (q = (precOf s.fpp.fps).other ∧ i = .stcfd ac dd ∧
        x = (convertPrec (precOf s.fpp.fps) s.fpp.fps s.fpp.ac[acField ac]).words)) →
    (resolveF dd q .write s = .error v u → exec i s = .next (trapSeq v u) ∧ AbortFrame s u (specSteps dd)) ∧
    ∀ pl s1, resolveF dd q .write s = .ok (some pl) s1 → writeF pl q x s1 = .error v u →
      exec i s = .next (trapSeq v u) ∧ PartialStore s u (specSteps dd) (placeAddresses pl q x s1)) ∧
  (∀ dd s v u i (result : Accum → Accum),
    let q := precOf s.fpp.fps
    Memory.wf s.mem = true → ((i = .absf dd ∧ result = absResult) ∨ (i = .negf dd ∧ result = negResult)) →
    (resolveF dd q .modify s = .error v u → exec i s = .next (trapSeq v u) ∧ AbortFrame s u (specSteps dd)) ∧
    ∀ pl s1, resolveF dd q .modify s = .ok (some pl) s1 →
      (readF pl q .modify s1 = .error v u → exec i s = .next (trapSeq v u) ∧ AbortFrame s u (specSteps dd)) ∧
      ∀ x s2, readF pl q .modify s1 = .ok x s2 → writeF pl q (result x) s2 = .error v u →
        exec i s = .next (trapSeq v u) ∧ PartialStore s u (specSteps dd) (placeAddresses pl q (result x) s2)) ∧
  (∀ (ac : Fin 4) dd s x v u i,
    (i = .stexp ac dd ∨ i = .stfps dd ∨ (i = .stcfi ac dd ∧ s.fpp.fps.getLsbD 6 = false)) →
    writeOp dd .word x s = .error v u → exec i s = .next (trapSeq v u) ∧ AbortFrame s u (specSteps dd)) ∧
  (∀ (ac : Fin 4) dd s i (hi lo : Word) v u, Memory.wf s.mem = true →
    ((i = .stst dd ∧ hi = s.fpp.fec.setWidth 16 ∧ lo = s.fpp.fea) ∨
      (i = .stcfi ac dd ∧ s.fpp.fps.getLsbD 6 = true ∧
        hi ++ lo = BitVec.ofInt 32 (fToInt (precOf s.fpp.fps) (unpack (precOf s.fpp.fps) s.fpp.ac[acField ac]) 32).1)) →
    (dd.isImmediate = true → memWrite (inI s.pc) .word hi s = .error v u →
      exec i s = .next (trapSeq v u) ∧ AbortFrame s u fun _ => False) ∧
    (dd.mode ≠ .direct → dd.isImmediate = false →
      (resolve dd 4 .write s = .error v u → exec i s = .next (trapSeq v u) ∧ AbortFrame s u (specSteps dd)) ∧
      ∀ va s1, resolve dd 4 .write s = .ok va s1 → writeWordsAt va [hi, lo] s1 = .error v u →
        exec i s = .next (trapSeq v u) ∧ PartialStore s u (specSteps dd) (wordAddresses va s1 [hi, lo])))
end

