-- ==== Sys2Proof/Laws/State.lean ====
section
/-! SUPPORT. One lemma per field and update of the state, each true by unfolding. -/

namespace Sys2Proof.Machine

/-! ### `setGr0` -/

@[simp] theorem State.setGr0_gr0 (s : State) (v : Vector (BitVec 16) 6) : (s.setGr0 v).gr0 = v := rfl
@[simp] theorem State.setGr0_gr1 (s : State) (v : Vector (BitVec 16) 6) : (s.setGr0 v).gr1 = s.gr1 := rfl
@[simp] theorem State.setGr0_spm (s : State) (v : Vector (BitVec 16) 6) : (s.setGr0 v).spm = s.spm := rfl
@[simp] theorem State.setGr0_pc (s : State) (v : Vector (BitVec 16) 6) : (s.setGr0 v).pc = s.pc := rfl
@[simp] theorem State.setGr0_psw (s : State) (v : Vector (BitVec 16) 6) : (s.setGr0 v).psw = s.psw := rfl
@[simp] theorem State.setGr0_mmu (s : State) (v : Vector (BitVec 16) 6) : (s.setGr0 v).mmu = s.mmu := rfl
@[simp] theorem State.setGr0_ctl (s : State) (v : Vector (BitVec 16) 6) : (s.setGr0 v).ctl = s.ctl := rfl
@[simp] theorem State.setGr0_fpp (s : State) (v : Vector (BitVec 16) 6) : (s.setGr0 v).fpp = s.fpp := rfl
@[simp] theorem State.setGr0_mem (s : State) (v : Vector (BitVec 16) 6) : (s.setGr0 v).mem = s.mem := rfl
@[simp] theorem State.setGr0_params (s : State) (v : Vector (BitVec 16) 6) : (s.setGr0 v).params = s.params := rfl
@[simp] theorem State.setGr0_devices (s : State) (v : Vector (BitVec 16) 6) : (s.setGr0 v).devices = s.devices := rfl
@[simp] theorem State.setGr0_inputs (s : State) (v : Vector (BitVec 16) 6) : (s.setGr0 v).inputs = s.inputs := rfl
@[simp] theorem State.setGr0_draws (s : State) (v : Vector (BitVec 16) 6) : (s.setGr0 v).draws = s.draws := rfl
@[simp] theorem State.setGr0_setGr0 (s : State) (v w : Vector (BitVec 16) 6) : (s.setGr0 v).setGr0 w = s.setGr0 w := rfl
@[simp] theorem State.setGr0_self (s : State) : s.setGr0 s.gr0 = s := rfl

/-! ### `setGr1` -/

@[simp] theorem State.setGr1_gr0 (s : State) (v : Vector (BitVec 16) 6) : (s.setGr1 v).gr0 = s.gr0 := rfl
@[simp] theorem State.setGr1_gr1 (s : State) (v : Vector (BitVec 16) 6) : (s.setGr1 v).gr1 = v := rfl
@[simp] theorem State.setGr1_spm (s : State) (v : Vector (BitVec 16) 6) : (s.setGr1 v).spm = s.spm := rfl
@[simp] theorem State.setGr1_pc (s : State) (v : Vector (BitVec 16) 6) : (s.setGr1 v).pc = s.pc := rfl
@[simp] theorem State.setGr1_psw (s : State) (v : Vector (BitVec 16) 6) : (s.setGr1 v).psw = s.psw := rfl
@[simp] theorem State.setGr1_mmu (s : State) (v : Vector (BitVec 16) 6) : (s.setGr1 v).mmu = s.mmu := rfl
@[simp] theorem State.setGr1_ctl (s : State) (v : Vector (BitVec 16) 6) : (s.setGr1 v).ctl = s.ctl := rfl
@[simp] theorem State.setGr1_fpp (s : State) (v : Vector (BitVec 16) 6) : (s.setGr1 v).fpp = s.fpp := rfl
@[simp] theorem State.setGr1_mem (s : State) (v : Vector (BitVec 16) 6) : (s.setGr1 v).mem = s.mem := rfl
@[simp] theorem State.setGr1_params (s : State) (v : Vector (BitVec 16) 6) : (s.setGr1 v).params = s.params := rfl
@[simp] theorem State.setGr1_devices (s : State) (v : Vector (BitVec 16) 6) : (s.setGr1 v).devices = s.devices := rfl
@[simp] theorem State.setGr1_inputs (s : State) (v : Vector (BitVec 16) 6) : (s.setGr1 v).inputs = s.inputs := rfl
@[simp] theorem State.setGr1_draws (s : State) (v : Vector (BitVec 16) 6) : (s.setGr1 v).draws = s.draws := rfl
@[simp] theorem State.setGr1_setGr1 (s : State) (v w : Vector (BitVec 16) 6) : (s.setGr1 v).setGr1 w = s.setGr1 w := rfl
@[simp] theorem State.setGr1_self (s : State) : s.setGr1 s.gr1 = s := rfl

/-! ### `setSpm` -/

@[simp] theorem State.setSpm_gr0 (s : State) (v : Vector (BitVec 16) 4) : (s.setSpm v).gr0 = s.gr0 := rfl
@[simp] theorem State.setSpm_gr1 (s : State) (v : Vector (BitVec 16) 4) : (s.setSpm v).gr1 = s.gr1 := rfl
@[simp] theorem State.setSpm_spm (s : State) (v : Vector (BitVec 16) 4) : (s.setSpm v).spm = v := rfl
@[simp] theorem State.setSpm_pc (s : State) (v : Vector (BitVec 16) 4) : (s.setSpm v).pc = s.pc := rfl
@[simp] theorem State.setSpm_psw (s : State) (v : Vector (BitVec 16) 4) : (s.setSpm v).psw = s.psw := rfl
@[simp] theorem State.setSpm_mmu (s : State) (v : Vector (BitVec 16) 4) : (s.setSpm v).mmu = s.mmu := rfl
@[simp] theorem State.setSpm_ctl (s : State) (v : Vector (BitVec 16) 4) : (s.setSpm v).ctl = s.ctl := rfl
@[simp] theorem State.setSpm_fpp (s : State) (v : Vector (BitVec 16) 4) : (s.setSpm v).fpp = s.fpp := rfl
@[simp] theorem State.setSpm_mem (s : State) (v : Vector (BitVec 16) 4) : (s.setSpm v).mem = s.mem := rfl
@[simp] theorem State.setSpm_params (s : State) (v : Vector (BitVec 16) 4) : (s.setSpm v).params = s.params := rfl
@[simp] theorem State.setSpm_devices (s : State) (v : Vector (BitVec 16) 4) : (s.setSpm v).devices = s.devices := rfl
@[simp] theorem State.setSpm_inputs (s : State) (v : Vector (BitVec 16) 4) : (s.setSpm v).inputs = s.inputs := rfl
@[simp] theorem State.setSpm_draws (s : State) (v : Vector (BitVec 16) 4) : (s.setSpm v).draws = s.draws := rfl
@[simp] theorem State.setSpm_setSpm (s : State) (v w : Vector (BitVec 16) 4) : (s.setSpm v).setSpm w = s.setSpm w := rfl
@[simp] theorem State.setSpm_self (s : State) : s.setSpm s.spm = s := rfl

/-! ### `setPc` -/

@[simp] theorem State.setPc_gr0 (s : State) (v : BitVec 16) : (s.setPc v).gr0 = s.gr0 := rfl
@[simp] theorem State.setPc_gr1 (s : State) (v : BitVec 16) : (s.setPc v).gr1 = s.gr1 := rfl
@[simp] theorem State.setPc_spm (s : State) (v : BitVec 16) : (s.setPc v).spm = s.spm := rfl
@[simp] theorem State.setPc_pc (s : State) (v : BitVec 16) : (s.setPc v).pc = v := rfl
@[simp] theorem State.setPc_psw (s : State) (v : BitVec 16) : (s.setPc v).psw = s.psw := rfl
@[simp] theorem State.setPc_mmu (s : State) (v : BitVec 16) : (s.setPc v).mmu = s.mmu := rfl
@[simp] theorem State.setPc_ctl (s : State) (v : BitVec 16) : (s.setPc v).ctl = s.ctl := rfl
@[simp] theorem State.setPc_fpp (s : State) (v : BitVec 16) : (s.setPc v).fpp = s.fpp := rfl
@[simp] theorem State.setPc_mem (s : State) (v : BitVec 16) : (s.setPc v).mem = s.mem := rfl
@[simp] theorem State.setPc_params (s : State) (v : BitVec 16) : (s.setPc v).params = s.params := rfl
@[simp] theorem State.setPc_devices (s : State) (v : BitVec 16) : (s.setPc v).devices = s.devices := rfl
@[simp] theorem State.setPc_inputs (s : State) (v : BitVec 16) : (s.setPc v).inputs = s.inputs := rfl
@[simp] theorem State.setPc_draws (s : State) (v : BitVec 16) : (s.setPc v).draws = s.draws := rfl
@[simp] theorem State.setPc_setPc (s : State) (v w : BitVec 16) : (s.setPc v).setPc w = s.setPc w := rfl
@[simp] theorem State.setPc_self (s : State) : s.setPc s.pc = s := rfl

/-! ### `setPsw` -/

@[simp] theorem State.setPsw_gr0 (s : State) (v : BitVec 16) : (s.setPsw v).gr0 = s.gr0 := rfl
@[simp] theorem State.setPsw_gr1 (s : State) (v : BitVec 16) : (s.setPsw v).gr1 = s.gr1 := rfl
@[simp] theorem State.setPsw_spm (s : State) (v : BitVec 16) : (s.setPsw v).spm = s.spm := rfl
@[simp] theorem State.setPsw_pc (s : State) (v : BitVec 16) : (s.setPsw v).pc = s.pc := rfl
@[simp] theorem State.setPsw_psw (s : State) (v : BitVec 16) : (s.setPsw v).psw = v := rfl
@[simp] theorem State.setPsw_mmu (s : State) (v : BitVec 16) : (s.setPsw v).mmu = s.mmu := rfl
@[simp] theorem State.setPsw_ctl (s : State) (v : BitVec 16) : (s.setPsw v).ctl = s.ctl := rfl
@[simp] theorem State.setPsw_fpp (s : State) (v : BitVec 16) : (s.setPsw v).fpp = s.fpp := rfl
@[simp] theorem State.setPsw_mem (s : State) (v : BitVec 16) : (s.setPsw v).mem = s.mem := rfl
@[simp] theorem State.setPsw_params (s : State) (v : BitVec 16) : (s.setPsw v).params = s.params := rfl
@[simp] theorem State.setPsw_devices (s : State) (v : BitVec 16) : (s.setPsw v).devices = s.devices := rfl
@[simp] theorem State.setPsw_inputs (s : State) (v : BitVec 16) : (s.setPsw v).inputs = s.inputs := rfl
@[simp] theorem State.setPsw_draws (s : State) (v : BitVec 16) : (s.setPsw v).draws = s.draws := rfl
@[simp] theorem State.setPsw_setPsw (s : State) (v w : BitVec 16) : (s.setPsw v).setPsw w = s.setPsw w := rfl
@[simp] theorem State.setPsw_self (s : State) : s.setPsw s.psw = s := rfl

/-! ### `setMmu` -/

@[simp] theorem State.setMmu_gr0 (s : State) (v : Mmu) : (s.setMmu v).gr0 = s.gr0 := rfl
@[simp] theorem State.setMmu_gr1 (s : State) (v : Mmu) : (s.setMmu v).gr1 = s.gr1 := rfl
@[simp] theorem State.setMmu_spm (s : State) (v : Mmu) : (s.setMmu v).spm = s.spm := rfl
@[simp] theorem State.setMmu_pc (s : State) (v : Mmu) : (s.setMmu v).pc = s.pc := rfl
@[simp] theorem State.setMmu_psw (s : State) (v : Mmu) : (s.setMmu v).psw = s.psw := rfl
@[simp] theorem State.setMmu_mmu (s : State) (v : Mmu) : (s.setMmu v).mmu = v := rfl
@[simp] theorem State.setMmu_ctl (s : State) (v : Mmu) : (s.setMmu v).ctl = s.ctl := rfl
@[simp] theorem State.setMmu_fpp (s : State) (v : Mmu) : (s.setMmu v).fpp = s.fpp := rfl
@[simp] theorem State.setMmu_mem (s : State) (v : Mmu) : (s.setMmu v).mem = s.mem := rfl
@[simp] theorem State.setMmu_params (s : State) (v : Mmu) : (s.setMmu v).params = s.params := rfl
@[simp] theorem State.setMmu_devices (s : State) (v : Mmu) : (s.setMmu v).devices = s.devices := rfl
@[simp] theorem State.setMmu_inputs (s : State) (v : Mmu) : (s.setMmu v).inputs = s.inputs := rfl
@[simp] theorem State.setMmu_draws (s : State) (v : Mmu) : (s.setMmu v).draws = s.draws := rfl
@[simp] theorem State.setMmu_setMmu (s : State) (v w : Mmu) : (s.setMmu v).setMmu w = s.setMmu w := rfl
@[simp] theorem State.setMmu_self (s : State) : s.setMmu s.mmu = s := rfl

/-! ### `setCtl` -/

@[simp] theorem State.setCtl_gr0 (s : State) (v : Ctl) : (s.setCtl v).gr0 = s.gr0 := rfl
@[simp] theorem State.setCtl_gr1 (s : State) (v : Ctl) : (s.setCtl v).gr1 = s.gr1 := rfl
@[simp] theorem State.setCtl_spm (s : State) (v : Ctl) : (s.setCtl v).spm = s.spm := rfl
@[simp] theorem State.setCtl_pc (s : State) (v : Ctl) : (s.setCtl v).pc = s.pc := rfl
@[simp] theorem State.setCtl_psw (s : State) (v : Ctl) : (s.setCtl v).psw = s.psw := rfl
@[simp] theorem State.setCtl_mmu (s : State) (v : Ctl) : (s.setCtl v).mmu = s.mmu := rfl
@[simp] theorem State.setCtl_ctl (s : State) (v : Ctl) : (s.setCtl v).ctl = v := rfl
@[simp] theorem State.setCtl_fpp (s : State) (v : Ctl) : (s.setCtl v).fpp = s.fpp := rfl
@[simp] theorem State.setCtl_mem (s : State) (v : Ctl) : (s.setCtl v).mem = s.mem := rfl
@[simp] theorem State.setCtl_params (s : State) (v : Ctl) : (s.setCtl v).params = s.params := rfl
@[simp] theorem State.setCtl_devices (s : State) (v : Ctl) : (s.setCtl v).devices = s.devices := rfl
@[simp] theorem State.setCtl_inputs (s : State) (v : Ctl) : (s.setCtl v).inputs = s.inputs := rfl
@[simp] theorem State.setCtl_draws (s : State) (v : Ctl) : (s.setCtl v).draws = s.draws := rfl
@[simp] theorem State.setCtl_setCtl (s : State) (v w : Ctl) : (s.setCtl v).setCtl w = s.setCtl w := rfl
@[simp] theorem State.setCtl_self (s : State) : s.setCtl s.ctl = s := rfl

/-! ### `setFpp` -/

@[simp] theorem State.setFpp_gr0 (s : State) (v : Fpp) : (s.setFpp v).gr0 = s.gr0 := rfl
@[simp] theorem State.setFpp_gr1 (s : State) (v : Fpp) : (s.setFpp v).gr1 = s.gr1 := rfl
@[simp] theorem State.setFpp_spm (s : State) (v : Fpp) : (s.setFpp v).spm = s.spm := rfl
@[simp] theorem State.setFpp_pc (s : State) (v : Fpp) : (s.setFpp v).pc = s.pc := rfl
@[simp] theorem State.setFpp_psw (s : State) (v : Fpp) : (s.setFpp v).psw = s.psw := rfl
@[simp] theorem State.setFpp_mmu (s : State) (v : Fpp) : (s.setFpp v).mmu = s.mmu := rfl
@[simp] theorem State.setFpp_ctl (s : State) (v : Fpp) : (s.setFpp v).ctl = s.ctl := rfl
@[simp] theorem State.setFpp_fpp (s : State) (v : Fpp) : (s.setFpp v).fpp = v := rfl
@[simp] theorem State.setFpp_mem (s : State) (v : Fpp) : (s.setFpp v).mem = s.mem := rfl
@[simp] theorem State.setFpp_params (s : State) (v : Fpp) : (s.setFpp v).params = s.params := rfl
@[simp] theorem State.setFpp_devices (s : State) (v : Fpp) : (s.setFpp v).devices = s.devices := rfl
@[simp] theorem State.setFpp_inputs (s : State) (v : Fpp) : (s.setFpp v).inputs = s.inputs := rfl
@[simp] theorem State.setFpp_draws (s : State) (v : Fpp) : (s.setFpp v).draws = s.draws := rfl
@[simp] theorem State.setFpp_setFpp (s : State) (v w : Fpp) : (s.setFpp v).setFpp w = s.setFpp w := rfl
@[simp] theorem State.setFpp_self (s : State) : s.setFpp s.fpp = s := rfl

/-! ### `setMem` -/

@[simp] theorem State.setMem_gr0 (s : State) (v : Memory) : (s.setMem v).gr0 = s.gr0 := rfl
@[simp] theorem State.setMem_gr1 (s : State) (v : Memory) : (s.setMem v).gr1 = s.gr1 := rfl
@[simp] theorem State.setMem_spm (s : State) (v : Memory) : (s.setMem v).spm = s.spm := rfl
@[simp] theorem State.setMem_pc (s : State) (v : Memory) : (s.setMem v).pc = s.pc := rfl
@[simp] theorem State.setMem_psw (s : State) (v : Memory) : (s.setMem v).psw = s.psw := rfl
@[simp] theorem State.setMem_mmu (s : State) (v : Memory) : (s.setMem v).mmu = s.mmu := rfl
@[simp] theorem State.setMem_ctl (s : State) (v : Memory) : (s.setMem v).ctl = s.ctl := rfl
@[simp] theorem State.setMem_fpp (s : State) (v : Memory) : (s.setMem v).fpp = s.fpp := rfl
@[simp] theorem State.setMem_mem (s : State) (v : Memory) : (s.setMem v).mem = v := rfl
@[simp] theorem State.setMem_params (s : State) (v : Memory) : (s.setMem v).params = s.params := rfl
@[simp] theorem State.setMem_devices (s : State) (v : Memory) : (s.setMem v).devices = s.devices := rfl
@[simp] theorem State.setMem_inputs (s : State) (v : Memory) : (s.setMem v).inputs = s.inputs := rfl
@[simp] theorem State.setMem_draws (s : State) (v : Memory) : (s.setMem v).draws = s.draws := rfl
@[simp] theorem State.setMem_setMem (s : State) (v w : Memory) : (s.setMem v).setMem w = s.setMem w := rfl
@[simp] theorem State.setMem_self (s : State) : s.setMem s.mem = s := rfl

/-! ### `setDevices` -/

@[simp] theorem State.setDevices_gr0 (s : State) (v : List Device) : (s.setDevices v).gr0 = s.gr0 := rfl
@[simp] theorem State.setDevices_gr1 (s : State) (v : List Device) : (s.setDevices v).gr1 = s.gr1 := rfl
@[simp] theorem State.setDevices_spm (s : State) (v : List Device) : (s.setDevices v).spm = s.spm := rfl
@[simp] theorem State.setDevices_pc (s : State) (v : List Device) : (s.setDevices v).pc = s.pc := rfl
@[simp] theorem State.setDevices_psw (s : State) (v : List Device) : (s.setDevices v).psw = s.psw := rfl
@[simp] theorem State.setDevices_mmu (s : State) (v : List Device) : (s.setDevices v).mmu = s.mmu := rfl
@[simp] theorem State.setDevices_ctl (s : State) (v : List Device) : (s.setDevices v).ctl = s.ctl := rfl
@[simp] theorem State.setDevices_fpp (s : State) (v : List Device) : (s.setDevices v).fpp = s.fpp := rfl
@[simp] theorem State.setDevices_mem (s : State) (v : List Device) : (s.setDevices v).mem = s.mem := rfl
@[simp] theorem State.setDevices_params (s : State) (v : List Device) : (s.setDevices v).params = s.params := rfl
@[simp] theorem State.setDevices_devices (s : State) (v : List Device) : (s.setDevices v).devices = v := rfl
@[simp] theorem State.setDevices_inputs (s : State) (v : List Device) : (s.setDevices v).inputs = s.inputs := rfl
@[simp] theorem State.setDevices_draws (s : State) (v : List Device) : (s.setDevices v).draws = s.draws := rfl
@[simp] theorem State.setDevices_setDevices (s : State) (v w : List Device) : (s.setDevices v).setDevices w = s.setDevices w := rfl
@[simp] theorem State.setDevices_self (s : State) : s.setDevices s.devices = s := rfl

/-! ### `setInputs` -/

@[simp] theorem State.setInputs_gr0 (s : State) (v : List (List Input)) : (s.setInputs v).gr0 = s.gr0 := rfl
@[simp] theorem State.setInputs_gr1 (s : State) (v : List (List Input)) : (s.setInputs v).gr1 = s.gr1 := rfl
@[simp] theorem State.setInputs_spm (s : State) (v : List (List Input)) : (s.setInputs v).spm = s.spm := rfl
@[simp] theorem State.setInputs_pc (s : State) (v : List (List Input)) : (s.setInputs v).pc = s.pc := rfl
@[simp] theorem State.setInputs_psw (s : State) (v : List (List Input)) : (s.setInputs v).psw = s.psw := rfl
@[simp] theorem State.setInputs_mmu (s : State) (v : List (List Input)) : (s.setInputs v).mmu = s.mmu := rfl
@[simp] theorem State.setInputs_ctl (s : State) (v : List (List Input)) : (s.setInputs v).ctl = s.ctl := rfl
@[simp] theorem State.setInputs_fpp (s : State) (v : List (List Input)) : (s.setInputs v).fpp = s.fpp := rfl
@[simp] theorem State.setInputs_mem (s : State) (v : List (List Input)) : (s.setInputs v).mem = s.mem := rfl
@[simp] theorem State.setInputs_params (s : State) (v : List (List Input)) : (s.setInputs v).params = s.params := rfl
@[simp] theorem State.setInputs_devices (s : State) (v : List (List Input)) : (s.setInputs v).devices = s.devices := rfl
@[simp] theorem State.setInputs_inputs (s : State) (v : List (List Input)) : (s.setInputs v).inputs = v := rfl
@[simp] theorem State.setInputs_draws (s : State) (v : List (List Input)) : (s.setInputs v).draws = s.draws := rfl
@[simp] theorem State.setInputs_setInputs (s : State) (v w : List (List Input)) : (s.setInputs v).setInputs w = s.setInputs w := rfl
@[simp] theorem State.setInputs_self (s : State) : s.setInputs s.inputs = s := rfl

/-! ### `setDraws` -/

@[simp] theorem State.setDraws_gr0 (s : State) (v : Nat) : (s.setDraws v).gr0 = s.gr0 := rfl
@[simp] theorem State.setDraws_gr1 (s : State) (v : Nat) : (s.setDraws v).gr1 = s.gr1 := rfl
@[simp] theorem State.setDraws_spm (s : State) (v : Nat) : (s.setDraws v).spm = s.spm := rfl
@[simp] theorem State.setDraws_pc (s : State) (v : Nat) : (s.setDraws v).pc = s.pc := rfl
@[simp] theorem State.setDraws_psw (s : State) (v : Nat) : (s.setDraws v).psw = s.psw := rfl
@[simp] theorem State.setDraws_mmu (s : State) (v : Nat) : (s.setDraws v).mmu = s.mmu := rfl
@[simp] theorem State.setDraws_ctl (s : State) (v : Nat) : (s.setDraws v).ctl = s.ctl := rfl
@[simp] theorem State.setDraws_fpp (s : State) (v : Nat) : (s.setDraws v).fpp = s.fpp := rfl
@[simp] theorem State.setDraws_mem (s : State) (v : Nat) : (s.setDraws v).mem = s.mem := rfl
@[simp] theorem State.setDraws_params (s : State) (v : Nat) : (s.setDraws v).params = s.params := rfl
@[simp] theorem State.setDraws_devices (s : State) (v : Nat) : (s.setDraws v).devices = s.devices := rfl
@[simp] theorem State.setDraws_inputs (s : State) (v : Nat) : (s.setDraws v).inputs = s.inputs := rfl
@[simp] theorem State.setDraws_draws (s : State) (v : Nat) : (s.setDraws v).draws = v := rfl
@[simp] theorem State.setDraws_setDraws (s : State) (v w : Nat) : (s.setDraws v).setDraws w = s.setDraws w := rfl
@[simp] theorem State.setDraws_self (s : State) : s.setDraws s.draws = s := rfl

end Sys2Proof.Machine
end

