-- ==== Sys2Proof/Laws/Regs.lean ====
section
/-! SUPPORT. The small lemmas of the register view and of the named updates of control state. -/

namespace Sys2Proof.Machine

/-! ### Named updates are field updates -/

@[simp] theorem State.onMmu_eq (s : State) (f : Mmu → Mmu) : s.onMmu f = s.setMmu (f s.mmu) := rfl
@[simp] theorem State.onCtl_eq (s : State) (f : Ctl → Ctl) : s.onCtl f = s.setCtl (f s.ctl) := rfl
@[simp] theorem State.onFpp_eq (s : State) (f : Fpp → Fpp) : s.onFpp f = s.setFpp (f s.fpp) := rfl
@[simp] theorem State.cm_eq (s : State) : s.cm = pswCm s.psw := rfl
@[simp] theorem State.pm_eq (s : State) : s.pm = pswPm s.psw := rfl
@[simp] theorem State.carry_eq (s : State) : s.carry = pswC s.psw := rfl

/-- Two states with the same fields are the same state. -/
theorem State.ext_fields {s t : State} (h0 : s.gr0 = t.gr0) (h1 : s.gr1 = t.gr1) (h2 : s.spm = t.spm)
    (h3 : s.pc = t.pc) (h4 : s.psw = t.psw) (h5 : s.mmu = t.mmu) (h6 : s.ctl = t.ctl) (h7 : s.fpp = t.fpp)
    (h8 : s.mem = t.mem) (h9 : s.params = t.params) (h10 : s.devices = t.devices) (h11 : s.inputs = t.inputs)
    (h12 : s.draws = t.draws) : s = t := by
  cases s; cases t; simp_all

/-! ### Registers -/

@[simp] theorem State.writeReg_mmu (s : State) (r : Reg) (v : Word) : (s.writeReg r v).mmu = s.mmu := by
  cases r <;> simp only [State.writeReg, State.writeGen, State.writeSpm] <;> (try split) <;> rfl
@[simp] theorem State.writeReg_psw (s : State) (r : Reg) (v : Word) : (s.writeReg r v).psw = s.psw := by
  cases r <;> simp only [State.writeReg, State.writeGen, State.writeSpm] <;> (try split) <;> rfl
@[simp] theorem State.writeReg_ctl (s : State) (r : Reg) (v : Word) : (s.writeReg r v).ctl = s.ctl := by
  cases r <;> simp only [State.writeReg, State.writeGen, State.writeSpm] <;> (try split) <;> rfl
@[simp] theorem State.writeReg_fpp (s : State) (r : Reg) (v : Word) : (s.writeReg r v).fpp = s.fpp := by
  cases r <;> simp only [State.writeReg, State.writeGen, State.writeSpm] <;> (try split) <;> rfl
@[simp] theorem State.writeReg_mem (s : State) (r : Reg) (v : Word) : (s.writeReg r v).mem = s.mem := by
  cases r <;> simp only [State.writeReg, State.writeGen, State.writeSpm] <;> (try split) <;> rfl
@[simp] theorem State.writeReg_params (s : State) (r : Reg) (v : Word) : (s.writeReg r v).params = s.params := by
  cases r <;> simp only [State.writeReg, State.writeGen, State.writeSpm] <;> (try split) <;> rfl
@[simp] theorem State.writeReg_devices (s : State) (r : Reg) (v : Word) : (s.writeReg r v).devices = s.devices := by
  cases r <;> simp only [State.writeReg, State.writeGen, State.writeSpm] <;> (try split) <;> rfl
@[simp] theorem State.writeReg_inputs (s : State) (r : Reg) (v : Word) : (s.writeReg r v).inputs = s.inputs := by
  cases r <;> simp only [State.writeReg, State.writeGen, State.writeSpm] <;> (try split) <;> rfl
@[simp] theorem State.writeReg_draws (s : State) (r : Reg) (v : Word) : (s.writeReg r v).draws = s.draws := by
  cases r <;> simp only [State.writeReg, State.writeGen, State.writeSpm] <;> (try split) <;> rfl

/-- A write of a general register leaves the stack pointers and the PC. -/
@[simp] theorem State.writeGen_spm (s : State) (rs : Bool) (i : Fin 6) (v : Word) : (s.writeGen rs i v).spm = s.spm := by
  simp only [State.writeGen]; split <;> rfl
@[simp] theorem State.writeGen_pc (s : State) (rs : Bool) (i : Fin 6) (v : Word) : (s.writeGen rs i v).pc = s.pc := by
  simp only [State.writeGen]; split <;> rfl

theorem State.readGen_writeGen (s : State) (rs : Bool) (i : Fin 6) (v : Word) (rs' : Bool) (j : Fin 6) :
    (s.writeGen rs i v).readGen rs' j = if rs' = rs ∧ j = i then v else s.readGen rs' j := by
  cases rs <;> cases rs' <;> simp [State.readGen, State.writeGen, Vector.getElem_set, Fin.ext_iff, eq_comm]

theorem modeNumber_inj {m k : ProcMode} : modeNumber m = modeNumber k ↔ m = k := by
  cases m <;> cases k <;> decide

theorem State.readSpm_writeSpm (s : State) (m k : ProcMode) (v : Word) :
    (s.writeSpm m v).readSpm k = if k = m then v else s.readSpm k := by
  cases m <;> cases k <;> simp [State.readSpm, State.writeSpm, modeNumber]

/-- Which general register and stack slot a write through the view changes (R20 to R23). -/
theorem State.readGen_writeReg (s : State) (r : Reg) (v : Word) (rs : Bool) (i : Fin 6) :
    (s.writeReg r v).readGen rs i = if rs = pswRs s.psw ∧ r = .gen i then v else s.readGen rs i := by
  cases r with
  | gen j => simp [State.writeReg, State.readGen_writeGen, eq_comm]
  | sp => simp [State.writeReg, State.writeSpm, State.readGen]
  | pc => simp [State.writeReg, State.readGen]

theorem State.readSpm_writeReg (s : State) (r : Reg) (v : Word) (m : ProcMode) :
    (s.writeReg r v).readSpm m = if m = s.cm ∧ r = .sp then v else s.readSpm m := by
  cases r with
  | gen j => simp [State.writeReg, State.readSpm]
  | sp => simp [State.writeReg, State.readSpm_writeSpm]
  | pc => simp [State.writeReg, State.readSpm]

theorem State.pc_writeReg (s : State) (r : Reg) (v : Word) :
    (s.writeReg r v).pc = if r = .pc then v else s.pc := by
  cases r <;> simp [State.writeReg, State.writeSpm]

/-- A register reads as written, every other one as before (R23). -/
theorem State.readReg_writeReg (s : State) (r r' : Reg) (v : Word) :
    (s.writeReg r v).readReg r' = if r' = r then v else s.readReg r' := by
  cases r' with
  | gen j => simp [State.readReg, State.readGen_writeReg, eq_comm]
  | sp => simp [State.readReg, State.readSpm_writeReg, eq_comm]
  | pc => simp [State.readReg, State.pc_writeReg, eq_comm]

/-! ### Bookkeeping of stepped registers -/

/-- An abort is frozen exactly while one of the three bits that record its cause is set (R43). -/
theorem mmr0Frozen_iff (w : Word) : mmr0Frozen w = true ↔ w.extractLsb' 13 3 ≠ 0 := by
  have : ∀ x : BitVec 3, (x.getLsbD 2 || x.getLsbD 1 || x.getLsbD 0) = true ↔ x ≠ 0 := by decide
  rw [← this, mmr0Frozen]
  simp

/-- `Record` changes MMR1 alone, and nothing while an abort is frozen (R182). -/
theorem State.record_cases (s : State) (r : Reg) (d : Int) :
    s.record r d = s ∨ (mmr0Frozen s.mmu.mmr0 = false ∧
      s.record r d = s.setMmu { s.mmu with mmr1 := (s.mmu.mmr1 <<< 8) ||| mmr1Record r d }) := by
  simp only [State.record]
  split_ifs with h
  · exact .inl rfl
  · simp only [not_or, Bool.not_eq_true] at h
    exact .inr ⟨h.2, rfl⟩

/-- A step of a register is a write of it and the record in MMR1 (R173, R176, R182). -/
theorem State.step_eq (s : State) (r : Reg) (d : Int) :
    ∃ u : Mmu, u = { s.mmu with mmr1 := u.mmr1 } ∧
      s.step r d = (s.writeReg r (s.readReg r + BitVec.ofInt 16 d)).setMmu u := by
  have hs : (s.writeReg r (s.readReg r + BitVec.ofInt 16 d)).setMmu s.mmu =
      s.writeReg r (s.readReg r + BitVec.ofInt 16 d) := by
    conv_lhs => rw [← State.writeReg_mmu s r (s.readReg r + BitVec.ofInt 16 d)]
    exact State.setMmu_self _
  rcases State.record_cases (s.writeReg r (s.readReg r + BitVec.ofInt 16 d)) r d with h | ⟨-, h⟩
  · exact ⟨s.mmu, rfl, by rw [State.step, h, hs]⟩
  · rw [State.writeReg_mmu] at h
    exact ⟨_, rfl, by rw [State.step, h]⟩

/-! ### The status word -/

/-- `LoadPSW` (R28): the status word, and, where the priority falls, the interrupt flag and its delay. -/
theorem State.loadPsw_eq (s : State) (v : Word) :
    s.loadPsw v = (s.setPsw (v &&& 0o174377)).setCtl
      (if pswPri v < pswPri s.psw then { s.ctl with irqFlag := true, irqDelay := true } else s.ctl) := by
  simp only [State.loadPsw]
  split <;> rfl

/-- Setting the flags touches the status word alone, and in it bits 3:0 alone (R27). -/
theorem putCc_shift (w : Word) (cc : Cc) : putCc w cc >>> 4 = w >>> 4 := by
  apply BitVec.eq_of_getLsbD_eq
  intro i hi
  simp only [putCc, flagsWord, BitVec.getLsbD_ushiftRight, BitVec.getLsbD_or, BitVec.getLsbD_and, BitVec.getLsbD_not,
    BitVec.getLsbD_setWidth]
  by_cases hi2 : 4 + i < 16
  · simp [hi2]
  · simp [show 16 ≤ 4 + i by omega]

theorem flagsWord_shift (w : Word) (m v : BitVec 4) : flagsWord w m v >>> 4 = w >>> 4 := by
  apply BitVec.eq_of_getLsbD_eq
  intro i hi
  simp only [flagsWord, BitVec.getLsbD_ushiftRight, BitVec.getLsbD_or, BitVec.getLsbD_and, BitVec.getLsbD_not,
    BitVec.getLsbD_setWidth]
  by_cases hi2 : 4 + i < 16
  · simp [hi2]
  · simp [show 16 ≤ 4 + i by omega]

/-- The four flags after they are set (R27). -/
theorem putCc_flags (w : Word) (cc : Cc) :
    pswN (putCc w cc) = cc.n ∧ pswZ (putCc w cc) = cc.z ∧ pswV (putCc w cc) = cc.v ∧ pswC (putCc w cc) = cc.c := by
  obtain ⟨n, z, v, c⟩ := cc
  simp only [pswN, pswZ, pswV, pswC, putCc, flagsWord, Cc.bits, BitVec.getLsbD_or, BitVec.getLsbD_and,
    BitVec.getLsbD_not, BitVec.getLsbD_setWidth, BitVec.getLsbD_append]
  cases n <;> cases z <;> cases v <;> cases c <;> simp

/-! ### Core-owned registers and page entries -/

/-- A conditional that answers `some`: its first branch, or the rest. -/
theorem ite_some {α} {p : Prop} [Decidable p] {a : α} {o : Option α} {r : α} (h : (if p then some a else o) = some r) : a = r ∨ o = some r := by
  split at h
  · exact .inl (by injection h)
  · exact .inr h

/-- No address names a page register of mode 2 (R60). -/
theorem coreReg_mode {pa r} (h : coreRegAt pa = some r) : (∀ p, r ≠ .pdr .illegal p) ∧ (∀ p, r ≠ .par .illegal p) := by
  have key : ∀ m n, m ≠ .illegal → (∀ p, pageRegAt m n ≠ .pdr .illegal p) ∧ (∀ p, pageRegAt m n ≠ .par .illegal p) := by
    intro m n hm
    unfold pageRegAt
    split <;> simp [hm]
  unfold coreRegAt at h
  simp only at h
  generalize pa.toNat / 2 * 2 = a at h
  iterate 9
    rcases ite_some h with h | h
    · subst h; simp
  iterate 3
    rcases ite_some h with h | h
    · subst h; exact key _ _ (by decide)
  by_cases h1 : 0o17770200 ≤ a ∧ a < 0o17770400
  · rw [if_pos h1] at h
    rcases ite_some h with h | h
    · subst h; simp
    · injection h with h; subst h; simp
  · rw [if_neg h1] at h
    cases h

/-- Modes and pages share no entry (R40). -/
theorem pageEntry_inj {m k p q} : pageEntry m p = pageEntry k q ↔ m = k ∧ p = q := by
  simp only [pageEntry, Fin.mk.injEq]
  constructor
  · intro h
    have := p.isLt
    have := q.isLt
    refine ⟨modeNumber_inj.mp (Fin.ext (by omega)), Fin.ext ?_⟩
    cases m <;> cases k <;> simp_all [modeNumber] <;> omega
  · rintro ⟨rfl, rfl⟩; rfl

/-- The priority is none of the bits a load of the status word clears (R26, R28). -/
theorem pswPri_and (v : Word) : pswPri (v &&& 0o174377) = pswPri v := by
  unfold pswPri
  congr 1
  apply BitVec.eq_of_getLsbD_eq
  intro i hi
  have : i < 3 := by omega
  interval_cases i <;> simp

/-- A load of the status word changes nothing else, but one that lowers the priority flags the interrupt check with its
delay (R28). -/
theorem State.loadPsw_priority (s : State) (v : Word) :
    let t := s.loadPsw v
    t = (s.setPsw t.psw).setCtl t.ctl ∧ t.psw = v &&& 0o174377 ∧
      (pswPri t.psw < pswPri s.psw → t.ctl = { s.ctl with irqFlag := true, irqDelay := true }) ∧
      (pswPri s.psw ≤ pswPri t.psw → t.ctl = s.ctl) := by
  intro t
  have hp : t.psw = v &&& 0o174377 := by simp only [t, State.loadPsw_eq]; rfl
  have hc : t.ctl = if pswPri v < pswPri s.psw then { s.ctl with irqFlag := true, irqDelay := true } else s.ctl := by
    simp only [t, State.loadPsw_eq]; rfl
  rw [hp, hc, pswPri_and]
  exact ⟨by simp only [t, State.loadPsw_eq], rfl, fun h => if_pos h, fun h => if_neg (by omega)⟩

end Sys2Proof.Machine
end

