-- ==== Sys2Proof/Laws/Post.lean ====
section
/-! SUPPORT. What an operation can do to the state, said once: it completes in a state related to the first by `R`, or
aborts in one related by `E`, for every pair of relations closed under the named updates the operation is made of.
A statement about all runs of an operation follows from one of these lemmas. -/

namespace Sys2Proof.Machine

/-- Run in `s`, the operation completes in a state related by `R`, or aborts in one related by `E`. -/
def PostAt {α : Type} (R E : State → State → Prop) (s : State) (m : M α) : Prop :=
  match m s with
  | .ok _ t => R s t
  | .error _ t => E s t

/-- The same in every state. -/
def Post {α : Type} (R E : State → State → Prop) (m : M α) : Prop := ∀ s, PostAt R E s m

/-- The pair composes. -/
structure Composes (R E : State → State → Prop) : Prop where
  refl : ∀ s, R s s
  trans : ∀ {s t u}, R s t → R t u → R s u
  transE : ∀ {s t u}, R s t → E t u → E s u
  raise : ∀ s, E s s

section
variable {R E : State → State → Prop} {α β : Type}

theorem PostAt.ok {s t : State} {m : M α} {a : α} (h : PostAt R E s m) (hm : m s = .ok a t) : R s t := by
  simpa [PostAt, hm] using h

theorem PostAt.err {s t : State} {m : M α} {v : Word} (h : PostAt R E s m) (hm : m s = .error v t) : E s t := by
  simpa [PostAt, hm] using h

theorem PostAt.bind (c : Composes R E) {s : State} {m : M α} {k : α → M β} (hm : PostAt R E s m)
    (hk : ∀ a t, m s = .ok a t → PostAt R E t (k a)) : PostAt R E s (m >>= k) := by
  have e : (m >>= k) s = EStateM.bind m k s := rfl
  unfold PostAt at hm ⊢
  rw [e, EStateM.bind]
  cases h : m s with
  | ok a t =>
    have hR : R s t := by simpa only [h] using hm
    have hk := hk a t h
    unfold PostAt at hk
    cases hu : k a t with
    | ok b u =>
      simp only [hu] at hk ⊢
      exact c.trans hR hk
    | error v u =>
      simp only [hu] at hk ⊢
      exact c.transE hR hk
  | error v t => simpa only [h] using hm

theorem Post.bind (c : Composes R E) {m : M α} {k : α → M β} (hm : Post R E m) (hk : ∀ a, Post R E (k a)) :
    Post R E (m >>= k) := fun s => PostAt.bind c (hm s) fun a t _ => hk a t

theorem PostAt.get_bind {s : State} {k : State → M β} (h : PostAt R E s (k s)) : PostAt R E s (get >>= k) := h

theorem Post.get_bind {k : State → M β} (h : ∀ s, PostAt R E s (k s)) : Post R E (get >>= k) := h

theorem Post.pure (c : Composes R E) (a : α) : Post R E (pure a : M α) := fun s => c.refl s

theorem Post.look (c : Composes R E) (f : State → α) : Post R E (look f) := fun s => c.refl s

theorem Post.change {f : State → State} (h : ∀ s, R s (f s)) : Post R E (change f) := h

theorem PostAt.change {s : State} {f : State → State} (h : R s (f s)) : PostAt R E s (change f) := h

theorem Post.abortWith {f : State → State} {v : Word} (h : ∀ s, E s (f s)) : Post R E (abortWith v f : M α) := h

theorem Post.raiseTrap (c : Composes R E) (v : Word) : Post R E (raiseTrap v : M α) := fun s => c.raise s

theorem Post.ite {p : Prop} [Decidable p] {m n : M α} (hm : p → Post R E m) (hn : ¬ p → Post R E n) :
    Post R E (if p then m else n) := by
  split
  · exact hm ‹_›
  · exact hn ‹_›

theorem PostAt.ite {s : State} {p : Prop} [Decidable p] {m n : M α} (hm : p → PostAt R E s m)
    (hn : ¬ p → PostAt R E s n) : PostAt R E s (if p then m else n) := by
  split
  · exact hm ‹_›
  · exact hn ‹_›

end

/-! ### The updates of an access that stores nothing -/

/-- Closed under what translating an address and reading it can do. -/
structure AccessRel (R E : State → State → Prop) : Prop extends Composes R E where
  lastPage : ∀ s v, R s (s.setMmu { s.mmu with lastPage := v })
  touch : ∀ s m p (acc : Access), R s (s.setMmu { s.mmu with
    pdr := s.mmu.pdr.set (pageEntry m p)
      (pdrTouched s.mmu.pdr[pageEntry m p] (acfEffect (pdrAcf s.mmu.pdr[pageEntry m p]) acc.wr)) })
  mmuTrap : ∀ s, R s s.requestMmuTrap
  reply : ∀ s pa r, R s (s.afterReply pa r)
  cpuError : ∀ s b, 2 ≤ b → b < 8 → E s (s.cpuError b)
  mmuAbort : ∀ s anr apl aro, E s (s.setMmu (s.mmu.recordAbort anr apl aro s.ctl.trapPsw.isSome))

/-- Closed under stores as well. -/
structure StoreRel (R E : State → State → Prop) : Prop extends AccessRel R E where
  store : ∀ s (pa : PAddr) w v, pa.toNat < s.params.memCeiling → isOddWord w (pa.getLsbD 0) = false →
    R s (s.setMem (writeMain s.mem pa w v))
  writeCore : ∀ s pa r v, coreRegAt pa = some r → R s (s.writeCore r v)

/-- Closed under the updates of resolving an operand whose register is one of `T`. -/
structure StepRel (R E : State → State → Prop) (T : Reg → Prop) : Prop extends AccessRel R E where
  setPc : ∀ s v, R s (s.setPc v)
  writeReg : ∀ s r v, T r → R s (s.writeReg r v)
  mmr1 : ∀ s v, R s (s.setMmu { s.mmu with mmr1 := v })
  yellow : ∀ s, R s (s.cpuError 3).deferYellow
  red : ∀ s, s.cm = .kernel → T .sp → E s ((s.cpuError 2).writeSpm .kernel 4)

section
variable {R E : State → State → Prop} {T : Reg → Prop}

theorem oddAddress_post (h : AccessRel R E) {α : Type} : Post R E (oddAddress : M α) :=
  Post.abortWith fun s => h.cpuError s 6 (by decide) (by decide)

theorem nonExistentMemory_post (h : AccessRel R E) {α : Type} : Post R E (nonExistentMemory : M α) :=
  Post.abortWith fun s => h.cpuError s 5 (by decide) (by decide)

theorem busTimeout_post (h : AccessRel R E) {α : Type} : Post R E (busTimeout : M α) :=
  Post.abortWith fun s => h.cpuError s 4 (by decide) (by decide)

theorem setLastPage_post (h : AccessRel R E) (v : BitVec 6) : Post R E (setLastPage v) :=
  Post.change fun s => h.lastPage s v

theorem directMap_post (h : AccessRel R E) (va : VAddr) (w : Width) : Post R E (directMap va w) :=
  (setLastPage_post h 0).bind h.toComposes fun _ =>
    Post.ite (fun _ => oddAddress_post h) fun _ => Post.pure h.toComposes _

theorem busAddress_post (h : AccessRel R E) (m : ProcMode) (p : Fin 16) (pa : PAddr) (w : Width) :
    Post R E (busAddress m p pa w) := by
  have page : ∀ x : PAddr, Post R E (if x = mmr0Addr then (pure x : M PAddr)
      else setLastPage (pageNumber m p) >>= fun _ => pure x) := fun x =>
    Post.ite (fun _ => Post.pure h.toComposes _) fun _ =>
      (setLastPage_post h _).bind h.toComposes fun _ => Post.pure h.toComposes _
  refine Post.get_bind fun s => PostAt.ite (fun _ => ?_) fun _ => PostAt.ite (fun _ => ?_) fun _ => page _ s
  · refine Post.ite (fun _ => oddAddress_post h) (fun _ => ?_) s
    exact (setLastPage_post h _).bind h.toComposes fun _ => Post.pure h.toComposes _
  · refine Post.ite (fun _ => ?_) (fun _ => nonExistentMemory_post h) s
    exact Post.ite (fun _ => busTimeout_post h) fun _ => page _

theorem checkPage_post (h : AccessRel R E) (m : ProcMode) (p : Fin 16) (a : Word) (acc : Access) :
    Post R E (checkPage m p a acc) := by
  refine Post.get_bind fun s => PostAt.bind h.toComposes (PostAt.change (h.touch s m p acc)) fun _ t _ => ?_
  refine Post.ite (fun _ => Post.abortWith fun s => h.mmuAbort s _ _ _) (fun _ => ?_) t
  exact Post.ite (fun _ => Post.change h.mmuTrap) fun _ => Post.pure h.toComposes _

/-- Translating an address records the page, sets A and W, requests an MMU trap, or aborts (R89 to R112). -/
theorem translate_post (h : AccessRel R E) (m : ProcMode) (va : VAddr) (acc : Access) (w : Width) :
    Post R E (translate m va acc w) := by
  refine Post.get_bind fun s => PostAt.ite (fun _ => ?_) fun _ => directMap_post h va w s
  refine Post.get_bind (fun s => ?_) s
  exact Post.bind h.toComposes (busAddress_post h _ _ _ _)
    (fun _ => (checkPage_post h _ _ _ _).bind h.toComposes fun _ => Post.pure h.toComposes _) s

theorem busAccess_post (h : AccessRel R E) (pa : PAddr) : Post R E (busAccess pa) := by
  refine Post.get_bind fun s => PostAt.ite (fun _ => ?_) fun _ => busTimeout_post h s
  refine PostAt.bind h.toComposes (PostAt.change (h.reply s pa _)) fun _ t _ => ?_
  exact Post.ite (fun _ => busTimeout_post h) (fun _ => Post.pure h.toComposes _) t

/-- In main memory every word at an odd address is refused (R82, R84). -/
theorem State.oddRefused_main {s : State} {pa : PAddr} (h : pa.toNat < s.params.memCeiling) (w : Width) :
    s.oddRefused pa w = isOddWord w (pa.getLsbD 0) := by
  simp [State.oddRefused, State.inIoRange, Nat.not_le.2 h]

/-- A physical read changes only what a device's answer changes (R61, R84, R98). -/
theorem physRead_post (h : AccessRel R E) (pa : PAddr) (w : Width) : Post R E (physRead pa w) := by
  refine Post.get_bind fun s => ?_
  refine PostAt.ite (fun _ => oddAddress_post h s) fun _ => PostAt.ite (fun _ => h.refl s) fun _ => ?_
  refine PostAt.ite (fun _ => ?_) fun _ => nonExistentMemory_post h s
  split
  · split <;> exact h.refl s
  · exact Post.bind h.toComposes (busAccess_post h pa) (fun _ => Post.pure h.toComposes _) s

/-- A physical write stores in main memory or in a core-owned register, or reaches a device (R85, R61, R98). -/
theorem physWrite_post (h : StoreRel R E) (pa : PAddr) (w : Width) (v : Word) : Post R E (physWrite pa w v) := by
  refine Post.get_bind fun s => ?_
  refine PostAt.ite (fun _ => oddAddress_post h.toAccessRel s) fun ho => PostAt.ite (fun hc => ?_) fun _ => ?_
  · exact PostAt.change (h.store s pa w v hc (by simpa [State.oddRefused_main hc] using ho))
  refine PostAt.ite (fun _ => ?_) fun _ => nonExistentMemory_post h.toAccessRel s
  split
  · rename_i r hr
    split <;> exact PostAt.change (h.writeCore s pa r _ hr)
  · exact Post.bind h.toComposes (busAccess_post h.toAccessRel pa) (fun _ => Post.pure h.toComposes _) s

theorem memReadM_post (h : AccessRel R E) (m : ProcMode) (va : VAddr) (w : Width) : Post R E (memReadM m va w) :=
  (translate_post h m va .read w).bind h.toComposes fun pa => physRead_post h pa w

theorem memRead_post (h : AccessRel R E) (va : VAddr) (w : Width) : Post R E (memRead va w) :=
  Post.get_bind fun s => memReadM_post h s.cm va w s

theorem memWriteM_post (h : StoreRel R E) (m : ProcMode) (va : VAddr) (w : Width) (v : Word) :
    Post R E (memWriteM m va w v) :=
  (translate_post h.toAccessRel m va .write w).bind h.toComposes fun pa =>
    (physWrite_post h pa w v).bind h.toComposes fun _ => Post.pure h.toComposes _

theorem memWrite_post (h : StoreRel R E) (va : VAddr) (w : Width) (v : Word) : Post R E (memWrite va w v) :=
  Post.get_bind fun s => memWriteM_post h s.cm va w v s

theorem memModify_post (h : StoreRel R E) (va : VAddr) (w : Width) (f : Word → Word) : Post R E (memModify va w f) :=
  Post.get_bind fun s => Post.bind h.toComposes (translate_post h.toAccessRel _ _ _ _) (fun pa =>
    (physRead_post h.toAccessRel pa w).bind h.toComposes fun _ =>
      (physWrite_post h pa w _).bind h.toComposes fun _ => Post.pure h.toComposes _) s

/-! ### Operands and the stack -/

theorem State.step_rel (h : StepRel R E T) (s : State) {r : Reg} (hr : T r) (d : Int) : R s (s.step r d) := by
  obtain ⟨u, hu, he⟩ := State.step_eq s r d
  rw [he]
  refine h.trans (h.writeReg s r (s.readReg r + BitVec.ofInt 16 d) hr) ?_
  have := h.mmr1 (s.writeReg r (s.readReg r + BitVec.ofInt 16 d)) u.mmr1
  rw [State.writeReg_mmu] at this
  rwa [hu]

theorem stackCheck_post (h : StepRel R E T) (hr : T .sp) (a : Word) : Post R E (stackCheck a) := by
  refine Post.get_bind fun s => ?_
  refine PostAt.ite (fun hk => ?_) fun _ => h.refl s
  exact PostAt.ite (fun _ => h.red s hk.1 hr) fun _ => h.yellow s

theorem fetchExtension_post (h : StepRel R E T) : Post R E fetchExtension :=
  Post.get_bind fun s => Post.bind h.toComposes (memRead_post h.toAccessRel _ _) (fun _ =>
    (Post.change fun s => h.setPc s _).bind h.toComposes fun _ => Post.pure h.toComposes _) s

/-- Resolving an operand changes its register in the stepping modes, the PC past an extension word, and what its accesses
change (R170 to R184). -/
theorem resolve_post (h : StepRel R E T) (sp : OpSpec) (hr : sp.mode = .autoInc ∨ sp.mode = .autoIncDeferred ∨
    sp.mode = .autoDec ∨ sp.mode = .autoDecDeferred → T sp.reg) (len : Nat) (acc : Access) :
    Post R E (resolve sp len acc) := by
  have c := h.toComposes
  have read : ∀ va : VAddr, Post R E (memRead va .word) := fun va => memRead_post h.toAccessRel va .word
  unfold resolve
  split
  · exact Post.get_bind fun s => c.raise s
  · exact Post.look c _
  · rename_i hm
    have ht := hr (by simp [hm])
    exact Post.get_bind fun s => Post.bind c (Post.change fun t => State.step_rel h t ht _) (fun _ => Post.pure c _) s
  · rename_i hm
    have ht := hr (by simp [hm])
    exact Post.get_bind fun s => Post.bind c (read _) (fun _ =>
      (Post.change fun t => State.step_rel h t ht _).bind c fun _ => Post.pure c _) s
  · rename_i hm
    have ht := hr (by simp [hm])
    refine Post.bind c (Post.change fun t => State.step_rel h t ht _) fun _ => Post.get_bind fun s => ?_
    refine PostAt.ite (fun hs => ?_) fun _ => c.refl s
    exact Post.bind c (stackCheck_post h (hs.1 ▸ ht) _) (fun _ => Post.pure c _) s
  · rename_i hm
    have ht := hr (by simp [hm])
    exact Post.get_bind fun s => Post.bind c (read _) (fun _ =>
      (Post.change fun t => State.step_rel h t ht _).bind c fun _ => Post.pure c _) s
  · exact Post.bind c (fetchExtension_post h) fun _ => Post.look c _
  · exact Post.bind c (fetchExtension_post h) fun _ => Post.get_bind fun s =>
      Post.bind c (read _) (fun _ => Post.pure c _) s

theorem resolvePlace_post (h : StepRel R E T) (sp : OpSpec) (hr : sp.mode = .autoInc ∨ sp.mode = .autoIncDeferred ∨
    sp.mode = .autoDec ∨ sp.mode = .autoDecDeferred → T sp.reg) (w : Width) (acc : Access) :
    Post R E (resolvePlace sp w acc) :=
  Post.ite (fun _ => Post.pure h.toComposes _) fun _ =>
    (resolve_post h sp hr _ _).bind h.toComposes fun _ => Post.pure h.toComposes _

/-- Reading an operand (R185). -/
theorem readOp_post (h : StepRel R E T) (sp : OpSpec) (hr : sp.mode = .autoInc ∨ sp.mode = .autoIncDeferred ∨
    sp.mode = .autoDec ∨ sp.mode = .autoDecDeferred → T sp.reg) (w : Width) : Post R E (readOp sp w) := by
  refine (resolvePlace_post h sp hr w .read).bind h.toComposes fun pl => ?_
  cases pl with
  | reg r => exact Post.look h.toComposes _
  | mem va => exact memRead_post h.toAccessRel va w

theorem writePlace_post (h : StepRel R E T) (hs : StoreRel R E) (pl : Place) (hr : ∀ r, pl = .reg r → T r) (w : Width)
    (v : Word) : Post R E (writePlace pl w v) := by
  cases pl with
  | reg r =>
    exact (Post.change fun s => h.writeReg s r _ (hr r rfl)).bind h.toComposes fun _ => Post.pure h.toComposes _
  | mem va => exact memWrite_post hs va w v

theorem modifyPlace_post (h : StepRel R E T) (hs : StoreRel R E) (pl : Place) (hr : ∀ r, pl = .reg r → T r) (w : Width)
    (f : Word → Word) : Post R E (modifyPlace pl w f) := by
  cases pl with
  | reg r =>
    exact Post.get_bind fun s => Post.bind h.toComposes (Post.change fun s => h.writeReg s r _ (hr r rfl))
      (fun _ => Post.pure h.toComposes _) s
  | mem va => exact memModify_post hs va w f

/-- The place an operand resolves to is the register named, or memory. -/
theorem resolvePlace_reg {sp : OpSpec} {w : Width} {acc : Access} {s t : State} {r : Reg}
    (h : resolvePlace sp w acc s = .ok (.reg r) t) : sp.mode = .direct ∧ r = sp.reg ∧ t = s := by
  unfold resolvePlace at h
  split at h
  · rename_i hm
    cases h
    exact ⟨hm, rfl, rfl⟩
  · have e : ∀ m : M VAddr, (m >>= fun va => pure (.mem va) : M Place) s ≠ .ok (.reg r) t := fun m => by
      have : (m >>= fun va => pure (.mem va) : M Place) s = EStateM.bind m (fun va => pure (.mem va)) s := rfl
      rw [this, EStateM.bind]
      cases m s with
      | ok a u => intro h; cases h
      | error v u => intro h; cases h
    exact absurd h (e _)

/-- Writing an operand (R185). -/
theorem writeOp_post (h : StepRel R E T) (hs : StoreRel R E) (sp : OpSpec) (hr : T sp.reg) (w : Width) (v : Word) :
    Post R E (writeOp sp w v) := fun s =>
  PostAt.bind h.toComposes (resolvePlace_post h sp (fun _ => hr) w .write s) fun _ t hp =>
    writePlace_post h hs _ (fun r e => by subst e; exact (resolvePlace_reg hp).2.1 ▸ hr) w v t

/-- Modifying an operand (R127, R185). -/
theorem modifyOp_post (h : StepRel R E T) (hs : StoreRel R E) (sp : OpSpec) (hr : T sp.reg) (w : Width)
    (f : Word → Word) : Post R E (modifyOp sp w f) := fun s =>
  PostAt.bind h.toComposes (resolvePlace_post h sp (fun _ => hr) w .modify s) fun _ t hp =>
    modifyPlace_post h hs _ (fun r e => by subst e; exact (resolvePlace_reg hp).2.1 ▸ hr) w f t

/-- Popping steps the stack pointer alone (R187). -/
theorem pop_post (h : StepRel R E T) (hr : T .sp) : Post R E pop :=
  Post.get_bind fun s => Post.bind h.toComposes (memRead_post h.toAccessRel _ _) (fun _ =>
    (Post.change fun t => State.step_rel h t hr _).bind h.toComposes fun _ => Post.pure h.toComposes _) s

/-- Pushing steps the stack pointer and stores one word (R186). -/
theorem push_post (h : StepRel R E T) (hs : StoreRel R E) (hr : T .sp) (v : Word) (checked : Bool) :
    Post R E (push v checked) := by
  have c := h.toComposes
  refine Post.bind c (Post.change fun t => State.step_rel h t hr _) fun _ => Post.get_bind fun s => ?_
  refine Post.bind c (translate_post h.toAccessRel _ _ _ _) (fun pa => ?_) s
  have store : Post R E (physWrite pa .word v >>= fun _ => pure (isPswAddr pa)) :=
    (physWrite_post hs pa .word v).bind c fun _ => Post.pure c _
  refine Post.ite (fun _ => ?_) fun _ => store
  exact (stackCheck_post h hr _).bind c fun _ => store

end

end Sys2Proof.Machine
end

