-- ==== Sys2Proof/Laws/Trap.lean ====
section
/-! SUPPORT. Taking an exception, returning from one, and running a body, for every relation closed under the updates
they are made of; that a trap sequence always ends with no trap in progress. -/

namespace Sys2Proof.Machine

/-- Closed under the updates of a trap sequence as well. -/
structure TrapRel (R : State → State → Prop) : Prop extends StoreRel R R, StepRel R R (fun _ => True) where
  loadPsw : ∀ s v, R s (s.loadPsw v)
  mmr2 : ∀ s v, R s (s.setMmu { s.mmu with mmr1 := 0, mmr2 := v })
  trapBegin : ∀ s, R s (s.setCtl { s.ctl with trapPsw := some s.psw, pending := {} })
  trapEnd : ∀ s, R s (s.setTrapPsw none)
  trapHalt : ∀ s, R s (s.setRunState .halt)

section
variable {R : State → State → Prop}

theorem TrapRel.double (h : TrapRel R) (s : State) (hk : s.cm = .kernel) : R s ((s.cpuError 2).writeSpm .kernel 4) :=
  h.red s hk trivial

theorem trapEnter_rel (h : TrapRel R) (v : Word) (s : State) : R s (trapEnter v s).2.2 := by
  unfold trapEnter
  split
  · exact h.trapBegin s
  · split
    · exact h.double s ‹_›
    · exact h.refl s

theorem trapBody_post (h : TrapRel R) (v : Word) (double : Bool) : Post R R (trapBody v double) := by
  have c := h.toComposes
  have book : Post R R (change (·.trapBookkeeping v)) := Post.change fun s => by
    simp only [State.trapBookkeeping]
    split
    · exact h.refl s
    · exact h.mmr2 s v
  have psh : ∀ x b, Post R R (push x b) := fun x b => push_post h.toStepRel h.toStoreRel trivial x b
  refine Post.bind c book fun _ => ?_
  refine Post.bind c (memReadM_post h.toAccessRel _ _ _) fun newPc => ?_
  refine Post.bind c (memReadM_post h.toAccessRel _ _ _) fun newPsw => ?_
  refine Post.get_bind fun s => ?_
  refine Post.bind c (Post.change fun s => h.loadPsw s _) (fun _ => ?_) s
  refine Post.bind c (psh _ _) fun _ => Post.get_bind fun s => ?_
  exact Post.bind c (psh _ _) (fun _ => Post.change fun s => h.setPc s _) s

theorem trapNested_rel (h : TrapRel R) (v : Word) (s : State) : R s (trapNested v s) := by
  have hb : ∀ {u}, R (trapEnter v s).2.2 u → R s u := h.trans (trapEnter_rel h v s)
  unfold trapNested
  have hp := trapBody_post h (trapEnter v s).1 (trapEnter v s).2.1 (trapEnter v s).2.2
  unfold PostAt at hp
  split at hp <;> rename_i hm <;> simp only [hm]
  · exact hb (h.trans hp (h.trapEnd _))
  · exact hb (h.trans hp (h.trans (h.trapEnd _) (h.trapHalt _)))

/-- Taking a trap, abort or interrupt, double trap included (R602 to R609). -/
theorem trapSeq_rel (h : TrapRel R) (v : Word) (s : State) : R s (trapSeq v s) := by
  have hb : ∀ {u}, R (trapEnter v s).2.2 u → R s u := h.trans (trapEnter_rel h v s)
  unfold trapSeq
  have hp := trapBody_post h (trapEnter v s).1 (trapEnter v s).2.1 (trapEnter v s).2.2
  unfold PostAt at hp
  split at hp <;> rename_i hm <;> simp only [hm]
  · exact hb (h.trans hp (h.trapEnd _))
  · exact hb (h.trans hp (trapNested_rel h _ _))

end

/-- A trap sequence ends with no trap in progress (R608, R609). -/
theorem trapNested_trapPsw (v : Word) (s : State) : (trapNested v s).ctl.trapPsw = none := by
  unfold trapNested
  simp only
  split <;> rfl

theorem trapSeq_trapPsw (v : Word) (s : State) : (trapSeq v s).ctl.trapPsw = none := by
  unfold trapSeq
  simp only
  split
  · rfl
  · exact trapNested_trapPsw _ _

/-! ### Running a body -/

/-- The return RTI and RTT share moves the stack pointer and loads the PC and the status word (R343). -/
theorem returnFromTrap_post {R E : State → State → Prop} {T : Reg → Prop} (h : StepRel R E T) (hsp : T .sp)
    (hl : ∀ s v, R s (s.loadPsw v)) : Post R E returnFromTrap := by
  have c := h.toComposes
  refine Post.get_bind fun s => ?_
  refine Post.bind c (memRead_post h.toAccessRel _ _) (fun newPc => ?_) s
  refine Post.bind c (memRead_post h.toAccessRel _ _) fun stacked => Post.change fun t => ?_
  exact h.trans (h.writeReg t .sp _ hsp) (h.trans (h.setPc _ _) (hl _ _))

/-- An instruction answers a next state: its body's, or the trap its abort takes (R12, R635). -/
theorem runBody_eq (body : M Unit) (s : State) :
    (∃ t, body s = .ok () t ∧ runBody body s = .next t) ∨
      ∃ v t, body s = .error v t ∧ runBody body s = .next (trapSeq v t) := by
  unfold runBody
  cases body s with
  | ok a t => exact .inl ⟨t, rfl, rfl⟩
  | error v t => exact .inr ⟨v, t, rfl, rfl⟩

/-- Every state an instruction leaves is one its body, or a trap after it, can leave. -/
theorem runBody_rel {R : State → State → Prop} (h : Composes R R) (ht : ∀ v s, R s (trapSeq v s)) {body : M Unit}
    (hb : Post R R body) {s t : State} (he : runBody body s = .next t) : R s t := by
  rcases runBody_eq body s with ⟨u, hu, e⟩ | ⟨v, u, hu, e⟩ <;> rw [e] at he <;> cases he
  · exact (hb s).ok hu
  · exact h.trans ((hb s).err hu) (ht v u)

end Sys2Proof.Machine
end

