-- ==== Sys2Proof/Laws/Exec.lean ====
section
/-! SUPPORT. What one instruction can do to the state: every instruction leaves a state related to the first, for every
relation closed under the named updates. -/

namespace Sys2Proof.Machine

/-- Closed under everything an instruction outside the coprocessor can do. -/
structure ExecRel (R : State → State → Prop) : Prop extends StoreRel R R, StepRel R R (fun _ => True) where
  trapSeq : ∀ v s, R s (trapSeq v s)
  loadPsw : ∀ s v, R s (s.loadPsw v)
  flags : ∀ (s : State) (w : Word), w >>> 4 = s.psw >>> 4 → R s (s.setPsw w)
  writeSpm : ∀ s m v, R s (s.writeSpm m v)
  setTrace : ∀ s b, R s (s.setTrace b)
  setRunState : ∀ s r, R s (s.setRunState r)
  flagIrq : ∀ s, R s (s.setIrqFlag true)
  resetEffect : ∀ s, R s s.resetEffect

/-- Closed under what the coprocessor's instructions do to its registers: FPS keeps the bits that read 0. -/
structure FppRel (R : State → State → Prop) : Prop where
  fpp : ∀ s f, (s.fpp.fps &&& 0o030000 = 0 → f.fps &&& 0o030000 = 0) → R s (s.setFpp f)
  deferFpp : ∀ s, R s s.deferFpp

section
variable {R : State → State → Prop}

theorem ExecRel.setCc (h : ExecRel R) (s : State) (cc : Cc) : R s (s.setCc cc) := h.flags s _ (putCc_shift _ _)

theorem setFlagsUnless_post (h : ExecRel R) (p : Bool) (f : State → Cc) : Post R R (setFlagsUnless p f) :=
  Post.ite (fun _ => Post.pure h.toComposes _) fun _ => Post.change fun s => h.setCc s _

theorem ExecRel.readOp (h : ExecRel R) (sp : OpSpec) (w : Width) : Post R R (readOp sp w) :=
  readOp_post h.toStepRel sp (fun _ => trivial) w

theorem ExecRel.resolve (h : ExecRel R) (sp : OpSpec) (n : Nat) (acc : Access) : Post R R (resolve sp n acc) :=
  resolve_post h.toStepRel sp (fun _ => trivial) n acc

theorem ExecRel.writeOp (h : ExecRel R) (sp : OpSpec) (w : Width) (v : Word) : Post R R (writeOp sp w v) :=
  writeOp_post h.toStepRel h.toStoreRel sp trivial w v

theorem ExecRel.modifyOp (h : ExecRel R) (sp : OpSpec) (w : Width) (f : Word → Word) : Post R R (modifyOp sp w f) :=
  modifyOp_post h.toStepRel h.toStoreRel sp trivial w f

theorem ExecRel.push (h : ExecRel R) (v : Word) (b : Bool) : Post R R (push v b) :=
  push_post h.toStepRel h.toStoreRel trivial v b

theorem ExecRel.pop (h : ExecRel R) : Post R R pop := pop_post h.toStepRel trivial

theorem ExecRel.memRead (h : ExecRel R) (va : VAddr) (w : Width) : Post R R (memRead va w) :=
  memRead_post h.toAccessRel va w

theorem ExecRel.memWrite (h : ExecRel R) (va : VAddr) (w : Width) (v : Word) : Post R R (memWrite va w v) :=
  memWrite_post h.toStoreRel va w v

/-! ### Shapes of bodies -/

theorem compareBody_post (h : ExecRel R) (w : Width) (ss dd : OpSpec) (cc : Word → Word → Bool → Cc) :
    Post R R (compareBody w ss dd cc) :=
  Post.bind h.toComposes (h.readOp _ _) fun _ => Post.bind h.toComposes (h.readOp _ _) fun _ =>
    setFlagsUnless_post h _ _

theorem combineBody_post (h : ExecRel R) (w : Width) (ss dd : OpSpec) (f : Word → Word → Word)
    (cc : Word → Word → Bool → Cc) : Post R R (combineBody w ss dd f cc) :=
  Post.bind h.toComposes (h.readOp _ _) fun _ => Post.bind h.toComposes (h.modifyOp _ _ _) fun _ =>
    setFlagsUnless_post h _ _

theorem modifyBody_post (h : ExecRel R) (w : Width) (dd : OpSpec) (f : Bool → Word → Word) (cc : Bool → Word → Cc) :
    Post R R (modifyBody w dd f cc) :=
  Post.bind h.toComposes (Post.look h.toComposes _) fun _ => Post.bind h.toComposes (h.modifyOp _ _ _) fun _ =>
    setFlagsUnless_post h _ _

theorem modifyByteBody_post (h : ExecRel R) (dd : OpSpec) (f : Bool → Byte → Byte) (cc : Bool → Byte → Cc) :
    Post R R (modifyByteBody dd f cc) := modifyBody_post h _ _ _ _

theorem movBody_post (h : ExecRel R) (ss dd : OpSpec) : Post R R (movBody ss dd) :=
  Post.bind h.toComposes (h.readOp _ _) fun _ => Post.bind h.toComposes (h.writeOp _ _ _) fun _ =>
    setFlagsUnless_post h _ _

theorem movbBody_post (h : ExecRel R) (ss dd : OpSpec) : Post R R (movbBody ss dd) := by
  refine Post.bind h.toComposes (h.readOp _ _) fun _ => ?_
  exact Post.ite (fun _ => Post.bind h.toComposes (h.writeOp _ _ _) fun _ => setFlagsUnless_post h _ _)
    fun _ => Post.bind h.toComposes (h.writeOp _ _ _) fun _ => setFlagsUnless_post h _ _

theorem clrBody_post (h : ExecRel R) (dd : OpSpec) (w : Width) (v : Word) (cc : State → Cc) :
    Post R R (writeOp dd w v >>= fun p => setFlagsUnless p cc) :=
  Post.bind h.toComposes (h.writeOp _ _ _) fun _ => setFlagsUnless_post h _ _

theorem tstBody_post (h : ExecRel R) (dd : OpSpec) (w : Width) (cc : Word → State → Cc) :
    Post R R (readOp dd w >>= fun d => setFlagsUnless false (cc d)) :=
  Post.bind h.toComposes (h.readOp _ _) fun _ => setFlagsUnless_post h _ _

theorem sxtBody_post (h : ExecRel R) (dd : OpSpec) : Post R R (sxtBody dd) :=
  Post.bind h.toComposes (Post.look h.toComposes _) fun _ => Post.bind h.toComposes (h.writeOp _ _ _) fun _ =>
    setFlagsUnless_post h _ _

theorem ExecRel.writePair (h : ExecRel R) (s : State) (r : Reg) (hi lo : Word) : R s (s.writePair r hi lo) :=
  h.trans (h.writeReg s r hi trivial) (h.writeReg _ _ lo trivial)

/-- The shape of MUL, DIV, ASH and ASHC. -/
theorem eisBody_post (h : ExecRel R) (ss : OpSpec) {f : Word → State → State} (hf : ∀ v s, R s (f v s)) :
    Post R R (readOp ss .word >>= fun v => change (f v)) :=
  Post.bind h.toComposes (h.readOp _ _) fun v => Post.change (hf v)

theorem xorBody_post (h : ExecRel R) (r : Reg) (dd : OpSpec) : Post R R (xorBody r dd) := by
  have c := h.toComposes
  refine Post.bind c (resolvePlace_post h.toStepRel dd (fun _ => trivial) _ _) fun pl => ?_
  refine Post.bind c (Post.look c _) fun _ => ?_
  exact Post.bind c (modifyPlace_post h.toStepRel h.toStoreRel pl (fun _ _ => trivial) _ _) fun _ =>
    setFlagsUnless_post h _ _

theorem branchBody_rel (h : ExecRel R) (cond : Cc → Bool) (off : BitVec 8) : Post R R (branchBody cond off) :=
  Post.change fun s => by
    split
    · exact h.setPc s _
    · exact h.refl s

theorem jmpBody_post (h : ExecRel R) (dd : OpSpec) : Post R R (jmpBody dd) :=
  Post.bind h.toComposes (h.resolve _ _ _) fun _ => Post.change fun s => h.setPc s _

theorem jsrBody_post (h : ExecRel R) (r : Reg) (dd : OpSpec) : Post R R (jsrBody r dd) :=
  Post.bind h.toComposes (h.resolve _ _ _) fun _ => Post.bind h.toComposes (Post.look h.toComposes _) fun _ =>
    Post.bind h.toComposes (h.push _ _) fun _ => Post.change fun s =>
      h.trans (h.writeReg s r _ trivial) (h.setPc _ _)

theorem rtsBody_post (h : ExecRel R) (r : Reg) : Post R R (rtsBody r) :=
  Post.bind h.toComposes h.pop fun _ => Post.change fun s => h.trans (h.setPc s _) (h.writeReg _ _ _ trivial)

theorem markBody_post (h : ExecRel R) (nn : BitVec 6) : Post R R (markBody nn) :=
  Post.bind h.toComposes (Post.change fun s => h.writeReg s .sp _ trivial) fun _ =>
    Post.bind h.toComposes (Post.look h.toComposes _) fun _ => Post.bind h.toComposes (h.memRead _ _) fun _ =>
      Post.change fun s => h.trans (h.setPc s _) (h.trans (h.writeReg _ _ _ trivial) (h.writeReg _ _ _ trivial))

theorem sobBody_post (h : ExecRel R) (r : Reg) (off : BitVec 6) : Post R R (sobBody r off) :=
  Post.change fun s => by
    simp only
    split
    · exact h.writeReg s r _ trivial
    · exact h.trans (h.writeReg s r _ trivial) (h.setPc _ _)

theorem haltBody_post (h : ExecRel R) : Post R R haltBody :=
  Post.get_bind fun s => PostAt.ite (fun _ => h.setRunState s _) fun _ =>
    h.cpuError s 7 (by decide) (by decide)

theorem waitBody_post (h : ExecRel R) : Post R R waitBody :=
  Post.change fun s => by
    split
    · exact h.flagIrq s
    · exact h.setRunState s _

theorem returnBody_post (h : ExecRel R) (f : State → Bool) :
    Post R R (returnFromTrap >>= fun _ => change fun s => s.setTrace (f s)) :=
  Post.bind h.toComposes (returnFromTrap_post h.toStepRel trivial h.loadPsw) fun _ => Post.change fun s => h.setTrace s _

theorem resetBody_post (h : ExecRel R) : Post R R resetBody :=
  Post.change fun s => by
    split
    · exact h.trans (h.resetEffect s) (h.setRunState _ _)
    · exact h.refl s

theorem splBody_post (h : ExecRel R) (n : BitVec 3) : Post R R (splBody n) :=
  Post.change fun s => by
    split
    · exact h.loadPsw s _
    · exact h.refl s

theorem moveFromPrevious_post (h : ExecRel R) (ss : OpSpec) (forceI : State → Bool) :
    Post R R (moveFromPrevious ss forceI) := by
  have c := h.toComposes
  have done : ∀ v, Post R R (push v >>= fun p => setFlagsUnless p fun s => ccLogic v s.carry) := fun v =>
    Post.bind c (h.push _ _) fun _ => setFlagsUnless_post h _ _
  refine Post.ite (fun _ => Post.bind c (Post.look c _) fun v => done v) fun _ => ?_
  exact Post.bind c (h.resolve _ _ _) fun va => Post.get_bind fun s =>
    Post.bind c (memReadM_post h.toAccessRel _ _ _) (fun v => done v) s

theorem moveToPrevious_post (h : ExecRel R) (dd : OpSpec) (forceI : Bool) : Post R R (moveToPrevious dd forceI) := by
  have c := h.toComposes
  refine Post.bind c h.pop fun v => ?_
  have done : ∀ p, Post R R (setFlagsUnless p fun s => ccLogic v s.carry) := fun p => setFlagsUnless_post h _ _
  refine Post.ite (fun _ => Post.bind c (Post.change fun s => ?_) fun _ => Post.bind c (Post.pure c _) fun _ => done _)
    fun _ => ?_
  · simp only [State.writePrevReg]
    split
    · exact h.writeSpm s _ _
    · exact h.writeReg s _ _ trivial
  · exact Post.bind c (h.resolve _ _ _) fun va => Post.get_bind fun s =>
      Post.bind c (memWriteM_post h.toStoreRel _ _ _ _) (fun p => done p) s

end

/-! ### The coprocessor -/

section
variable {R E : State → State → Prop} {T : Reg → Prop}

theorem readWordAs_post (h : AccessRel R E) (acc : Access) (va : VAddr) : Post R E (readWordAs acc va) :=
  Post.get_bind fun s => Post.bind h.toComposes (translate_post h _ _ _ _) (fun pa => physRead_post h pa _) s

theorem readWordsAs_post (h : AccessRel R E) (acc : Access) (va : VAddr) (n : Nat) :
    Post R E (readWordsAs acc va n) := by
  induction n generalizing va with
  | zero => exact Post.pure h.toComposes _
  | succ n ih =>
    exact (readWordAs_post h acc va).bind h.toComposes fun _ => (ih _).bind h.toComposes fun _ =>
      Post.pure h.toComposes _

theorem writeWordsAt_post (h : StoreRel R E) (va : VAddr) (ws : List Word) : Post R E (writeWordsAt va ws) := by
  induction ws generalizing va with
  | nil => exact Post.pure h.toComposes _
  | cons w ws ih => exact (memWrite_post h va _ w).bind h.toComposes fun _ => ih _

theorem resolveF_post (h : StepRel R E T) (sp : OpSpec) (hr : sp.mode = .autoInc ∨ sp.mode = .autoIncDeferred ∨
    sp.mode = .autoDec ∨ sp.mode = .autoDecDeferred → T sp.reg) (p : Prec) (acc : Access) :
    Post R E (resolveF sp p acc) := by
  refine Post.ite (fun _ => ?_) fun _ => Post.ite (fun _ => Post.look h.toComposes _) fun _ => ?_
  · split <;> exact Post.pure h.toComposes _
  · exact (resolve_post h sp hr _ _).bind h.toComposes fun _ => Post.pure h.toComposes _

theorem readF_post (h : StepRel R E T) (pl : FPlace) (p : Prec) (acc : Access) : Post R E (readF pl p acc) := by
  cases pl with
  | ac i => exact Post.look h.toComposes _
  | imm a =>
    exact (readWordAs_post h.toAccessRel _ _).bind h.toComposes fun _ =>
      (Post.change fun s => h.setPc s _).bind h.toComposes fun _ => Post.pure h.toComposes _
  | mem va =>
    exact (readWordsAs_post h.toAccessRel _ _ _).bind h.toComposes fun _ => Post.pure h.toComposes _

theorem writeF_post (h : StepRel R E T) (hs : StoreRel R E)
    (hf : ∀ s p i v, R s (s.setFpp (s.fpp.writeAc p i v))) (pl : FPlace) (p : Prec) (v : Accum) :
    Post R E (writeF pl p v) := by
  cases pl with
  | ac i => exact Post.change fun s => hf s p i v
  | imm a => exact (memWrite_post hs _ _ _).bind h.toComposes fun _ => Post.change fun s => h.setPc s _
  | mem va => exact writeWordsAt_post hs va _

theorem readLong_post (h : StepRel R E T) (sp : OpSpec) (hr : sp.mode = .autoInc ∨ sp.mode = .autoIncDeferred ∨
    sp.mode = .autoDec ∨ sp.mode = .autoDecDeferred → T sp.reg) : Post R E (readLong sp) := by
  have c := h.toComposes
  refine Post.ite (fun _ => Post.look c _) fun _ => Post.ite (fun _ => ?_) fun _ => ?_
  · exact (fetchExtension_post h).bind c fun _ => Post.pure c _
  · exact (resolve_post h sp hr _ _).bind c fun _ => (memRead_post h.toAccessRel _ _).bind c fun _ =>
      (memRead_post h.toAccessRel _ _).bind c fun _ => Post.pure c _

theorem readInteger_post (h : StepRel R E T) (sp : OpSpec) (hr : sp.mode = .autoInc ∨ sp.mode = .autoIncDeferred ∨
    sp.mode = .autoDec ∨ sp.mode = .autoDecDeferred → T sp.reg) (long : Bool) : Post R E (readInteger sp long) := by
  have c := h.toComposes
  exact Post.ite (fun _ => (readLong_post h sp hr).bind c fun _ => Post.pure c _) fun _ =>
    (readOp_post h sp hr _).bind c fun _ => Post.pure c _

theorem writeLong_post (h : StepRel R E T) (hs : StoreRel R E) (sp : OpSpec) (hr : T sp.reg) (v : BitVec 32) :
    Post R E (writeLong sp v) := by
  have c := h.toComposes
  refine Post.ite (fun _ => ?_) fun _ => Post.ite (fun _ => Post.get_bind fun s => ?_) fun _ => ?_
  · exact (Post.change fun s => h.writeReg s _ _ hr).bind c fun _ => Post.pure c _
  · exact Post.bind c (memWrite_post hs _ _ _) (fun _ => (Post.change fun s => h.setPc s _).bind c fun _ =>
      Post.pure c _) s
  · exact (resolve_post h sp (fun _ => hr) _ _).bind c fun _ => (memWrite_post hs _ _ _).bind c fun _ =>
      (memWrite_post hs _ _ _).bind c fun _ => Post.pure c _

theorem writeInteger_post (h : StepRel R E T) (hs : StoreRel R E) (sp : OpSpec) (hr : T sp.reg) (long : Bool) (v : Int) :
    Post R E (writeInteger sp long v) :=
  Post.ite (fun _ => writeLong_post h hs sp hr _) fun _ => writeOp_post h hs sp hr _ _

end

/-- Reading, writing and resolving operands changes no register of the coprocessor, and stores into an accumulator only
where the operand is one. -/
theorem fppSame_store : StoreRel (fun s t => t.fpp = s.fpp) fun _ _ => True where
  refl _ := rfl
  trans h1 h2 := h2.trans h1
  transE _ _ := trivial
  raise _ := trivial
  lastPage _ _ := rfl
  touch _ _ _ _ := rfl
  mmuTrap s := by simp only [State.requestMmuTrap]; split_ifs <;> rfl
  reply s pa r := by simp only [State.afterReply]; split <;> rfl
  cpuError _ _ _ _ := trivial
  mmuAbort _ _ _ _ := trivial
  store _ _ _ _ _ _ := rfl
  writeCore s pa r v _ := by
    cases r <;> simp [State.writeCore, State.writePsw, State.loadPsw_eq]

theorem fppSame_step : StepRel (fun s t => t.fpp = s.fpp) (fun _ _ => True) fun _ => True where
  toAccessRel := fppSame_store.toAccessRel
  setPc _ _ := rfl
  writeReg s r v _ := State.writeReg_fpp s r v
  mmr1 _ _ := rfl
  yellow _ := rfl
  red _ _ _ := trivial

/-- Bits 13:12 of a word are 0. -/
theorem fpsReserved_iff (w : Word) : w &&& 0o030000 = 0 ↔ w.getLsbD 12 = false ∧ w.getLsbD 13 = false := by
  constructor
  · intro h
    have h12 := congrArg (·.getLsbD 12) h
    have h13 := congrArg (·.getLsbD 13) h
    exact ⟨by simpa using h12, by simpa using h13⟩
  · rintro ⟨h12, h13⟩
    apply BitVec.eq_of_getLsbD_eq
    intro i hi
    simp only [BitVec.getLsbD_and]
    interval_cases i <;> simp_all

/-- An error recorded changes no bit of FPS but FER (R413). -/
theorem fppException_fps (s : State) (addr : Word) (e : FppError) :
    (s.fppException addr e).fpp.fps = setBit s.fpp.fps 15 := by
  simp only [State.fppException]
  split <;> rfl

section
variable {R : State → State → Prop}

theorem fppException_rel (c : Composes R R) (h : FppRel R) (s : State) (addr : Word) (e : FppError) :
    R s (s.fppException addr e) := by
  have h1 : R s (s.onFpp fun f => { f with fps := setBit f.fps 15, fec := e.code, fea := addr }) :=
    h.fpp s _ fun hz => by
      rw [fpsReserved_iff] at hz ⊢
      simpa [setBit] using hz
  simp only [State.fppException]
  split
  · exact h1
  · exact c.trans h1 (h.deferFpp _)

theorem fppErrors_rel (c : Composes R R) (h : FppRel R) (addr : Word) (errs : List FppError) (s : State) :
    R s (errs.foldl (fun s e => s.fppException addr e) s) := by
  induction errs generalizing s with
  | nil => exact c.refl s
  | cons e es ih => exact c.trans (fppException_rel c h s addr e) (ih _)

/-- What an FPP instruction leaves once its accesses are done (R413, R470). -/
theorem fppCommit_at (c : Composes R R) (h : FppRel R) (addr : Word) (errs : List FppError) (f : Fpp → Fpp) (s : State)
    (hf : s.fpp.fps &&& 0o030000 = 0 → (f s.fpp).fps &&& 0o030000 = 0) : PostAt R R s (fppCommit addr errs f) :=
  PostAt.change (c.trans (h.fpp s (f s.fpp) hf) (fppErrors_rel c h addr errs _))

theorem putCc_reserved (w : Word) (cc : Cc) (h : w &&& 0o030000 = 0) : putCc w cc &&& 0o030000 = 0 := by
  rw [fpsReserved_iff] at h ⊢
  obtain ⟨h12, h13⟩ := h
  simp only [putCc, flagsWord, BitVec.getLsbD_or, BitVec.getLsbD_and, h12, h13, BitVec.getLsbD_setWidth]
  simp

/-- After the accesses of a floating source the coprocessor's registers are as at the start, so what is made of them
stands (R470, R471). -/
theorem withSource_post (h : ExecRel R) (hf : FppRel R) (ss : OpSpec) (p : Prec)
    (k : Word → Fpp → Accum → List FppError × Fpp)
    (hk : ∀ fps f x, f.fps &&& 0o030000 = 0 → (k fps f x).2.fps &&& 0o030000 = 0) :
    Post R R (withSource ss p k) := by
  have c := h.toComposes
  refine Post.get_bind fun s => ?_
  refine PostAt.bind c (resolveF_post h.toStepRel ss (fun _ => trivial) p .read s) fun pl s1 h1 => ?_
  have e1 : s1.fpp = s.fpp := (resolveF_post fppSame_step ss (fun _ => trivial) p .read s).ok h1
  cases pl with
  | none => exact fppCommit_at c hf _ _ _ _ id
  | some pl =>
    refine PostAt.bind c (readF_post h.toStepRel pl p .read s1) fun x s2 h2 => ?_
    have e2 : s2.fpp = s1.fpp := (readF_post fppSame_step pl p .read s1).ok h2
    exact fppCommit_at c hf _ _ _ _ fun hz => hk _ _ _ (by rwa [e2, e1] at hz)

theorem writeAc_rel (hf : FppRel R) (s : State) (p : Prec) (i : Fin 6) (v : Accum) :
    R s (s.setFpp (s.fpp.writeAc p i v)) := hf.fpp s _ id

theorem withDestination_post (h : ExecRel R) (hf : FppRel R) (dd : OpSpec) (p : Prec) (v : Accum)
    (errs : List FppError) (f : Fpp → Fpp) (hk : ∀ g : Fpp, g.fps &&& 0o030000 = 0 → (f g).fps &&& 0o030000 = 0) :
    Post R R (withDestination dd p v errs f) := by
  have c := h.toComposes
  refine Post.get_bind fun s => ?_
  refine PostAt.bind c (resolveF_post h.toStepRel dd (fun _ => trivial) p .write s) fun pl s1 _ => ?_
  cases pl with
  | none => exact fppCommit_at c hf _ _ _ _ id
  | some pl =>
    exact PostAt.bind c (writeF_post h.toStepRel h.toStoreRel (writeAc_rel hf) pl p v s1) fun _ s2 _ =>
      fppCommit_at c hf _ _ _ _ (hk _)

theorem withModified_post (h : ExecRel R) (hf : FppRel R) (dd : OpSpec) (p : Prec) (result : Accum → Accum) :
    Post R R (withModified dd p result) := by
  have c := h.toComposes
  refine Post.get_bind fun s => ?_
  refine PostAt.bind c (resolveF_post h.toStepRel dd (fun _ => trivial) p .modify s) fun pl s1 _ => ?_
  cases pl with
  | none => exact fppCommit_at c hf _ _ _ _ id
  | some pl =>
    refine PostAt.bind c (readF_post h.toStepRel pl p .modify s1) fun x s2 _ => ?_
    exact PostAt.bind c (writeF_post h.toStepRel h.toStoreRel (writeAc_rel hf) pl p _ s2) fun _ s3 _ =>
      fppCommit_at c hf _ _ _ _ (putCc_reserved _ _)

/-- The rest of an instruction that reads an integer and then sets the registers of the coprocessor. -/
theorem loadBody_post (h : ExecRel R) (hf : FppRel R) (ss : OpSpec) (long : Bool) (s : State) (addr : Word)
    (k : Int → List FppError × Fpp) (hk : ∀ x, s.fpp.fps &&& 0o030000 = 0 → (k x).2.fps &&& 0o030000 = 0) :
    PostAt R R s (readInteger ss long >>= fun x => fppCommit addr (k x).1 fun _ => (k x).2) := by
  have c := h.toComposes
  refine PostAt.bind c (readInteger_post h.toStepRel ss (fun _ => trivial) long s) fun x s1 h1 => ?_
  have e1 : s1.fpp = s.fpp := (readInteger_post fppSame_step ss (fun _ => trivial) long s).ok h1
  exact fppCommit_at c hf _ _ _ _ fun hz => hk x (by rwa [e1] at hz)

theorem arithmeticResult_fps (p : Prec) (ac : Fin 4) (f : Fpp) (r : FResult) (h : f.fps &&& 0o030000 = 0) :
    (arithmeticResult p ac f r).2.fps &&& 0o030000 = 0 := putCc_reserved _ _ h

theorem fppStore_post (h : ExecRel R) (hf : FppRel R) (dd : OpSpec) (long : Bool) (v : Int) (addr : Word)
    (errs : List FppError) (cc : Cc) :
    Post R R (writeInteger dd long v >>= fun p => fppCommit addr errs (fun f => f.fcc cc) >>= fun _ => copyFcc p cc) := by
  have c := h.toComposes
  refine Post.bind c (writeInteger_post h.toStepRel h.toStoreRel dd trivial long v) fun p => ?_
  refine Post.bind c (fun s => fppCommit_at c hf _ _ _ s (putCc_reserved _ _)) fun _ => ?_
  exact setFlagsUnless_post h _ _

/-! ### Every instruction -/

/-- The body each instruction runs. -/
def bodyOf : Instr → M Unit
  | .halt => haltBody
  | .wait => waitBody
  | .rti => rtiBody
  | .bpt => bptBody
  | .iot => iotBody
  | .reset => resetBody
  | .rtt => rttBody
  | .jmp dd => jmpBody dd
  | .rts r => rtsBody r
  | .spl n => splBody n
  | .clx m => clxBody m
  | .sex m => sexBody m
  | .swab dd => swabBody dd
  | .br off => branchBody condBr off
  | .bne off => branchBody condBne off
  | .beq off => branchBody condBeq off
  | .bge off => branchBody condBge off
  | .blt off => branchBody condBlt off
  | .bgt off => branchBody condBgt off
  | .ble off => branchBody condBle off
  | .jsr r dd => jsrBody r dd
  | .clr dd => clrBody dd
  | .com dd => comBody dd
  | .inc dd => incBody dd
  | .dec dd => decBody dd
  | .neg dd => negBody dd
  | .adc dd => adcBody dd
  | .sbc dd => sbcBody dd
  | .tst dd => tstBody dd
  | .ror dd => rorBody dd
  | .rol dd => rolBody dd
  | .asr dd => asrBody dd
  | .asl dd => aslBody dd
  | .mark nn => markBody nn
  | .mfpi ss => mfpiBody ss
  | .mtpi dd => mtpiBody dd
  | .sxt dd => sxtBody dd
  | .mov ss dd => movBody ss dd
  | .cmp ss dd => cmpBody ss dd
  | .bit ss dd => bitBody ss dd
  | .bic ss dd => bicBody ss dd
  | .bis ss dd => bisBody ss dd
  | .add ss dd => addBody ss dd
  | .movb ss dd => movbBody ss dd
  | .cmpb ss dd => cmpbBody ss dd
  | .bitb ss dd => bitbBody ss dd
  | .bicb ss dd => bicbBody ss dd
  | .bisb ss dd => bisbBody ss dd
  | .sub ss dd => subBody ss dd
  | .mul r ss => mulBody r ss
  | .div r ss => divBody r ss
  | .ash r ss => ashBody r ss
  | .ashc r ss => ashcBody r ss
  | .xor r dd => xorBody r dd
  | .sob r off => sobBody r off
  | .bpl off => branchBody condBpl off
  | .bmi off => branchBody condBmi off
  | .bhi off => branchBody condBhi off
  | .blos off => branchBody condBlos off
  | .bvc off => branchBody condBvc off
  | .bvs off => branchBody condBvs off
  | .bcc off => branchBody condBcc off
  | .bcs off => branchBody condBcs off
  | .emt code => emtBody code
  | .trap code => trapInstrBody code
  | .clrb dd => clrbBody dd
  | .comb dd => combBody dd
  | .incb dd => incbBody dd
  | .decb dd => decbBody dd
  | .negb dd => negbBody dd
  | .adcb dd => adcbBody dd
  | .sbcb dd => sbcbBody dd
  | .tstb dd => tstbBody dd
  | .rorb dd => rorbBody dd
  | .rolb dd => rolbBody dd
  | .asrb dd => asrbBody dd
  | .aslb dd => aslbBody dd
  | .mfpd ss => mfpdBody ss
  | .mtpd dd => mtpdBody dd
  | .cfcc => cfccBody
  | .setf => setfBody
  | .seti => setiBody
  | .setd => setdBody
  | .setl => setlBody
  | .ldfps ss => ldfpsBody ss
  | .stfps dd => stfpsBody dd
  | .stst dd => ststBody dd
  | .clrf dd => clrfBody dd
  | .tstf ss => tstfBody ss
  | .absf dd => absfBody dd
  | .negf dd => negfBody dd
  | .mulf ac ss => mulfBody ac ss
  | .modf ac ss => modfBody ac ss
  | .addf ac ss => addfBody ac ss
  | .ldf ac ss => ldfBody ac ss
  | .subf ac ss => subfBody ac ss
  | .cmpf ac ss => cmpfBody ac ss
  | .stf ac dd => stfBody ac dd
  | .divf ac ss => divfBody ac ss
  | .stexp ac dd => stexpBody ac dd
  | .stcfi ac dd => stcfiBody ac dd
  | .stcfd ac dd => stcfdBody ac dd
  | .ldexp ac ss => ldexpBody ac ss
  | .ldcif ac ss => ldcifBody ac ss
  | .ldcdf ac ss => ldcdfBody ac ss
  | .reserved ir => reservedBody ir
  | .fppIllegal ir => fppIllegalBody ir

/-- Executing an instruction is running its body. -/
theorem exec_eq (i : Instr) (s : State) : exec i s = runBody (bodyOf i) s := by
  cases i <;> rfl

/-- Every instruction outside the coprocessor leaves a related state. -/
theorem bodyOf_post_base (h : ExecRel R) (i : Instr) (hi : isFppInstr i = false) : Post R R (bodyOf i) := by
  have c := h.toComposes
  cases i with
  | halt =>
    unfold bodyOf
    exact haltBody_post h
  | wait =>
    unfold bodyOf
    exact waitBody_post h
  | rti =>
    unfold bodyOf
    exact returnBody_post h _
  | bpt =>
    unfold bodyOf
    exact Post.raiseTrap c _
  | iot =>
    unfold bodyOf
    exact Post.raiseTrap c _
  | reset =>
    unfold bodyOf
    exact resetBody_post h
  | rtt =>
    unfold bodyOf
    exact returnBody_post h _
  | jmp dd =>
    unfold bodyOf
    exact jmpBody_post h dd
  | rts r =>
    unfold bodyOf
    exact rtsBody_post h r
  | spl n =>
    unfold bodyOf
    exact splBody_post h n
  | clx m =>
    unfold bodyOf
    exact Post.change fun s => h.flags s _ (flagsWord_shift _ _ _)
  | sex m =>
    unfold bodyOf
    exact Post.change fun s => h.flags s _ (flagsWord_shift _ _ _)
  | swab dd =>
    unfold bodyOf
    exact modifyBody_post h _ _ _ _
  | br off =>
    unfold bodyOf
    exact branchBody_rel h _ off
  | bne off =>
    unfold bodyOf
    exact branchBody_rel h _ off
  | beq off =>
    unfold bodyOf
    exact branchBody_rel h _ off
  | bge off =>
    unfold bodyOf
    exact branchBody_rel h _ off
  | blt off =>
    unfold bodyOf
    exact branchBody_rel h _ off
  | bgt off =>
    unfold bodyOf
    exact branchBody_rel h _ off
  | ble off =>
    unfold bodyOf
    exact branchBody_rel h _ off
  | jsr r dd =>
    unfold bodyOf
    exact jsrBody_post h r dd
  | clr dd =>
    unfold bodyOf
    exact clrBody_post h dd _ _ _
  | com dd =>
    unfold bodyOf
    exact modifyBody_post h _ _ _ _
  | inc dd =>
    unfold bodyOf
    exact modifyBody_post h _ _ _ _
  | dec dd =>
    unfold bodyOf
    exact modifyBody_post h _ _ _ _
  | neg dd =>
    unfold bodyOf
    exact modifyBody_post h _ _ _ _
  | adc dd =>
    unfold bodyOf
    exact modifyBody_post h _ _ _ _
  | sbc dd =>
    unfold bodyOf
    exact modifyBody_post h _ _ _ _
  | tst dd =>
    unfold bodyOf
    exact tstBody_post h dd _ _
  | ror dd =>
    unfold bodyOf
    exact modifyBody_post h _ _ _ _
  | rol dd =>
    unfold bodyOf
    exact modifyBody_post h _ _ _ _
  | asr dd =>
    unfold bodyOf
    exact modifyBody_post h _ _ _ _
  | asl dd =>
    unfold bodyOf
    exact modifyBody_post h _ _ _ _
  | mark nn =>
    unfold bodyOf
    exact markBody_post h nn
  | mfpi ss =>
    unfold bodyOf
    exact moveFromPrevious_post h _ _
  | mtpi dd =>
    unfold bodyOf
    exact moveToPrevious_post h _ _
  | sxt dd =>
    unfold bodyOf
    exact sxtBody_post h dd
  | mov ss dd =>
    unfold bodyOf
    exact movBody_post h ss dd
  | cmp ss dd =>
    unfold bodyOf
    exact compareBody_post h _ _ _ _
  | bit ss dd =>
    unfold bodyOf
    exact compareBody_post h _ _ _ _
  | bic ss dd =>
    unfold bodyOf
    exact combineBody_post h _ _ _ _ _
  | bis ss dd =>
    unfold bodyOf
    exact combineBody_post h _ _ _ _ _
  | add ss dd =>
    unfold bodyOf
    exact combineBody_post h _ _ _ _ _
  | movb ss dd =>
    unfold bodyOf
    exact movbBody_post h ss dd
  | cmpb ss dd =>
    unfold bodyOf
    exact compareBody_post h _ _ _ _
  | bitb ss dd =>
    unfold bodyOf
    exact compareBody_post h _ _ _ _
  | bicb ss dd =>
    unfold bodyOf
    exact combineBody_post h _ _ _ _ _
  | bisb ss dd =>
    unfold bodyOf
    exact combineBody_post h _ _ _ _ _
  | sub ss dd =>
    unfold bodyOf
    exact combineBody_post h _ _ _ _ _
  | mul r ss =>
    unfold bodyOf
    exact eisBody_post h ss fun v s => h.trans (h.writePair s _ _ _) (h.setCc _ _)
  | div r ss =>
    unfold bodyOf
    refine eisBody_post h ss fun v s => ?_
    simp only
    split
    · exact h.setCc s _
    · exact h.trans (h.writePair s _ _ _) (h.setCc _ _)
  | ash r ss =>
    unfold bodyOf
    exact eisBody_post h ss fun v s => h.trans (h.writeReg s _ _ trivial) (h.setCc _ _)
  | ashc r ss =>
    unfold bodyOf
    exact eisBody_post h ss fun v s => h.trans (h.writePair s _ _ _) (h.setCc _ _)
  | xor r dd =>
    unfold bodyOf
    exact xorBody_post h r dd
  | sob r off =>
    unfold bodyOf
    exact sobBody_post h r off
  | bpl off =>
    unfold bodyOf
    exact branchBody_rel h _ off
  | bmi off =>
    unfold bodyOf
    exact branchBody_rel h _ off
  | bhi off =>
    unfold bodyOf
    exact branchBody_rel h _ off
  | blos off =>
    unfold bodyOf
    exact branchBody_rel h _ off
  | bvc off =>
    unfold bodyOf
    exact branchBody_rel h _ off
  | bvs off =>
    unfold bodyOf
    exact branchBody_rel h _ off
  | bcc off =>
    unfold bodyOf
    exact branchBody_rel h _ off
  | bcs off =>
    unfold bodyOf
    exact branchBody_rel h _ off
  | emt code =>
    unfold bodyOf
    exact Post.raiseTrap c _
  | trap code =>
    unfold bodyOf
    exact Post.raiseTrap c _
  | clrb dd =>
    unfold bodyOf
    exact clrBody_post h dd _ _ _
  | comb dd =>
    unfold bodyOf
    exact modifyByteBody_post h _ _ _
  | incb dd =>
    unfold bodyOf
    exact modifyByteBody_post h _ _ _
  | decb dd =>
    unfold bodyOf
    exact modifyByteBody_post h _ _ _
  | negb dd =>
    unfold bodyOf
    exact modifyByteBody_post h _ _ _
  | adcb dd =>
    unfold bodyOf
    exact modifyByteBody_post h _ _ _
  | sbcb dd =>
    unfold bodyOf
    exact modifyByteBody_post h _ _ _
  | tstb dd =>
    unfold bodyOf
    exact tstBody_post h dd _ _
  | rorb dd =>
    unfold bodyOf
    exact modifyByteBody_post h _ _ _
  | rolb dd =>
    unfold bodyOf
    exact modifyByteBody_post h _ _ _
  | asrb dd =>
    unfold bodyOf
    exact modifyByteBody_post h _ _ _
  | aslb dd =>
    unfold bodyOf
    exact modifyByteBody_post h _ _ _
  | mfpd ss =>
    unfold bodyOf
    exact moveFromPrevious_post h _ _
  | mtpd dd =>
    unfold bodyOf
    exact moveToPrevious_post h _ _
  | reserved w =>
    unfold bodyOf
    exact Post.raiseTrap c _
  | cfcc | setf | seti | setd | setl => simp [isFppInstr] at hi
  | ldfps _ | stfps _ | stst _ | clrf _ | tstf _ | absf _ | negf _ => simp [isFppInstr] at hi
  | mulf _ _ | modf _ _ | addf _ _ | ldf _ _ | subf _ _ | cmpf _ _ | stf _ _ | divf _ _ => simp [isFppInstr] at hi
  | stexp _ _ | stcfi _ _ | stcfd _ _ | ldexp _ _ | ldcif _ _ | ldcdf _ _ => simp [isFppInstr] at hi
  | fppIllegal _ => simp [isFppInstr] at hi

theorem ststBody_post (h : ExecRel R) (dd : OpSpec) : Post R R (ststBody dd) := by
  have c := h.toComposes
  refine Post.get_bind fun s => PostAt.ite (fun _ => ?_) fun _ => PostAt.ite (fun _ => ?_) fun _ => ?_
  · exact h.writeReg s _ _ trivial
  · exact Post.bind c (h.memWrite _ _ _) (fun _ => Post.change fun s => h.setPc s _) s
  · exact Post.bind c (h.resolve _ _ _) (fun _ => writeWordsAt_post h.toStoreRel _ _) s

theorem fpsBit_reserved (w : Word) (n : Nat) (b : Bool) (hn : n ≠ 12) (hn2 : n ≠ 13) (hn3 : n < 16)
    (h : w &&& 0o030000 = 0) : putBit w n b &&& 0o030000 = 0 := by
  rw [fpsReserved_iff] at h ⊢
  obtain ⟨h12, h13⟩ := h
  cases b <;> interval_cases n <;> simp_all [putBit, setBit]

/-- Every instruction leaves a related state. -/
theorem bodyOf_post (h : ExecRel R) (hf : FppRel R) (i : Instr) : Post R R (bodyOf i) := by
  by_cases hi : isFppInstr i = false
  · exact bodyOf_post_base h i hi
  have c := h.toComposes
  have arith : ∀ (q p : Prec) (ac : Fin 4) (ss : OpSpec) (op : Word → Fpp → Accum → FResult),
      Post R R (withSource ss q fun fps f x => arithmeticResult p ac f (op fps f x)) := fun q p ac ss op =>
    withSource_post h hf _ _ _ fun _ _ _ hz => arithmeticResult_fps _ _ _ _ hz
  cases i with
  | cfcc =>
    unfold bodyOf
    exact Post.change fun s => h.setCc s _
  | setf =>
    unfold bodyOf
    exact Post.change fun s => hf.fpp s _ (fpsBit_reserved _ 7 _ (by decide) (by decide) (by decide))
  | seti =>
    unfold bodyOf
    exact Post.change fun s => hf.fpp s _ (fpsBit_reserved _ 6 _ (by decide) (by decide) (by decide))
  | setd =>
    unfold bodyOf
    exact Post.change fun s => hf.fpp s _ (fpsBit_reserved _ 7 _ (by decide) (by decide) (by decide))
  | setl =>
    unfold bodyOf
    exact Post.change fun s => hf.fpp s _ (fpsBit_reserved _ 6 _ (by decide) (by decide) (by decide))
  | ldfps ss =>
    unfold bodyOf
    refine Post.bind c (h.readOp _ _) fun v => Post.change fun s => hf.fpp s _ fun _ => ?_
    rw [fpsReserved_iff]
    simp
  | stfps dd =>
    unfold bodyOf
    exact Post.get_bind fun s => Post.bind c (h.writeOp _ _ _) (fun _ => Post.pure c _) s
  | stst dd =>
    unfold bodyOf
    exact ststBody_post h dd
  | clrf dd =>
    unfold bodyOf
    exact Post.get_bind fun s => withDestination_post h hf _ _ _ _ _ (fun _ hz => putCc_reserved _ _ hz) s
  | tstf ss =>
    unfold bodyOf
    exact Post.get_bind fun s => withSource_post h hf _ _ _ (fun _ _ _ hz => putCc_reserved _ _ hz) s
  | absf dd =>
    unfold bodyOf
    exact Post.get_bind fun s => withModified_post h hf _ _ _ s
  | negf dd =>
    unfold bodyOf
    exact Post.get_bind fun s => withModified_post h hf _ _ _ s
  | mulf ac ss =>
    unfold bodyOf
    exact Post.get_bind fun s => arith _ _ ac ss _ s
  | addf ac ss =>
    unfold bodyOf
    exact Post.get_bind fun s => arith _ _ ac ss _ s
  | subf ac ss =>
    unfold bodyOf
    exact Post.get_bind fun s => arith _ _ ac ss _ s
  | modf ac ss =>
    unfold bodyOf
    exact Post.get_bind fun s => withSource_post h hf _ _ _ (fun _ _ _ hz => putCc_reserved _ _ hz) s
  | ldf ac ss =>
    unfold bodyOf
    exact Post.get_bind fun s => withSource_post h hf _ _ _ (fun _ _ _ hz => putCc_reserved _ _ hz) s
  | cmpf ac ss =>
    unfold bodyOf
    exact Post.get_bind fun s => withSource_post h hf _ _ _ (fun _ _ _ hz => putCc_reserved _ _ hz) s
  | divf ac ss =>
    unfold bodyOf
    refine Post.get_bind fun s => withSource_post h hf _ _ _ (fun _ _ _ hz => ?_) s
    split
    · exact hz
    · exact arithmeticResult_fps _ _ _ _ hz
  | stf ac dd =>
    unfold bodyOf
    exact Post.get_bind fun s => withDestination_post h hf _ _ _ _ _ (fun _ hz => hz) s
  | stcfd ac dd =>
    unfold bodyOf
    exact Post.get_bind fun s => withDestination_post h hf _ _ _ _ _ (fun _ hz => putCc_reserved _ _ hz) s
  | stexp ac dd =>
    unfold bodyOf
    exact Post.get_bind fun s => fppStore_post h hf _ _ _ _ _ _ s
  | stcfi ac dd =>
    unfold bodyOf
    exact Post.get_bind fun s => fppStore_post h hf _ _ _ _ _ _ s
  | ldcdf ac ss =>
    unfold bodyOf
    exact Post.get_bind fun s => arith _ _ ac ss _ s
  | ldexp ac ss =>
    unfold bodyOf
    exact Post.get_bind fun s => loadBody_post h hf _ _ s _ _ fun _ hz => arithmeticResult_fps _ _ _ _ hz
  | ldcif ac ss =>
    unfold bodyOf
    exact Post.get_bind fun s => loadBody_post h hf _ _ s _ _ fun _ hz => arithmeticResult_fps _ _ _ _ hz
  | fppIllegal w =>
    unfold bodyOf
    exact Post.get_bind fun s => fppCommit_at c hf _ _ _ s id
  | _ =>
    unfold bodyOf
    exact absurd rfl hi

/-- Every instruction outside the coprocessor leaves a related state. -/
theorem exec_rel_base (h : ExecRel R) (i : Instr) (hi : isFppInstr i = false) {s t : State}
    (he : exec i s = .next t) : R s t :=
  runBody_rel h.toComposes h.trapSeq (bodyOf_post_base h i hi) (exec_eq i s ▸ he)

/-- Every instruction leaves a related state. -/
theorem exec_rel (h : ExecRel R) (hf : FppRel R) (i : Instr) {s t : State} (he : exec i s = .next t) : R s t :=
  runBody_rel h.toComposes h.trapSeq (bodyOf_post h hf i) (exec_eq i s ▸ he)

end

end Sys2Proof.Machine
end

