-- ==== Sys2Proof/Laws/Memory.lean ====
section
/-! SUPPORT. Memory as a list in canonical form: a read after a write, what a write leaves alone, and that every
operation on memory keeps the form. -/

namespace Sys2Proof.Machine

/-- An address below every listed one reads as unlisted. -/
theorem Memory.read_of_above {m : Memory} {a : Nat} (h : Memory.above a m = true) (h2 : Memory.wf m = true) :
    Memory.read m a = Memory.unlisted := by
  cases m with
  | nil => rfl
  | cons c rest =>
    obtain ⟨k, b⟩ := c
    have h : a < k := by simpa [Memory.above] using h
    simp [Memory.read, h, Nat.ne_of_lt h]

theorem Memory.above_trans {m : Memory} {a k : Nat} (h : Memory.above k m = true) (hk : a < k) :
    Memory.above a m = true := by
  cases m with
  | nil => rfl
  | cons c rest =>
    simp only [Memory.above, decide_eq_true_eq] at h ⊢
    omega

theorem Memory.wf_cons {a : Nat} {b : Byte} {rest : Memory} :
    Memory.wf ((a, b) :: rest) = true ↔
      b ≠ Memory.unlisted ∧ Memory.above a rest = true ∧ Memory.wf rest = true := by
  simp [Memory.wf, and_assoc]

theorem Memory.above_write {m : Memory} {a k : Nat} {v : Byte} (h : Memory.above k m = true)
    (hw : Memory.wf m = true) (hk : k < a) : Memory.above k (Memory.write m a v) = true := by
  cases m with
  | nil => simp only [Memory.write]; split <;> simp [Memory.above, hk]
  | cons c rest =>
    obtain ⟨j, b⟩ := c
    have hj : k < j := by simpa [Memory.above] using h
    obtain ⟨-, hr, -⟩ := Memory.wf_cons.mp hw
    simp only [Memory.write]
    split_ifs <;> first | exact Memory.above_trans hr hj | simp [Memory.above, hk, hj]

/-- A write keeps the canonical form. -/
theorem Memory.wf_write {m : Memory} (a : Nat) (v : Byte) (h : Memory.wf m = true) :
    Memory.wf (Memory.write m a v) = true := by
  induction m with
  | nil => simp only [Memory.write]; split_ifs with hv <;> simp [Memory.wf, Memory.above, hv]
  | cons c rest ih =>
    obtain ⟨k, b⟩ := c
    obtain ⟨hb, ha, hr⟩ := Memory.wf_cons.mp h
    simp only [Memory.write]
    split_ifs with h1 h2 h3 h4
    · exact h
    · exact Memory.wf_cons.mpr ⟨h2, by simpa [Memory.above] using h1, h⟩
    · exact hr
    · exact Memory.wf_cons.mpr ⟨h4, h3 ▸ ha, hr⟩
    · exact Memory.wf_cons.mpr ⟨hb, Memory.above_write ha hr (by omega), ih hr⟩

/-- A read after a write: the byte written at its address, every other byte as before. -/
theorem Memory.read_write {m : Memory} (a x : Nat) (v : Byte) (h : Memory.wf m = true) :
    Memory.read (Memory.write m a v) x = if x = a then v else Memory.read m x := by
  induction m with
  | nil =>
    simp only [Memory.write]
    split_ifs with hv hx hx <;> simp_all [Memory.read]
  | cons c rest ih =>
    obtain ⟨k, b⟩ := c
    obtain ⟨hb, ha, hr⟩ := Memory.wf_cons.mp h
    simp only [Memory.write]
    split_ifs with h1 h2 h3 h4 h5 h6 h7
    · subst h3
      have : x ≠ k := by omega
      simp_all [Memory.read]
    · rfl
    · subst h4; simp [Memory.read]
    · by_cases hx : x < a
      · have : x ≠ k := by omega
        have : x < k := by omega
        simp_all [Memory.read]
      · simp_all [Memory.read]
    · subst h7
      subst h5
      rw [Memory.read_of_above ha hr, h6]
    · subst h5
      by_cases hx : x < a
      · have := Memory.read_of_above (Memory.above_trans ha hx) hr
        simp_all [Memory.read]
      · simp_all [Memory.read]
    · simp_all [Memory.read]
    · subst h5
      simp_all [Memory.read]
    · have hlt : ¬ x < k := by omega
      have hne : x ≠ k := by omega
      simp_all [Memory.read]
    · simp only [Memory.read]
      split_ifs <;> simp_all

/-- The bytes after a word is stored. -/
theorem Memory.read_writeWord {m : Memory} (a x : Nat) (v : Word) (h : Memory.wf m = true) :
    Memory.read (Memory.writeWord m a v) x =
      if x = a + 1 then v.extractLsb' 8 8 else if x = a then v.extractLsb' 0 8 else Memory.read m x := by
  simp only [Memory.writeWord]
  rw [Memory.read_write _ _ _ (Memory.wf_write _ _ h), Memory.read_write _ _ _ h]

theorem Memory.wf_writeWord {m : Memory} (a : Nat) (v : Word) (h : Memory.wf m = true) :
    Memory.wf (Memory.writeWord m a v) = true := Memory.wf_write _ _ (Memory.wf_write _ _ h)

theorem Memory.wf_writeWords {m : Memory} (a : Nat) (ws : List Word) (h : Memory.wf m = true) :
    Memory.wf (Memory.writeWords m a ws) = true := by
  induction ws generalizing m a with
  | nil => exact h
  | cons w ws ih => exact ih _ (Memory.wf_writeWord _ _ h)

/-- A word read where it was stored. -/
theorem Memory.readWord_writeWord {m : Memory} (a : Nat) (v : Word) (h : Memory.wf m = true) :
    Memory.readWord (Memory.writeWord m a v) a = v := by
  simp only [Memory.readWord, Memory.read_writeWord _ _ _ h]
  simp only [if_true, show a ≠ a + 1 by omega, if_false]
  apply BitVec.eq_of_getLsbD_eq
  intro i hi
  simp only [BitVec.getLsbD_append, BitVec.getLsbD_extractLsb']
  by_cases h8 : i < 8
  · simp [h8]
  · simp [h8]; grind

/-- A word read away from the word stored. -/
theorem Memory.readWord_writeWord_ne {m : Memory} (a b : Nat) (v : Word) (h : Memory.wf m = true)
    (hab : b + 1 < a ∨ a + 1 < b) : Memory.readWord (Memory.writeWord m a v) b = Memory.readWord m b := by
  simp only [Memory.readWord, Memory.read_writeWord _ _ _ h]
  simp [show b ≠ a + 1 by omega, show b ≠ a by omega, show b + 1 ≠ a by omega]

theorem Memory.wf_writeMain {m : Memory} (pa : PAddr) (w : Width) (v : Word) (h : Memory.wf m = true) :
    Memory.wf (writeMain m pa w v) = true := by
  cases w
  · exact Memory.wf_write _ _ h
  · exact Memory.wf_writeWord _ _ h

/-- The bytes after a store of either width. -/
theorem Memory.read_writeMain {m : Memory} (pa : PAddr) (w : Width) (v : Word) (x : Nat)
    (h : Memory.wf m = true) (hx : x < pa.toNat ∨ pa.toNat + (match w with | .byte => 1 | .word => 2) ≤ x) :
    Memory.read (writeMain m pa w v) x = Memory.read m x := by
  cases w
  · simp only [writeMain, Memory.read_write _ _ _ h]
    simp [show x ≠ pa.toNat by simp only at hx; omega]
  · simp only [writeMain, Memory.read_writeWord _ _ _ h]
    simp only at hx
    simp [show x ≠ pa.toNat by omega, show x ≠ pa.toNat + 1 by omega]

/-- Memory after power-up is in the canonical form, and every byte of it reads as unlisted. -/
theorem Memory.wf_reset : Memory.wf State.reset.mem = true := rfl

/-- Words stored at rising addresses: each is there, every other byte as before (R706). -/
theorem Memory.writeWords_spec (ws : List Word) (m : Memory) (a : Nat) (h : Memory.wf m = true) :
    (∀ k w, ws[k]? = some w → Memory.readWord (Memory.writeWords m a ws) (a + 2 * k) = w) ∧
    ∀ x, x < a ∨ a + 2 * ws.length ≤ x → Memory.read (Memory.writeWords m a ws) x = Memory.read m x := by
  induction ws generalizing m a with
  | nil => exact ⟨fun k w hk => by simp at hk, fun _ _ => rfl⟩
  | cons v ws ih =>
    obtain ⟨h1, h2⟩ := ih (Memory.writeWord m a v) (a + 2) (Memory.wf_writeWord a v h)
    refine ⟨fun k w hk => ?_, fun x hx => ?_⟩
    · cases k with
      | zero =>
        obtain rfl : v = w := by simpa using hk
        unfold Memory.readWord Memory.writeWords
        rw [h2 (a + 2 * 0 + 1) (by omega), h2 (a + 2 * 0) (by omega)]
        exact Memory.readWord_writeWord a v h
      | succ k =>
        show Memory.readWord (Memory.writeWords (Memory.writeWord m a v) (a + 2) ws) (a + 2 * (k + 1)) = w
        rw [show a + 2 * (k + 1) = a + 2 + 2 * k by omega]
        exact h1 k w (by simpa using hk)
    · simp only [List.length_cons] at hx
      unfold Memory.writeWords
      rw [h2 x (by omega), Memory.read_writeWord _ _ _ h, if_neg (by omega), if_neg (by omega)]

end Sys2Proof.Machine
end

