-- ==== Sys2Proof/Laws/Results.lean ====
section
/-! SUPPORT. Running a body step by step once its accesses are known, and the flags it leaves. -/

namespace Sys2Proof.Machine

section
variable {α β : Type} {m : M α} {k : α → M β} {s t : State}

theorem bind_ok {a : α} (h : m s = .ok a t) : (m >>= k) s = k a t := by
  have e : (m >>= k) s = EStateM.bind m k s := rfl
  rw [e, EStateM.bind, h]

theorem bind_error {v : Word} (h : m s = .error v t) : (m >>= k) s = .error v t := by
  have e : (m >>= k) s = EStateM.bind m k s := rfl
  rw [e, EStateM.bind, h]

/-- A sequence that completed went through a state between. -/
theorem bind_eq_ok {b : β} (h : (m >>= k) s = .ok b t) : ∃ a u, m s = .ok a u ∧ k a u = .ok b t := by
  have e : (m >>= k) s = EStateM.bind m k s := rfl
  rw [e, EStateM.bind] at h
  cases hm : m s with
  | ok a u => rw [hm] at h; exact ⟨a, u, rfl, h⟩
  | error v u => rw [hm] at h; cases h

/-- A sequence that aborted did so in its first part or in its second. -/
theorem bind_eq_error {v : Word} (h : (m >>= k) s = .error v t) :
    m s = .error v t ∨ ∃ a u, m s = .ok a u ∧ k a u = .error v t := by
  have e : (m >>= k) s = EStateM.bind m k s := rfl
  rw [e, EStateM.bind] at h
  cases hm : m s with
  | ok a u => rw [hm] at h; exact .inr ⟨a, u, rfl, h⟩
  | error w u => rw [hm] at h; cases h; exact .inl rfl

theorem get_bind {k : State → M β} : (get >>= k) s = k s s := rfl
theorem look_bind {f : State → α} : (look f >>= k) s = k (f s) s := rfl
theorem change_bind {f : State → State} {k : Unit → M β} : (change f >>= k) s = k () (f s) := rfl
theorem pure_bind_run {a : α} : ((pure a : M α) >>= k) s = k a s := rfl

end

theorem runBody_ok {body : M Unit} {s t : State} (h : body s = .ok () t) : runBody body s = .next t := by
  rw [runBody, h]

theorem runBody_error {body : M Unit} {s t : State} {v : Word} (h : body s = .error v t) :
    runBody body s = .next (trapSeq v t) := by
  rw [runBody, h]

/-- Setting the flags gives exactly the flags set (R27). -/
theorem flagged_setCc (s : State) (cc : Cc) : Flagged s (s.setCc cc) cc.n cc.z cc.v cc.c :=
  ⟨rfl, putCc_shift _ _, (putCc_flags _ _).1, (putCc_flags _ _).2.1, (putCc_flags _ _).2.2.1, (putCc_flags _ _).2.2.2⟩

/-- The flag update of a store, suppressed where the status word was the destination (R29). -/
theorem setFlagsUnless_run (p : Bool) (f : State → Cc) (s : State) :
    ∃ t, setFlagsUnless p f s = .ok () t ∧ StoredFlags p s t (f s).n (f s).z (f s).v (f s).c := by
  cases p
  · exact ⟨_, rfl, flagged_setCc s (f s)⟩
  · exact ⟨s, rfl, rfl⟩

/-- A body that ends in a flag update answers a next state with those flags. -/
theorem flags_result {i : Instr} {s s1 : State} {p : Bool} {f : State → Cc} {n z v c : Bool}
    (h : bodyOf i s = setFlagsUnless p f s1) (hn : (f s1).n = n) (hz : (f s1).z = z) (hv : (f s1).v = v)
    (hc : (f s1).c = c) : ∃ t, exec i s = .next t ∧ StoredFlags p s1 t n z v c := by
  obtain ⟨t, ht, hf⟩ := setFlagsUnless_run p f s1
  subst hn hz hv hc
  exact ⟨t, by rw [exec_eq, runBody_ok (h.trans ht)], hf⟩

theorem signBit_eq_msb {w : Nat} (x : BitVec w) : signBit x = x.msb := (BitVec.msb_eq_getLsbD_last x).symm

/-! ### The status word outside the accesses that store in it -/

/-- An access that stores nothing keeps the status word. -/
theorem pswSame_access : AccessRel (fun s t => t.psw = s.psw) fun _ _ => True where
  refl _ := rfl
  trans h1 h2 := h2.trans h1
  transE _ _ := trivial
  raise _ := trivial
  lastPage _ _ := rfl
  touch _ _ _ _ := rfl
  mmuTrap s := by simp only [State.requestMmuTrap]; split_ifs <;> rfl
  reply s pa r := by simp only [State.afterReply]; split <;> rfl
  cpuError _ _ _ _ := trivial
  mmuAbort _ _ _ _ := trivial

theorem pswSame_step : StepRel (fun s t => t.psw = s.psw) (fun _ _ => True) fun _ => True where
  toAccessRel := pswSame_access
  setPc _ _ := rfl
  writeReg s r v _ := State.writeReg_psw s r v
  mmr1 _ _ := rfl
  yellow _ := rfl
  red _ _ _ := trivial

theorem readOp_psw {sp : OpSpec} {w : Width} {s t : State} {v : Word} (h : readOp sp w s = .ok v t) : t.psw = s.psw :=
  (readOp_post pswSame_step sp (fun _ => trivial) w s).ok h

/-- The core-owned register at an address is the status word exactly at its two addresses (R29, R60). -/
theorem coreRegAt_psw {pa : PAddr} (h : coreRegAt pa = some .psw) : isPswAddr pa = true := by
  have hp : pa.toNat / 2 * 2 = 0o17777776 := by
    unfold coreRegAt at h
    simp only at h
    generalize pa.toNat / 2 * 2 = a at h
    by_contra hne
    rw [if_neg hne] at h
    have page : ∀ m n, pageRegAt m n ≠ .psw := fun m n => by unfold pageRegAt; split <;> simp
    iterate 8
      rcases ite_some h with h | h
      · cases h
    iterate 3
      rcases ite_some h with h | h
      · exact page _ _ h
    by_cases h1 : 0o17770200 ≤ a ∧ a < 0o17770400
    · rw [if_pos h1] at h
      rcases ite_some h with h | h
      · cases h
      · cases h
    · rw [if_neg h1] at h
      cases h
  have hlt := pa.isLt
  have : pa = 0o17777776 ∨ pa = 0o17777777 := by
    have h2 : pa.toNat = 0o17777776 ∨ pa.toNat = 0o17777777 := by omega
    rcases h2 with h2 | h2
    · exact .inl (BitVec.eq_of_toNat_eq h2)
    · exact .inr (BitVec.eq_of_toNat_eq h2)
  rcases this with rfl | rfl <;> decide

/-- A physical write outside the status word keeps it (R29). -/
theorem physWrite_psw {pa : PAddr} {w : Width} {v : Word} {s t : State} (h : physWrite pa w v s = .ok () t)
    (hp : isPswAddr pa = false) : t.psw = s.psw := by
  unfold physWrite at h
  rw [get_bind] at h
  split at h
  · cases h
  split at h
  · cases h; rfl
  split at h
  · cases hr : coreRegAt pa with
    | some r =>
      have hne : r ≠ .psw := fun e => by rw [e] at hr; rw [coreRegAt_psw hr] at hp; cases hp
      have keep : ∀ x, (s.writeCore r x).psw = s.psw := fun x => by cases r <;> first | rfl | exact absurd rfl hne
      rw [hr] at h
      cases w <;> (cases h; exact keep _)
    | none =>
      rw [hr] at h
      obtain ⟨a, u, h1, h2⟩ := bind_eq_ok h
      cases h2
      exact (busAccess_post pswSame_access pa s).ok h1
  · cases h

theorem memWriteM_psw {m : ProcMode} {va : VAddr} {w : Width} {v : Word} {s t : State}
    (h : memWriteM m va w v s = .ok false t) : t.psw = s.psw := by
  obtain ⟨pa, s1, h1, h2⟩ := bind_eq_ok h
  obtain ⟨u, s2, h2, h3⟩ := bind_eq_ok h2
  have e : (EStateM.Result.ok (isPswAddr pa) s2 : EStateM.Result Word State Bool) = .ok false t := h3
  injection e with e1 e2
  rw [← e2, physWrite_psw h2 e1, (translate_post pswSame_access m va .write w s).ok h1]

theorem memModify_psw {va : VAddr} {w : Width} {f : Word → Word} {s t : State} {old : Word}
    (h : memModify va w f s = .ok (old, false) t) : t.psw = s.psw := by
  unfold memModify at h
  rw [get_bind] at h
  obtain ⟨pa, s1, h1, h2⟩ := bind_eq_ok h
  obtain ⟨x, s2, h2, h3⟩ := bind_eq_ok h2
  obtain ⟨u, s3, h3, h4⟩ := bind_eq_ok h3
  have e : (EStateM.Result.ok (x, isPswAddr pa) s3 : EStateM.Result Word State (Word × Bool)) = .ok (old, false) t := h4
  injection e with e1 e2
  have hp : isPswAddr pa = false := congrArg Prod.snd e1
  rw [← e2, physWrite_psw h3 hp, (physRead_post pswSame_access pa w s1).ok h2,
    (translate_post pswSame_access _ va .modify w s).ok h1]

/-- An operand written outside the status word keeps it (R29). -/
theorem writeOp_psw {sp : OpSpec} {w : Width} {v : Word} {s t : State} (h : writeOp sp w v s = .ok false t) :
    t.psw = s.psw := by
  obtain ⟨pl, s1, h1, h2⟩ := bind_eq_ok h
  have e1 := (resolvePlace_post pswSame_step sp (fun _ => trivial) w .write s).ok h1
  cases pl with
  | reg r => cases h2; rw [State.writeReg_psw]; exact e1
  | mem va => exact (memWriteM_psw h2).trans e1

theorem modifyPlace_psw {pl : Place} {w : Width} {f : Word → Word} {s t : State} {old : Word}
    (h : modifyPlace pl w f s = .ok (old, false) t) : t.psw = s.psw := by
  cases pl with
  | reg r => cases h; exact State.writeReg_psw _ _ _
  | mem va => exact memModify_psw h

theorem modifyOp_psw {sp : OpSpec} {w : Width} {f : Word → Word} {s t : State} {old : Word}
    (h : modifyOp sp w f s = .ok (old, false) t) : t.psw = s.psw := by
  obtain ⟨pl, s1, h1, h2⟩ := bind_eq_ok h
  exact (modifyPlace_psw h2).trans ((resolvePlace_post pswSame_step sp (fun _ => trivial) w .modify s).ok h1)

/-! ### The read-modify-write instructions -/

/-- The flags of a store that may be suppressed, from those of the state before it where it is not (R29). -/
theorem flags_result_kept {i : Instr} {s s1 : State} {p : Bool} {f : State → Cc} {n z v c : Bool}
    (h : bodyOf i s = setFlagsUnless p f s1) (hf : p = false → (f s1).n = n ∧ (f s1).z = z ∧ (f s1).v = v ∧ (f s1).c = c) :
    ∃ t, exec i s = .next t ∧ StoredFlags p s1 t n z v c := by
  cases p with
  | true => exact ⟨s1, by rw [exec_eq, runBody_ok (h.trans (show setFlagsUnless true f s1 = .ok () s1 from rfl))], rfl⟩
  | false =>
    obtain ⟨h1, h2, h3, h4⟩ := hf rfl
    exact flags_result h h1 h2 h3 h4

/-- An instruction of the shape of R230. -/
theorem modifyGives_single {i : Instr} {s : State} {w : Width} {dd : OpSpec} {f : Bool → Word → Word}
    {cc : Bool → Word → Cc} (hb : bodyOf i = modifyBody w dd f cc) :
    ModifyGives i s s dd w (f s.carry) (fun d => (cc s.carry d).n) (fun d => (cc s.carry d).z)
      (fun d => (cc s.carry d).v) (fun d => (cc s.carry d).c) := by
  intro old p s1 h
  refine flags_result (p := p) (f := fun _ => cc s.carry old) (s1 := s1) ?_ rfl rfl rfl rfl
  rw [hb]
  exact bind_ok h

/-- An instruction of the shape of R200 that stores. -/
theorem modifyGives_double {i : Instr} {s s1 : State} {w : Width} {ss dd : OpSpec} {src : Word} {f : Word → Word → Word}
    {cc : Word → Word → Bool → Cc} (hb : bodyOf i = combineBody w ss dd f cc) (hr : readOp ss w s = .ok src s1) :
    ModifyGives i s s1 dd w (f src) (fun d => (cc src d s.carry).n) (fun d => (cc src d s.carry).z)
      (fun d => (cc src d s.carry).v) (fun d => (cc src d s.carry).c) := by
  intro old p s2 h
  refine flags_result_kept (p := p) (f := fun t => cc src old t.carry) (s1 := s2) ?_ fun hp => ?_
  · rw [hb]
    show (readOp ss w >>= _) s = _
    rw [bind_ok hr, bind_ok h]
  · subst hp
    have : s2.carry = s.carry := by simp [modifyOp_psw h, readOp_psw hr]
    rw [this]
    exact ⟨rfl, rfl, rfl, rfl⟩

end Sys2Proof.Machine
end

