-- ==== Sys2Proof/Laws/Frame.lean ====
section
/-! SUPPORT. What an operation that stores nothing leaves unchanged, as one relation closed under its updates: memory,
the coprocessor, the status word, the registers outside `T`, and the special registers. -/

namespace Sys2Proof.Machine

/-- What resolving and reading operands whose registers are in `T` leaves unchanged. -/
structure ReadFrame (T : Reg → Prop) (s t : State) : Prop where
  regs : RegFrame s t T
  special : SpecialFrame s t
  mem : t.mem = s.mem
  fpp : t.fpp = s.fpp
  psw : t.psw = s.psw

/-- A frame for fewer registers is one for more. -/
theorem RegFrame.mono {s t : State} {T U : Reg → Prop} (h : RegFrame s t T) (hU : ∀ r, T r → U r) : RegFrame s t U :=
  ⟨fun rs i hn => h.1 rs i fun ⟨e, ht⟩ => hn ⟨e, hU _ ht⟩, fun m hn => h.2 m fun ⟨e, ht⟩ => hn ⟨e, hU _ ht⟩⟩

theorem RegFrame.refl (s : State) (T : Reg → Prop) : RegFrame s s T := ⟨fun _ _ _ => rfl, fun _ _ => rfl⟩

/-- Frames compose where the view of the registers stays (R23). -/
theorem RegFrame.trans {s t u : State} {T : Reg → Prop} (h1 : RegFrame s t T) (h2 : RegFrame t u T)
    (hp : t.psw >>> 4 = s.psw >>> 4) : RegFrame s u T := by
  have hr : pswRs t.psw = pswRs s.psw := by
    have := congrArg (·.getLsbD 7) hp
    simp only [BitVec.getLsbD_ushiftRight] at this
    exact this
  have hc : t.cm = s.cm := by
    simp only [State.cm_eq, pswCm]
    congr 2
    apply BitVec.eq_of_getLsbD_eq
    intro i hi
    have := congrArg (·.getLsbD (10 + i)) hp
    simp only [BitVec.getLsbD_ushiftRight] at this
    simp only [BitVec.getLsbD_extractLsb']
    rw [show 4 + (10 + i) = 14 + i by omega] at this
    rw [this]
  exact ⟨fun rs i hn => (h2.1 rs i (by rwa [hr])).trans (h1.1 rs i hn),
    fun m hn => (h2.2 m (by rwa [hc])).trans (h1.2 m hn)⟩

/-- States with the same registers. -/
theorem RegFrame.of_same {s t : State} (T : Reg → Prop) (h0 : t.gr0 = s.gr0) (h1 : t.gr1 = s.gr1) (h2 : t.spm = s.spm) :
    RegFrame s t T :=
  ⟨fun rs i _ => by simp only [State.readGen, h0, h1], fun m _ => by simp only [State.readSpm, h2]⟩

/-- A write of one register changes that register alone (R23). -/
theorem RegFrame.writeReg (s : State) (r : Reg) (v : Word) {T : Reg → Prop} (hr : T r) : RegFrame s (s.writeReg r v) T := by
  refine ⟨fun rs i hn => ?_, fun m hn => ?_⟩
  · rw [State.readGen_writeReg, if_neg fun ⟨e, e2⟩ => hn ⟨e, e2 ▸ hr⟩]
  · rw [State.readSpm_writeReg, if_neg fun ⟨e, e2⟩ => hn ⟨e, e2 ▸ hr⟩]

theorem SpecialFrame.refl (s : State) : SpecialFrame s s where
  par := rfl
  pdr _ := rfl
  mmr0 := rfl
  mmr2 := rfl
  mmr3 := rfl
  ubmap := rfl
  slr := rfl
  pirq := rfl
  cpuErr := rfl
  disp := rfl
  swr := rfl
  trapPsw := rfl
  runState := rfl
  psw := rfl
  params := rfl
  inputs := rfl

theorem SpecialFrame.trans {s t u : State} (h1 : SpecialFrame s t) (h2 : SpecialFrame t u) : SpecialFrame s u where
  par := h2.par.trans h1.par
  pdr e := (h2.pdr e).trans (h1.pdr e)
  mmr0 := h2.mmr0.trans h1.mmr0
  mmr2 := h2.mmr2.trans h1.mmr2
  mmr3 := h2.mmr3.trans h1.mmr3
  ubmap := h2.ubmap.trans h1.ubmap
  slr := h2.slr.trans h1.slr
  pirq := h2.pirq.trans h1.pirq
  cpuErr := h2.cpuErr.trans h1.cpuErr
  disp := h2.disp.trans h1.disp
  swr := h2.swr.trans h1.swr
  trapPsw := h2.trapPsw.trans h1.trapPsw
  runState := h2.runState.trans h1.runState
  psw := h2.psw.trans h1.psw
  params := h2.params.trans h1.params
  inputs := h2.inputs.trans h1.inputs

/-- An update of fields the special frame does not speak of. -/
theorem SpecialFrame.of_same {s t : State} (h1 : t.mmu = s.mmu) (h2 : t.ctl = s.ctl) (h3 : t.psw >>> 4 = s.psw >>> 4)
    (h4 : t.params = s.params) (h5 : t.inputs = s.inputs) : SpecialFrame s t where
  par := by rw [h1]
  pdr e := by rw [h1]
  mmr0 := by rw [h1]
  mmr2 := by rw [h1]
  mmr3 := by rw [h1]
  ubmap := by rw [h1]
  slr := by rw [h2]
  pirq := by rw [h2]
  cpuErr := by rw [h2]
  disp := by rw [h2]
  swr := by rw [h2]
  trapPsw := by rw [h2]
  runState := by rw [h2]
  psw := h3
  params := h4
  inputs := h5

/-- Setting bits that a mask leaves out does not change the word under the mask. -/
theorem mask_setBit (w m : Word) (b : Nat) (h : m.getLsbD b = false) : setBit w b &&& m = w &&& m := by
  have hz : BitVec.ofNat 16 (2 ^ b) &&& m = 0 := by
    apply BitVec.eq_of_getLsbD_eq
    intro i hi
    rw [BitVec.getLsbD_and, BitVec.getLsbD_ofNat, Nat.testBit_two_pow]
    by_cases hb : b = i
    · subst hb; simp [h]
    · simp [hb]
  rw [setBit, BitVec.and_or_distrib_right, hz]
  exact BitVec.or_zero

theorem pdrTouched_mask (d : Word) (e : AcfEffect) : pdrTouched d e &&& 0o177477 = d &&& 0o177477 := by
  have h1 : ∀ c : Bool, (if c then (0o000200 : Word) else 0) &&& 0o177477 = 0 := by decide
  have h2 : ∀ c : Bool, (if c then (0o000100 : Word) else 0) &&& 0o177477 = 0 := by decide
  rw [pdrTouched, BitVec.and_or_distrib_right, BitVec.and_or_distrib_right, h1, h2]
  simp

/-- Replacing one entry by one equal under a mask leaves every entry equal under the mask. -/
theorem pdr_set_mask (p : Vector Word 64) (k : Fin 64) (v m : Word) (h : v &&& m = p[k] &&& m) (e : Fin 64) :
    (p.set k v)[e] &&& m = p[e] &&& m := by
  by_cases he : k = e
  · subst he; simpa using h
  · have : k.val ≠ e.val := fun x => he (Fin.ext x)
    simp [Vector.getElem_set_ne _ _ this]

/-- An access that stores nothing. -/
theorem readFrame_access (T : Reg → Prop) : AccessRel (ReadFrame T) fun _ _ => True where
  refl s := ⟨RegFrame.refl s T, SpecialFrame.refl s, rfl, rfl, rfl⟩
  trans h1 h2 :=
    ⟨h1.regs.trans h2.regs h1.special.psw, h1.special.trans h2.special, h2.mem.trans h1.mem, h2.fpp.trans h1.fpp,
      h2.psw.trans h1.psw⟩
  transE _ _ := trivial
  raise _ := trivial
  lastPage s v := ⟨RegFrame.of_same T rfl rfl rfl, { SpecialFrame.refl s with }, rfl, rfl, rfl⟩
  touch s m p acc :=
    ⟨RegFrame.of_same T rfl rfl rfl,
      { SpecialFrame.refl s with pdr := fun e => pdr_set_mask _ _ _ _ (pdrTouched_mask _ _) e }, rfl, rfl, rfl⟩
  mmuTrap s := by
    have h : SpecialFrame s (s.setMmu { s.mmu with mmr0 := setBit s.mmu.mmr0 12 }) :=
      { SpecialFrame.refl s with mmr0 := mask_setBit _ _ _ (by decide) }
    simp only [State.requestMmuTrap]
    split_ifs
    · exact ⟨RegFrame.refl s T, SpecialFrame.refl s, rfl, rfl, rfl⟩
    · exact ⟨RegFrame.of_same T rfl rfl rfl, { h with }, rfl, rfl, rfl⟩
    · exact ⟨RegFrame.of_same T rfl rfl rfl, h, rfl, rfl, rfl⟩
  reply s pa r := by
    simp only [State.afterReply]
    split <;> exact ⟨RegFrame.of_same T rfl rfl rfl, { SpecialFrame.refl s with }, rfl, rfl, rfl⟩
  cpuError _ _ _ _ := trivial
  mmuAbort _ _ _ _ := trivial

/-- Resolving and reading operands whose registers are in `T`. -/
theorem readFrame_step (T : Reg → Prop) : StepRel (ReadFrame T) (fun _ _ => True) T where
  toAccessRel := readFrame_access T
  setPc s v := ⟨RegFrame.of_same T rfl rfl rfl, { SpecialFrame.refl s with }, rfl, rfl, rfl⟩
  writeReg s r v hr :=
    ⟨RegFrame.writeReg s r v hr, SpecialFrame.of_same (by simp) (by simp) (by simp) (by simp) (by simp), by simp, by simp,
      by simp⟩
  mmr1 s v := ⟨RegFrame.of_same T rfl rfl rfl, { SpecialFrame.refl s with }, rfl, rfl, rfl⟩
  yellow s :=
    ⟨RegFrame.of_same T rfl rfl rfl, { SpecialFrame.refl s with cpuErr := mask_setBit _ _ _ (by decide) }, rfl, rfl, rfl⟩
  red _ _ _ := trivial

/-- Reading an operand leaves unchanged all but the register its mode steps (R185). -/
theorem readOp_frame {sp : OpSpec} {w : Width} {s t : State} {v : Word} (h : readOp sp w s = .ok v t)
    (T : Reg → Prop) (hT : ∀ r, specSteps sp r → T r) : ReadFrame T s t :=
  (readOp_post (readFrame_step T) sp (fun hm => hT _ ⟨rfl, hm⟩) w s).ok h

theorem resolvePlace_frame {sp : OpSpec} {w : Width} {acc : Access} {s t : State} {pl : Place}
    (h : resolvePlace sp w acc s = .ok pl t) (T : Reg → Prop) (hT : ∀ r, specSteps sp r → T r) : ReadFrame T s t :=
  (resolvePlace_post (readFrame_step T) sp (fun hm => hT _ ⟨rfl, hm⟩) w acc s).ok h

theorem resolve_frame {sp : OpSpec} {n : Nat} {acc : Access} {s t : State} {va : VAddr}
    (h : resolve sp n acc s = .ok va t) (T : Reg → Prop) (hT : ∀ r, specSteps sp r → T r) : ReadFrame T s t :=
  (resolve_post (readFrame_step T) sp (fun hm => hT _ ⟨rfl, hm⟩) n acc s).ok h

theorem translate_frame {m : ProcMode} {va : VAddr} {acc : Access} {w : Width} {s t : State} {pa : PAddr}
    (h : translate m va acc w s = .ok pa t) (T : Reg → Prop) : ReadFrame T s t :=
  (translate_post (readFrame_access T) m va acc w s).ok h

/-- Setting the flags leaves unchanged all but the status word's bits 3:0 (R27). -/
theorem InstrFrame.flagged {s t u : State} {T : Reg → Prop} (h : ReadFrame T s t) {n z v c : Bool}
    (hf : Flagged t u n z v c) : InstrFrame s u T [] 0 ∧ RegFrame s u T ∧ SpecialFrame s u := by
  obtain ⟨e, hp, -⟩ := hf
  have hr : RegFrame t u T := by rw [e]; exact RegFrame.of_same T rfl rfl rfl
  have hs : SpecialFrame t u := by
    refine SpecialFrame.of_same ?_ ?_ hp ?_ ?_ <;> rw [e] <;> rfl
  have hm : u.mem = s.mem := by rw [e]; exact h.mem
  have hfp : u.fpp = s.fpp := by rw [e]; exact h.fpp
  have h1 := h.regs.trans hr h.special.psw
  have h2 := h.special.trans hs
  exact ⟨⟨fun a _ => by rw [hm], hfp, fun _ => ⟨h1, h2⟩⟩, h1, h2⟩

/-! ### Stores -/

/-- What a store changes: memory at the bytes stored alone, or a register of the I/O page; never a general register, a
stack pointer or a register of the coprocessor (R60, R85). -/
structure StoreFrame (dst : List Nat) (len : Nat) (s t : State) : Prop where
  mem : MemFrame s t dst len
  wf : Memory.wf t.mem = true
  gr0 : t.gr0 = s.gr0
  gr1 : t.gr1 = s.gr1
  spm : t.spm = s.spm
  fpp : t.fpp = s.fpp
  params : t.params = s.params
  main : InMain s dst → t = s.setMem t.mem

theorem StoreFrame.regs {dst : List Nat} {len : Nat} {s t : State} (h : StoreFrame dst len s t) (T : Reg → Prop) :
    RegFrame s t T := RegFrame.of_same T h.gr0 h.gr1 h.spm

theorem StoreFrame.special {dst : List Nat} {len : Nat} {s t : State} (h : StoreFrame dst len s t)
    (hm : InMain s dst) : SpecialFrame s t := by
  have e := h.main hm
  refine SpecialFrame.of_same ?_ ?_ ?_ ?_ ?_ <;> rw [e] <;> rfl

theorem MemFrame.of_eq {s t : State} (h : t.mem = s.mem) (dst : List Nat) (len : Nat) : MemFrame s t dst len :=
  fun a _ => by rw [h]

theorem physWrite_frame {pa : PAddr} {w : Width} {v : Word} {s t : State} (h : physWrite pa w v s = .ok () t)
    (hw : Memory.wf s.mem = true) : StoreFrame [pa.toNat] w.len s t := by
  unfold physWrite at h
  rw [get_bind] at h
  split at h
  · cases h
  split at h
  · cases h
    refine ⟨fun x hx => ?_, Memory.wf_writeMain _ _ _ hw, rfl, rfl, rfl, rfl, rfl, fun _ => rfl⟩
    have hx := hx pa.toNat (by simp)
    rw [State.setMem_mem, Memory.read_writeMain _ _ _ _ hw]
    cases w <;> simpa [Width.len] using hx
  rename_i hc
  have out : ¬ InMain s [pa.toNat] := fun hm => hc (hm _ (by simp))
  split at h
  · cases hr : coreRegAt pa with
    | some r =>
      rw [hr] at h
      have keep : ∀ x, StoreFrame [pa.toNat] w.len s (s.writeCore r x) := fun x => by
        have hmem : (s.writeCore r x).mem = s.mem := by
          cases r <;> simp [State.writeCore, State.writePsw, State.loadPsw_eq]
        refine ⟨MemFrame.of_eq hmem _ _, by rw [hmem]; exact hw, ?_, ?_, ?_, ?_, ?_, fun hm => absurd hm out⟩ <;>
          (cases r <;> simp [State.writeCore, State.writePsw, State.loadPsw_eq])
      cases w <;> (cases h; exact keep _)
    | none =>
      rw [hr] at h
      obtain ⟨a, u, h1, h2⟩ := bind_eq_ok h
      cases h2
      unfold busAccess at h1
      rw [get_bind] at h1
      split at h1
      · obtain ⟨b, u2, h3, h4⟩ := bind_eq_ok h1
        have e : u2 = s.afterReply pa (Config.deviceReply s.draws) := by cases h3; rfl
        have e2 : t = u2 := by
          split at h4
          · cases h4
          · cases h4; rfl
        subst e2 e
        have hs : ∀ r, (s.afterReply pa r).mem = s.mem ∧ (s.afterReply pa r).gr0 = s.gr0 ∧
            (s.afterReply pa r).gr1 = s.gr1 ∧ (s.afterReply pa r).spm = s.spm ∧ (s.afterReply pa r).fpp = s.fpp ∧
            (s.afterReply pa r).params = s.params := fun r => by
          simp only [State.afterReply]
          split <;> exact ⟨rfl, rfl, rfl, rfl, rfl, rfl⟩
        obtain ⟨e1, e2, e3, e4, e5, e6⟩ := hs (Config.deviceReply s.draws)
        exact ⟨MemFrame.of_eq e1 _ _, by rw [e1]; exact hw, e2, e3, e4, e5, e6, fun hm => absurd hm out⟩
      · cases h1
  · cases h

/-- What an instruction leaves unchanged when it reads, then stores once. -/
structure WriteFrame (T : Reg → Prop) (dst : List Nat) (len : Nat) (s t : State) : Prop where
  regs : RegFrame s t T
  mem : MemFrame s t dst len
  wf : Memory.wf t.mem = true
  fpp : t.fpp = s.fpp
  params : t.params = s.params
  special : InMain s dst → SpecialFrame s t ∧ t.psw = s.psw

/-- Reads followed by a store. -/
theorem ReadFrame.store {T : Reg → Prop} {dst : List Nat} {len : Nat} {s t u : State} (h1 : ReadFrame T s t)
    (h2 : StoreFrame dst len t u) : WriteFrame T dst len s u where
  regs := h1.regs.trans (h2.regs T) h1.special.psw
  mem a ha := by rw [h2.mem a ha, h1.mem]
  wf := h2.wf
  fpp := h2.fpp.trans h1.fpp
  params := h2.params.trans h1.special.params
  special hm := by
    have hm' : InMain t dst := fun b hb => by rw [h1.special.params]; exact hm b hb
    exact ⟨h1.special.trans (h2.special hm'), by rw [h2.main hm']; exact h1.psw⟩

/-- Reads followed by nothing. -/
theorem ReadFrame.write {T : Reg → Prop} {s t : State} (h : ReadFrame T s t) (hw : Memory.wf s.mem = true)
    (dst : List Nat) (len : Nat) : WriteFrame T dst len s t where
  regs := h.regs
  mem := MemFrame.of_eq h.mem _ _
  wf := by rw [h.mem]; exact hw
  fpp := h.fpp
  params := h.special.params
  special _ := ⟨h.special, h.psw⟩

/-- More reads before a store. -/
theorem ReadFrame.trans_write {T : Reg → Prop} {dst : List Nat} {len : Nat} {s t u : State} (h1 : ReadFrame T s t)
    (h2 : WriteFrame T dst len t u) : WriteFrame T dst len s u where
  regs := h1.regs.trans h2.regs h1.special.psw
  mem a ha := by rw [h2.mem a ha, h1.mem]
  wf := h2.wf
  fpp := h2.fpp.trans h1.fpp
  params := h2.params.trans h1.special.params
  special hm := by
    have hm' : InMain t dst := fun b hb => by rw [h1.special.params]; exact hm b hb
    obtain ⟨a, b⟩ := h2.special hm'
    exact ⟨h1.special.trans a, b.trans h1.psw⟩

theorem WriteFrame.mono {T U : Reg → Prop} {dst : List Nat} {len : Nat} {s t : State} (h : WriteFrame T dst len s t)
    (hU : ∀ r, T r → U r) : WriteFrame U dst len s t := { h with regs := h.regs.mono hU }

/-- The flags set after a store, or suppressed (R29). -/
theorem WriteFrame.stored {T : Reg → Prop} {dst : List Nat} {len : Nat} {s t u : State} (h : WriteFrame T dst len s t)
    {p n z v c : Bool} (hf : StoredFlags p t u n z v c) : RegFrame s u T ∧ InstrFrame s u T dst len := by
  cases p with
  | true =>
    have e : u = t := hf
    subst e
    exact ⟨h.regs, h.mem, h.fpp, fun hm => ⟨h.regs, (h.special hm).1⟩⟩
  | false =>
    obtain ⟨e, hp, -⟩ := (hf : Flagged t u n z v c)
    have hr : RegFrame s u T := by
      rw [e]
      exact ⟨fun rs i hn => h.regs.1 rs i hn, fun m hn => h.regs.2 m hn⟩
    have hm : MemFrame s u dst len := by rw [e]; exact h.mem
    have hfp : u.fpp = s.fpp := by rw [e]; exact h.fpp
    refine ⟨hr, hm, hfp, fun hin => ⟨hr, (h.special hin).1.trans (SpecialFrame.of_same ?_ ?_ hp ?_ ?_)⟩⟩ <;>
      rw [e] <;> rfl

/-- Translating an address and storing there. -/
theorem memWriteM_frame {m : ProcMode} {va : VAddr} {w : Width} {v : Word} {s t : State} {p : Bool}
    (h : memWriteM m va w v s = .ok p t) (hw : Memory.wf s.mem = true) (T : Reg → Prop) :
    ∃ pa s1, translate m va .write w s = .ok pa s1 ∧ WriteFrame T [pa.toNat] w.len s t := by
  obtain ⟨pa, s1, h1, h2⟩ := bind_eq_ok h
  obtain ⟨u, s2, h2, h3⟩ := bind_eq_ok h2
  have f1 := translate_frame h1 T
  have e : t = s2 := by
    have e : (EStateM.Result.ok (isPswAddr pa) s2 : EStateM.Result Word State Bool) = .ok p t := h3
    injection e with _ e
    exact e.symm
  subst e
  exact ⟨pa, s1, h1, f1.store (physWrite_frame h2 (by rw [f1.mem]; exact hw))⟩

theorem memModify_frame {va : VAddr} {w : Width} {f : Word → Word} {s t : State} {o : Word × Bool}
    (h : memModify va w f s = .ok o t) (hw : Memory.wf s.mem = true) (T : Reg → Prop) :
    ∃ pa s1, translate s.cm va .modify w s = .ok pa s1 ∧ WriteFrame T [pa.toNat] w.len s t := by
  unfold memModify at h
  rw [get_bind] at h
  obtain ⟨pa, s1, h1, h2⟩ := bind_eq_ok h
  obtain ⟨x, s2, h2, h3⟩ := bind_eq_ok h2
  obtain ⟨u, s3, h3, h4⟩ := bind_eq_ok h3
  have f1 := (readFrame_access T).trans (translate_frame h1 T)
    ((physRead_post (readFrame_access T) pa w s1).ok h2)
  have e : t = s3 := by
    have e : (EStateM.Result.ok (x, isPswAddr pa) s3 : EStateM.Result Word State (Word × Bool)) = .ok o t := h4
    injection e with _ e
    exact e.symm
  subst e
  exact ⟨pa, s1, h1, f1.store (physWrite_frame h3 (by rw [f1.mem]; exact hw))⟩

/-- Writing a destination changes the register its mode names, or memory at the address it resolves to (R185). -/
theorem writeOp_frame {dd : OpSpec} {w : Width} {v : Word} {s t : State} {p : Bool} (h : writeOp dd w v s = .ok p t)
    (hw : Memory.wf s.mem = true) : WriteFrame (specLands dd) (destAddress dd w .write s) w.len s t := by
  obtain ⟨pl, s1, h1, h2⟩ := bind_eq_ok h
  have f1 := resolvePlace_frame h1 (specLands dd) fun r hr => .inl hr
  have hw1 : Memory.wf s1.mem = true := by rw [f1.mem]; exact hw
  cases pl with
  | reg r =>
    obtain ⟨hm, hr, -⟩ := resolvePlace_reg h1
    have ht : specLands dd r := .inr ⟨hm, hr.symm⟩
    have f2 : ReadFrame (specLands dd) s1 t := by
      cases h2
      exact (readFrame_step (specLands dd)).writeReg s1 r _ ht
    exact ((readFrame_access _).trans f1 f2).write hw _ _
  | mem va =>
    obtain ⟨pa, s2, h3, f2⟩ := memWriteM_frame (m := s1.cm) h2 hw1 (specLands dd)
    have e : destAddress dd w .write s = [pa.toNat] := by simp only [destAddress, h1, h3]
    rw [e]
    exact f1.trans_write f2

/-- Modifying a destination, likewise (R127, R185). -/
theorem modifyOp_frame {dd : OpSpec} {w : Width} {f : Word → Word} {s t : State} {o : Word × Bool}
    (h : modifyOp dd w f s = .ok o t) (hw : Memory.wf s.mem = true) :
    WriteFrame (specLands dd) (destAddress dd w .modify s) w.len s t := by
  obtain ⟨pl, s1, h1, h2⟩ := bind_eq_ok h
  have f1 := resolvePlace_frame h1 (specLands dd) fun r hr => .inl hr
  have hw1 : Memory.wf s1.mem = true := by rw [f1.mem]; exact hw
  cases pl with
  | reg r =>
    obtain ⟨hm, hr, -⟩ := resolvePlace_reg h1
    have ht : specLands dd r := .inr ⟨hm, hr.symm⟩
    have f2 : ReadFrame (specLands dd) s1 t := by
      cases h2
      exact (readFrame_step (specLands dd)).writeReg s1 r _ ht
    exact ((readFrame_access _).trans f1 f2).write hw _ _
  | mem va =>
    obtain ⟨pa, s2, h3, f2⟩ := memModify_frame h2 hw1 (specLands dd)
    have e : destAddress dd w .modify s = [pa.toNat] := by simp only [destAddress, h1, h3]
    rw [e]
    exact f1.trans_write f2

/-- Pushing changes the stack pointer, and memory at the word pushed (R186). -/
theorem push_frame {v : Word} {c : Bool} {s t : State} {p : Bool} (h : push v c s = .ok p t)
    (hw : Memory.wf s.mem = true) : WriteFrame (· = .sp) (pushAddress s) 2 s t := by
  unfold push at h
  rw [change_bind, get_bind] at h
  obtain ⟨pa, s1, h1, h2⟩ := bind_eq_ok h
  have f0 : ReadFrame (· = .sp) s (s.step .sp (-2)) := State.step_rel (readFrame_step (· = .sp)) s rfl _
  have f1 := translate_frame h1 (· = .sp)
  have e : pushAddress s = [pa.toNat] := by simp only [pushAddress, h1]
  rw [e]
  have fin : ∀ u, ReadFrame (· = .sp) s1 u → (physWrite pa .word v >>= fun _ => pure (isPswAddr pa) : M Bool) u = .ok p t →
      WriteFrame (· = .sp) [pa.toNat] 2 s t := by
    intro u fu hu
    obtain ⟨x, s3, h3, h4⟩ := bind_eq_ok hu
    have e : t = s3 := by
      have e : (EStateM.Result.ok (isPswAddr pa) s3 : EStateM.Result Word State Bool) = .ok p t := h4
      injection e with _ e
      exact e.symm
    subst e
    have f := (readFrame_access (· = .sp)).trans f0 ((readFrame_access (· = .sp)).trans f1 fu)
    exact f.store (physWrite_frame h3 (by rw [f.mem]; exact hw))
  cases c with
  | true =>
    simp only [if_true] at h2
    obtain ⟨x, s2, h5, h6⟩ := bind_eq_ok h2
    exact fin s2 ((stackCheck_post (readFrame_step (· = .sp)) rfl _ s1).ok h5) h6
  | false => exact fin s1 ((readFrame_access _).refl s1) (by simpa using h2)

/-! ### Where resolving and accessing an operand leaves the PC -/

/-- An access that stores nothing keeps the PC. -/
theorem pcSame_access : AccessRel (fun s t => t.pc = s.pc) fun _ _ => True where
  refl _ := rfl
  trans h1 h2 := h2.trans h1
  transE _ _ := trivial
  raise _ := trivial
  lastPage _ _ := rfl
  touch _ _ _ _ := rfl
  mmuTrap s := by simp only [State.requestMmuTrap]; split_ifs <;> rfl
  reply s pa r := by simp only [State.afterReply]; split <;> rfl
  cpuError _ _ _ _ := trivial
  mmuAbort _ _ _ _ := trivial

/-- A store keeps the PC: it is in no address space (R80). -/
theorem pcSame_store : StoreRel (fun s t => t.pc = s.pc) fun _ _ => True where
  toAccessRel := pcSame_access
  store _ _ _ _ _ _ := rfl
  writeCore s _ r v _ := by cases r <;> simp [State.writeCore, State.writePsw, State.loadPsw_eq]

theorem State.step_pc (s : State) (r : Reg) (d : Int) :
    (s.step r d).pc = if r = .pc then s.pc + BitVec.ofInt 16 d else s.pc := by
  obtain ⟨u, -, he⟩ := State.step_eq s r d
  rw [he]
  show (s.writeReg r (s.readReg r + BitVec.ofInt 16 d)).pc = _
  rw [State.pc_writeReg]
  cases r <;> rfl

theorem fetchExtension_pc {s t : State} {x : Word} (h : fetchExtension s = .ok x t) : t.pc = s.pc + 2 := by
  unfold fetchExtension at h
  rw [get_bind] at h
  obtain ⟨a, u, h1, h2⟩ := bind_eq_ok h
  rw [change_bind] at h2
  have e := (memRead_post pcSame_access _ _ s).ok h1
  cases h2
  rw [State.setPc_pc, e]

/-- Where resolving a specifier leaves the PC (R141, R170 to R180). -/
theorem resolve_pc {sp : OpSpec} {n : Nat} {acc : Access} {s t : State} {va : VAddr}
    (h : resolve sp n acc s = .ok va t) : t.pc = pcAfter sp s.pc := by
  have read : ∀ {va : VAddr} {s u : State} {v : Word}, memRead va .word s = .ok v u → u.pc = s.pc :=
    fun h => (memRead_post pcSame_access _ _ _).ok h
  have sub2 : ∀ x : Word, x + 65534#16 = x - 2#16 := fun x => by bv_omega
  obtain ⟨m, r⟩ := sp
  unfold resolve at h
  cases m <;> dsimp only at h
  · rw [get_bind] at h; cases h
  · cases h; simp [pcAfter, OpSpec.extWords]
  · rw [get_bind, change_bind] at h
    cases h
    rw [State.step_pc]
    cases r <;> simp [pcAfter, OpSpec.extWords, stepSize]
  · rw [get_bind] at h
    obtain ⟨a, u, h1, h2⟩ := bind_eq_ok h
    rw [change_bind] at h2
    cases h2
    rw [State.step_pc, read h1]
    cases r <;> simp [pcAfter, OpSpec.extWords]
  · rw [change_bind, get_bind] at h
    have hs : (s.step r (-(stepSize r n : Int))).pc = pcAfter ⟨.autoDec, r⟩ s.pc := by
      rw [State.step_pc]
      cases r <;> simp [pcAfter, OpSpec.extWords, stepSize]
      exact sub2 _
    split at h
    · obtain ⟨a, u, h1, h2⟩ := bind_eq_ok h
      cases h2
      rw [← hs]
      unfold stackCheck at h1
      rw [get_bind] at h1
      split at h1
      · split at h1
        · cases h1
        · cases h1; rfl
      · cases h1; rfl
    · cases h
      exact hs
  · rw [get_bind] at h
    obtain ⟨a, u, h1, h2⟩ := bind_eq_ok h
    rw [change_bind] at h2
    cases h2
    rw [State.step_pc, read h1]
    cases r <;> simp [pcAfter, OpSpec.extWords]
    exact sub2 _
  · obtain ⟨a, u, h1, h2⟩ := bind_eq_ok h
    cases h2
    rw [fetchExtension_pc h1]
    simp [pcAfter, OpSpec.extWords]
  · obtain ⟨a, u, h1, h2⟩ := bind_eq_ok h
    rw [get_bind] at h2
    obtain ⟨b, u2, h3, h4⟩ := bind_eq_ok h2
    cases h4
    rw [read h3, fetchExtension_pc h1]
    simp [pcAfter, OpSpec.extWords]

theorem pcAfter_direct {sp : OpSpec} (h : sp.mode = .direct) (pc : Word) : pcAfter sp pc = pc := by
  simp [pcAfter, OpSpec.extWords, h]

theorem resolvePlace_pc {sp : OpSpec} {w : Width} {acc : Access} {s t : State} {pl : Place}
    (h : resolvePlace sp w acc s = .ok pl t) : t.pc = pcAfter sp s.pc := by
  unfold resolvePlace at h
  split at h
  · cases h; rw [pcAfter_direct ‹_›]
  · obtain ⟨a, u, h1, h2⟩ := bind_eq_ok h
    cases h2
    exact resolve_pc h1

/-- Reading an operand moves the PC past its extension word (R141, R185). -/
theorem readOp_pc {sp : OpSpec} {w : Width} {s t : State} {v : Word} (h : readOp sp w s = .ok v t) :
    t.pc = pcAfter sp s.pc := by
  obtain ⟨pl, s1, h1, h2⟩ := bind_eq_ok h
  rw [← resolvePlace_pc h1]
  cases pl with
  | reg r => cases h2; rfl
  | mem va => exact (memRead_post pcSame_access _ _ _).ok h2

/-- Writing an operand, likewise, unless it is the PC itself. -/
theorem writeOp_pc {dd : OpSpec} {w : Width} {v : Word} {s t : State} {p : Bool} (h : writeOp dd w v s = .ok p t) :
    PcStored dd t (pcAfter dd s.pc) := by
  obtain ⟨pl, s1, h1, h2⟩ := bind_eq_ok h
  rw [← resolvePlace_pc h1]
  cases pl with
  | reg r =>
    obtain ⟨hm, hr, -⟩ := resolvePlace_reg h1
    by_cases hp : dd.reg = .pc
    · exact .inl ⟨hm, hp⟩
    · refine .inr ?_
      cases h2
      rw [State.pc_writeReg, if_neg (by rw [hr]; exact hp)]
  | mem va => exact .inr ((memWrite_post pcSame_store va w v s1).ok h2)

theorem modifyPlace_pc {dd : OpSpec} {w : Width} {f : Word → Word} {s s1 t : State} {pl : Place} {o : Word × Bool}
    (h1 : resolvePlace dd w .modify s = .ok pl s1) (h2 : modifyPlace pl w f s1 = .ok o t) :
    PcStored dd t (pcAfter dd s.pc) := by
  rw [← resolvePlace_pc h1]
  cases pl with
  | reg r =>
    obtain ⟨hm, hr, -⟩ := resolvePlace_reg h1
    by_cases hp : dd.reg = .pc
    · exact .inl ⟨hm, hp⟩
    · refine .inr ?_
      cases h2
      rw [State.pc_writeReg, if_neg (by rw [hr]; exact hp)]
  | mem va => exact .inr ((memModify_post pcSame_store va w f s1).ok h2)

/-- Modifying an operand, likewise. -/
theorem modifyOp_pc {dd : OpSpec} {w : Width} {f : Word → Word} {s t : State} {o : Word × Bool}
    (h : modifyOp dd w f s = .ok o t) : PcStored dd t (pcAfter dd s.pc) := by
  obtain ⟨pl, s1, h1, h2⟩ := bind_eq_ok h
  exact modifyPlace_pc h1 h2

/-! ### Stepping a register -/

/-- Stepping a register changes it, MMR1 and nothing else (R173, R176, R182). -/
theorem State.step_steppedBy (s : State) (r : Reg) (d : Int) : SteppedBy s (s.step r d) r d := by
  obtain ⟨u, hu, he⟩ := State.step_eq s r d
  have f : ReadFrame (· = r) s (s.step r d) := State.step_rel (readFrame_step (· = r)) s rfl d
  refine ⟨?_, f.regs, ?_, ?_, f.mem, f.psw, f.fpp, f.special⟩
  · rw [he]
    show (s.writeReg r (s.readReg r + BitVec.ofInt 16 d)).readReg r = _
    rw [State.readReg_writeReg, if_pos rfl]
  · intro h; rw [State.step_pc, if_neg h]
  · unfold State.step State.record
    rw [State.writeReg_mmu]
    simp only [mmr0Frozen_iff]
    split
    · rw [State.writeReg_mmu]
    · show (s.writeReg r _).mmu.mmr1 <<< 8 ||| mmr1Record r d = _
      rw [State.writeReg_mmu]
      congr 1
      unfold mmr1Record
      have h8 : r.code < 8 := by cases r with
        | gen i => have := i.isLt; simp [Reg.code]; omega
        | sp => simp [Reg.code]
        | pc => simp [Reg.code]
      apply BitVec.eq_of_toNat_eq
      simp only [BitVec.toNat_setWidth, BitVec.toNat_append, BitVec.toNat_ofNat, BitVec.toNat_ofInt]
      have : (d % ((2 ^ 5 : Nat) : Int)).toNat < 32 := by omega
      rw [show (d % 32) = d % ((2 ^ 5 : Nat) : Int) from rfl]
      generalize (d % ((2 ^ 5 : Nat) : Int)).toNat = k at this
      rw [Nat.mod_eq_of_lt (show r.code < 2^3 from h8), ← Nat.shiftLeft_add_eq_or_of_lt h8, Nat.shiftLeft_eq]
      omega

/-- An access that stores nothing keeps the registers and MMR1. -/
theorem regsSame_access : AccessRel (fun s t => t.mmu.mmr1 = s.mmu.mmr1 ∧ t.psw = s.psw ∧ t.gr0 = s.gr0 ∧ t.gr1 = s.gr1 ∧
    t.spm = s.spm ∧ t.pc = s.pc) fun _ _ => True where
  refl _ := ⟨rfl, rfl, rfl, rfl, rfl, rfl⟩
  trans h1 h2 := ⟨h2.1.trans h1.1, h2.2.1.trans h1.2.1, h2.2.2.1.trans h1.2.2.1, h2.2.2.2.1.trans h1.2.2.2.1,
    h2.2.2.2.2.1.trans h1.2.2.2.2.1, h2.2.2.2.2.2.trans h1.2.2.2.2.2⟩
  transE _ _ := trivial
  raise _ := trivial
  lastPage _ _ := ⟨rfl, rfl, rfl, rfl, rfl, rfl⟩
  touch _ _ _ _ := ⟨rfl, rfl, rfl, rfl, rfl, rfl⟩
  mmuTrap s := by simp only [State.requestMmuTrap]; split_ifs <;> exact ⟨rfl, rfl, rfl, rfl, rfl, rfl⟩
  reply s pa r := by simp only [State.afterReply]; split <;> exact ⟨rfl, rfl, rfl, rfl, rfl, rfl⟩
  cpuError _ _ _ _ := trivial
  mmuAbort _ _ _ _ := trivial

/-- Reading a word keeps every register and MMR1. -/
theorem memRead_regs {va : VAddr} {s s1 : State} {v : Word} (h : memRead va .word s = .ok v s1) :
    s1.mmu.mmr1 = s.mmu.mmr1 ∧ (∀ r, s1.readReg r = s.readReg r) ∧ s1.pc = s.pc := by
  obtain ⟨a, b, c, d, e, f⟩ := (memRead_post regsSame_access va .word s).ok h
  refine ⟨a, fun r => ?_, f⟩
  cases r <;> simp [State.readReg, State.readGen, State.readSpm, b, c, d, e, f]

/-- A register stepped after a word was read: the pointer of modes 3 and 5 (R174, R177). -/
theorem SteppedBy.after_read {s s1 t : State} {r : Reg} {d : Int} {v : Word} {va : VAddr}
    (h : memRead va .word s = .ok v s1) (ht : SteppedBy s1 t r d) : SteppedBy s t r d := by
  have f : ReadFrame (· = r) s s1 := (memRead_post (readFrame_access _) va .word s).ok h
  have hp := (memRead_post pcSame_access va .word s).ok h
  have h1 : s1.mmu.mmr1 = s.mmu.mmr1 ∧ s1.readReg r = s.readReg r := ⟨(memRead_regs h).1, (memRead_regs h).2.1 r⟩
  refine ⟨by rw [ht.reg, h1.2], f.regs.trans ht.others f.special.psw, fun h => (ht.pc h).trans hp, ?_,
    ht.mem.trans f.mem, ht.psw.trans f.psw, ht.fpp.trans f.fpp, f.special.trans ht.special⟩
  rw [ht.mmr1, h1.1]
  have := congrArg (·.extractLsb' 13 3) f.special.mmr0
  have e : ∀ x : Word, (x &&& 0o167777).extractLsb' 13 3 = x.extractLsb' 13 3 := by
    intro x
    apply BitVec.eq_of_getLsbD_eq
    intro i hi
    have : i = 0 ∨ i = 1 ∨ i = 2 := by omega
    rcases this with rfl | rfl | rfl <;> simp
  simp only [e] at this
  rw [this]

/-! ### Whether a store completes does not depend on the value stored -/

theorem physWrite_any {pa : PAddr} {w : Width} {v : Word} {s t : State} (h : physWrite pa w v s = .ok () t) (v' : Word) :
    ∃ t', physWrite pa w v' s = .ok () t' := by
  unfold physWrite at h ⊢
  rw [get_bind] at h ⊢
  split at h
  · cases h
  rename_i ho
  rw [if_neg ho]
  split at h
  · rename_i hc
    rw [if_pos hc]
    exact ⟨_, rfl⟩
  rename_i hc
  rw [if_neg hc]
  split at h
  · rename_i hp
    rw [if_pos hp]
    cases hr : coreRegAt pa with
    | some r => cases w <;> exact ⟨_, rfl⟩
    | none =>
      rw [hr] at h
      obtain ⟨a, u, h1, h2⟩ := bind_eq_ok h
      exact ⟨u, bind_ok h1⟩
  · cases h

theorem memWriteM_any {m : ProcMode} {va : VAddr} {w : Width} {v : Word} {s t : State} {p : Bool}
    (h : memWriteM m va w v s = .ok p t) (v' : Word) : ∃ t', memWriteM m va w v' s = .ok p t' := by
  obtain ⟨pa, s1, h1, h2⟩ := bind_eq_ok h
  obtain ⟨u, s2, h2, h3⟩ := bind_eq_ok h2
  obtain ⟨t', ht⟩ := physWrite_any h2 v'
  have e : (EStateM.Result.ok (isPswAddr pa) s2 : EStateM.Result Word State Bool) = .ok p t := h3
  injection e with e _
  exact ⟨t', by unfold memWriteM; rw [bind_ok h1, bind_ok ht, ← e]; rfl⟩

theorem writeOp_any {dd : OpSpec} {w : Width} {v : Word} {s t : State} {p : Bool} (h : writeOp dd w v s = .ok p t)
    (v' : Word) : ∃ t', writeOp dd w v' s = .ok p t' := by
  obtain ⟨pl, s1, h1, h2⟩ := bind_eq_ok h
  unfold writeOp
  rw [bind_ok h1]
  cases pl with
  | reg r => cases h2; exact ⟨_, rfl⟩
  | mem va => exact memWriteM_any (m := s1.cm) h2 v'

theorem modifyOp_any {dd : OpSpec} {w : Width} {f : Word → Word} {s t : State} {o : Word × Bool}
    (h : modifyOp dd w f s = .ok o t) (f' : Word → Word) : ∃ t', modifyOp dd w f' s = .ok o t' := by
  obtain ⟨pl, s1, h1, h2⟩ := bind_eq_ok h
  unfold modifyOp
  rw [bind_ok h1]
  cases pl with
  | reg r => cases h2; exact ⟨_, rfl⟩
  | mem va =>
    have h2 : memModify va w f s1 = .ok o t := h2
    show ∃ t', memModify va w f' s1 = .ok o t'
    unfold memModify at h2 ⊢
    rw [get_bind] at h2 ⊢
    obtain ⟨pa, s2, h3, h4⟩ := bind_eq_ok h2
    obtain ⟨x, s3, h4, h5⟩ := bind_eq_ok h4
    obtain ⟨u, s4, h5, h6⟩ := bind_eq_ok h5
    obtain ⟨t', ht⟩ := physWrite_any h5 (f' x)
    have e : (EStateM.Result.ok (x, isPswAddr pa) s4 : EStateM.Result Word State (Word × Bool)) = .ok o t := h6
    injection e with e _
    exact ⟨t', by rw [bind_ok h3, bind_ok h4, bind_ok ht, ← e]; rfl⟩

theorem push_any {v : Word} {c : Bool} {s t : State} {p : Bool} (h : push v c s = .ok p t) (v' : Word) :
    ∃ t', push v' c s = .ok p t' := by
  unfold push at h ⊢
  rw [change_bind, get_bind] at h ⊢
  obtain ⟨pa, s1, h1, h2⟩ := bind_eq_ok h
  rw [bind_ok h1]
  have fin : ∀ u, (physWrite pa .word v >>= fun _ => pure (isPswAddr pa) : M Bool) u = .ok p t →
      ∃ t', (physWrite pa .word v' >>= fun _ => pure (isPswAddr pa) : M Bool) u = .ok p t' := by
    intro u hu
    obtain ⟨x, s3, h3, h4⟩ := bind_eq_ok hu
    obtain ⟨t', ht⟩ := physWrite_any h3 v'
    have e : (EStateM.Result.ok (isPswAddr pa) s3 : EStateM.Result Word State Bool) = .ok p t := h4
    injection e with e _
    exact ⟨t', by rw [bind_ok ht, ← e]; rfl⟩
  cases c with
  | true =>
    simp only [if_true] at h2 ⊢
    obtain ⟨x, s2, h5, h6⟩ := bind_eq_ok h2
    rw [bind_ok h5]
    exact fin s2 h6
  | false =>
    simp only [Bool.false_eq_true, if_false] at h2 ⊢
    exact fin s1 h2

end Sys2Proof.Machine
end

