-- ==== Sys2Proof/Laws/Translate.lean ====
section
/-! SUPPORT. The page map in numbers: the address a page gives, the Unibus remap, and everything the ceiling test can
do. -/

namespace Sys2Proof.Machine

/-- The page index of R101, read from the address as a number. -/
theorem pageIndex_eq (mmr3 : Word) (m : ProcMode) (va : VAddr) : pageIndex mmr3 m va = mappedPage mmr3 m va := by
  have h : (va.addr.extractLsb' 13 3).toNat = va.addr.toNat / 2 ^ 13 := by
    have := va.addr.isLt
    simp only [BitVec.extractLsb'_toNat, Nat.shiftRight_eq_div_pow]
    omega
  simp only [pageIndex, mappedPage, h, dataSpaceEnabled]
  cases m <;> simp only <;> split_ifs <;> first | rfl | (rw [Nat.add_comm])

theorem toNat_or_high (x : PAddr) (h : x.toNat < 2 ^ 18) : (x ||| 0o17000000).toNat = x.toNat + 0o17000000 := by
  have : x &&& 0o17000000 = 0 := by
    apply BitVec.eq_of_getLsbD_eq
    intro i hi
    rw [BitVec.getLsbD_and]
    by_cases h18 : 18 ≤ i
    · have : x.getLsbD i = false := by
        rw [← BitVec.testBit_toNat]
        exact Nat.testBit_lt_two_pow (Nat.lt_of_lt_of_le h (Nat.pow_le_pow_right (by omega) h18))
      simp [this]
    · have : ∀ i : Fin 18, (0o17000000 : PAddr).getLsbD i.val = false := by decide
      exact Bool.and_eq_false_iff.2 (.inr (this ⟨i, by omega⟩)) |>.trans (by simp)
  rw [← BitVec.add_eq_or_of_and_eq_zero _ _ this, BitVec.toNat_add]
  have : (0o17000000 : PAddr).toNat = 0o17000000 := rfl
  rw [this]
  omega

/-- The physical address before the ceiling test (R102). -/
theorem relocate_toNat (par mmr3 a : Word) : (relocate par mmr3 a).toNat = pageAddress par mmr3 a := by
  have hp := par.isLt
  have hfull : (((par.setWidth 22) <<< 6) + (a.extractLsb' 0 13).setWidth 22 : PAddr).toNat =
      (64 * par.toNat + a.toNat % 2 ^ 13) % 2 ^ 22 := by
    simp only [BitVec.toNat_add, BitVec.toNat_shiftLeft, BitVec.toNat_setWidth, BitVec.extractLsb'_toNat,
      Nat.shiftLeft_eq, Nat.shiftRight_zero]
    omega
  have hmask : ∀ x : PAddr, (x &&& 0o777777).toNat = x.toNat % 2 ^ 18 := fun x => by
    rw [BitVec.toNat_and, show (0o777777 : PAddr).toNat = 2 ^ 18 - 1 from rfl, Nat.and_two_pow_sub_one_eq_mod]
  unfold relocate pageAddress
  rw [show mmr3M22 mmr3 = mmr3.getLsbD 4 from rfl]
  dsimp only
  split
  · exact hfull
  · have hlow := hmask (((par.setWidth 22) <<< 6) + (a.extractLsb' 0 13).setWidth 22)
    rw [hfull] at hlow
    by_cases hc : 0o760000 ≤ (64 * par.toNat + a.toNat % 2 ^ 13) % 2 ^ 22 % 2 ^ 18
    · rw [if_pos (by rw [hlow]; exact hc), if_neg (by omega), toNat_or_high _ (by rw [hlow]; exact Nat.mod_lt _ (by decide)),
        hlow]
    · rw [if_neg (by rw [hlow]; exact hc), if_pos (by omega), hlow]

/-- The remap of an address of the Unibus window below the I/O range (R104). -/
theorem unibusRemap_toNat (u : Mmu) (pa : PAddr) (h1 : 0o17000000 ≤ pa.toNat) (h2 : pa.toNat < 0o17760000) :
    (unibusRemap u pa).toNat = windowAddress u pa.toNat := by
  have ha : (pa.extractLsb' 0 18).toNat = pa.toNat - 0o17000000 := by
    simp only [BitVec.extractLsb'_toNat, Nat.shiftRight_zero]
    omega
  have hk : ((pa.extractLsb' 0 18).extractLsb' 13 5).toNat = (pa.toNat - 0o17000000) / 2 ^ 13 := by
    rw [BitVec.extractLsb'_toNat, ha, Nat.shiftRight_eq_div_pow]
    omega
  have hl : (((pa.extractLsb' 0 18).extractLsb' 0 13).setWidth 22 : PAddr).toNat = (pa.toNat - 0o17000000) % 2 ^ 13 := by
    rw [BitVec.toNat_setWidth, BitVec.extractLsb'_toNat, ha, Nat.shiftRight_zero]
    omega
  unfold unibusRemap windowAddress
  rw [show mmr3Ubm u.mmr3 = u.mmr3.getLsbD 5 from rfl]
  dsimp only
  rw [if_neg (by omega)]
  split
  · rw [BitVec.toNat_add, hl]
    simp only [hk]
  · rw [BitVec.toNat_setWidth, ha]
    omega

/-- Main memory ends below the Unibus window (R8). -/
theorem params_ceiling_le {p : Params} (h : p.wf = true) : p.memCeiling ≤ 0o17000000 := by
  simp only [Params.wf, Bool.and_eq_true, decide_eq_true_eq] at h
  exact h.1.2

/-- The access-control table by its conditions: A is set by every access it allows, W by every write it allows (R108). -/
theorem acfEffect_eq (d : Word) (wr : Bool) :
    let acf := (d.extractLsb' 0 3).toNat
    let e := acfEffect (pdrAcf d) wr
    e.anr = (acf == 0 || acf == 3 || acf == 7) ∧ e.aro = ((acf == 1 || acf == 2) && wr) ∧
      e.trp = ((acf == 1 && !wr) || acf == 4 || (acf == 5 && wr)) ∧ e.a = (!e.anr && !e.aro) ∧ e.w = (wr && e.a) := by
  have h : (d.extractLsb' 0 3).toNat < 8 := (d.extractLsb' 0 3).isLt
  unfold pdrAcf
  generalize (d.extractLsb' 0 3).toNat = k at h
  have : ∀ k < 8, ∀ wr, (acfEffect k wr).anr = (k == 0 || k == 3 || k == 7) ∧
      (acfEffect k wr).aro = ((k == 1 || k == 2) && wr) ∧
      (acfEffect k wr).trp = ((k == 1 && !wr) || k == 4 || (k == 5 && wr)) ∧
      (acfEffect k wr).a = (!(acfEffect k wr).anr && !(acfEffect k wr).aro) ∧
      (acfEffect k wr).w = (wr && (acfEffect k wr).a) := by decide
  exact this k h wr

/-- Recording an abort changes MMR0 alone (R110). -/
theorem Mmu.recordAbort_eq (u : Mmu) (anr apl aro inTrap : Bool) :
    u.recordAbort anr apl aro inTrap = { u with mmr0 := (u.recordAbort anr apl aro inTrap).mmr0 } := by
  unfold Mmu.recordAbort
  split <;> rfl

/-- The page a translation records, but at the address of MMR0 (R48, R106). -/
def Mmu.notePage (u : Mmu) (m : ProcMode) (p : Fin 16) (a : Nat) : Mmu :=
  { u with lastPage := if a = 0o17777572 then u.lastPage else pageNumber m p }

/-- Everything the ceiling test can do: answer the address of R102 to R104 and record the page, or abort through 4 with
one bit of the CPU error register set. -/
theorem busAddress_eq (m : ProcMode) (va : VAddr) (w : Width) (s : State) (hw : s.params.wf = true) :
    let p := mappedPage s.mmu.mmr3 m va
    let r := busAddress m p (relocate s.mmu.par[pageEntry m p] s.mmu.mmr3 va.addr) w s
    match mappedAddress s m va w with
    | .ok a => ∃ pa, pa.toNat = a ∧ r = .ok pa (s.setMmu (s.mmu.notePage m p a))
    | .error b => r = .error 0o4 (s.cpuError b) := by
  intro p
  dsimp only
  have hc := params_ceiling_le hw
  have hr := relocate_toNat s.mmu.par[pageEntry m p] s.mmu.mmr3 va.addr
  generalize relocate s.mmu.par[pageEntry m p] s.mmu.mmr3 va.addr = pa at hr ⊢
  have page : ∀ x : PAddr, (if x = mmr0Addr then (pure x : M PAddr) else setLastPage (pageNumber m p) >>= fun _ => pure x) s =
      .ok x (s.setMmu (s.mmu.notePage m p x.toNat)) := fun x => by
    have he : x = mmr0Addr ↔ x.toNat = 0o17777572 := by
      constructor
      · rintro rfl; rfl
      · intro h; exact BitVec.eq_of_toNat_eq h
    simp only [Mmu.notePage, ← he]
    split <;> rfl
  have hodd : isOddWord w (pa.getLsbD 0) = true ↔ w = .word ∧ pa.toNat % 2 = 1 := by
    have : pa.getLsbD 0 = decide (pa.toNat % 2 = 1) := by
      rw [← BitVec.testBit_toNat, Nat.testBit_zero]
    rw [isOddWord, this]
    cases w <;> simp
  unfold mappedAddress busAddress
  dsimp only
  rw [← hr]
  rw [get_bind]
  by_cases h1 : pa.toNat < s.params.memCeiling
  · simp only [if_pos h1]
    by_cases ho : w = .word ∧ pa.toNat % 2 = 1
    · simp only [if_pos ho, if_pos (hodd.2 ho)]
      rfl
    · simp only [if_neg ho, if_neg (fun h => ho (hodd.1 h))]
      refine ⟨pa, rfl, ?_⟩
      simp only [Mmu.notePage, if_neg (show ¬ pa.toNat = 0o17777572 by omega)]
      rfl
  · simp only [if_neg h1]
    by_cases h2 : pa.toNat < 0o17760000
    · simp only [if_pos h2]
      by_cases h3 : 0o17000000 ≤ pa.toNat
      · have hu := unibusRemap_toNat s.mmu pa h3 h2
        simp only [if_pos h3, if_neg (show ¬ pa.toNat < 0o17000000 by omega), ← hu]
        by_cases h4 : s.params.memCeiling ≤ (unibusRemap s.mmu pa).toNat ∧ (unibusRemap s.mmu pa).toNat < 0o17760000
        · simp only [if_pos h4]
          rfl
        · simp only [if_neg h4]
          exact ⟨_, rfl, page _⟩
      · simp only [if_neg h3, if_pos (show pa.toNat < 0o17000000 by omega)]
        rfl
    · simp only [if_neg h2, if_neg (show ¬ pa.toNat < 0o17000000 by omega)]
      exact ⟨pa, rfl, page pa⟩

/-- Everything the access-control and length checks can do (R107 to R112). -/
theorem checkPage_run (m : ProcMode) (p : Fin 16) (a : Word) (acc : Access) (s : State) :
    checkPage m p a acc s =
      (let d := s.mmu.pdr[pageEntry m p]
       let eff := acfEffect (pdrAcf d) acc.wr
       let t := s.setMmu { s.mmu with pdr := s.mmu.pdr.set (pageEntry m p) (pdrTouched d eff) }
       if eff.anr || lengthError d a || eff.aro then
         .error 0o250 (t.setMmu (t.mmu.recordAbort eff.anr (lengthError d a) eff.aro s.ctl.trapPsw.isSome))
       else if eff.trp then .ok () t.requestMmuTrap else .ok () t) := by
  unfold checkPage
  rw [get_bind]
  dsimp only
  rw [change_bind]
  split
  · rfl
  · split <;> rfl

/-- With the MMU enabled for the intent, translation is the ceiling test, then the checks of the page (R88, R89, R100). -/
theorem translate_mapped (m : ProcMode) (va : VAddr) (acc : Access) (w : Width) (s : State)
    (h : mmuEnabled s.mmu.mmr0 acc = true) :
    translate m va acc w s =
      (busAddress m (mappedPage s.mmu.mmr3 m va)
        (relocate s.mmu.par[pageEntry m (mappedPage s.mmu.mmr3 m va)] s.mmu.mmr3 va.addr) w >>= fun pa =>
          checkPage m (mappedPage s.mmu.mmr3 m va) va.addr acc >>= fun _ => pure pa) s := by
  unfold translate
  rw [get_bind, if_pos h]
  unfold pageMap
  rw [get_bind]
  simp only [pageIndex_eq]

end Sys2Proof.Machine
end

