-- ==== Sys2Proof/Laws/Abort.lean ====
section
/-! SUPPORT. What an access that aborts leaves, as one relation closed under the updates before an abort; that an abort
does not depend on the value about to be stored; and that an instruction whose body aborts takes the trap. -/

namespace Sys2Proof.Machine

/-- An instruction whose body stops takes the trap at once, in the state it stopped in (R12, R635). -/
theorem exec_abort {i : Instr} {s u : State} {v : Word} (h : bodyOf i s = .error v u) :
    exec i s = .next (trapSeq v u) := by
  rw [exec_eq, runBody_error h]

/-! ### The frame of an abort -/

/-- Reads before an abort. -/
theorem ReadFrame.abort {T : Reg → Prop} {s t u : State} (h1 : ReadFrame T s t) (h2 : AbortFrame t u T) :
    AbortFrame s u T where
  regs := h1.regs.trans h2.regs h1.special.psw
  mem := h2.mem.trans h1.mem
  fpp := h2.fpp.trans h1.fpp
  psw := h2.psw.trans h1.psw
  special := { h1.special.trans h2.special with mmr0 := rfl, cpuErr := rfl }

theorem AbortFrame.mono {T U : Reg → Prop} {s t : State} (h : AbortFrame s t T) (hU : ∀ r, T r → U r) :
    AbortFrame s t U := { h with regs := h.regs.mono hU }

theorem AbortFrame.refl (s : State) (T : Reg → Prop) : AbortFrame s s T :=
  ⟨RegFrame.refl s T, rfl, rfl, rfl, { SpecialFrame.refl s with }⟩

/-- A stop that changed nothing but MMR0 or the CPU error register. -/
theorem AbortFrame.cause {s t : State} (T : Reg → Prop) (h : t = (s.setMmu { s.mmu with mmr0 := t.mmu.mmr0 }).setCtl
    { s.ctl with cpuErr := t.ctl.cpuErr }) : AbortFrame s t T := by
  rw [h]
  exact ⟨RegFrame.of_same T rfl rfl rfl, rfl, rfl, rfl, { SpecialFrame.refl s with }⟩

/-- An access that stores nothing, and its aborts. -/
theorem abort_access (T : Reg → Prop) : AccessRel (ReadFrame T) fun s t => AbortFrame s t T where
  toComposes := { (readFrame_access T).toComposes with
    transE := ReadFrame.abort
    raise := fun s => AbortFrame.refl s T }
  lastPage := (readFrame_access T).lastPage
  touch := (readFrame_access T).touch
  mmuTrap := (readFrame_access T).mmuTrap
  reply := (readFrame_access T).reply
  cpuError _ _ _ _ := AbortFrame.cause T rfl
  mmuAbort s anr apl aro := by
    rw [Mmu.recordAbort_eq]
    exact AbortFrame.cause T rfl

/-- Resolving operands whose registers are in `T`, and its aborts. -/
theorem abort_step (T : Reg → Prop) : StepRel (ReadFrame T) (fun s t => AbortFrame s t T) T where
  toAccessRel := abort_access T
  setPc := (readFrame_step T).setPc
  writeReg := (readFrame_step T).writeReg
  mmr1 := (readFrame_step T).mmr1
  yellow := (readFrame_step T).yellow
  red s hk hT := by
    refine ⟨⟨fun _ _ _ => rfl, fun m hn => ?_⟩, rfl, rfl, rfl, { SpecialFrame.refl s with }⟩
    rw [State.readSpm_writeSpm, if_neg fun e => hn ⟨e.trans hk.symm, hT⟩]
    rfl

section
variable {T : Reg → Prop} {s u : State} {v : Word}

theorem translate_abort {m : ProcMode} {va : VAddr} {acc : Access} {w : Width}
    (h : translate m va acc w s = .error v u) (T : Reg → Prop) : AbortFrame s u T :=
  (translate_post (abort_access T) m va acc w s).err h

theorem memReadM_abort {m : ProcMode} {va : VAddr} {w : Width} (h : memReadM m va w s = .error v u)
    (T : Reg → Prop) : AbortFrame s u T := (memReadM_post (abort_access T) m va w s).err h

theorem memRead_abort {va : VAddr} {w : Width} (h : memRead va w s = .error v u) (T : Reg → Prop) : AbortFrame s u T :=
  (memRead_post (abort_access T) va w s).err h

/-- A physical write that aborts stored nothing (R85, R183). -/
theorem physWrite_abort {pa : PAddr} {w : Width} {x : Word} (h : physWrite pa w x s = .error v u) (T : Reg → Prop) :
    AbortFrame s u T := by
  unfold physWrite at h
  rw [get_bind] at h
  split at h
  · exact (oddAddress_post (abort_access T) s).err h
  split at h
  · cases h
  split at h
  · cases hr : coreRegAt pa with
    | some r => rw [hr] at h; cases w <;> cases h
    | none =>
      rw [hr] at h
      rcases bind_eq_error h with h | ⟨a, t, -, h⟩
      · exact (busAccess_post (abort_access T) pa s).err h
      · cases h
  · exact (nonExistentMemory_post (abort_access T) s).err h

theorem memWriteM_abort {m : ProcMode} {va : VAddr} {w : Width} {x : Word} (h : memWriteM m va w x s = .error v u)
    (T : Reg → Prop) : AbortFrame s u T := by
  rcases bind_eq_error h with h | ⟨pa, t, h1, h⟩
  · exact translate_abort h T
  · refine (translate_frame h1 T).abort ?_
    rcases bind_eq_error h with h | ⟨_, _, -, h⟩
    · exact physWrite_abort h T
    · cases h

theorem memModify_abort {va : VAddr} {w : Width} {f : Word → Word} (h : memModify va w f s = .error v u)
    (T : Reg → Prop) : AbortFrame s u T := by
  unfold memModify at h
  rw [get_bind] at h
  rcases bind_eq_error h with h | ⟨pa, t, h1, h⟩
  · exact translate_abort h T
  · refine (translate_frame h1 T).abort ?_
    rcases bind_eq_error h with h | ⟨x, t2, h2, h⟩
    · exact (physRead_post (abort_access T) pa w t).err h
    · refine ReadFrame.abort ((physRead_post (readFrame_access T) pa w t).ok h2) ?_
      rcases bind_eq_error h with h | ⟨_, _, -, h⟩
      · exact physWrite_abort h T
      · cases h

theorem resolve_abort {sp : OpSpec} {n : Nat} {acc : Access} (h : resolve sp n acc s = .error v u)
    (hT : ∀ r, specSteps sp r → T r) : AbortFrame s u T :=
  (resolve_post (abort_step T) sp (fun hm => hT _ ⟨rfl, hm⟩) n acc s).err h

theorem resolvePlace_abort {sp : OpSpec} {w : Width} {acc : Access} (h : resolvePlace sp w acc s = .error v u)
    (hT : ∀ r, specSteps sp r → T r) : AbortFrame s u T :=
  (resolvePlace_post (abort_step T) sp (fun hm => hT _ ⟨rfl, hm⟩) w acc s).err h

/-- An operand that cannot be read leaves unchanged all but the register its mode steps (R183, R185). -/
theorem readOp_abort {sp : OpSpec} {w : Width} (h : readOp sp w s = .error v u) (hT : ∀ r, specSteps sp r → T r) :
    AbortFrame s u T := (readOp_post (abort_step T) sp (fun hm => hT _ ⟨rfl, hm⟩) w s).err h

/-- One that cannot be written, likewise: the destination is as it was (R183, R185). -/
theorem writeOp_abort {sp : OpSpec} {w : Width} {x : Word} (h : writeOp sp w x s = .error v u)
    (hT : ∀ r, specSteps sp r → T r) : AbortFrame s u T := by
  rcases bind_eq_error h with h | ⟨pl, t, h1, h⟩
  · exact resolvePlace_abort h hT
  · refine (resolvePlace_frame h1 T hT).abort ?_
    cases pl with
    | reg r => cases h
    | mem va => exact memWriteM_abort (m := t.cm) h T

/-- One that cannot be modified, likewise (R127, R183, R185). -/
theorem modifyOp_abort {sp : OpSpec} {w : Width} {f : Word → Word} (h : modifyOp sp w f s = .error v u)
    (hT : ∀ r, specSteps sp r → T r) : AbortFrame s u T := by
  rcases bind_eq_error h with h | ⟨pl, t, h1, h⟩
  · exact resolvePlace_abort h hT
  · refine (resolvePlace_frame h1 T hT).abort ?_
    cases pl with
    | reg r => cases h
    | mem va => exact memModify_abort h T

/-- A push that aborts stored nothing; the stack pointer has moved, or is 4 after a red zone (R184, R186). -/
theorem push_abort {x : Word} {c : Bool} (h : push x c s = .error v u) (hT : T .sp) : AbortFrame s u T := by
  unfold push at h
  rw [change_bind, get_bind] at h
  refine ReadFrame.abort (State.step_rel (readFrame_step T) s hT (-2)) ?_
  rcases bind_eq_error h with h | ⟨pa, t, h1, h⟩
  · exact translate_abort h T
  refine (translate_frame h1 T).abort ?_
  have store : ∀ {t : State}, (physWrite pa .word x >>= fun _ => pure (isPswAddr pa) : M Bool) t = .error v u →
      AbortFrame t u T := by
    intro t h
    rcases bind_eq_error h with h | ⟨_, _, -, h⟩
    · exact physWrite_abort h T
    · cases h
  cases c with
  | false => exact store h
  | true =>
    rcases bind_eq_error h with h | ⟨_, t2, h2, h⟩
    · exact (stackCheck_post (abort_step T) hT _ t).err h
    · exact ReadFrame.abort ((stackCheck_post (readFrame_step T) hT _ t).ok h2) (store h)

theorem pop_abort (h : pop s = .error v u) (hT : T .sp) : AbortFrame s u T := (pop_post (abort_step T) hT s).err h

/-! ### Floating and long operands -/

theorem resolveF_abort {sp : OpSpec} {p : Prec} {acc : Access} (h : resolveF sp p acc s = .error v u)
    (hT : ∀ r, specSteps sp r → T r) : AbortFrame s u T :=
  (resolveF_post (abort_step T) sp (fun hm => hT _ ⟨rfl, hm⟩) p acc s).err h

theorem resolveF_frame {sp : OpSpec} {p : Prec} {acc : Access} {t : State} {pl : Option FPlace}
    (h : resolveF sp p acc s = .ok pl t) (hT : ∀ r, specSteps sp r → T r) : ReadFrame T s t :=
  (resolveF_post (readFrame_step T) sp (fun hm => hT _ ⟨rfl, hm⟩) p acc s).ok h

theorem readF_abort {pl : FPlace} {p : Prec} {acc : Access} (h : readF pl p acc s = .error v u) (T : Reg → Prop) :
    AbortFrame s u T := (readF_post (abort_step T) pl p acc s).err h

theorem readF_frame {pl : FPlace} {p : Prec} {acc : Access} {t : State} {x : Accum} (h : readF pl p acc s = .ok x t)
    (T : Reg → Prop) : ReadFrame T s t := (readF_post (readFrame_step T) pl p acc s).ok h

theorem readInteger_abort {sp : OpSpec} {long : Bool} (h : readInteger sp long s = .error v u)
    (hT : ∀ r, specSteps sp r → T r) : AbortFrame s u T :=
  (readInteger_post (abort_step T) sp (fun hm => hT _ ⟨rfl, hm⟩) long s).err h

/-- An abort before any store is one inside any run of stores. -/
theorem AbortFrame.partialStore (h : AbortFrame s u T) (dst : List Nat) : PartialStore s u T dst :=
  ⟨h.regs, MemFrame.of_eq h.mem _ _, h.fpp, fun _ => ⟨h.psw, h.special⟩⟩

theorem ReadFrame.partialStore {t : State} {dst : List Nat} (h1 : ReadFrame T s t) (h2 : PartialStore t u T dst) :
    PartialStore s u T dst where
  regs := h1.regs.trans h2.regs h1.special.psw
  mem a ha := by rw [h2.mem a ha, h1.mem]
  fpp := h2.fpp.trans h1.fpp
  main hm := by
    obtain ⟨a, b⟩ := h2.main fun x hx => by rw [h1.special.params]; exact hm x hx
    exact ⟨a.trans h1.psw, { h1.special.trans b with mmr0 := rfl, cpuErr := rfl }⟩

theorem PartialStore.mono {U : Reg → Prop} {dst : List Nat} (h : PartialStore s u T dst) (hU : ∀ r, T r → U r) :
    PartialStore s u U dst := { h with regs := h.regs.mono hU }

/-- A store before the rest of a run. -/
theorem StoreFrame.partialStore {t : State} {a : Nat} {dst : List Nat} (h1 : StoreFrame [a] 2 s t)
    (h2 : PartialStore t u (fun _ => False) dst) : PartialStore s u (fun _ => False) (a :: dst) where
  regs := ⟨fun rs i _ => (h2.regs.1 rs i fun h => h.2).trans ((h1.regs fun _ => False).1 rs i fun h => h.2),
    fun m _ => (h2.regs.2 m fun h => h.2).trans ((h1.regs fun _ => False).2 m fun h => h.2)⟩
  mem b hb := by
    rw [h2.mem b fun x hx => hb x (List.mem_cons_of_mem _ hx), h1.mem b fun x hx => ?_]
    rw [List.mem_singleton.1 hx]
    exact hb a (List.mem_cons_self ..)
  fpp := h2.fpp.trans h1.fpp
  main hm := by
    have ha : InMain s [a] := fun x hx => by
      rw [List.mem_singleton.1 hx]
      exact hm a (List.mem_cons_self ..)
    obtain ⟨b, c⟩ := h2.main fun x hx => by rw [h1.params]; exact hm x (List.mem_cons_of_mem _ hx)
    have e := h1.main ha
    exact ⟨b.trans (by rw [e]; rfl), { (h1.special ha).trans c with mmr0 := rfl, cpuErr := rfl }⟩

/-- An abort inside a run of word stores (R472). -/
theorem writeWordsAt_abort {va : VAddr} {ws : List Word} (h : writeWordsAt va ws s = .error v u)
    (hw : Memory.wf s.mem = true) : PartialStore s u (fun _ => False) (wordAddresses va s ws) := by
  induction ws generalizing va s with
  | nil => cases h
  | cons x ws ih =>
    unfold writeWordsAt at h
    rcases bind_eq_error h with h | ⟨p, t, h1, h⟩
    · exact (memWriteM_abort (m := s.cm) h _).partialStore _
    have h1 : memWriteM s.cm va .word x s = .ok p t := h1
    obtain ⟨pa, s1, h2, h3⟩ := bind_eq_ok h1
    obtain ⟨_, s2, h3, h4⟩ := bind_eq_ok h3
    have e : t = s2 := by
      have e : (EStateM.Result.ok (isPswAddr pa) s2 : EStateM.Result Word State Bool) = .ok p t := h4
      injection e with _ e
      exact e.symm
    subst e
    have f1 := translate_frame h2 (fun _ => False)
    have f2 := physWrite_frame h3 (by rw [f1.mem]; exact hw)
    have e : wordAddresses va s (x :: ws) = pa.toNat :: wordAddresses (va.plus 2) t ws := by
      simp only [wordAddresses, h2, h3]
    rw [e]
    exact f1.partialStore (f2.partialStore (ih h f2.wf))

/-- A floating destination whose store aborts (R472). -/
theorem writeF_abort {pl : FPlace} {p : Prec} {x : Accum} (h : writeF pl p x s = .error v u)
    (hw : Memory.wf s.mem = true) : PartialStore s u (fun _ => False) (placeAddresses pl p x s) := by
  cases pl with
  | ac i => cases h
  | imm a =>
    rcases bind_eq_error h with h | ⟨_, _, -, h⟩
    · exact (memWriteM_abort (m := s.cm) h _).partialStore _
    · cases h
  | mem va => exact writeWordsAt_abort h hw

/-! ### An abort does not depend on the value about to be stored -/

theorem physWrite_any_error {pa : PAddr} {w : Width} {x : Word} (h : physWrite pa w x s = .error v u) (y : Word) :
    physWrite pa w y s = .error v u := by
  unfold physWrite at h ⊢
  rw [get_bind] at h ⊢
  split at h
  · rw [if_pos ‹_›]; exact h
  rw [if_neg ‹_›]
  split at h
  · cases h
  rw [if_neg ‹_›]
  split at h
  · rw [if_pos ‹_›]
    cases hr : coreRegAt pa with
    | some r => rw [hr] at h; cases w <;> cases h
    | none => rw [hr] at h; exact h
  · rw [if_neg ‹_›]; exact h

/-- The first part aborts alike, or the rest does in the same state. -/
theorem bind_any_error {α β : Type} {m : M α} {k l : α → M β} (h : (m >>= k) s = .error v u)
    (hk : ∀ a t, k a t = .error v u → l a t = .error v u) : (m >>= l) s = .error v u := by
  rcases bind_eq_error h with h | ⟨a, t, h1, h2⟩
  · exact bind_error h
  · rw [bind_ok h1]; exact hk a t h2

theorem memWriteM_any_error {m : ProcMode} {va : VAddr} {w : Width} {x : Word} (h : memWriteM m va w x s = .error v u)
    (y : Word) : memWriteM m va w y s = .error v u :=
  bind_any_error h fun _ _ h => bind_error (by
    rcases bind_eq_error h with h | ⟨_, _, -, h⟩
    · exact physWrite_any_error h y
    · cases h)

theorem writeOp_any_error {sp : OpSpec} {w : Width} {x : Word} (h : writeOp sp w x s = .error v u) (y : Word) :
    writeOp sp w y s = .error v u :=
  bind_any_error h fun pl t h => by
    cases pl with
    | reg r => cases h
    | mem va => exact memWriteM_any_error (m := t.cm) h y

theorem modifyPlace_any_error {pl : Place} {w : Width} {f : Word → Word} (h : modifyPlace pl w f s = .error v u)
    (g : Word → Word) : modifyPlace pl w g s = .error v u := by
  cases pl with
  | reg r => cases h
  | mem va =>
    exact bind_any_error h fun _ _ h => bind_any_error h fun _ _ h => bind_any_error h fun _ _ h => bind_error (by
      rcases bind_eq_error h with h | ⟨_, _, -, h⟩
      · exact physWrite_any_error h _
      · cases h)

theorem modifyOp_any_error {sp : OpSpec} {w : Width} {f : Word → Word} (h : modifyOp sp w f s = .error v u)
    (g : Word → Word) : modifyOp sp w g s = .error v u := bind_any_error h fun _ _ h => modifyPlace_any_error h g

end

end Sys2Proof.Machine
end

