-- ==== Sys2Proof/Laws/Devices.lean ====
section
/-! SUPPORT. The registered devices: nothing changes their ranges, the constraints on them depend on the ranges alone, and
at most one of them contains an address. -/

namespace Sys2Proof.Machine

theorem updateDeviceAt_range (pa : PAddr) (f : Option IrqRequest → Option IrqRequest) (ds : List Device) :
    (updateDeviceAt pa f ds).map Device.range = ds.map Device.range := by
  induction ds with
  | nil => rfl
  | cons d ds ih =>
    unfold updateDeviceAt
    split
    · rfl
    · rw [List.map_cons, ih, List.map_cons]

/-- An access changes the request of the device it reaches and touches no other (R96, R98). -/
theorem updateDeviceAt_mid {pa : PAddr} (f : Option IrqRequest → Option IrqRequest) {pre : List Device} {d : Device}
    (post : List Device) (hd : d.contains pa = true) (hp : ∀ e ∈ pre, e.contains pa = false) :
    updateDeviceAt pa f (pre ++ d :: post) = pre ++ { d with request := f d.request } :: post := by
  induction pre with
  | nil => simp [updateDeviceAt, hd]
  | cons e es ih =>
    rw [List.cons_append, updateDeviceAt, hp e (by simp), ih fun x hx => hp x (by simp [hx])]
    rfl

theorem resetDevices_range (ds : List Device) : (resetDevices ds).map Device.range = ds.map Device.range := by
  rw [resetDevices, List.map_map]
  rfl

theorem setRequest_range (ds : List Device) (k : Nat) (r : Option IrqRequest) :
    (setRequest ds k r).map Device.range = ds.map Device.range := by
  unfold setRequest
  induction ds generalizing k with
  | nil => simp
  | cons d ds ih =>
    cases k with
    | zero => rfl
    | succ k => rw [List.modify_succ_cons, List.map_cons, ih, List.map_cons]

/-- The constraints on devices are constraints on their ranges (R8). -/
theorem devicesWf_congr {ds es : List Device} (h : es.map Device.range = ds.map Device.range) :
    devicesWf es = devicesWf ds := by
  induction ds generalizing es with
  | nil => rw [List.map_nil, List.map_eq_nil_iff] at h; rw [h]
  | cons d ds ih =>
    cases es with
    | nil => cases h
    | cons e es =>
      rw [List.map_cons, List.map_cons, List.cons.injEq] at h
      obtain ⟨h1, h2⟩ := h
      have hb : e.base = d.base := congrArg Prod.fst h1
      have hs : e.size = d.size := congrArg Prod.snd h1
      have hall : ∀ l : List Device, l.all (devicesDisjoint e) =
          (l.map Device.range).all fun r => decide (e.base + e.size ≤ r.1) || decide (r.1 + r.2 ≤ e.base) := fun l => by
        rw [List.all_map]
        rfl
      have hall' : ∀ l : List Device, l.all (devicesDisjoint d) =
          (l.map Device.range).all fun r => decide (d.base + d.size ≤ r.1) || decide (r.1 + r.2 ≤ d.base) := fun l => by
        rw [List.all_map]
        rfl
      simp only [devicesWf, ih h2, hall, hall', h2, deviceWf, hb, hs]

/-- At most one registered device contains an address (R8, R98). -/
theorem devicesWf_unique {ds : List Device} (h : devicesWf ds = true) {i j : Nat} {d e : Device} {pa : PAddr}
    (hi : ds[i]? = some d) (hj : ds[j]? = some e) (hd : d.contains pa = true) (he : e.contains pa = true) : i = j := by
  have apart : ∀ {d e : Device}, devicesDisjoint d e = true → d.contains pa = true → e.contains pa = true → False := by
    intro d e h1 h2 h3
    simp only [devicesDisjoint, Device.contains, Bool.or_eq_true, Bool.and_eq_true, decide_eq_true_eq] at h1 h2 h3
    omega
  induction ds generalizing i j with
  | nil => simp at hi
  | cons a ds ih =>
    simp only [devicesWf, Bool.and_eq_true, List.all_eq_true] at h
    obtain ⟨⟨-, h1⟩, h2⟩ := h
    cases i with
    | zero =>
      cases j with
      | zero => rfl
      | succ j =>
        simp only [List.getElem?_cons_zero, Option.some.injEq, List.getElem?_cons_succ] at hi hj
        subst hi
        exact (apart (h1 e (List.mem_of_getElem? hj)) hd he).elim
    | succ i =>
      cases j with
      | zero =>
        simp only [List.getElem?_cons_zero, Option.some.injEq, List.getElem?_cons_succ] at hi hj
        subst hj
        exact (apart (h1 d (List.mem_of_getElem? hi)) he hd).elim
      | succ j =>
        simp only [List.getElem?_cons_succ] at hi hj
        rw [ih h2 hi hj]

end Sys2Proof.Machine
end

