-- ==== Sys2Proof/Laws/Words.lean ====
section
/-! SUPPORT. The operands of the coprocessor word by word: translation does not look at memory, and what reading and
storing words at addresses in main memory gives. -/

namespace Sys2Proof.Machine

/-! ### Translation does not look at memory -/

/-- An operation that neither reads nor changes main memory: on another memory it does the same. -/
def MemFree {α : Type} (m : M α) : Prop :=
  ∀ s x, m (s.setMem x) =
    match m s with
    | .ok a t => .ok a (t.setMem x)
    | .error v t => .error v (t.setMem x)

section
variable {α β : Type} {m : M α} {k : α → M β}

theorem MemFree.pure (a : α) : MemFree (pure a : M α) := fun _ _ => rfl

theorem MemFree.change {f : State → State} (h : ∀ s x, f (s.setMem x) = (f s).setMem x) : MemFree (change f) :=
  fun s x => congrArg (EStateM.Result.ok ()) (h s x)

theorem MemFree.abortWith {f : State → State} {v : Word} (h : ∀ s x, f (s.setMem x) = (f s).setMem x) :
    MemFree (abortWith v f : M α) := fun s x => congrArg (EStateM.Result.error v) (h s x)

theorem MemFree.bind (hm : MemFree m) (hk : ∀ a, MemFree (k a)) : MemFree (m >>= k) := by
  intro s x
  have h := hm s x
  cases e : m s with
  | ok a t => rw [e] at h; rw [bind_ok h, bind_ok e]; exact hk a t x
  | error v t => rw [e] at h; rw [bind_error h, bind_error e]

theorem MemFree.get_bind {k : State → M β} (h : ∀ s x, k (s.setMem x) = k s) (hk : ∀ s, MemFree (k s)) :
    MemFree (get >>= k) := by
  intro s x
  show k (s.setMem x) (s.setMem x) = match k s s with
    | .ok a t => .ok a (t.setMem x)
    | .error v t => .error v (t.setMem x)
  rw [h]
  exact hk s s x

theorem MemFree.ite {p : Prop} [Decidable p] {m n : M α} (hm : MemFree m) (hn : MemFree n) :
    MemFree (if p then m else n) := by
  split
  · exact hm
  · exact hn

end

theorem setLastPage_memFree (v : BitVec 6) : MemFree (setLastPage v) := .change fun _ _ => rfl

theorem directMap_memFree (va : VAddr) (w : Width) : MemFree (directMap va w) :=
  (setLastPage_memFree 0).bind fun _ => .ite (.abortWith fun _ _ => rfl) (.pure _)

theorem busAddress_memFree (m : ProcMode) (p : Fin 16) (pa : PAddr) (w : Width) : MemFree (busAddress m p pa w) := by
  refine .get_bind (fun _ _ => rfl) fun s => .ite (.ite (.abortWith fun _ _ => rfl) ?_)
    (.ite (.ite (.ite (.abortWith fun _ _ => rfl) (.ite ?_ ?_)) (.abortWith fun _ _ => rfl)) (.ite ?_ ?_))
  all_goals
    first
    | exact (setLastPage_memFree _).bind fun _ => .pure _
    | exact (MemFree.pure ()).bind fun _ => .pure _

theorem State.requestMmuTrap_setMem (s : State) (x : Memory) :
    (s.setMem x).requestMmuTrap = s.requestMmuTrap.setMem x := by
  show (if (mmr0Frozen s.mmu.mmr0 || mmr0Trp s.mmu.mmr0) = true then s.setMem x else
    if mmr0Ent s.mmu.mmr0 then _ else _) = State.setMem (if _ then _ else if _ then _ else _) x
  split
  · rfl
  · split <;> rfl

theorem checkPage_memFree (m : ProcMode) (p : Fin 16) (a : Word) (acc : Access) : MemFree (checkPage m p a acc) :=
  .get_bind (fun _ _ => rfl) fun _ =>
    (MemFree.change fun _ _ => rfl).bind fun _ =>
      .ite (.abortWith fun _ _ => rfl) (.ite (.change State.requestMmuTrap_setMem) (.pure _))

/-- Translation neither reads nor changes main memory (R89). -/
theorem translate_memFree (m : ProcMode) (va : VAddr) (acc : Access) (w : Width) : MemFree (translate m va acc w) :=
  .get_bind (fun _ _ => rfl) fun _ =>
    .ite (.get_bind (fun _ _ => rfl) fun _ => (busAddress_memFree _ _ _ _).bind fun _ =>
      (checkPage_memFree _ _ _ _).bind fun _ => .pure _) (directMap_memFree _ _)

theorem translate_setMem {m : ProcMode} {va : VAddr} {acc : Access} {w : Width} {s t : State} {pa : PAddr}
    (h : translate m va acc w s = .ok pa t) (x : Memory) :
    translate m va acc w (s.setMem x) = .ok pa (t.setMem x) := by
  rw [translate_memFree m va acc w s x, h]

/-! ### Words in main memory -/

theorem physRead_main {pa : PAddr} {w : Width} {s : State} (h : pa.toNat < s.params.memCeiling)
    (he : w = .word → pa.getLsbD 0 = false) : physRead pa w s = .ok (readMain s.mem pa w) s := by
  have ho : s.oddRefused pa w = false := by
    rw [State.oddRefused_main h]
    cases w
    · rfl
    · rw [he rfl]; rfl
  unfold physRead
  rw [get_bind, ho]
  simp only [Bool.false_eq_true, if_false, h, if_true]
  rfl

theorem physWrite_main {pa : PAddr} {w : Width} {v : Word} {s : State} (h : pa.toNat < s.params.memCeiling)
    (he : w = .word → pa.getLsbD 0 = false) : physWrite pa w v s = .ok () (s.setMem (writeMain s.mem pa w v)) := by
  have ho : s.oddRefused pa w = false := by
    rw [State.oddRefused_main h]
    cases w
    · rfl
    · rw [he rfl]; rfl
  unfold physWrite
  rw [get_bind, ho]
  simp only [Bool.false_eq_true, if_false, h, if_true]
  rfl

/-- The words of an operand read in order, where they lie in main memory (R471). -/
theorem readWordsAs_run {acc : Access} {va : VAddr} {s t : State} {pas : List PAddr} (h : wordsAt acc va s pas t) :
    readWordsAs acc va pas.length s = .ok (pas.map fun pa => Memory.readWord s.mem pa.toNat) t ∧ t.mem = s.mem := by
  induction pas generalizing va s with
  | nil => cases h; exact ⟨rfl, rfl⟩
  | cons pa pas ih =>
    obtain ⟨hm, he, u, ht, hr⟩ := h
    have f := translate_frame ht (fun _ => False)
    have hp : physRead pa .word u = .ok (readMain u.mem pa .word) u :=
      physRead_main (by rw [f.special.params]; exact hm) fun _ => he
    have h1 : readWordAs acc va s = .ok (Memory.readWord s.mem pa.toNat) u := by
      unfold readWordAs
      rw [get_bind, bind_ok ht, hp, f.mem]
      rfl
    obtain ⟨h2, h3⟩ := ih hr
    refine ⟨?_, h3.trans f.mem⟩
    rw [List.length_cons, readWordsAs, bind_ok h1]
    show ((readWordsAs acc ⟨va.space, va.addr + 2⟩ pas.length) >>= fun ws => pure (Memory.readWord s.mem pa.toNat :: ws) :
      M (List Word)) u = _
    rw [bind_ok h2, f.mem]
    rfl

/-- A word stored in main memory, the address translated in a state that differs in memory only. -/
theorem memWrite_run {va : VAddr} {v : Word} {s u : State} {pa : PAddr} {x : Memory} (hw : s.params.wf = true)
    (hm : pa.toNat < s.params.memCeiling) (he : pa.getLsbD 0 = false) (ht : translate s.cm va .write .word s = .ok pa u) :
    memWrite va .word v (s.setMem x) = .ok false (u.setMem (Memory.writeWord x pa.toNat v)) := by
  have f := translate_frame ht (fun _ => False)
  have hp : physWrite pa .word v (u.setMem x) = .ok () ((u.setMem x).setMem (writeMain x pa .word v)) :=
    physWrite_main (s := u.setMem x) (by show pa.toNat < u.params.memCeiling; rw [f.special.params]; exact hm) fun _ => he
  have hpsw : isPswAddr pa = false := by
    have := params_ceiling_le hw
    simp only [isPswAddr]
    simp
    constructor <;> (intro e; subst e; simp at hm; omega)
  unfold memWrite memWriteM
  rw [get_bind]
  show (translate s.cm va .write .word >>= fun pa => physWrite pa .word v >>= fun _ => pure (isPswAddr pa) : M Bool)
    (s.setMem x) = _
  rw [bind_ok (translate_setMem ht x), bind_ok hp, hpsw]
  rfl

/-- The memory once words have been stored in order. -/
def storeWords (m : Memory) : List PAddr → List Word → Memory
  | pa :: pas, w :: ws => storeWords (Memory.writeWord m pa.toNat w) pas ws
  | _, _ => m

/-- The words of an operand stored in order, where they lie in main memory (R472). -/
theorem writeWordsAt_run {va : VAddr} {s t : State} {pas : List PAddr} {ws : List Word} {x : Memory}
    (h : wordsAt .write va s pas t) (hl : pas.length = ws.length) (hw : s.params.wf = true) :
    writeWordsAt va ws (s.setMem x) = .ok () (t.setMem (storeWords x pas ws)) := by
  induction pas generalizing va s ws x with
  | nil =>
    cases ws with
    | nil => cases h; rfl
    | cons w ws => cases hl
  | cons pa pas ih =>
    cases ws with
    | nil => cases hl
    | cons w ws =>
      obtain ⟨hm, he, u, ht, hr⟩ := h
      have f := translate_frame ht (fun _ => False)
      unfold writeWordsAt
      rw [bind_ok (memWrite_run hw hm he ht)]
      exact ih hr (by simpa using hl) (by rw [f.special.params]; exact hw)

theorem wordsAt_even {acc : Access} {va : VAddr} {s t : State} {pas : List PAddr} (h : wordsAt acc va s pas t) :
    ∀ pa ∈ pas, pa.getLsbD 0 = false := by
  induction pas generalizing va s with
  | nil => intro pa hp; cases hp
  | cons a pas ih =>
    obtain ⟨-, he, u, -, hr⟩ := h
    intro pa hp
    rcases List.mem_cons.1 hp with rfl | hp
    · exact he
    · exact ih hr pa hp

theorem even_toNat {pa : PAddr} (h : pa.getLsbD 0 = false) : pa.toNat % 2 = 0 := by
  simp only [BitVec.getLsbD, Nat.testBit_zero, decide_eq_false_iff_not] at h
  omega

/-- Storing words in order changes the words stored, and leaves each one unless a later one is stored over it. -/
theorem storeWords_spec {m : Memory} {pas : List PAddr} {ws : List Word} (hw : Memory.wf m = true)
    (he : ∀ pa ∈ pas, pa.getLsbD 0 = false) (hl : pas.length = ws.length) :
    wordsStored (storeWords m pas ws) pas ws ∧
      ∀ a, (∀ b ∈ pas.map BitVec.toNat, a < b ∨ b + 2 ≤ a) → Memory.read (storeWords m pas ws) a = Memory.read m a := by
  induction pas generalizing m ws with
  | nil => cases ws <;> exact ⟨trivial, fun _ _ => rfl⟩
  | cons pa pas ih =>
    cases ws with
    | nil => cases hl
    | cons w ws =>
      obtain ⟨h1, h2⟩ := ih (Memory.wf_writeWord pa.toNat w hw) (fun b hb => he b (List.mem_cons_of_mem _ hb))
        (by simpa using hl)
      have e := even_toNat (he pa (List.mem_cons_self ..))
      refine ⟨⟨fun hn => ?_, h1⟩, fun a ha => ?_⟩
      · have keep : ∀ a, a = pa.toNat ∨ a = pa.toNat + 1 → Memory.read (storeWords m (pa :: pas) (w :: ws)) a =
            Memory.read (Memory.writeWord m pa.toNat w) a := by
          intro a ha
          apply h2
          intro b hb
          obtain ⟨q, hq, rfl⟩ := List.mem_map.1 hb
          have eq := even_toNat (he q (List.mem_cons_of_mem _ hq))
          have ne : q.toNat ≠ pa.toNat := fun h => hn (by rw [← BitVec.eq_of_toNat_eq h]; exact hq)
          omega
        unfold Memory.readWord
        rw [keep _ (.inr rfl), keep _ (.inl rfl)]
        exact Memory.readWord_writeWord pa.toNat w hw
      · have := h2 a fun b hb => ha b (List.mem_cons_of_mem _ hb)
        have hp := ha pa.toNat (List.mem_cons_self ..)
        show Memory.read (storeWords (Memory.writeWord m pa.toNat w) pas ws) a = _
        rw [this, Memory.read_writeWord _ _ _ hw, if_neg (by omega), if_neg (by omega)]

/-- Storing the words of an operand in main memory, all at once (R472). -/
theorem writeWordsAt_spec {va : VAddr} {s t : State} {pas : List PAddr} {ws : List Word}
    (h : wordsAt .write va s pas t) (hl : pas.length = ws.length) (hw : s.params.wf = true)
    (hm : Memory.wf s.mem = true) :
    ∃ m, writeWordsAt va ws s = .ok () (t.setMem m) ∧ MemFrame s (t.setMem m) (pas.map BitVec.toNat) 2 ∧
      wordsStored m pas ws := by
  obtain ⟨h1, h2⟩ := storeWords_spec hm (wordsAt_even h) hl
  exact ⟨_, writeWordsAt_run (x := s.mem) h hl hw, h2, h1⟩

theorem long_high (v : Int) : (BitVec.ofInt 32 v).extractLsb' 16 16 = BitVec.ofInt 16 (v / 2 ^ 16) := by
  apply BitVec.eq_of_toNat_eq
  simp only [BitVec.extractLsb'_toNat, BitVec.toNat_ofInt, Nat.shiftRight_eq_div_pow]
  omega

theorem long_low (v : Int) : (BitVec.ofInt 32 v).extractLsb' 0 16 = BitVec.ofInt 16 v := by
  apply BitVec.eq_of_toNat_eq
  simp only [BitVec.extractLsb'_toNat, BitVec.toNat_ofInt, Nat.shiftRight_eq_div_pow]
  omega

/-- A long integer from its halves, high half first (R473). -/
theorem long_toInt (h l : Word) : (h ++ l).toInt = 2 ^ 16 * h.toInt + l.toNat := by
  rw [BitVec.toInt_eq_toNat_cond, BitVec.toInt_eq_toNat_cond, BitVec.toNat_append,
    ← Nat.shiftLeft_add_eq_or_of_lt l.isLt, Nat.shiftLeft_eq]
  have := h.isLt
  have := l.isLt
  split_ifs <;> push_cast <;> omega

/-- A word read from main memory. -/
theorem memRead_run {va : VAddr} {s t : State} {a : PAddr} (h : wordsAt .read va s [a] t) :
    memRead va .word s = .ok (Memory.readWord s.mem a.toNat) t := by
  obtain ⟨h1, h2, u, h3, rfl⟩ := h
  unfold memRead memReadM
  have f := translate_frame h3 (fun _ => False)
  rw [get_bind, bind_ok h3, physRead_main (by rw [f.special.params]; exact h1) fun _ => h2, f.mem]
  rfl

/-! ### Pushing -/

theorem sub_two (x : Word) : x + BitVec.ofInt 16 (-2) = x - 2 := by
  rw [show BitVec.ofInt 16 (-2) = -(2 : BitVec 16) from by decide, ← BitVec.sub_eq_add_neg]

/-- A stack check that does not abort changes nothing a push looks at (R184). -/
theorem stackCheck_same {a : Word} {s t : State} (h : stackCheck a s = .ok () t) :
    t.mem = s.mem ∧ t.readReg .sp = s.readReg .sp ∧ t.psw = s.psw ∧ t.pc = s.pc ∧ t.params = s.params := by
  unfold stackCheck at h
  rw [get_bind] at h
  split at h
  · split at h
    · cases h
    · cases h; exact ⟨rfl, rfl, rfl, rfl, rfl⟩
  · cases h; exact ⟨rfl, rfl, rfl, rfl, rfl⟩

/-- A push whose address is translated: the check of the new stack pointer unless told not to, then the store (R186). -/
theorem push_translated {v : Word} {b : Bool} {s s2 : State} {pa : PAddr}
    (h : translate s.cm (inD (s.readReg .sp - 2)) .write .word (s.step .sp (-2)) = .ok pa s2) :
    push v b s = ((if b then stackCheck (s.readReg .sp - 2) else pure ()) >>= fun _ =>
      physWrite pa .word v >>= fun _ => pure (isPswAddr pa) : M Bool) s2 := by
  have st := State.step_steppedBy s .sp (-2)
  unfold push
  rw [change_bind, get_bind, st.reg, sub_two]
  rw [show (s.step .sp (-2)).cm = s.cm from congrArg pswCm st.psw, bind_ok h]
  cases b <;> rfl

/-- One whose address is not leaves the stack pointer where it moved it (R186). -/
theorem push_untranslated {v e : Word} {b : Bool} {s t : State}
    (h : translate s.cm (inD (s.readReg .sp - 2)) .write .word (s.step .sp (-2)) = .error e t) :
    push v b s = .error e t := by
  have st := State.step_steppedBy s .sp (-2)
  unfold push
  rw [change_bind, get_bind, st.reg, sub_two]
  rw [show (s.step .sp (-2)).cm = s.cm from congrArg pswCm st.psw, bind_error h]

/-- A push in main memory: the stack pointer 2 lower, the word stored there, nothing else changed that is named here
(R186). -/
theorem push_stored {v : Word} {s t : State} {p : Bool} {a : Nat} (h : push v true s = .ok p t)
    (ha : pushAddress s = [a]) (hm : a < s.params.memCeiling) (hw : Memory.wf s.mem = true) :
    t.readReg .sp = s.readReg .sp - 2 ∧ Memory.readWord t.mem a = v ∧ t.psw = s.psw ∧
      t.pc = s.pc ∧ t.mem = Memory.writeWord s.mem a v := by
  unfold push at h
  rw [change_bind, get_bind] at h
  obtain ⟨pa, s1, h1, h2⟩ := bind_eq_ok h
  have e : pa.toNat = a := by
    have : pushAddress s = [pa.toNat] := by simp only [pushAddress, h1]
    rw [this] at ha; simpa using ha
  subst e
  have f1 := translate_frame h1 (fun _ => False)
  have st := State.step_steppedBy s .sp (-2)
  simp only [if_true] at h2
  obtain ⟨⟨⟩, s2, h3, h4⟩ := bind_eq_ok h2
  obtain ⟨c1, c2, c3, c4, c5⟩ := stackCheck_same h3
  obtain ⟨⟨⟩, s3, h5, h6⟩ := bind_eq_ok h4
  have hs : s3 = t := by cases h6; rfl
  subst hs
  have hpar : s2.params = s.params := by rw [c5, f1.special.params, st.special.params]
  have hodd : pa.getLsbD 0 = false := by
    by_contra hc
    rw [Bool.not_eq_false] at hc
    unfold physWrite at h5
    rw [get_bind] at h5
    rw [if_pos (by rw [State.oddRefused_main (by rw [hpar]; exact hm)]; simp [isOddWord, hc])] at h5
    cases h5
  rw [physWrite_main (by rw [hpar]; exact hm) fun _ => hodd] at h5
  cases h5
  have hmem : s2.mem = s.mem := by rw [c1, f1.mem, st.mem]
  have e1 : s1.readReg .sp = (s.step .sp (-2)).readReg .sp := by
    have := f1.regs.2 (s.step .sp (-2)).cm (fun h => h.2)
    unfold State.readReg
    simp only
    have hc : s1.cm = (s.step .sp (-2)).cm := by unfold State.cm; rw [f1.psw]
    rw [hc]; exact this
  refine ⟨?_, ?_, ?_, ?_, ?_⟩
  · show s2.readReg .sp = _
    rw [c2, e1, st.reg, sub_two]
  · show Memory.readWord (writeMain s2.mem pa .word v) _ = _
    rw [hmem]; exact Memory.readWord_writeWord _ _ hw
  · show s2.psw = _
    rw [c3, f1.psw, st.psw]
  · show s2.pc = _
    rw [c4, (translate_post pcSame_access _ _ _ _ _).ok h1, st.pc (by decide)]
  · show writeMain s2.mem pa .word v = _
    rw [hmem]; rfl

/-- A push keeps the PC, wherever it stores (R186). -/
theorem push_pc {v : Word} {s t : State} {p : Bool} (h : push v true s = .ok p t) : t.pc = s.pc := by
  unfold push at h
  rw [change_bind, get_bind] at h
  obtain ⟨pa, s1, h1, h2⟩ := bind_eq_ok h
  have st := State.step_steppedBy s .sp (-2)
  simp only [if_true] at h2
  obtain ⟨⟨⟩, s2, h3, h4⟩ := bind_eq_ok h2
  obtain ⟨c1, c2, c3, c4, c5⟩ := stackCheck_same h3
  obtain ⟨⟨⟩, s3, h5, h6⟩ := bind_eq_ok h4
  have hs : s3 = t := by cases h6; rfl
  subst hs
  rw [(physWrite_post pcSame_store _ _ _ _).ok h5, c4, (translate_post pcSame_access _ _ _ _ _).ok h1, st.pc (by decide)]

/-! ### Relocation off -/

/-- The state after a translation with relocation off (R90). -/
def State.directAfter (s : State) : State := s.onMmu fun u => { u with lastPage := 0 }

theorem translate_direct {m : ProcMode} {va : VAddr} {acc : Access} {s : State} (hu : s.unmapped)
    (he : va.addr.getLsbD 0 = false) : translate m va acc .word s = .ok (directAddress va.addr) s.directAfter := by
  unfold translate
  rw [get_bind, if_neg (by unfold mmuEnabled; rw [hu.1, hu.2]; simp)]
  unfold directMap setLastPage
  rw [change_bind, if_neg (by show ¬ (isOddWord .word (va.addr.getLsbD 0) = true); rw [he]; decide)]
  rfl

theorem directAddress_toNat {a : Word} (h : a.toNat < 0o160000) : (directAddress a).toNat = a.toNat := by
  unfold directAddress; rw [if_neg (by omega)]; simp; omega

theorem directAddress_even {a : Word} (h : a.toNat < 0o160000) (h0 : a.getLsbD 0 = false) :
    (directAddress a).getLsbD 0 = false := by
  have := directAddress_toNat h
  simp only [BitVec.getLsbD, Nat.testBit_zero, decide_eq_false_iff_not] at h0 ⊢
  omega

/-- A word read from main memory with relocation off (R90, R125). -/
theorem memReadM_direct {m : ProcMode} {a : Word} {s : State} (hu : s.unmapped) (he : a.getLsbD 0 = false)
    (h1 : a.toNat < s.params.memCeiling) (h2 : a.toNat < 0o160000) :
    memReadM m (inD a) .word s = .ok (Memory.readWord s.mem a.toNat) s.directAfter := by
  unfold memReadM
  rw [bind_ok (show translate m (inD a) .read .word s = .ok (directAddress a) s.directAfter from translate_direct hu he),
    physRead_main (by rw [directAddress_toNat h2]; exact h1) fun _ => directAddress_even h2 he]
  show EStateM.Result.ok (Memory.readWord _ (directAddress a).toNat) _ = _
  rw [directAddress_toNat h2]
  rfl

/-- The state after a push with relocation off (R186). -/
def State.pushed (s : State) (v : Word) : State :=
  (s.step .sp (-2)).directAfter.setMem (Memory.writeWord s.mem (s.readReg .sp - 2).toNat v)

theorem State.unmapped_step {s : State} (hu : s.unmapped) (r : Reg) (d : Int) : (s.step r d).unmapped := by
  obtain ⟨w, hw, he⟩ := State.step_eq s r d
  unfold State.unmapped
  rw [he]
  show mmr0Enb w.mmr0 = false ∧ mmr0Mnt w.mmr0 = false
  rw [hw]
  exact hu

/-- With relocation off, a push to an even address of main memory completes, above the stack limit where that is checked
in kernel mode (R184, R186, R607). -/
theorem push_direct (v : Word) (b : Bool) (s : State) (hu : s.unmapped)
    (h0 : (s.readReg .sp - 2).getLsbD 0 = false)
    (h1 : (s.readReg .sp - 2).toNat < s.params.memCeiling) (h2 : (s.readReg .sp - 2).toNat < 0o160000)
    (h3 : b = true → s.cm = .kernel → effectiveLimit s.ctl.slr < (s.readReg .sp - 2).toNat) :
    ∃ p, push v b s = .ok p (s.pushed v) := by
  have st := State.step_steppedBy s .sp (-2)
  have hsp : (s.step .sp (-2)).readReg .sp = s.readReg .sp - 2 := by rw [st.reg, sub_two]
  have htr : translate (s.step .sp (-2)).cm (inD (s.readReg .sp - 2)) .write .word (s.step .sp (-2)) =
      .ok (directAddress (s.readReg .sp - 2)) (s.step .sp (-2)).directAfter :=
    translate_direct (State.unmapped_step hu _ _) h0
  have hpw : physWrite (directAddress (s.readReg .sp - 2)) .word v (s.step .sp (-2)).directAfter = .ok () (s.pushed v) := by
    rw [physWrite_main (by rw [directAddress_toNat h2]; exact st.special.params ▸ h1) fun _ => directAddress_even h2 h0]
    unfold State.pushed writeMain
    simp only
    rw [directAddress_toNat h2, show (s.step .sp (-2)).directAfter.mem = s.mem from st.mem]
  refine ⟨isPswAddr (directAddress (s.readReg .sp - 2)), ?_⟩
  unfold push
  rw [change_bind, get_bind, hsp, bind_ok htr]
  cases b
  · simp only [Bool.false_eq_true, if_false]
    rw [bind_ok hpw]
    rfl
  · have hsc : stackCheck (s.readReg .sp - 2) (s.step .sp (-2)).directAfter = .ok () (s.step .sp (-2)).directAfter := by
      unfold stackCheck
      rw [get_bind, if_neg]
      · rfl
      · intro ⟨c1, c2⟩
        rw [show (s.step .sp (-2)).directAfter.cm = s.cm from congrArg pswCm st.psw] at c1
        rw [show (s.step .sp (-2)).directAfter.ctl.slr = s.ctl.slr from st.special.slr] at c2
        have := of_decide_eq_true c2
        have := h3 rfl c1
        omega
    simp only [if_true]
    rw [bind_ok hsc, bind_ok hpw]
    rfl

/-- With relocation off, a push to an even address of main memory above the stack limit completes, and stores there
(R184, R186). -/
theorem push_run (v : Word) (s : State) (hu : s.unmapped)
    (h0 : (s.readReg .sp - 2).getLsbD 0 = false)
    (h1 : (s.readReg .sp - 2).toNat < s.params.memCeiling) (h2 : (s.readReg .sp - 2).toNat < 0o160000)
    (h3 : s.cm ≠ .kernel ∨ effectiveLimit s.ctl.slr < (s.readReg .sp - 2).toNat) :
    ∃ p t, push v true s = .ok p t ∧ pushAddress s = [(s.readReg .sp - 2).toNat] := by
  obtain ⟨p, hp⟩ := push_direct v true s hu h0 h1 h2 fun _ h => h3.resolve_left fun n => n h
  refine ⟨p, _, hp, ?_⟩
  have hsp : (s.step .sp (-2)).readReg .sp = s.readReg .sp - 2 := by
    rw [(State.step_steppedBy s .sp (-2)).reg, sub_two]
  unfold pushAddress
  simp only
  rw [hsp, translate_direct (State.unmapped_step hu _ _) h0]
  exact congrArg (fun n => [n]) (directAddress_toNat h2)

/-! ### Core-owned registers -/

/-- A word or a byte written to a core-owned register, a byte merged into the word read (R60, R61, R85). -/
theorem physWrite_core {pa : PAddr} {w : Width} {v : Word} {s : State} {r : CoreReg} (hw : s.params.wf = true)
    (h : 0o17760000 ≤ pa.toNat) (hr : coreRegAt pa = some r) :
    physWrite pa w v s = .ok () (s.writeCore r
      (match w with | .word => v | .byte => mergeByte (s.readCore r) (pa.getLsbD 0) (v.extractLsb' 0 8))) := by
  have := params_ceiling_le hw
  have ho : s.oddRefused pa w = false := by
    unfold State.oddRefused State.inIoRange
    simp [h, show s.params.memCeiling ≤ pa.toNat by omega]
  unfold physWrite
  rw [get_bind, ho]
  simp only [Bool.false_eq_true, if_false, show ¬ pa.toNat < s.params.memCeiling by omega, h, if_true, hr]
  cases w <;> rfl

/-- Where no word of the table of core-owned registers stands, no such register answers (R60). -/
theorem coreRegAt_none {pa : PAddr} (h : coreWord (pa.toNat / 2 * 2) = false) : coreRegAt pa = none := by
  have he : pa.toNat / 2 * 2 % 2 = 0 := by omega
  cases hr : coreRegAt pa with
  | none => rfl
  | some r =>
    unfold coreRegAt at hr
    dsimp only at hr
    generalize pa.toNat / 2 * 2 = x at h he hr
    have h := (Bool.and_eq_false_iff.1 h).resolve_left (by rw [he]; decide)
    obtain ⟨h, h4⟩ := Bool.or_eq_false_iff.1 h
    obtain ⟨h, h3⟩ := Bool.or_eq_false_iff.1 h
    obtain ⟨h1, h2⟩ := Bool.or_eq_false_iff.1 h
    rw [← Bool.decide_and, decide_eq_false_iff_not] at h2 h3 h4
    have ne := fun c hc (hx : x = c) => of_decide_eq_false h1 (hx ▸ hc)
    iterate 9 rw [if_neg (ne _ (by decide))] at hr
    rw [if_neg h2, if_neg fun q => h3 ⟨by omega, by omega⟩, if_neg fun q => h3 ⟨by omega, by omega⟩, if_neg h4] at hr
    cases hr

/-- In the I/O range the external bus answers where no core-owned register does (R84, R85, R99). -/
theorem phys_bus {pa : PAddr} {w : Width} (v : Word) {s : State} (hw : s.params.wf = true) (h : 0o17760000 ≤ pa.toNat)
    (hr : coreRegAt pa = none) :
    physRead pa w s = (busAccess pa >>= fun x => pure (narrowTo w x) : M Word) s ∧
      physWrite pa w v s = (busAccess pa >>= fun _ => pure () : M Unit) s := by
  have := params_ceiling_le hw
  have ho : s.oddRefused pa w = false := by
    unfold State.oddRefused State.inIoRange
    simp [h, show s.params.memCeiling ≤ pa.toNat by omega]
  unfold physRead physWrite
  rw [get_bind, get_bind, ho]
  simp only [Bool.false_eq_true, if_false, show ¬ pa.toNat < s.params.memCeiling by omega, h, if_true, hr, and_self]

end Sys2Proof.Machine
end

