-- ==== Sys2Proof/Laws/Entry.lean ====
section
/-! SUPPORT. Taking a trap with relocation off: a push with its stack check in either zone, the two pushes of a trap, and
the trap's body around them (40_addressing.md rules R184, R186, 60_exceptions.md rules R602 to R608). -/

namespace Sys2Proof.Machine

/-! ### Pushes -/

/-- The control registers after a check in the yellow zone (R184). -/
def Ctl.yellowed (c : Ctl) : Ctl := { c with cpuErr := c.cpuErr ||| 0o10, pending := { c.pending with yellow := true } }

theorem Ctl.yellowed_twice (c : Ctl) : c.yellowed.yellowed = c.yellowed := by
  unfold Ctl.yellowed
  simp only [BitVec.or_assoc]
  rfl

/-- An even address in numbers. -/
theorem even_word {x : Word} : x.getLsbD 0 = false ↔ x.toNat % 2 = 0 := by
  simp only [BitVec.getLsbD, Nat.testBit_zero, decide_eq_false_iff_not]; omega

/-- What a push that checks nothing leaves: the word stored at `a`, the stack pointer 2 lower, and all but MMR1 and the page
last used as it was (R186). -/
structure PushedAs (s t : State) (v : Word) (a : Nat) : Prop where
  psw : t.psw = s.psw
  pc : t.pc = s.pc
  gr0 : t.gr0 = s.gr0
  gr1 : t.gr1 = s.gr1
  fpp : t.fpp = s.fpp
  params : t.params = s.params
  ctl : t.ctl = s.ctl
  unmapped : s.unmapped → t.unmapped
  mem : t.mem = Memory.writeWord s.mem a v
  sp : t.readReg .sp = s.readReg .sp - 2
  others : ∀ m, m ≠ s.cm → t.readSpm m = s.readSpm m

theorem State.pushed_as (s : State) (v : Word) : PushedAs s (s.pushed v) v (s.readReg .sp - 2).toNat := by
  have st := State.step_steppedBy s .sp (-2)
  obtain ⟨w, hw, h⟩ := State.step_eq s .sp (-2)
  exact {
    psw := st.psw
    pc := st.pc (by decide)
    gr0 := show (s.step .sp (-2)).gr0 = _ by rw [h]; rfl
    gr1 := show (s.step .sp (-2)).gr1 = _ by rw [h]; rfl
    fpp := st.fpp
    params := st.special.params
    ctl := show (s.step .sp (-2)).ctl = _ by rw [h]; rfl
    unmapped := fun hu => State.unmapped_step hu .sp (-2)
    mem := rfl
    sp := show (s.step .sp (-2)).readReg .sp = _ by rw [st.reg, sub_two]
    others := fun m hm => st.others.2 m fun h => hm h.1 }

/-- The state in which a push with relocation off makes its check (R186). -/
def State.checking (s : State) : State := (s.step .sp (-2)).directAfter

/-- A push with relocation off: the check, then the store (R186). -/
theorem push_checking (v : Word) (b : Bool) (s : State) (hu : s.unmapped) (h0 : (s.readReg .sp - 2).getLsbD 0 = false) :
    push v b s = ((if b then stackCheck (s.readReg .sp - 2) else pure ()) >>= fun _ =>
      physWrite (directAddress (s.readReg .sp - 2)) .word v >>= fun _ =>
        pure (isPswAddr (directAddress (s.readReg .sp - 2))) : M Bool) s.checking :=
  push_translated (translate_direct (State.unmapped_step hu _ _) h0)

/-- What the check sees is what the push found. -/
theorem State.checking_eq (s : State) : s.checking.cm = s.cm ∧ s.checking.ctl = s.ctl ∧ s.checking.mem = s.mem ∧
    s.checking.params = s.params :=
  ⟨congrArg pswCm (s.pushed_as 0).psw, (s.pushed_as 0).ctl, (State.step_steppedBy s .sp (-2)).mem, (s.pushed_as 0).params⟩

/-- The check in the yellow zone (R184). -/
theorem stackCheck_yellow {a : Word} {s : State} (hk : s.cm = .kernel) (h1 : a.toNat ≤ effectiveLimit s.ctl.slr)
    (h2 : effectiveLimit s.ctl.slr < a.toNat + 32) : stackCheck a s = .ok () (s.setCtl s.ctl.yellowed) := by
  unfold stackCheck
  rw [get_bind, if_pos ⟨hk, decide_eq_true h1⟩, if_neg (by unfold inRedZone; simp only [decide_eq_true_eq]; omega)]
  rfl

/-- The check in the red zone (R184). -/
theorem stackCheck_red {a : Word} {s : State} (hk : s.cm = .kernel) (h : a.toNat + 32 ≤ effectiveLimit s.ctl.slr) :
    stackCheck a s = .error 0o4 ((s.cpuError 2).writeSpm .kernel 4) := by
  unfold stackCheck
  rw [get_bind, if_pos ⟨hk, decide_eq_true (by omega)⟩, if_pos (show inRedZone s.ctl.slr a = true from decide_eq_true h)]
  rfl

/-- The control registers once a push of a trap, at `a`, has made its check (R184, R607). -/
def State.pushCtl (s : State) (b : Bool) (a : Nat) : Ctl :=
  if b = true ∧ s.cm = .kernel ∧ a ≤ effectiveLimit s.ctl.slr then s.ctl.yellowed else s.ctl

/-- With relocation off, a push to an even address of main memory outside the red zone completes, and in the yellow zone
records it (R184, R186, R607). -/
theorem push_checked (v : Word) (b : Bool) (s : State) (hu : s.unmapped)
    (h0 : (s.readReg .sp - 2).getLsbD 0 = false)
    (h1 : (s.readReg .sp - 2).toNat < s.params.memCeiling) (h2 : (s.readReg .sp - 2).toNat < 0o160000)
    (h3 : b = true → s.cm = .kernel → effectiveLimit s.ctl.slr < (s.readReg .sp - 2).toNat + 32) :
    ∃ p, push v b s = .ok p ((s.pushed v).setCtl (s.pushCtl b (s.readReg .sp - 2).toNat)) := by
  obtain ⟨c1, c2, c3, c4⟩ := s.checking_eq
  unfold State.pushCtl
  by_cases hy : b = true ∧ s.cm = .kernel ∧ (s.readReg .sp - 2).toNat ≤ effectiveLimit s.ctl.slr
  · rw [if_pos hy, push_checking v b s hu h0]
    obtain ⟨rfl, hk, hl⟩ := hy
    simp only [if_true]
    rw [bind_ok (stackCheck_yellow (c1.trans hk) (by rw [c2]; exact hl) (by rw [c2]; exact h3 rfl hk)), c2]
    have hp : physWrite (directAddress (s.readReg .sp - 2)) .word v (s.checking.setCtl s.ctl.yellowed) =
        .ok () ((s.pushed v).setCtl s.ctl.yellowed) := by
      rw [physWrite_main (by rw [directAddress_toNat h2]; show _ < s.checking.params.memCeiling; rw [c4]; exact h1)
        fun _ => directAddress_even h2 h0]
      unfold writeMain
      simp only
      rw [directAddress_toNat h2, show (s.checking.setCtl s.ctl.yellowed).mem = s.mem from c3]
      rfl
    rw [bind_ok hp]
    exact ⟨_, rfl⟩
  · rw [if_neg hy]
    obtain ⟨p, hp⟩ := push_direct v b s hu h0 h1 h2 fun hb hk => by by_contra hc; exact hy ⟨hb, hk, by omega⟩
    exact ⟨p, hp.trans (by rw [← (s.pushed_as v).ctl]; rfl)⟩

/-- What a red-zone abort of a push leaves: nothing stored, the kernel stack pointer at 4, the red-zone bit set, and all but
MMR1 and the page last used as it was (R184, R186). -/
structure RedAborted (s t : State) : Prop where
  psw : t.psw = s.psw
  pc : t.pc = s.pc
  gr0 : t.gr0 = s.gr0
  gr1 : t.gr1 = s.gr1
  fpp : t.fpp = s.fpp
  params : t.params = s.params
  unmapped : t.unmapped
  mem : t.mem = s.mem
  sp : t.readSpm .kernel = 4
  others : ∀ m, m ≠ .kernel → t.readSpm m = s.readSpm m
  ctl : t.ctl = { s.ctl with cpuErr := s.ctl.cpuErr ||| 0o4 }

/-- In the red zone a push stores nothing and aborts through 4 (R184, R186). -/
theorem push_red (v : Word) (s : State) (hu : s.unmapped) (h0 : (s.readReg .sp - 2).getLsbD 0 = false)
    (hk : s.cm = .kernel) (h : (s.readReg .sp - 2).toNat + 32 ≤ effectiveLimit s.ctl.slr) :
    ∃ t, push v true s = .error 0o4 t ∧ RedAborted s t := by
  obtain ⟨c1, c2, c3, c4⟩ := s.checking_eq
  have pa := s.pushed_as v
  rw [push_checking v true s hu h0]
  simp only [if_true]
  rw [bind_error (stackCheck_red (c1.trans hk) (by rw [c2]; exact h))]
  refine ⟨_, rfl, pa.psw, pa.pc, pa.gr0, pa.gr1, pa.fpp, pa.params, pa.unmapped hu, c3, ?_, fun m hm => ?_, ?_⟩
  · simp [State.readSpm, State.writeSpm]
  · rw [← pa.others m (by rw [hk]; exact hm)]
    cases m <;> first | exact absurd rfl hm | (simp [State.readSpm, State.writeSpm, modeNumber, State.cpuError]; rfl)
  · show { s.checking.ctl with cpuErr := s.checking.ctl.cpuErr ||| 0o4 } = _
    rw [c2]

/-- What the two pushes of a trap leave: both words stored, the stack pointer 4 lower, and all but MMR1, the page last used
and what the check records as it was (R184, R607). -/
structure PushedTwice (b : Bool) (x : Word) (s t : State) : Prop where
  psw : t.psw = s.psw
  pc : t.pc = s.pc
  gr0 : t.gr0 = s.gr0
  gr1 : t.gr1 = s.gr1
  fpp : t.fpp = s.fpp
  params : t.params = s.params
  unmapped : t.unmapped
  mem : t.mem = Memory.writeWord (Memory.writeWord s.mem ((s.readReg .sp).toNat - 2) x) ((s.readReg .sp).toNat - 4) s.pc
  sp : t.readReg .sp = s.readReg .sp - 4
  others : ∀ m, m ≠ s.cm → t.readSpm m = s.readSpm m
  ctl : t.ctl = s.pushCtl b ((s.readReg .sp).toNat - 4)

/-- The two pushes of a trap, of a word and then of the PC, outside the red zone (R607). -/
theorem push_twice (x : Word) (b : Bool) (d : State) (hu : d.unmapped) (h0 : (d.readReg .sp).toNat % 2 = 0)
    (h4 : 4 ≤ (d.readReg .sp).toNat) (h1 : (d.readReg .sp).toNat ≤ d.params.memCeiling)
    (h2 : (d.readReg .sp).toNat ≤ 0o160000)
    (h3 : b = true → d.cm = .kernel → effectiveLimit d.ctl.slr + 4 < (d.readReg .sp).toNat + 32) :
    ∃ f, (∀ k : M Unit, (push x b >>= fun _ => get >>= fun s => push s.pc b >>= fun _ => k : M Unit) d = k f) ∧
      PushedTwice b x d f := by
  have m2 : (d.readReg .sp - 2).toNat = (d.readReg .sp).toNat - 2 := by simp [BitVec.toNat_sub]; omega
  have m4 : (d.readReg .sp - 2 - 2).toNat = (d.readReg .sp).toNat - 4 := by rw [BitVec.toNat_sub, m2]; simp; omega
  obtain ⟨p1, hp1⟩ := push_checked x b d hu (even_word.2 (by omega)) (by omega) (by omega) fun hb hk => by
    have := h3 hb hk; omega
  have a1 := d.pushed_as x
  set c1 := d.pushCtl b (d.readReg .sp - 2).toNat with hc1
  set e := (d.pushed x).setCtl c1 with he
  have hslr : c1.slr = d.ctl.slr := by rw [hc1, State.pushCtl]; split <;> rfl
  have ecm : e.cm = d.cm := congrArg pswCm a1.psw
  have esp : e.readReg .sp = d.readReg .sp - 2 := a1.sp
  have epar : e.params = d.params := a1.params
  obtain ⟨p2, hp2⟩ := push_checked e.pc b e (a1.unmapped hu) (even_word.2 (by rw [esp]; omega))
    (by rw [esp, epar]; omega) (by rw [esp]; omega) fun hb hk => by
      have := h3 hb (ecm ▸ hk)
      rw [esp]
      show effectiveLimit c1.slr < _
      rw [hslr]
      omega
  have a2 := e.pushed_as e.pc
  refine ⟨(e.pushed e.pc).setCtl (e.pushCtl b (e.readReg .sp - 2).toNat),
    fun k => by rw [bind_ok hp1, get_bind, bind_ok hp2], {
    psw := a2.psw.trans a1.psw
    pc := a2.pc.trans a1.pc
    gr0 := a2.gr0.trans a1.gr0
    gr1 := a2.gr1.trans a1.gr1
    fpp := a2.fpp.trans a1.fpp
    params := a2.params.trans a1.params
    unmapped := a2.unmapped (a1.unmapped hu)
    mem := a2.mem.trans (by rw [esp, m4, show e.pc = d.pc from a1.pc, show e.mem = _ from a1.mem, m2])
    sp := a2.sp.trans (by rw [esp]; apply BitVec.eq_of_toNat_eq; simp [BitVec.toNat_sub]; omega)
    others := fun m hm => (a2.others m (by rw [ecm]; exact hm)).trans (a1.others m hm)
    ctl := ?_ }⟩
  show e.pushCtl b (e.readReg .sp - 2).toNat = _
  rw [esp, m4]
  unfold State.pushCtl
  rw [ecm, show e.ctl = c1 from rfl, hslr]
  by_cases hh : b = true ∧ d.cm = .kernel ∧ (d.readReg .sp).toNat - 4 ≤ effectiveLimit d.ctl.slr
  · rw [if_pos hh, if_pos hh, hc1, State.pushCtl]
    split
    · exact Ctl.yellowed_twice _
    · rfl
  · rw [if_neg hh, if_neg hh, hc1, State.pushCtl, if_neg]
    rintro ⟨a, b, c⟩
    exact hh ⟨a, b, by omega⟩

/-! ### The trap sequence -/

/-- Loading the status word flags the interrupt check exactly where the priority falls (R28). -/
theorem State.loadPsw_ctl (s : State) (v : Word) :
    let lowered := decide (pswPri v < pswPri s.psw)
    (s.loadPsw v).ctl =
      { s.ctl with irqFlag := s.ctl.irqFlag || lowered, irqDelay := s.ctl.irqDelay || lowered } := by
  rw [State.loadPsw_eq]
  by_cases h : pswPri v < pswPri s.psw <;> simp [h]

/-- The bits of the status word a trap leaves (R26, R606). -/
theorem trapNewPsw_loaded (a b : Word) : trapNewPsw a b &&& 0o174377 = (a &&& 0o144377) ||| ((b >>> 2) &&& 0o030000) := by
  unfold trapNewPsw
  apply BitVec.eq_of_getLsbD_eq
  intro i hi
  interval_cases i <;> simp

theorem pswPri_loaded (v : Word) : pswPri (v &&& 0o174377) = pswPri v := by
  unfold pswPri
  congr 1
  apply BitVec.eq_of_getLsbD_eq
  intro i hi
  interval_cases i <;> simp

/-- What a trap's body has loaded before its two pushes: the status word `new`, which may have flagged the interrupt check,
all else but MMR1, MMR2 and the page last used as it was (R604 to R606). -/
structure TrapLoaded (new : Word) (s t : State) : Prop where
  psw : t.psw = new
  pc : t.pc = s.pc
  gr0 : t.gr0 = s.gr0
  gr1 : t.gr1 = s.gr1
  spm : t.spm = s.spm
  fpp : t.fpp = s.fpp
  params : t.params = s.params
  unmapped : t.unmapped
  mem : t.mem = s.mem
  ctl : t.ctl = { s.ctl with
    irqFlag := s.ctl.irqFlag || decide (pswPri new < pswPri s.psw)
    irqDelay := s.ctl.irqDelay || decide (pswPri new < pswPri s.psw) }

/-- A trap's body with relocation off: what is loaded before the two pushes, and the PC set after them (R604 to R607). -/
theorem trapBody_direct (v : Word) (double : Bool) (s : State) (hu : s.unmapped) (v0 : v.getLsbD 0 = false)
    (v1 : v.toNat + 3 < s.params.memCeiling) (v2 : v.toNat + 3 < 0o160000) :
    let snapshot := s.ctl.trapPsw.getD s.psw
    ∃ d : State, trapBody v double s = (push snapshot (!double) >>= fun _ => get >>= fun u => push u.pc (!double) >>= fun _ =>
        change (·.setPc (Memory.readWord s.mem v.toNat)) : M Unit) d ∧
      TrapLoaded ((Memory.readWord s.mem (v.toNat + 2) &&& 0o144377) ||| ((snapshot >>> 2) &&& 0o030000)) s d := by
  intro snapshot
  set new : Word := (Memory.readWord s.mem (v.toNat + 2) &&& 0o144377) ||| ((snapshot >>> 2) &&& 0o030000) with hn
  obtain ⟨u, hb, hm⟩ : ∃ u : Mmu, s.trapBookkeeping v = s.setMmu u ∧ u.mmr0 = s.mmu.mmr0 := by
    simp only [State.trapBookkeeping]
    split
    · exact ⟨s.mmu, rfl, rfl⟩
    · exact ⟨_, rfl, rfl⟩
  have hu1 : (s.setMmu u).unmapped := by
    show mmr0Enb u.mmr0 = _ ∧ mmr0Mnt u.mmr0 = _
    rw [hm]
    exact hu
  have e := even_word.1 v0
  have w2 : (v + 2).toNat = v.toNat + 2 := by simp; omega
  have r1 := memReadM_direct (m := .kernel) (a := v) hu1 v0 (show v.toNat < s.params.memCeiling by omega) (by omega)
  have r2 := memReadM_direct (m := .kernel) (a := v + 2) (s := (s.setMmu u).directAfter) hu1 (even_word.2 (by omega))
    (show (v + 2).toNat < s.params.memCeiling by omega) (by omega)
  rw [w2] at r2
  set raw := trapNewPsw (Memory.readWord s.mem (v.toNat + 2)) snapshot with hr
  refine ⟨(s.setMmu u).directAfter.directAfter.loadPsw raw, ?_, ?_⟩
  · unfold trapBody
    rw [change_bind, hb, bind_ok r1, bind_ok r2, get_bind, change_bind]
    rfl
  · have hl : raw &&& 0o174377 = new := trapNewPsw_loaded _ _
    have lc := State.loadPsw_ctl (s.setMmu u).directAfter.directAfter raw
    rw [show pswPri raw = pswPri new by rw [← hl, pswPri_loaded]] at lc
    rw [State.loadPsw_eq] at lc ⊢
    exact ⟨hl, rfl, rfl, rfl, rfl, rfl, rfl, hu1, rfl, lc⟩

/-- A sequence whose body completes, nested or not (R608). -/
theorem trapSeq_completes {v : Word} {s f : State} {a : Unit}
    (h : trapBody (trapEnter v s).1 (trapEnter v s).2.1 (trapEnter v s).2.2 = .ok a f) :
    trapSeq v s = f.setTrapPsw none ∧ trapNested v s = f.setTrapPsw none := by
  unfold trapSeq trapNested
  simp only [h, and_self]

/-- Entering the sequence: a first trap, one nested outside kernel mode, and one nested in it (R602, R603). -/
theorem trapEnter_first {v : Word} {s : State} (h : s.ctl.trapPsw = none) :
    trapEnter v s = (v, false, s.setCtl { s.ctl with trapPsw := some s.psw, pending := {} }) := by
  unfold trapEnter
  rw [h]
  rfl

theorem trapEnter_nested {v x : Word} {s : State} (h : s.ctl.trapPsw = some x) (hk : s.cm ≠ .kernel) :
    trapEnter v s = (v, false, s) := by
  unfold trapEnter
  rw [h]
  exact if_neg hk

theorem trapEnter_double {v x : Word} {s : State} (h : s.ctl.trapPsw = some x) (hk : s.cm = .kernel) :
    trapEnter v s = (4, true, (s.cpuError 2).writeSpm .kernel 4) := by
  unfold trapEnter
  rw [h]
  exact if_pos hk

end Sys2Proof.Machine
end

