-- ==== Sys2Proof/Laws/Float.lean ====
section
/-! SUPPORT. The floating format and rounding in numbers: the fields of a value, splicing and unpacking, rounding as one
division, normalizing shifts. -/

namespace Sys2Proof.Machine

/-- Half a unit added before a division by a power of two adds the bit below the kept ones (R410). -/
theorem half_up (m d : Nat) (hd : 1 ≤ d) : (m + 2 ^ (d - 1)) / 2 ^ d = m / 2 ^ d + (m.testBit (d - 1)).toNat := by
  have e : 2 ^ d = 2 * 2 ^ (d - 1) := by rw [← pow_succ']; congr 1; omega
  have hp : 0 < 2 ^ (d - 1) := Nat.two_pow_pos _
  rw [Nat.toNat_testBit, e]
  generalize 2 ^ (d - 1) = q at *
  have h2 : m / (2 * q) = m / q / 2 := by rw [mul_comm, Nat.div_div_eq_div_mul]
  have h3 : (m + q) / (2 * q) = (m / q + 1) / 2 := by rw [mul_comm, ← Nat.div_div_eq_div_mul, Nat.add_div_right _ hp]
  rw [h2, h3]; omega

/-- Rounding by the guard bit and packing, as one division (R410, R411). -/
theorem roundPack_eq (p : Prec) (fps : Word) (s : Bool) (m d : Nat) (e : Int)
    (hd : 1 ≤ d) (hf : m / 2 ^ d < 2 ^ p.bits) :
    roundPack p fps s (m / 2 ^ d) (m.testBit (d - 1)) e = rounded p fps s m d e := by
  unfold roundPack roundF rounded fpsFt
  cases fps.getLsbD 5
  · simp only [Bool.not_false, Bool.true_and, Bool.false_eq_true, if_false, half_up m d hd]
    cases m.testBit (d - 1)
    · simp [Nat.ne_of_lt hf]
    · simp only [if_true, Bool.toNat_true]
      split <;> rfl
  · simp [Nat.ne_of_lt hf]

/-- The fields of a single value (R406, R409). -/
theorem unpack_single (x : Accum) :
    unpack .single x = ⟨x.w0.msb, x.w0.toNat / 2 ^ 7 % 2 ^ 8,
      2 ^ 23 + (x.w0.toNat % 2 ^ 7 * 2 ^ 16 + x.w1.toNat)⟩ := by
  simp [unpack, exponentOf, storedFraction, Prec.bits, Nat.shiftRight_eq_div_pow, BitVec.msb_eq_getLsbD_last]

/-- The fields of a double value (R406, R409). -/
theorem unpack_double (x : Accum) :
    unpack .double x = ⟨x.w0.msb, x.w0.toNat / 2 ^ 7 % 2 ^ 8,
      2 ^ 55 + (((x.w0.toNat % 2 ^ 7 * 2 ^ 16 + x.w1.toNat) * 2 ^ 16 + x.w2.toNat) * 2 ^ 16 + x.w3.toNat)⟩ := by
  simp [unpack, exponentOf, storedFraction, Prec.bits, Nat.shiftRight_eq_div_pow, BitVec.msb_eq_getLsbD_last]

/-- Unpacking what was spliced (R406, R409). -/
theorem unpack_spliceWords (p : Prec) (s : Bool) (e f : Nat) (he : e < 256)
    (h1 : 2 ^ (p.bits - 1) ≤ f) (h2 : f < 2 ^ p.bits) :
    unpack p (spliceWords p s e f) = ⟨s, e, f⟩ := by
  have hw : ∀ g : Nat, (BitVec.ofBool s ++ BitVec.ofNat 8 e ++ BitVec.ofNat 7 g : BitVec 16).toNat =
      s.toNat * 2 ^ 15 + e * 2 ^ 7 + g % 2 ^ 7 := by
    intro g
    rw [BitVec.toNat_append, BitVec.toNat_append, ← Nat.shiftLeft_add_eq_or_of_lt (BitVec.isLt _),
      ← Nat.shiftLeft_add_eq_or_of_lt (BitVec.isLt _), Nat.shiftLeft_eq, Nat.shiftLeft_eq]
    simp only [BitVec.toNat_ofNat, BitVec.toNat_ofBool]
    rw [Nat.mod_eq_of_lt he]
    omega
  have hm : ∀ g : Nat, (BitVec.ofBool s ++ BitVec.ofNat 8 e ++ BitVec.ofNat 7 g : BitVec 16).msb = s := by
    intro g
    rw [BitVec.msb_eq_decide, hw]
    cases s <;> simp <;> omega
  have hs : s.toNat ≤ 1 := by cases s <;> decide
  cases p with
  | single =>
    rw [unpack_single]
    simp only [spliceWords, hm, hw, Prec.bits] at *
    simp only [BitVec.toNat_ofNat, Fnum.mk.injEq, true_and]
    omega
  | double =>
    rw [unpack_double]
    simp only [spliceWords, hm, hw, Prec.bits] at *
    simp only [BitVec.toNat_ofNat, Fnum.mk.injEq, true_and]
    omega

theorem bitLength_spec (n : Nat) (h : n ≠ 0) : 2 ^ (bitLength n - 1) ≤ n ∧ n < 2 ^ bitLength n ∧ 1 ≤ bitLength n := by
  unfold bitLength
  rw [if_neg h]
  exact ⟨Nat.log2_self_le h, Nat.lt_log2_self, by omega⟩

/-- The shift that brings a number to a given length (R440, R452). -/
theorem bitLength_shift (n k L : Nat) (h : n ≠ 0) (h1 : 2 ^ L ≤ n * 2 ^ k) (h2 : n * 2 ^ k < 2 ^ (L + 1)) :
    bitLength n + k = L + 1 := by
  obtain ⟨a, b, c⟩ := bitLength_spec n h
  have x1 : 2 ^ (bitLength n - 1 + k) ≤ n * 2 ^ k := by rw [pow_add]; exact Nat.mul_le_mul_right _ a
  have x2 : n * 2 ^ k < 2 ^ (bitLength n + k) := by rw [pow_add]; exact Nat.mul_lt_mul_of_pos_right b (Nat.two_pow_pos _)
  have y1 := (Nat.pow_lt_pow_iff_right (a := 2) (by omega)).1 (lt_of_le_of_lt x1 h2)
  have y2 := (Nat.pow_lt_pow_iff_right (a := 2) (by omega)).1 (lt_of_le_of_lt h1 x2)
  omega

/-- The top bit of a number. -/
theorem testBit_top (m n : Nat) (h : m < 2 ^ (n + 1)) : m.testBit n = decide (2 ^ n ≤ m) := by
  rw [Nat.testBit_eq_decide_div_mod_eq]
  congr 1
  rw [eq_iff_iff]
  have : m / 2 ^ n < 2 := by rw [Nat.div_lt_iff_lt_mul (Nat.two_pow_pos _)]; rw [pow_succ] at h; omega
  constructor
  · intro h1
    by_contra hc
    rw [Nat.div_eq_of_lt (by omega)] at h1; simp at h1
  · intro h1
    have : 1 ≤ m / 2 ^ n := (Nat.le_div_iff_mul_le (Nat.two_pow_pos _)).2 (by omega)
    omega

/-- The product of two normalized fractions (R445). -/
theorem mul_normalized (p : Prec) (a b : Nat) (h1 : 2 ^ (p.bits - 1) ≤ a) (h2 : a < 2 ^ p.bits)
    (h3 : 2 ^ (p.bits - 1) ≤ b) (h4 : b < 2 ^ p.bits) :
    2 ^ (2 * p.bits - 2) ≤ a * b ∧ a * b < 2 ^ (2 * p.bits) := by
  have : 1 ≤ p.bits := by cases p <;> decide
  constructor
  · calc 2 ^ (2 * p.bits - 2) = 2 ^ (p.bits - 1) * 2 ^ (p.bits - 1) := by rw [← pow_add]; congr 1; omega
      _ ≤ a * b := Nat.mul_le_mul h1 h3
  · calc a * b < 2 ^ p.bits * 2 ^ p.bits := Nat.mul_lt_mul'' h2 h4
      _ = _ := by rw [← pow_add]; congr 1; omega

end Sys2Proof.Machine
end

