-- ==== Sys2Proof/Laws/PerInstr.lean ====
section
/-! SUPPORT. The statement family `Length`, one lemma per instruction: the number an instruction is encoded by fits
in the one instruction word, and the instruction takes at most two extension words (30_encoding.md rules R140, R141). -/

namespace Sys2Proof.Laws.Length

/-- The operand specifiers of an instruction that the addressing-mode resolver reads, in operand order (R141, R142). -/
def specs : Instr → List OpSpec
  | .halt => []
  | .wait => []
  | .rti => []
  | .bpt => []
  | .iot => []
  | .reset => []
  | .rtt => []
  | .jmp dd => [dd]
  | .rts _ => []
  | .spl _ => []
  | .clx _ => []
  | .sex _ => []
  | .swab dd => [dd]
  | .br _ => []
  | .bne _ => []
  | .beq _ => []
  | .bge _ => []
  | .blt _ => []
  | .bgt _ => []
  | .ble _ => []
  | .jsr _ dd => [dd]
  | .clr dd => [dd]
  | .com dd => [dd]
  | .inc dd => [dd]
  | .dec dd => [dd]
  | .neg dd => [dd]
  | .adc dd => [dd]
  | .sbc dd => [dd]
  | .tst dd => [dd]
  | .ror dd => [dd]
  | .rol dd => [dd]
  | .asr dd => [dd]
  | .asl dd => [dd]
  | .mark _ => []
  | .mfpi ss => [ss]
  | .mtpi dd => [dd]
  | .sxt dd => [dd]
  | .mov ss dd => [ss, dd]
  | .cmp ss dd => [ss, dd]
  | .bit ss dd => [ss, dd]
  | .bic ss dd => [ss, dd]
  | .bis ss dd => [ss, dd]
  | .add ss dd => [ss, dd]
  | .movb ss dd => [ss, dd]
  | .cmpb ss dd => [ss, dd]
  | .bitb ss dd => [ss, dd]
  | .bicb ss dd => [ss, dd]
  | .bisb ss dd => [ss, dd]
  | .sub ss dd => [ss, dd]
  | .mul _ ss => [ss]
  | .div _ ss => [ss]
  | .ash _ ss => [ss]
  | .ashc _ ss => [ss]
  | .xor _ dd => [dd]
  | .sob _ _ => []
  | .bpl _ => []
  | .bmi _ => []
  | .bhi _ => []
  | .blos _ => []
  | .bvc _ => []
  | .bvs _ => []
  | .bcc _ => []
  | .bcs _ => []
  | .emt _ => []
  | .trap _ => []
  | .clrb dd => [dd]
  | .comb dd => [dd]
  | .incb dd => [dd]
  | .decb dd => [dd]
  | .negb dd => [dd]
  | .adcb dd => [dd]
  | .sbcb dd => [dd]
  | .tstb dd => [dd]
  | .rorb dd => [dd]
  | .rolb dd => [dd]
  | .asrb dd => [dd]
  | .aslb dd => [dd]
  | .mfpd ss => [ss]
  | .mtpd dd => [dd]
  | .cfcc => []
  | .setf => []
  | .seti => []
  | .setd => []
  | .setl => []
  | .ldfps ss => [ss]
  | .stfps dd => [dd]
  | .stst dd => [dd]
  | .clrf dd => [dd]
  | .tstf ss => [ss]
  | .absf dd => [dd]
  | .negf dd => [dd]
  | .mulf _ ss => [ss]
  | .modf _ ss => [ss]
  | .addf _ ss => [ss]
  | .ldf _ ss => [ss]
  | .subf _ ss => [ss]
  | .cmpf _ ss => [ss]
  | .stf _ dd => [dd]
  | .divf _ ss => [ss]
  | .stexp _ dd => [dd]
  | .stcfi _ dd => [dd]
  | .stcfd _ dd => [dd]
  | .ldexp _ ss => [ss]
  | .ldcif _ ss => [ss]
  | .ldcdf _ ss => [ss]
  | .reserved _ => []
  | .fppIllegal _ => []

/-- The length of an instruction in words: the instruction word, and one for each specifier that takes an extension
word (R141). -/
def words (i : Instr) : Nat := 1 + ((specs i).map OpSpec.extWords).sum

/-- One word encodes the instruction, and it is one to three words long (R140, R141). -/
def Statement (i : Instr) : Prop := i.number < 2 ^ 16 ∧ 1 ≤ words i ∧ words i ≤ 3

/-- A specifier takes one extension word at most (R141). -/
theorem extWords_le (sp : OpSpec) : sp.extWords ≤ 1 := by
  unfold OpSpec.extWords
  split <;> try split
  all_goals omega

theorem code_lt (r : Reg) : r.code < 8 := by
  cases r <;> simp only [Reg.code] <;> omega

theorem specCode_lt (sp : OpSpec) : sp.code < 64 := by
  have h := code_lt sp.reg
  have hm : sp.mode.code < 8 := by cases sp.mode <;> decide
  unfold OpSpec.code
  omega

theorem words_none {i : Instr} (h : specs i = []) : 1 ≤ words i ∧ words i ≤ 3 := by
  simp [words, h]

theorem words_one {i : Instr} {a : OpSpec} (h : specs i = [a]) : 1 ≤ words i ∧ words i ≤ 3 := by
  have := extWords_le a
  simp only [words, h, List.map_cons, List.map_nil, List.sum_cons, List.sum_nil]
  omega

theorem words_two {i : Instr} {a b : OpSpec} (h : specs i = [a, b]) : 1 ≤ words i ∧ words i ≤ 3 := by
  have := extWords_le a
  have := extWords_le b
  simp only [words, h, List.map_cons, List.map_nil, List.sum_cons, List.sum_nil]
  omega

theorem halt : Statement (.halt) := by
  exact ⟨by decide, words_none rfl⟩

theorem wait : Statement (.wait) := by
  exact ⟨by decide, words_none rfl⟩

theorem rti : Statement (.rti) := by
  exact ⟨by decide, words_none rfl⟩

theorem bpt : Statement (.bpt) := by
  exact ⟨by decide, words_none rfl⟩

theorem iot : Statement (.iot) := by
  exact ⟨by decide, words_none rfl⟩

theorem reset : Statement (.reset) := by
  exact ⟨by decide, words_none rfl⟩

theorem rtt : Statement (.rtt) := by
  exact ⟨by decide, words_none rfl⟩

theorem jmp (dd : OpSpec) : Statement (.jmp dd) := by
  have := specCode_lt dd
  exact ⟨by show 0o000100 + dd.code < 65536; omega, words_one rfl⟩

theorem rts (r : Reg) : Statement (.rts r) := by
  have := code_lt r
  exact ⟨by show 0o000200 + r.code < 65536; omega, words_none rfl⟩

theorem spl (n : BitVec 3) : Statement (.spl n) := by
  have := n.isLt
  exact ⟨by show 0o000230 + n.toNat < 65536; omega, words_none rfl⟩

theorem clx (m : BitVec 4) : Statement (.clx m) := by
  have := m.isLt
  exact ⟨by show 0o000240 + m.toNat < 65536; omega, words_none rfl⟩

theorem sex (m : BitVec 4) : Statement (.sex m) := by
  have := m.isLt
  exact ⟨by show 0o000260 + m.toNat < 65536; omega, words_none rfl⟩

theorem swab (dd : OpSpec) : Statement (.swab dd) := by
  have := specCode_lt dd
  exact ⟨by show 0o000300 + dd.code < 65536; omega, words_one rfl⟩

theorem br (off : BitVec 8) : Statement (.br off) := by
  have := off.isLt
  exact ⟨by show 0o000400 + off.toNat < 65536; omega, words_none rfl⟩

theorem bne (off : BitVec 8) : Statement (.bne off) := by
  have := off.isLt
  exact ⟨by show 0o001000 + off.toNat < 65536; omega, words_none rfl⟩

theorem beq (off : BitVec 8) : Statement (.beq off) := by
  have := off.isLt
  exact ⟨by show 0o001400 + off.toNat < 65536; omega, words_none rfl⟩

theorem bge (off : BitVec 8) : Statement (.bge off) := by
  have := off.isLt
  exact ⟨by show 0o002000 + off.toNat < 65536; omega, words_none rfl⟩

theorem blt (off : BitVec 8) : Statement (.blt off) := by
  have := off.isLt
  exact ⟨by show 0o002400 + off.toNat < 65536; omega, words_none rfl⟩

theorem bgt (off : BitVec 8) : Statement (.bgt off) := by
  have := off.isLt
  exact ⟨by show 0o003000 + off.toNat < 65536; omega, words_none rfl⟩

theorem ble (off : BitVec 8) : Statement (.ble off) := by
  have := off.isLt
  exact ⟨by show 0o003400 + off.toNat < 65536; omega, words_none rfl⟩

theorem jsr (r : Reg) (dd : OpSpec) : Statement (.jsr r dd) := by
  have := code_lt r
  have := specCode_lt dd
  exact ⟨by show 0o004000 + 64 * r.code + dd.code < 65536; omega, words_one rfl⟩

theorem clr (dd : OpSpec) : Statement (.clr dd) := by
  have := specCode_lt dd
  exact ⟨by show 0o005000 + dd.code < 65536; omega, words_one rfl⟩

theorem com (dd : OpSpec) : Statement (.com dd) := by
  have := specCode_lt dd
  exact ⟨by show 0o005100 + dd.code < 65536; omega, words_one rfl⟩

theorem inc (dd : OpSpec) : Statement (.inc dd) := by
  have := specCode_lt dd
  exact ⟨by show 0o005200 + dd.code < 65536; omega, words_one rfl⟩

theorem dec (dd : OpSpec) : Statement (.dec dd) := by
  have := specCode_lt dd
  exact ⟨by show 0o005300 + dd.code < 65536; omega, words_one rfl⟩

theorem neg (dd : OpSpec) : Statement (.neg dd) := by
  have := specCode_lt dd
  exact ⟨by show 0o005400 + dd.code < 65536; omega, words_one rfl⟩

theorem adc (dd : OpSpec) : Statement (.adc dd) := by
  have := specCode_lt dd
  exact ⟨by show 0o005500 + dd.code < 65536; omega, words_one rfl⟩

theorem sbc (dd : OpSpec) : Statement (.sbc dd) := by
  have := specCode_lt dd
  exact ⟨by show 0o005600 + dd.code < 65536; omega, words_one rfl⟩

theorem tst (dd : OpSpec) : Statement (.tst dd) := by
  have := specCode_lt dd
  exact ⟨by show 0o005700 + dd.code < 65536; omega, words_one rfl⟩

theorem ror (dd : OpSpec) : Statement (.ror dd) := by
  have := specCode_lt dd
  exact ⟨by show 0o006000 + dd.code < 65536; omega, words_one rfl⟩

theorem rol (dd : OpSpec) : Statement (.rol dd) := by
  have := specCode_lt dd
  exact ⟨by show 0o006100 + dd.code < 65536; omega, words_one rfl⟩

theorem asr (dd : OpSpec) : Statement (.asr dd) := by
  have := specCode_lt dd
  exact ⟨by show 0o006200 + dd.code < 65536; omega, words_one rfl⟩

theorem asl (dd : OpSpec) : Statement (.asl dd) := by
  have := specCode_lt dd
  exact ⟨by show 0o006300 + dd.code < 65536; omega, words_one rfl⟩

theorem mark (nn : BitVec 6) : Statement (.mark nn) := by
  have := nn.isLt
  exact ⟨by show 0o006400 + nn.toNat < 65536; omega, words_none rfl⟩

theorem mfpi (ss : OpSpec) : Statement (.mfpi ss) := by
  have := specCode_lt ss
  exact ⟨by show 0o006500 + ss.code < 65536; omega, words_one rfl⟩

theorem mtpi (dd : OpSpec) : Statement (.mtpi dd) := by
  have := specCode_lt dd
  exact ⟨by show 0o006600 + dd.code < 65536; omega, words_one rfl⟩

theorem sxt (dd : OpSpec) : Statement (.sxt dd) := by
  have := specCode_lt dd
  exact ⟨by show 0o006700 + dd.code < 65536; omega, words_one rfl⟩

theorem mov (ss : OpSpec) (dd : OpSpec) : Statement (.mov ss dd) := by
  have := specCode_lt ss
  have := specCode_lt dd
  exact ⟨by show 0o010000 + 64 * ss.code + dd.code < 65536; omega, words_two rfl⟩

theorem cmp (ss : OpSpec) (dd : OpSpec) : Statement (.cmp ss dd) := by
  have := specCode_lt ss
  have := specCode_lt dd
  exact ⟨by show 0o020000 + 64 * ss.code + dd.code < 65536; omega, words_two rfl⟩

theorem bit (ss : OpSpec) (dd : OpSpec) : Statement (.bit ss dd) := by
  have := specCode_lt ss
  have := specCode_lt dd
  exact ⟨by show 0o030000 + 64 * ss.code + dd.code < 65536; omega, words_two rfl⟩

theorem bic (ss : OpSpec) (dd : OpSpec) : Statement (.bic ss dd) := by
  have := specCode_lt ss
  have := specCode_lt dd
  exact ⟨by show 0o040000 + 64 * ss.code + dd.code < 65536; omega, words_two rfl⟩

theorem bis (ss : OpSpec) (dd : OpSpec) : Statement (.bis ss dd) := by
  have := specCode_lt ss
  have := specCode_lt dd
  exact ⟨by show 0o050000 + 64 * ss.code + dd.code < 65536; omega, words_two rfl⟩

theorem add (ss : OpSpec) (dd : OpSpec) : Statement (.add ss dd) := by
  have := specCode_lt ss
  have := specCode_lt dd
  exact ⟨by show 0o060000 + 64 * ss.code + dd.code < 65536; omega, words_two rfl⟩

theorem movb (ss : OpSpec) (dd : OpSpec) : Statement (.movb ss dd) := by
  have := specCode_lt ss
  have := specCode_lt dd
  exact ⟨by show 0o110000 + 64 * ss.code + dd.code < 65536; omega, words_two rfl⟩

theorem cmpb (ss : OpSpec) (dd : OpSpec) : Statement (.cmpb ss dd) := by
  have := specCode_lt ss
  have := specCode_lt dd
  exact ⟨by show 0o120000 + 64 * ss.code + dd.code < 65536; omega, words_two rfl⟩

theorem bitb (ss : OpSpec) (dd : OpSpec) : Statement (.bitb ss dd) := by
  have := specCode_lt ss
  have := specCode_lt dd
  exact ⟨by show 0o130000 + 64 * ss.code + dd.code < 65536; omega, words_two rfl⟩

theorem bicb (ss : OpSpec) (dd : OpSpec) : Statement (.bicb ss dd) := by
  have := specCode_lt ss
  have := specCode_lt dd
  exact ⟨by show 0o140000 + 64 * ss.code + dd.code < 65536; omega, words_two rfl⟩

theorem bisb (ss : OpSpec) (dd : OpSpec) : Statement (.bisb ss dd) := by
  have := specCode_lt ss
  have := specCode_lt dd
  exact ⟨by show 0o150000 + 64 * ss.code + dd.code < 65536; omega, words_two rfl⟩

theorem sub (ss : OpSpec) (dd : OpSpec) : Statement (.sub ss dd) := by
  have := specCode_lt ss
  have := specCode_lt dd
  exact ⟨by show 0o160000 + 64 * ss.code + dd.code < 65536; omega, words_two rfl⟩

theorem mul (r : Reg) (ss : OpSpec) : Statement (.mul r ss) := by
  have := code_lt r
  have := specCode_lt ss
  exact ⟨by show 0o070000 + 64 * r.code + ss.code < 65536; omega, words_one rfl⟩

theorem div (r : Reg) (ss : OpSpec) : Statement (.div r ss) := by
  have := code_lt r
  have := specCode_lt ss
  exact ⟨by show 0o071000 + 64 * r.code + ss.code < 65536; omega, words_one rfl⟩

theorem ash (r : Reg) (ss : OpSpec) : Statement (.ash r ss) := by
  have := code_lt r
  have := specCode_lt ss
  exact ⟨by show 0o072000 + 64 * r.code + ss.code < 65536; omega, words_one rfl⟩

theorem ashc (r : Reg) (ss : OpSpec) : Statement (.ashc r ss) := by
  have := code_lt r
  have := specCode_lt ss
  exact ⟨by show 0o073000 + 64 * r.code + ss.code < 65536; omega, words_one rfl⟩

theorem xor (r : Reg) (dd : OpSpec) : Statement (.xor r dd) := by
  have := code_lt r
  have := specCode_lt dd
  exact ⟨by show 0o074000 + 64 * r.code + dd.code < 65536; omega, words_one rfl⟩

theorem sob (r : Reg) (off : BitVec 6) : Statement (.sob r off) := by
  have := code_lt r
  have := off.isLt
  exact ⟨by show 0o077000 + 64 * r.code + off.toNat < 65536; omega, words_none rfl⟩

theorem bpl (off : BitVec 8) : Statement (.bpl off) := by
  have := off.isLt
  exact ⟨by show 0o100000 + off.toNat < 65536; omega, words_none rfl⟩

theorem bmi (off : BitVec 8) : Statement (.bmi off) := by
  have := off.isLt
  exact ⟨by show 0o100400 + off.toNat < 65536; omega, words_none rfl⟩

theorem bhi (off : BitVec 8) : Statement (.bhi off) := by
  have := off.isLt
  exact ⟨by show 0o101000 + off.toNat < 65536; omega, words_none rfl⟩

theorem blos (off : BitVec 8) : Statement (.blos off) := by
  have := off.isLt
  exact ⟨by show 0o101400 + off.toNat < 65536; omega, words_none rfl⟩

theorem bvc (off : BitVec 8) : Statement (.bvc off) := by
  have := off.isLt
  exact ⟨by show 0o102000 + off.toNat < 65536; omega, words_none rfl⟩

theorem bvs (off : BitVec 8) : Statement (.bvs off) := by
  have := off.isLt
  exact ⟨by show 0o102400 + off.toNat < 65536; omega, words_none rfl⟩

theorem bcc (off : BitVec 8) : Statement (.bcc off) := by
  have := off.isLt
  exact ⟨by show 0o103000 + off.toNat < 65536; omega, words_none rfl⟩

theorem bcs (off : BitVec 8) : Statement (.bcs off) := by
  have := off.isLt
  exact ⟨by show 0o103400 + off.toNat < 65536; omega, words_none rfl⟩

theorem emt (code : BitVec 8) : Statement (.emt code) := by
  have := code.isLt
  exact ⟨by show 0o104000 + code.toNat < 65536; omega, words_none rfl⟩

theorem trap (code : BitVec 8) : Statement (.trap code) := by
  have := code.isLt
  exact ⟨by show 0o104400 + code.toNat < 65536; omega, words_none rfl⟩

theorem clrb (dd : OpSpec) : Statement (.clrb dd) := by
  have := specCode_lt dd
  exact ⟨by show 0o105000 + dd.code < 65536; omega, words_one rfl⟩

theorem comb (dd : OpSpec) : Statement (.comb dd) := by
  have := specCode_lt dd
  exact ⟨by show 0o105100 + dd.code < 65536; omega, words_one rfl⟩

theorem incb (dd : OpSpec) : Statement (.incb dd) := by
  have := specCode_lt dd
  exact ⟨by show 0o105200 + dd.code < 65536; omega, words_one rfl⟩

theorem decb (dd : OpSpec) : Statement (.decb dd) := by
  have := specCode_lt dd
  exact ⟨by show 0o105300 + dd.code < 65536; omega, words_one rfl⟩

theorem negb (dd : OpSpec) : Statement (.negb dd) := by
  have := specCode_lt dd
  exact ⟨by show 0o105400 + dd.code < 65536; omega, words_one rfl⟩

theorem adcb (dd : OpSpec) : Statement (.adcb dd) := by
  have := specCode_lt dd
  exact ⟨by show 0o105500 + dd.code < 65536; omega, words_one rfl⟩

theorem sbcb (dd : OpSpec) : Statement (.sbcb dd) := by
  have := specCode_lt dd
  exact ⟨by show 0o105600 + dd.code < 65536; omega, words_one rfl⟩

theorem tstb (dd : OpSpec) : Statement (.tstb dd) := by
  have := specCode_lt dd
  exact ⟨by show 0o105700 + dd.code < 65536; omega, words_one rfl⟩

theorem rorb (dd : OpSpec) : Statement (.rorb dd) := by
  have := specCode_lt dd
  exact ⟨by show 0o106000 + dd.code < 65536; omega, words_one rfl⟩

theorem rolb (dd : OpSpec) : Statement (.rolb dd) := by
  have := specCode_lt dd
  exact ⟨by show 0o106100 + dd.code < 65536; omega, words_one rfl⟩

theorem asrb (dd : OpSpec) : Statement (.asrb dd) := by
  have := specCode_lt dd
  exact ⟨by show 0o106200 + dd.code < 65536; omega, words_one rfl⟩

theorem aslb (dd : OpSpec) : Statement (.aslb dd) := by
  have := specCode_lt dd
  exact ⟨by show 0o106300 + dd.code < 65536; omega, words_one rfl⟩

theorem mfpd (ss : OpSpec) : Statement (.mfpd ss) := by
  have := specCode_lt ss
  exact ⟨by show 0o106500 + ss.code < 65536; omega, words_one rfl⟩

theorem mtpd (dd : OpSpec) : Statement (.mtpd dd) := by
  have := specCode_lt dd
  exact ⟨by show 0o106600 + dd.code < 65536; omega, words_one rfl⟩

theorem cfcc : Statement (.cfcc) := by
  exact ⟨by decide, words_none rfl⟩

theorem setf : Statement (.setf) := by
  exact ⟨by decide, words_none rfl⟩

theorem seti : Statement (.seti) := by
  exact ⟨by decide, words_none rfl⟩

theorem setd : Statement (.setd) := by
  exact ⟨by decide, words_none rfl⟩

theorem setl : Statement (.setl) := by
  exact ⟨by decide, words_none rfl⟩

theorem ldfps (ss : OpSpec) : Statement (.ldfps ss) := by
  have := specCode_lt ss
  exact ⟨by show 0o170100 + ss.code < 65536; omega, words_one rfl⟩

theorem stfps (dd : OpSpec) : Statement (.stfps dd) := by
  have := specCode_lt dd
  exact ⟨by show 0o170200 + dd.code < 65536; omega, words_one rfl⟩

theorem stst (dd : OpSpec) : Statement (.stst dd) := by
  have := specCode_lt dd
  exact ⟨by show 0o170300 + dd.code < 65536; omega, words_one rfl⟩

theorem clrf (dd : OpSpec) : Statement (.clrf dd) := by
  have := specCode_lt dd
  exact ⟨by show 0o170400 + dd.code < 65536; omega, words_one rfl⟩

theorem tstf (ss : OpSpec) : Statement (.tstf ss) := by
  have := specCode_lt ss
  exact ⟨by show 0o170500 + ss.code < 65536; omega, words_one rfl⟩

theorem absf (dd : OpSpec) : Statement (.absf dd) := by
  have := specCode_lt dd
  exact ⟨by show 0o170600 + dd.code < 65536; omega, words_one rfl⟩

theorem negf (dd : OpSpec) : Statement (.negf dd) := by
  have := specCode_lt dd
  exact ⟨by show 0o170700 + dd.code < 65536; omega, words_one rfl⟩

theorem mulf (ac : Fin 4) (ss : OpSpec) : Statement (.mulf ac ss) := by
  have := ac.isLt
  have := specCode_lt ss
  exact ⟨by show 0o171000 + 64 * ac.val + ss.code < 65536; omega, words_one rfl⟩

theorem modf (ac : Fin 4) (ss : OpSpec) : Statement (.modf ac ss) := by
  have := ac.isLt
  have := specCode_lt ss
  exact ⟨by show 0o171400 + 64 * ac.val + ss.code < 65536; omega, words_one rfl⟩

theorem addf (ac : Fin 4) (ss : OpSpec) : Statement (.addf ac ss) := by
  have := ac.isLt
  have := specCode_lt ss
  exact ⟨by show 0o172000 + 64 * ac.val + ss.code < 65536; omega, words_one rfl⟩

theorem ldf (ac : Fin 4) (ss : OpSpec) : Statement (.ldf ac ss) := by
  have := ac.isLt
  have := specCode_lt ss
  exact ⟨by show 0o172400 + 64 * ac.val + ss.code < 65536; omega, words_one rfl⟩

theorem subf (ac : Fin 4) (ss : OpSpec) : Statement (.subf ac ss) := by
  have := ac.isLt
  have := specCode_lt ss
  exact ⟨by show 0o173000 + 64 * ac.val + ss.code < 65536; omega, words_one rfl⟩

theorem cmpf (ac : Fin 4) (ss : OpSpec) : Statement (.cmpf ac ss) := by
  have := ac.isLt
  have := specCode_lt ss
  exact ⟨by show 0o173400 + 64 * ac.val + ss.code < 65536; omega, words_one rfl⟩

theorem stf (ac : Fin 4) (dd : OpSpec) : Statement (.stf ac dd) := by
  have := ac.isLt
  have := specCode_lt dd
  exact ⟨by show 0o174000 + 64 * ac.val + dd.code < 65536; omega, words_one rfl⟩

theorem divf (ac : Fin 4) (ss : OpSpec) : Statement (.divf ac ss) := by
  have := ac.isLt
  have := specCode_lt ss
  exact ⟨by show 0o174400 + 64 * ac.val + ss.code < 65536; omega, words_one rfl⟩

theorem stexp (ac : Fin 4) (dd : OpSpec) : Statement (.stexp ac dd) := by
  have := ac.isLt
  have := specCode_lt dd
  exact ⟨by show 0o175000 + 64 * ac.val + dd.code < 65536; omega, words_one rfl⟩

theorem stcfi (ac : Fin 4) (dd : OpSpec) : Statement (.stcfi ac dd) := by
  have := ac.isLt
  have := specCode_lt dd
  exact ⟨by show 0o175400 + 64 * ac.val + dd.code < 65536; omega, words_one rfl⟩

theorem stcfd (ac : Fin 4) (dd : OpSpec) : Statement (.stcfd ac dd) := by
  have := ac.isLt
  have := specCode_lt dd
  exact ⟨by show 0o176000 + 64 * ac.val + dd.code < 65536; omega, words_one rfl⟩

theorem ldexp (ac : Fin 4) (ss : OpSpec) : Statement (.ldexp ac ss) := by
  have := ac.isLt
  have := specCode_lt ss
  exact ⟨by show 0o176400 + 64 * ac.val + ss.code < 65536; omega, words_one rfl⟩

theorem ldcif (ac : Fin 4) (ss : OpSpec) : Statement (.ldcif ac ss) := by
  have := ac.isLt
  have := specCode_lt ss
  exact ⟨by show 0o177000 + 64 * ac.val + ss.code < 65536; omega, words_one rfl⟩

theorem ldcdf (ac : Fin 4) (ss : OpSpec) : Statement (.ldcdf ac ss) := by
  have := ac.isLt
  have := specCode_lt ss
  exact ⟨by show 0o177400 + 64 * ac.val + ss.code < 65536; omega, words_one rfl⟩

theorem reserved (ir : Word) : Statement (.reserved ir) := by
  have := ir.isLt
  exact ⟨by show ir.toNat < 65536; omega, words_none rfl⟩

theorem fppIllegal (ir : Word) : Statement (.fppIllegal ir) := by
  have := ir.isLt
  exact ⟨by show ir.toNat < 65536; omega, words_none rfl⟩

end Sys2Proof.Laws.Length
end

