-- ==== Sys2Proof/Laws/Step.lean ====
section
/-! SUPPORT. What one step of the machine can do: it leaves a state related to the first, for every relation closed under
the named updates; and what it does when nothing but the instruction at the PC is due. -/

namespace Sys2Proof.Machine

/-- Closed under everything a step can do. -/
structure CycleRel (R : State → State → Prop) : Prop extends ExecRel R, FppRel R where
  undelay : ∀ s, R s (s.setIrqDelay false)
  unflag : ∀ s, s.arbitrate.1 ≤ pswPri s.psw → R s (s.setIrqFlag false)
  consume : ∀ s k, R s (s.setDevices (setRequest s.devices k none))
  mmr2 : ∀ s v, R s (s.setMmu { s.mmu with mmr1 := 0, mmr2 := v })
  inputs : ∀ s, R s s.takeInputs

section
variable {R : State → State → Prop}

theorem consumeRequest_rel (h : CycleRel R) (s : State) (k : Option Nat) : R s (s.consumeRequest k).2 := by
  unfold State.consumeRequest
  split
  · exact h.refl s
  · split
    · split
      · exact h.consume s _
      · exact h.refl s
    · exact h.refl s

/-- An interrupt check clears the flag where nothing stands above the priority, else it takes the interrupt (R622). -/
theorem interruptCheck_rel (h : CycleRel R) (s : State) : R s s.interruptCheck.2 := by
  unfold State.interruptCheck
  simp only
  split
  · refine h.trans (consumeRequest_rel h s s.arbitrate.2) ?_
    split
    · exact h.trans (h.setRunState _ _) (h.trans (h.flagIrq _) (h.trapSeq _ _))
    · exact h.trans (h.flagIrq _) (h.trapSeq _ _)
  · exact h.unflag s (by omega)

theorem boundary_rel (h : CycleRel R) (s : State) : R s s.boundary := by
  unfold State.boundary
  split_ifs
  · exact h.undelay s
  · exact interruptCheck_rel h s
  · exact h.refl s

theorem deferredTrap_rel (h : CycleRel R) (s : State) : R s s.deferredTrap := by
  unfold State.deferredTrap
  split_ifs <;> first | exact h.trapSeq _ _ | exact h.refl s

theorem fetch_post (h : CycleRel R) : Post R R fetch := by
  refine Post.bind h.toComposes (Post.change fun s => ?_) fun _ => Post.get_bind fun s => ?_
  · simp only [State.noteFetch]
    split
    · exact h.refl s
    · exact h.mmr2 s _
  · exact Post.bind h.toComposes (memRead_post h.toAccessRel _ _) (fun _ =>
      Post.bind h.toComposes (Post.change fun s => h.setPc s _) fun _ => Post.pure h.toComposes _) s

/-- The state a cycle's start leads to. -/
def CycleStart.state : CycleStart → State
  | .execute _ _ s => s
  | .done s => s

theorem endCycle_rel (h : CycleRel R) (s : State) (b : Bool) : R s (s.endCycle b) := by
  unfold State.endCycle
  split
  · exact h.setRunState s _
  · exact h.refl s

theorem fetchInstr_rel (h : CycleRel R) (b : Bool) (s : State) : R s (fetchInstr b s).state := by
  have h0 : R s s.traceSnapshot := h.setTrace s _
  have hp := fetch_post h s.traceSnapshot
  unfold fetchInstr
  unfold PostAt at hp
  split at hp <;> rename_i hm <;> simp only [hm, CycleStart.state]
  · exact h.trans h0 hp
  · exact h.trans h0 (h.trans hp (h.trans (h.trapSeq _ _) (endCycle_rel h _ _)))

theorem afterBoundary_rel (h : CycleRel R) (b : Bool) (s : State) : R s (afterBoundary b s).state := by
  unfold afterBoundary
  split_ifs
  · exact h.refl s
  · exact deferredTrap_rel h s
  · exact h.trans (deferredTrap_rel h s) (fetchInstr_rel h b _)

theorem waiting_rel (h : CycleRel R) (s : State) : R s (waiting s).state := by
  unfold waiting
  simp only
  split_ifs
  · exact h.trans (h.undelay s) (h.trans (interruptCheck_rel h _) (afterBoundary_rel h _ _))
  · exact h.trans (h.undelay s) (interruptCheck_rel h _)
  · exact h.refl s

theorem beginCycle_rel (h : CycleRel R) (s : State) : R s (beginCycle s).state := by
  have h0 := h.inputs s
  unfold beginCycle
  simp only
  split
  · exact h0
  · exact h.trans h0 (waiting_rel h _)
  · exact h.trans h0 (h.trans (boundary_rel h _) (afterBoundary_rel h _ _))
  · exact h.trans h0 (h.trans (boundary_rel h _) (afterBoundary_rel h _ _))
  · exact h.trans h0 (h.trans (h.setRunState _ _) (h.trans (boundary_rel h _) (afterBoundary_rel h _ _)))

/-- Every step leaves a related state. -/
theorem step_rel (h : CycleRel R) {s t : State} (he : step s = .next t) : R s t := by
  have hb := beginCycle_rel h s
  unfold step at he
  split at he
  · rename_i u hu
    rw [hu] at hb
    cases he
    exact hb
  · rename_i i b u hu
    rw [hu] at hb
    split at he
    · rename_i v hv
      cases he
      exact h.trans hb (h.trans (exec_rel h.toExecRel h.toFppRel i hv) (endCycle_rel h _ _))
    · cases he
    · cases he

end

/-- The events of a boundary leave a related state if each one does. -/
theorem takeInputs_rel {R : State → State → Prop} (c : Composes R R) (hi : ∀ s v, R s (s.setInputs v))
    (h1 : ∀ s e, R s (s.applyInput e)) (s : State) : R s s.takeInputs := by
  have h2 : ∀ (es : List Input) (s : State), R s (s.applyInputs es) := by
    intro es
    induction es with
    | nil => exact c.refl
    | cons e es ih => intro s; exact c.trans (h1 s e) (ih _)
  unfold State.takeInputs
  split
  · exact c.refl s
  · exact c.trans (hi s _) (h2 _ _)

/-! ### The fetch -/

/-- The state in which the instruction word is read: the trace trap requested where PSW.T is set, and, unless an abort is
frozen, MMR1 at 0 and MMR2 at the PC (R632, R633). -/
theorem State.noteFetch_eq (s : State) : s.traceSnapshot.noteFetch = { s with
    mmu := if s.mmu.mmr0.extractLsb' 13 3 = 0 then { s.mmu with mmr1 := 0, mmr2 := s.pc } else s.mmu
    ctl := { s.ctl with pending := { s.ctl.pending with trace := s.psw.getLsbD 4 } } } := by
  change (if mmr0Frozen s.mmu.mmr0 = true then _ else _) = _
  by_cases h : s.mmu.mmr0.extractLsb' 13 3 = 0
  · rw [if_neg fun hf => (mmr0Frozen_iff _).1 hf h, if_pos h]; rfl
  · rw [if_pos ((mmr0Frozen_iff _).2 h), if_neg h]; rfl

theorem State.noteFetch_pc (s : State) : s.noteFetch.pc = s.pc := by unfold State.noteFetch; split <;> rfl

/-- A fetch answers the word at the PC, which moves past it (R633). -/
theorem fetch_run {s t : State} {ir : Word} (h : memRead (inI s.pc) .word s.noteFetch = .ok ir t) :
    fetch s = .ok ir (t.setPc (s.pc + 2)) := by
  unfold fetch
  rw [change_bind, get_bind, s.noteFetch_pc, bind_ok h, change_bind, (memRead_post pcSame_access _ _ _).ok h,
    s.noteFetch_pc]
  rfl

/-- One that aborts leaves the PC at the instruction (R633). -/
theorem fetch_abort {s t : State} {v : Word} (h : memRead (inI s.pc) .word s.noteFetch = .error v t) :
    fetch s = .error v t := by
  unfold fetch
  rw [change_bind, get_bind, s.noteFetch_pc, bind_error h]

/-! ### Arbitration -/

theorem arbitrateFrom_le (best : Nat × Option Nat) (k : Nat) (ds : List Device) (n : Nat) :
    (arbitrateFrom best k ds).1 ≤ n ↔ best.1 ≤ n ∧ ∀ d ∈ ds, pollLevel d ≤ n := by
  induction ds generalizing best k with
  | nil => simp [arbitrateFrom]
  | cons d ds ih =>
    simp only [arbitrateFrom, ih, List.mem_cons, forall_eq_or_imp]
    split_ifs with h
    · constructor
      · rintro ⟨h1, h2⟩
        simp only at h1
        exact ⟨by omega, h1, h2⟩
      · rintro ⟨-, h1, h2⟩
        exact ⟨h1, h2⟩
    · constructor
      · rintro ⟨h1, h2⟩
        exact ⟨h1, by omega, h2⟩
      · rintro ⟨h1, -, h2⟩
        exact ⟨h1, h2⟩

/-- The best level is at most `n` exactly when no request stands above `n` (R621). -/
theorem arbitrate_le (s : State) (n : Nat) :
    s.arbitrate.1 ≤ n ↔ pirLevelField s.ctl.pirq ≤ n ∧ ∀ d ∈ s.devices, ∀ r, d.request = some r → r.level.toNat ≤ n := by
  unfold State.arbitrate
  rw [arbitrateFrom_le]
  refine and_congr Iff.rfl (forall₂_congr fun d _ => ?_)
  unfold pollLevel
  cases d.request <;> simp

/-! ### The events of a boundary -/

/-- The events of a boundary are applied one after the other (R646). -/
theorem State.applyInputs_foldl (es : List Input) (s : State) : s.applyInputs es = es.foldl (fun u e => u.applyInput e) s := by
  induction es generalizing s with
  | nil => rfl
  | cons e es ih => exact ih _

/-- Changing the request of the device behind the first ones (R620). -/
theorem setRequest_mid (pre : List Device) (d : Device) (post : List Device) (r) :
    setRequest (pre ++ d :: post) pre.length r = pre ++ { d with request := r } :: post := by
  induction pre with
  | nil => rfl
  | cons a l ih => exact congrArg (a :: ·) ih

/-- A number that names no device changes no request. -/
theorem setRequest_out (ds : List Device) (k : Nat) (r) (h : ds.length ≤ k) : setRequest ds k r = ds := by
  unfold setRequest
  exact List.modify_eq_self h

end Sys2Proof.Machine
end

