-- ==== Sys2Proof/Tests/Slice0.lean ====
section
/-! SUPPORT. Tests: well-formedness, decoding of words written out from the spec's encoding tables, one step of each
instruction taken from the spec's own test vectors (95_test_vectors.md, 96_test_vectors_mmu_traps_fpp.md; the section is
named in parentheses), and witnesses for the statements that have hypotheses. -/

open Sys2Proof Sys2Proof.Machine

namespace Sys2Proof.Tests

set_option Elab.async false

/-! ### Well-formedness and decoding -/

/-- An ill-formed term for each check, just outside the ranges of R160 and R162, is refused. -/
theorem test_ill_formed :
    (Instr.reserved 0o6).wf = false ∧ (Instr.reserved 0o100).wf = false ∧ (Instr.reserved 0o207).wf = false ∧
      (Instr.reserved 0o230).wf = false ∧ (Instr.reserved 0o6777).wf = false ∧ (Instr.reserved 0o10000).wf = false ∧
      (Instr.reserved 0o74777).wf = false ∧ (Instr.reserved 0o77000).wf = false ∧ (Instr.reserved 0o106377).wf = false ∧
      (Instr.reserved 0o106500).wf = false ∧ (Instr.reserved 0o106677).wf = false ∧ (Instr.reserved 0o110000).wf = false ∧
      (Instr.fppIllegal 0o170002).wf = false ∧ (Instr.fppIllegal 0o170011).wf = false ∧
      (Instr.fppIllegal 0o170012).wf = false ∧ (Instr.fppIllegal 0o170100).wf = false := by
  decide +kernel

/-- A list of bytes shorter than a word is no instruction. -/
theorem test_truncated : (match decode [0o2] with | .ok _ => false | .error e => e == .truncated) = true := by
  decide +kernel

/-- Whether the decoder reads an instruction from a word's two bytes, low byte first, whatever follows. -/
def reads (w : Word) (i : Instr) : Bool :=
  (match decode [w.extractLsb' 0 8, w.extractLsb' 8 8, 0o377] with
    | .ok (j, rest) => j == i && rest == [0o377]
    | .error _ => false) && encodeWord i == w

/-- Words written out from the tables of R146, R149: no operand, or one small field. -/
theorem test_decode_zero_operand :
    (reads 0o000000 (.halt) && reads 0o000001 (.wait) && reads 0o000002 (.rti) && reads 0o000003 (.bpt) &&
      reads 0o000004 (.iot) && reads 0o000005 (.reset) && reads 0o000006 (.rtt) && reads 0o000207 (.rts .pc) &&
      reads 0o000235 (.spl 5) && reads 0o000252 (.clx 0b1010) && reads 0o000272 (.sex 0b1010) &&
      reads 0o006452 (.mark 0o52) && reads 0o007123 (.reserved 0o007123)) = true := by
  decide +kernel

/-- Words written out from the tables of R146, R149: format SOP. -/
theorem test_decode_single_operand :
    (reads 0o000112 (.jmp ⟨.deferred, .gen 2⟩) && reads 0o000303 (.swab ⟨.direct, .gen 3⟩) &&
      reads 0o005030 (.clr ⟨.autoIncDeferred, .gen 0⟩) && reads 0o005165 (.com ⟨.index, .gen 5⟩) &&
      reads 0o005212 (.inc ⟨.deferred, .gen 2⟩) && reads 0o005347 (.dec ⟨.autoDec, .pc⟩) &&
      reads 0o005474 (.neg ⟨.indexDeferred, .gen 4⟩) && reads 0o005521 (.adc ⟨.autoInc, .gen 1⟩) &&
      reads 0o005656 (.sbc ⟨.autoDecDeferred, .sp⟩) && reads 0o005703 (.tst ⟨.direct, .gen 3⟩) &&
      reads 0o006030 (.ror ⟨.autoIncDeferred, .gen 0⟩) && reads 0o006165 (.rol ⟨.index, .gen 5⟩) &&
      reads 0o006212 (.asr ⟨.deferred, .gen 2⟩) && reads 0o006347 (.asl ⟨.autoDec, .pc⟩) &&
      reads 0o006521 (.mfpi ⟨.autoInc, .gen 1⟩) && reads 0o006656 (.mtpi ⟨.autoDecDeferred, .sp⟩) &&
      reads 0o006703 (.sxt ⟨.direct, .gen 3⟩) && reads 0o105074 (.clrb ⟨.indexDeferred, .gen 4⟩) &&
      reads 0o105121 (.comb ⟨.autoInc, .gen 1⟩) && reads 0o105256 (.incb ⟨.autoDecDeferred, .sp⟩) &&
      reads 0o105303 (.decb ⟨.direct, .gen 3⟩) && reads 0o105430 (.negb ⟨.autoIncDeferred, .gen 0⟩) &&
      reads 0o105565 (.adcb ⟨.index, .gen 5⟩) && reads 0o105612 (.sbcb ⟨.deferred, .gen 2⟩) &&
      reads 0o105747 (.tstb ⟨.autoDec, .pc⟩) && reads 0o106074 (.rorb ⟨.indexDeferred, .gen 4⟩) &&
      reads 0o106121 (.rolb ⟨.autoInc, .gen 1⟩) && reads 0o106256 (.asrb ⟨.autoDecDeferred, .sp⟩) &&
      reads 0o106303 (.aslb ⟨.direct, .gen 3⟩) && reads 0o106530 (.mfpd ⟨.autoIncDeferred, .gen 0⟩) &&
      reads 0o106665 (.mtpd ⟨.index, .gen 5⟩)) = true := by
  decide +kernel

/-- Words written out from the tables of R146, R149: formats BR and TRP. -/
theorem test_decode_branch :
    (reads 0o000607 (.br 0o207) && reads 0o001254 (.bne 0o254) && reads 0o001721 (.beq 0o321) &&
      reads 0o002366 (.bge 0o366) && reads 0o002433 (.blt 0o33) && reads 0o003100 (.bgt 0o100) &&
      reads 0o003545 (.ble 0o145) && reads 0o100231 (.bpl 0o231) && reads 0o100676 (.bmi 0o276) &&
      reads 0o101343 (.bhi 0o343) && reads 0o101410 (.blos 0o10) && reads 0o102055 (.bvc 0o55) &&
      reads 0o102522 (.bvs 0o122) && reads 0o103167 (.bcc 0o167) && reads 0o103634 (.bcs 0o234) &&
      reads 0o104301 (.emt 0o301) && reads 0o104746 (.trap 0o346)) = true := by
  decide +kernel

/-- Words written out from the tables of R146, R148: formats RSS and SOB. -/
theorem test_decode_register_source :
    (reads 0o004403 (.jsr (.gen 4) ⟨.direct, .gen 3⟩) && reads 0o070374 (.mul (.gen 3) ⟨.indexDeferred, .gen 4⟩) &&
      reads 0o071621 (.div .sp ⟨.autoInc, .gen 1⟩) && reads 0o072156 (.ash (.gen 1) ⟨.autoDecDeferred, .sp⟩) &&
      reads 0o073403 (.ashc (.gen 4) ⟨.direct, .gen 3⟩) && reads 0o074730 (.xor .pc ⟨.autoIncDeferred, .gen 0⟩) &&
      reads 0o077225 (.sob (.gen 2) 0o25)) = true := by
  decide +kernel

/-- Words written out from the tables of R147: format DOP. -/
theorem test_decode_double_operand :
    (reads 0o013067 (.mov ⟨.autoIncDeferred, .gen 0⟩ ⟨.index, .pc⟩) &&
      reads 0o026552 (.cmp ⟨.index, .gen 5⟩ ⟨.autoDecDeferred, .gen 2⟩) &&
      reads 0o031245 (.bit ⟨.deferred, .gen 2⟩ ⟨.autoDec, .gen 5⟩) &&
      reads 0o044730 (.bic ⟨.autoDec, .pc⟩ ⟨.autoIncDeferred, .gen 0⟩) &&
      reads 0o057423 (.bis ⟨.indexDeferred, .gen 4⟩ ⟨.autoInc, .gen 3⟩) &&
      reads 0o062116 (.add ⟨.autoInc, .gen 1⟩ ⟨.deferred, .sp⟩) &&
      reads 0o115601 (.movb ⟨.autoDecDeferred, .sp⟩ ⟨.direct, .gen 1⟩) &&
      reads 0o120374 (.cmpb ⟨.direct, .gen 3⟩ ⟨.indexDeferred, .gen 4⟩) &&
      reads 0o133067 (.bitb ⟨.autoIncDeferred, .gen 0⟩ ⟨.index, .pc⟩) &&
      reads 0o146552 (.bicb ⟨.index, .gen 5⟩ ⟨.autoDecDeferred, .gen 2⟩) &&
      reads 0o151245 (.bisb ⟨.deferred, .gen 2⟩ ⟨.autoDec, .gen 5⟩) &&
      reads 0o164730 (.sub ⟨.autoDec, .pc⟩ ⟨.autoIncDeferred, .gen 0⟩)) = true := by
  decide +kernel

/-- Words written out from the tables of R150: formats FP0 and FP1. -/
theorem test_decode_floating_one :
    (reads 0o170000 (.cfcc) && reads 0o170001 (.setf) && reads 0o170002 (.seti) && reads 0o170011 (.setd) &&
      reads 0o170012 (.setl) && reads 0o170103 (.ldfps ⟨.direct, .gen 3⟩) &&
      reads 0o170230 (.stfps ⟨.autoIncDeferred, .gen 0⟩) && reads 0o170365 (.stst ⟨.index, .gen 5⟩) &&
      reads 0o170412 (.clrf ⟨.deferred, .gen 2⟩) && reads 0o170547 (.tstf ⟨.autoDec, .pc⟩) &&
      reads 0o170674 (.absf ⟨.indexDeferred, .gen 4⟩) && reads 0o170721 (.negf ⟨.autoInc, .gen 1⟩) &&
      reads 0o170013 (.fppIllegal 0o170013)) = true := by
  decide +kernel

/-- Words written out from the tables of R150: format FP2. -/
theorem test_decode_floating_two :
    (reads 0o171056 (.mulf 0 ⟨.autoDecDeferred, .sp⟩) && reads 0o171503 (.modf 1 ⟨.direct, .gen 3⟩) &&
      reads 0o172230 (.addf 2 ⟨.autoIncDeferred, .gen 0⟩) && reads 0o172765 (.ldf 3 ⟨.index, .gen 5⟩) &&
      reads 0o173012 (.subf 0 ⟨.deferred, .gen 2⟩) && reads 0o173547 (.cmpf 1 ⟨.autoDec, .pc⟩) &&
      reads 0o174274 (.stf 2 ⟨.indexDeferred, .gen 4⟩) && reads 0o174721 (.divf 3 ⟨.autoInc, .gen 1⟩) &&
      reads 0o175056 (.stexp 0 ⟨.autoDecDeferred, .sp⟩) && reads 0o175503 (.stcfi 1 ⟨.direct, .gen 3⟩) &&
      reads 0o176230 (.stcfd 2 ⟨.autoIncDeferred, .gen 0⟩) && reads 0o176765 (.ldexp 3 ⟨.index, .gen 5⟩) &&
      reads 0o177012 (.ldcif 0 ⟨.deferred, .gen 2⟩) && reads 0o177547 (.ldcdf 1 ⟨.autoDec, .pc⟩)) = true := by
  decide +kernel

/-! ### One step of each instruction -/

/-- The trap vectors of section 2.7. -/
def trapVectors : List (Nat × Word) :=
  [(0o4, 0o4000), (0o6, 0o340), (0o10, 0o4100), (0o12, 0o340), (0o14, 0o4200), (0o16, 0o340), (0o20, 0o4300), (0o22, 0o340),
    (0o30, 0o4400), (0o32, 0o340), (0o34, 0o4500), (0o36, 0o340)]

/-- The start state of part 2: PC and kernel stack pointer 0o1000, everything else 0, memory as listed, main memory below
0o760000, running. -/
def running (mem : List (Nat × Word)) : State :=
  let image : Memory := mem.foldl (fun m c => Memory.writeWord m c.1 c.2) []
  let s : State := { State.reset.setMem image with params := { memCeiling := 0o760000 } }
  ((s.setPc 0o1000).writeSpm .kernel 0o1000).setRunState .run

/-- The state after one step. -/
def after (s : State) : State :=
  match step s with
  | .next t => t
  | .fault _ => s
  | .refused _ => s

/-- Whether a branch of offset 2 goes to 0o1006 exactly for the flag values listed by bit in `table` (section 2.6: one
row a value of NZVC), the PC being 0o1002. -/
def branches (b : BitVec 8 → Instr) (table : Nat) : Bool :=
  (List.range 16).all fun f =>
    match exec (b 2) ((State.reset.setPc 0o1002).setPsw (BitVec.ofNat 16 f)) with
    | .next t => t.pc == if table.testBit f then 0o1006 else 0o1002
    | .fault _ => false
    | .refused _ => false

/-- The truth table of the fifteen branches (section 2.6). -/
theorem test_branches :
    (branches .br 0xffff && branches .bne 0x0f0f && branches .beq 0xf0f0 && branches .bge 0xcc33 &&
      branches .blt 0x33cc && branches .bgt 0x0c03 && branches .ble 0xf3fc && branches .bpl 0x00ff &&
      branches .bmi 0xff00 && branches .bhi 0x0505 && branches .blos 0xfafa && branches .bvc 0x3333 &&
      branches .bvs 0xcccc && branches .bcc 0x5555 && branches .bcs 0xaaaa) = true := by
  decide +kernel

/-- HALT (2.7). -/
theorem test_halt :
    let t := after (running (trapVectors ++ [(0o1000, 0o0)])
      |>.writeSpm .user 0o010000
      |>.setPsw 0o170000)
    t.ctl.runState = .run ∧ t.pc = 0o004000 ∧ t.psw = 0o030340 ∧ t.readSpm .kernel = 0o000774 ∧
      t.readSpm .user = 0o010000 ∧ Memory.readWord t.mem 0o000776 = 0o170000 ∧
      Memory.readWord t.mem 0o000774 = 0o001002 ∧ t.ctl.cpuErr = 0o000200 := by
  decide +kernel

/-- WAIT (2.7). -/
theorem test_wait :
    let t := after (running [(0o1000, 0o1)])
    t.ctl.runState = .wait ∧ t.pc = 0o001002 := by
  decide +kernel

/-- RTI (2.7). -/
theorem test_rti :
    let t := after (running [(0o1000, 0o2), (0o1400, 0o2000), (0o1402, 0o170017)]
      |>.writeSpm .kernel 0o001400
      |>.writeSpm .user 0o010000)
    t.pc = 0o002000 ∧ t.psw = 0o170017 ∧ t.readSpm .kernel = 0o001404 ∧ t.readSpm .user = 0o010000 := by
  decide +kernel

/-- BPT (2.10). -/
theorem test_bpt :
    let t := after (running (trapVectors ++ [(0o1000, 0o3)])
      |>.writeSpm .kernel 0o002000
      |>.onCtl (fun c => { c with slr := 0o001400 }))
    t.pc = 0o004200 ∧ t.readReg .sp = 0o001774 ∧ Memory.readWord t.mem 0o001776 = 0o000000 ∧
      Memory.readWord t.mem 0o001774 = 0o001002 ∧ t.ctl.cpuErr = 0o000010 ∧
      t.ctl.pending = { mmu := false, yellow := true, fpp := false, trace := false } := by
  decide +kernel

/-- IOT (2.7). -/
theorem test_iot :
    let t := after (running (trapVectors ++ [(0o1000, 0o4)]))
    t.pc = 0o004300 ∧ t.psw = 0o000340 ∧ t.readReg .sp = 0o000774 ∧ Memory.readWord t.mem 0o000774 = 0o001002 := by
  decide +kernel

/-- RESET (2.7). -/
theorem test_reset :
    let t := after (running [(0o1000, 0o5)]
      |>.onMmu (fun c => { c with mmr0 := 0o001000 })
      |>.onMmu (fun c => { c with mmr3 := 0o000027 })
      |>.onCtl (fun c => { c with slr := 0o000400 })
      |>.onCtl (fun c => { c with cpuErr := 0o000100 })
      |>.writeCore .pirq 0o001000
      |>.setPsw 0o340)
    t.pc = 0o001002 ∧ t.psw = 0o000340 ∧ t.mmu.visibleMmr0 = 0o000000 ∧ t.ctl.cpuErr = 0o000000 := by
  decide +kernel

/-- JMP (R1)+ (2.6). -/
theorem test_jmp :
    let t := after (running [(0o1000, 0o121)]
      |>.writeGen false 1 0o003000)
    t.pc = 0o003000 ∧ t.readReg (.gen 1) = 0o003002 := by
  decide +kernel

/-- JMP R1 (mode 0) (2.6). -/
theorem test_jmp_trap :
    let t := after (running (trapVectors ++ [(0o10, 0o5000), (0o1000, 0o101)])
      |>.writeGen false 1 0o003000)
    t.pc = 0o005000 ∧ t.psw = 0o000340 ∧ t.readReg .sp = 0o000774 ∧
      Memory.readWord t.mem 0o000776 = 0o000000 ∧ Memory.readWord t.mem 0o000774 = 0o001002 := by
  decide +kernel

/-- RTS PC (2.6). -/
theorem test_rts :
    let t := after (running [(0o774, 0o1004), (0o1000, 0o207)]
      |>.writeSpm .kernel 0o000774)
    t.pc = 0o001004 ∧ t.readReg .sp = 0o000776 ∧ t.mmu.mmr1 = 0o000026 := by
  decide +kernel

/-- SPL 7 (2.7). -/
theorem test_spl :
    let t := after (running [(0o1000, 0o237)])
    t.psw = 0o000340 := by
  decide +kernel

/-- CLC (2.7). -/
theorem test_clx :
    let t := after (running [(0o1000, 0o241)]
      |>.setPsw 0o17)
    t.psw &&& 0o17 = 0o16 := by
  decide +kernel

/-- SCC (2.7). -/
theorem test_sex :
    let t := after (running [(0o1000, 0o277)])
    t.psw &&& 0o17 = 0o17 := by
  decide +kernel

/-- SWAB R1 (2.2). -/
theorem test_swab :
    let t := after (running [(0o1000, 0o301)]
      |>.writeGen false 1 0o000377)
    t.readReg (.gen 1) = 0o177400 ∧ t.psw &&& 0o17 = 0o4 := by
  decide +kernel

/-- JSR PC,@#3000 (2.10). -/
theorem test_jsr :
    let t := after (running [(0o1000, 0o4737), (0o1002, 0o3000)]
      |>.writeSpm .kernel 0o002000
      |>.onCtl (fun c => { c with slr := 0o001400 }))
    t.pc = 0o003000 ∧ t.readReg .sp = 0o001776 ∧ Memory.readWord t.mem 0o001776 = 0o001004 ∧
      t.ctl.cpuErr = 0o000010 ∧ t.ctl.pending = { mmu := false, yellow := true, fpp := false, trace := false } := by
  decide +kernel

/-- CLR -(SP) (2.10). -/
theorem test_clr :
    let t := after (running [(0o1000, 0o5046)]
      |>.writeSpm .kernel 0o002000
      |>.onCtl (fun c => { c with slr := 0o001400 }))
    t.readReg .sp = 0o001776 ∧ t.ctl.cpuErr = 0o000010 ∧
      t.ctl.pending = { mmu := false, yellow := true, fpp := false, trace := false } := by
  decide +kernel

/-- CLR 3(R1) (odd address) (2.5). -/
theorem test_clr_trap :
    let t := after (running (trapVectors ++ [(0o1000, 0o5061), (0o1002, 0o3)])
      |>.writeGen false 1 0o002000)
    t.pc = 0o004000 ∧ t.readReg .sp = 0o000774 ∧ Memory.readWord t.mem 0o000776 = 0o000000 ∧
      Memory.readWord t.mem 0o000774 = 0o001004 ∧ t.ctl.cpuErr = 0o000100 := by
  decide +kernel

/-- COM R0 (2.2). -/
theorem test_com :
    let t := after (running [(0o1000, 0o5100)]
      |>.writeGen false 0 0o013333)
    t.readReg (.gen 0) = 0o164444 ∧ t.psw &&& 0o17 = 0o11 := by
  decide +kernel

/-- INC -(SP) (2.10). -/
theorem test_inc :
    let t := after (running [(0o1000, 0o5246)]
      |>.writeSpm .kernel 0o002000
      |>.onCtl (fun c => { c with slr := 0o001400 }))
    t.readReg .sp = 0o001776 ∧ Memory.readWord t.mem 0o001776 = 0o000001 ∧ t.ctl.cpuErr = 0o000010 ∧
      t.ctl.pending = { mmu := false, yellow := true, fpp := false, trace := false } := by
  decide +kernel

/-- DEC R0 (2.2). -/
theorem test_dec :
    let t := after (running [(0o1000, 0o5300)]
      |>.writeGen false 0 0o100000
      |>.setPsw 0o1)
    t.readReg (.gen 0) = 0o077777 ∧ t.psw &&& 0o17 = 0o3 := by
  decide +kernel

/-- NEG R0 (2.2). -/
theorem test_neg :
    let t := after (running [(0o1000, 0o5400)]
      |>.writeGen false 0 0o100000)
    t.readReg (.gen 0) = 0o100000 ∧ t.psw &&& 0o17 = 0o13 := by
  decide +kernel

/-- ADC R1 (2.2). -/
theorem test_adc :
    let t := after (running [(0o1000, 0o5501)]
      |>.writeGen false 1 0o177777
      |>.setPsw 0o1)
    t.readReg (.gen 1) = 0o000000 ∧ t.psw &&& 0o17 = 0o5 := by
  decide +kernel

/-- SBC R1 (2.2). -/
theorem test_sbc :
    let t := after (running [(0o1000, 0o5601)]
      |>.writeGen false 1 0o000000
      |>.setPsw 0o1)
    t.readReg (.gen 1) = 0o177777 ∧ t.psw &&& 0o17 = 0o11 := by
  decide +kernel

/-- TST -(SP) (2.10). -/
theorem test_tst :
    let t := after (running [(0o1000, 0o5746)]
      |>.writeSpm .kernel 0o002000
      |>.onCtl (fun c => { c with slr := 0o001400 }))
    t.readReg .sp = 0o001776 ∧ t.ctl.cpuErr = 0o000000 ∧
      t.ctl.pending = { mmu := false, yellow := false, fpp := false, trace := false } := by
  decide +kernel

/-- TST @#2001 (2.11). -/
theorem test_tst_trap :
    let t := after (running (trapVectors ++ [(0o6, 0o140340), (0o1000, 0o5737), (0o1002, 0o2001)])
      |>.writeSpm .user 0o010000
      |>.setPsw 0o170000)
    t.pc = 0o004000 ∧ t.psw = 0o170340 ∧ t.readSpm .kernel = 0o001000 ∧ t.readSpm .user = 0o007774 ∧
      Memory.readWord t.mem 0o007776 = 0o170000 ∧ Memory.readWord t.mem 0o007774 = 0o001004 ∧
      t.ctl.cpuErr = 0o000100 := by
  decide +kernel

/-- ROR R0 (2.2). -/
theorem test_ror :
    let t := after (running [(0o1000, 0o6000)]
      |>.writeGen false 0 0o000001)
    t.readReg (.gen 0) = 0o000000 ∧ t.psw &&& 0o17 = 0o7 := by
  decide +kernel

/-- ROL R0 (2.2). -/
theorem test_rol :
    let t := after (running [(0o1000, 0o6100)]
      |>.writeGen false 0 0o100000)
    t.readReg (.gen 0) = 0o000000 ∧ t.psw &&& 0o17 = 0o7 := by
  decide +kernel

/-- ASR R0 (2.2). -/
theorem test_asr :
    let t := after (running [(0o1000, 0o6200)]
      |>.writeGen false 0 0o000001)
    t.readReg (.gen 0) = 0o000000 ∧ t.psw &&& 0o17 = 0o7 := by
  decide +kernel

/-- ASL R0 (2.2). -/
theorem test_asl :
    let t := after (running [(0o1000, 0o6300)]
      |>.writeGen false 0 0o100000)
    t.readReg (.gen 0) = 0o000000 ∧ t.psw &&& 0o17 = 0o7 := by
  decide +kernel

/-- MARK 2 (2.6). -/
theorem test_mark :
    let t := after (running [(0o770, 0o6402), (0o776, 0o5555)]
      |>.writeSpm .kernel 0o000760
      |>.setPc 0o000770
      |>.writeGen false 5 0o001040)
    t.readReg .sp = 0o001000 ∧ t.pc = 0o001040 ∧ t.readReg (.gen 5) = 0o005555 := by
  decide +kernel

/-- MFPI @#2000 (2.7). -/
theorem test_mfpi :
    let t := after (running [(0o1000, 0o6537), (0o1002, 0o2000), (0o2000, 0o100001)]
      |>.setPsw 0o30000)
    t.readReg .sp = 0o000776 ∧ Memory.readWord t.mem 0o000776 = 0o100001 ∧ t.psw &&& 0o17 = 0o10 ∧
      t.mmu.mmr1 = 0o000366 := by
  decide +kernel

/-- MTPI SP (2.7). -/
theorem test_mtpi :
    let t := after (running [(0o776, 0o7000), (0o1000, 0o6606)]
      |>.writeSpm .kernel 0o000776
      |>.writeSpm .user 0o000000
      |>.setPsw 0o30000)
    t.readSpm .kernel = 0o001000 ∧ t.readSpm .user = 0o007000 ∧ t.psw &&& 0o17 = 0o0 := by
  decide +kernel

/-- SXT R2 (2.2). -/
theorem test_sxt :
    let t := after (running [(0o1000, 0o6702)]
      |>.writeGen false 2 0o001234
      |>.setPsw 0o13)
    t.readReg (.gen 2) = 0o177777 ∧ t.psw &&& 0o17 = 0o11 := by
  decide +kernel

/-- MOV R0,-(SP) (2.10). -/
theorem test_mov :
    let t := after (running [(0o1000, 0o10046)]
      |>.writeSpm .kernel 0o002000
      |>.writeGen false 0 0o007777
      |>.onCtl (fun c => { c with slr := 0o001400 }))
    t.readReg .sp = 0o001776 ∧ Memory.readWord t.mem 0o001776 = 0o007777 ∧ t.ctl.cpuErr = 0o000010 ∧
      t.ctl.pending = { mmu := false, yellow := true, fpp := false, trace := false } ∧ t.pc = 0o001002 := by
  decide +kernel

/-- MOV R0,-(SP) (2.10). -/
theorem test_mov_trap :
    let t := after (running (trapVectors ++ [(0o1000, 0o10046)])
      |>.writeSpm .kernel 0o001740
      |>.writeGen false 0 0o007777
      |>.onCtl (fun c => { c with slr := 0o001400 }))
    t.pc = 0o004000 ∧ t.readReg .sp = 0o000000 ∧ Memory.readWord t.mem 0o001736 = 0o000000 ∧
      Memory.readWord t.mem 0o000002 = 0o000000 ∧ Memory.readWord t.mem 0o000000 = 0o001002 ∧
      t.ctl.cpuErr = 0o000004 ∧ t.ctl.pending = { mmu := false, yellow := false, fpp := false, trace := false } := by
  decide +kernel

/-- CMP R1,R2 (2.1). -/
theorem test_cmp :
    let t := after (running [(0o1000, 0o20102)]
      |>.writeGen false 1 0o077777
      |>.writeGen false 2 0o177777)
    t.psw &&& 0o17 = 0o13 := by
  decide +kernel

/-- BIT R1,R2 (2.1). -/
theorem test_bit :
    let t := after (running [(0o1000, 0o30102)]
      |>.writeGen false 1 0o170000
      |>.writeGen false 2 0o007777
      |>.setPsw 0o3)
    t.readReg (.gen 2) = 0o007777 ∧ t.psw &&& 0o17 = 0o5 := by
  decide +kernel

/-- BIC R1,R2 (2.1). -/
theorem test_bic :
    let t := after (running [(0o1000, 0o40102)]
      |>.writeGen false 1 0o177400
      |>.writeGen false 2 0o125252
      |>.setPsw 0o13)
    t.readReg (.gen 2) = 0o000252 ∧ t.psw &&& 0o17 = 0o1 := by
  decide +kernel

/-- BIS R1,R2 (2.1). -/
theorem test_bis :
    let t := after (running [(0o1000, 0o50102)]
      |>.writeGen false 1 0o100001
      |>.writeGen false 2 0o000006)
    t.readReg (.gen 2) = 0o100007 ∧ t.psw &&& 0o17 = 0o10 := by
  decide +kernel

/-- ADD #2,@#2000 (2.1). -/
theorem test_add :
    let t := after (running [(0o1000, 0o62737), (0o1002, 0o2), (0o1004, 0o2000), (0o2000, 0o177776)])
    Memory.readWord t.mem 0o002000 = 0o000000 ∧ t.psw &&& 0o17 = 0o5 ∧ t.pc = 0o001006 := by
  decide +kernel

/-- MOVB (R1)+,R0 (2.5). -/
theorem test_movb :
    let t := after (running [(0o1000, 0o112100), (0o1776, 0o2006), (0o2000, 0o2004), (0o2002, 0o1111), (0o2004, 0o2222), (0o2006, 0o3333), (0o2010, 0o2000)]
      |>.writeGen false 1 0o002002)
    t.readReg (.gen 0) = 0o000111 ∧ t.readReg (.gen 1) = 0o002003 ∧ t.mmu.mmr1 = 0o000011 := by
  decide +kernel

/-- CMPB R1,R2 (2.1). -/
theorem test_cmpb :
    let t := after (running [(0o1000, 0o120102)]
      |>.writeGen false 1 0o177401
      |>.writeGen false 2 0o000002)
    t.psw &&& 0o17 = 0o11 := by
  decide +kernel

/-- BITB R1,R2 (2.1). -/
theorem test_bitb :
    let t := after (running [(0o1000, 0o130102)]
      |>.writeGen false 1 0o000200
      |>.writeGen false 2 0o000377)
    t.psw &&& 0o17 = 0o10 := by
  decide +kernel

/-- BICB R1,R2 (2.1). -/
theorem test_bicb :
    let t := after (running [(0o1000, 0o140102)]
      |>.writeGen false 1 0o000017
      |>.writeGen false 2 0o177777)
    t.readReg (.gen 2) = 0o177760 ∧ t.psw &&& 0o17 = 0o10 := by
  decide +kernel

/-- BISB R1,R2 (2.1). -/
theorem test_bisb :
    let t := after (running [(0o1000, 0o150102)]
      |>.writeGen false 1 0o000200
      |>.writeGen false 2 0o000400)
    t.readReg (.gen 2) = 0o000600 ∧ t.psw &&& 0o17 = 0o10 := by
  decide +kernel

/-- SUB R1,R2 (2.1). -/
theorem test_sub :
    let t := after (running [(0o1000, 0o160102)]
      |>.writeGen false 1 0o100000
      |>.writeGen false 2 0o000000)
    t.readReg (.gen 2) = 0o100000 ∧ t.psw &&& 0o17 = 0o13 := by
  decide +kernel

/-- MUL #100,R2 (2.3). -/
theorem test_mul :
    let t := after (running [(0o1000, 0o70227), (0o1002, 0o100)]
      |>.writeGen false 2 0o000777)
    t.readReg (.gen 2) = 0o000000 ∧ t.readReg (.gen 3) = 0o077700 ∧ t.psw &&& 0o17 = 0o0 ∧ t.pc = 0o001004 := by
  decide +kernel

/-- DIV R1,R2 (2.3). -/
theorem test_div :
    let t := after (running [(0o1000, 0o71201)]
      |>.writeGen false 1 0o000000
      |>.writeGen false 2 0o000001
      |>.writeGen false 3 0o000002
      |>.setPsw 0o10)
    t.readReg (.gen 2) = 0o000001 ∧ t.readReg (.gen 3) = 0o000002 ∧ t.psw &&& 0o17 = 0o7 := by
  decide +kernel

/-- ASH R1,R2 (2.3). -/
theorem test_ash :
    let t := after (running [(0o1000, 0o72201)]
      |>.writeGen false 1 0o000020
      |>.writeGen false 2 0o000001)
    t.readReg (.gen 2) = 0o000000 ∧ t.psw &&& 0o17 = 0o7 := by
  decide +kernel

/-- ASHC R1,R2 (2.3). -/
theorem test_ashc :
    let t := after (running [(0o1000, 0o73201)]
      |>.writeGen false 1 0o000001
      |>.writeGen false 2 0o040000
      |>.writeGen false 3 0o100000)
    t.readReg (.gen 2) = 0o100001 ∧ t.readReg (.gen 3) = 0o000000 ∧ t.psw &&& 0o17 = 0o12 := by
  decide +kernel

/-- XOR R1,(R1)+ (2.3). -/
theorem test_xor :
    let t := after (running [(0o1000, 0o74121), (0o2000, 0o2002)]
      |>.writeGen false 1 0o002000)
    t.readReg (.gen 1) = 0o002002 ∧ Memory.readWord t.mem 0o002000 = 0o000000 ∧ t.psw &&& 0o17 = 0o4 := by
  decide +kernel

/-- SOB R2,.-4 (2.6). -/
theorem test_sob :
    let t := after (running [(0o1004, 0o77203)]
      |>.setPc 0o001004
      |>.writeGen false 2 0o000000
      |>.setPsw 0o17)
    t.readReg (.gen 2) = 0o177777 ∧ t.pc = 0o001000 ∧ t.psw &&& 0o17 = 0o17 := by
  decide +kernel

/-- EMT 123 (2.7). -/
theorem test_emt :
    let t := after (running (trapVectors ++ [(0o1000, 0o104123)]))
    t.pc = 0o004400 ∧ t.psw = 0o000340 ∧ t.readReg .sp = 0o000774 ∧ Memory.readWord t.mem 0o000774 = 0o001002 := by
  decide +kernel

/-- TRAP 45 (2.7). -/
theorem test_trap :
    let t := after (running (trapVectors ++ [(0o1000, 0o104445)])
      |>.writeSpm .user 0o010000
      |>.setPsw 0o170001)
    t.pc = 0o004500 ∧ t.psw = 0o030340 ∧ t.readSpm .kernel = 0o000774 ∧ t.readSpm .user = 0o010000 ∧
      Memory.readWord t.mem 0o000776 = 0o170001 ∧ Memory.readWord t.mem 0o000774 = 0o001002 := by
  decide +kernel

/-- CLRB R3 (2.2). -/
theorem test_clrb :
    let t := after (running [(0o1000, 0o105003)]
      |>.writeGen false 3 0o123456
      |>.setPsw 0o13)
    t.readReg (.gen 3) = 0o123400 ∧ t.psw &&& 0o17 = 0o4 := by
  decide +kernel

/-- COMB R0 (2.2). -/
theorem test_comb :
    let t := after (running [(0o1000, 0o105100)]
      |>.writeGen false 0 0o125125)
    t.readReg (.gen 0) = 0o125252 ∧ t.psw &&& 0o17 = 0o11 := by
  decide +kernel

/-- INCB R0 (2.2). -/
theorem test_incb :
    let t := after (running [(0o1000, 0o105200)]
      |>.writeGen false 0 0o000177)
    t.readReg (.gen 0) = 0o000200 ∧ t.psw &&& 0o17 = 0o12 := by
  decide +kernel

/-- DECB R0 (2.2). -/
theorem test_decb :
    let t := after (running [(0o1000, 0o105300)]
      |>.writeGen false 0 0o000200)
    t.readReg (.gen 0) = 0o000177 ∧ t.psw &&& 0o17 = 0o2 := by
  decide +kernel

/-- NEGB R0 (2.2). -/
theorem test_negb :
    let t := after (running [(0o1000, 0o105400)]
      |>.writeGen false 0 0o000200)
    t.readReg (.gen 0) = 0o000200 ∧ t.psw &&& 0o17 = 0o13 := by
  decide +kernel

/-- ADCB R1 (2.2). -/
theorem test_adcb :
    let t := after (running [(0o1000, 0o105501)]
      |>.writeGen false 1 0o000377
      |>.setPsw 0o1)
    t.readReg (.gen 1) = 0o000000 ∧ t.psw &&& 0o17 = 0o5 := by
  decide +kernel

/-- SBCB R1 (2.2). -/
theorem test_sbcb :
    let t := after (running [(0o1000, 0o105601)]
      |>.writeGen false 1 0o000200
      |>.setPsw 0o1)
    t.readReg (.gen 1) = 0o000177 ∧ t.psw &&& 0o17 = 0o2 := by
  decide +kernel

/-- TSTB @#2001 (2.10). -/
theorem test_tstb :
    let t := after (running [(0o1000, 0o105737), (0o1002, 0o2001), (0o2000, 0o100000)])
    t.pc = 0o001004 ∧ t.psw &&& 0o17 = 0o10 := by
  decide +kernel

/-- RORB R0 (2.2). -/
theorem test_rorb :
    let t := after (running [(0o1000, 0o106000)]
      |>.writeGen false 0 0o000002
      |>.setPsw 0o1)
    t.readReg (.gen 0) = 0o000201 ∧ t.psw &&& 0o17 = 0o12 := by
  decide +kernel

/-- ROLB R0 (2.2). -/
theorem test_rolb :
    let t := after (running [(0o1000, 0o106100)]
      |>.writeGen false 0 0o000100
      |>.setPsw 0o1)
    t.readReg (.gen 0) = 0o000201 ∧ t.psw &&& 0o17 = 0o12 := by
  decide +kernel

/-- ASRB R0 (2.2). -/
theorem test_asrb :
    let t := after (running [(0o1000, 0o106200)]
      |>.writeGen false 0 0o000201)
    t.readReg (.gen 0) = 0o000300 ∧ t.psw &&& 0o17 = 0o11 := by
  decide +kernel

/-- ASLB R0 (2.2). -/
theorem test_aslb :
    let t := after (running [(0o1000, 0o106300)]
      |>.writeGen false 0 0o000300)
    t.readReg (.gen 0) = 0o000200 ∧ t.psw &&& 0o17 = 0o11 := by
  decide +kernel

/-- MFPD (R1)+ (2.7). -/
theorem test_mfpd :
    let t := after (running [(0o1000, 0o106521), (0o2000, 0o12345)]
      |>.writeGen false 1 0o002000
      |>.setPsw 0o30000)
    t.readReg (.gen 1) = 0o002002 ∧ t.readReg .sp = 0o000776 ∧ Memory.readWord t.mem 0o000776 = 0o012345 ∧
      t.mmu.mmr1 = 0o010766 := by
  decide +kernel

/-- MTPD @#2000 (2.7). -/
theorem test_mtpd :
    let t := after (running [(0o776, 0o0), (0o1000, 0o106637), (0o1002, 0o2000)]
      |>.writeSpm .kernel 0o000776
      |>.setPsw 0o30001)
    t.readSpm .kernel = 0o001000 ∧ Memory.readWord t.mem 0o002000 = 0o000000 ∧ t.psw &&& 0o17 = 0o5 ∧
      t.mmu.mmr1 = 0o000026 := by
  decide +kernel

/-- CFCC (2.12). -/
theorem test_cfcc :
    let t := after (running [(0o1000, 0o170000)]
      |>.onFpp (fun c => { c with fps := 0o000012 })
      |>.setPsw 0o5)
    t.psw &&& 0o17 = 0o12 ∧ t.fpp.fps = 0o000012 := by
  decide +kernel

/-- SETF (2.12). -/
theorem test_setf :
    let t := after (running [(0o1000, 0o170001)]
      |>.onFpp (fun c => { c with fps := 0o000300 }))
    t.fpp.fps = 0o000100 := by
  decide +kernel

/-- SETI (2.12). -/
theorem test_seti :
    let t := after (running [(0o1000, 0o170002)]
      |>.onFpp (fun c => { c with fps := 0o000300 }))
    t.fpp.fps = 0o000200 := by
  decide +kernel

/-- SETD (2.12). -/
theorem test_setd :
    let t := after (running [(0o1000, 0o170011)])
    t.fpp.fps = 0o000200 := by
  decide +kernel

/-- SETL (2.12). -/
theorem test_setl :
    let t := after (running [(0o1000, 0o170012)])
    t.fpp.fps = 0o000100 := by
  decide +kernel

/-- LDFPS #177777 (2.12). -/
theorem test_ldfps :
    let t := after (running [(0o1000, 0o170127), (0o1002, 0o177777)])
    t.fpp.fps = 0o147777 := by
  decide +kernel

/-- STFPS R0 (2.12). -/
theorem test_stfps :
    let t := after (running [(0o1000, 0o170200)]
      |>.onFpp (fun c => { c with fps := 0o140217 }))
    t.readReg (.gen 0) = 0o140217 ∧ t.psw &&& 0o17 = 0o0 := by
  decide +kernel

/-- STST (R1) (2.12). -/
theorem test_stst :
    let t := after (running [(0o1000, 0o170311)]
      |>.writeGen false 1 0o002000
      |>.onFpp (fun c => { c with fec := 0o12, fea := 0o1234 }))
    Memory.readWord t.mem 0o002000 = 0o000012 ∧ Memory.readWord t.mem 0o002002 = 0o001234 := by
  decide +kernel

/-- CLRD (R1) (2.12). -/
theorem test_clrf :
    let t := after (running [(0o1000, 0o170411), (0o2000, 0o1), (0o2002, 0o2), (0o2004, 0o3), (0o2006, 0o4)]
      |>.onFpp (fun c => { c with fps := 0o000200 })
      |>.writeGen false 1 0o002000)
    Memory.readWord t.mem 0o002000 = 0o000000 ∧ Memory.readWord t.mem 0o002002 = 0o000000 ∧
      Memory.readWord t.mem 0o002004 = 0o000000 ∧ Memory.readWord t.mem 0o002006 = 0o000000 ∧
      t.fpp.fps &&& 0o17 = 0o4 := by
  decide +kernel

/-- TSTF (R1) (2.12). -/
theorem test_tstf :
    let t := after (running [(0o1000, 0o170511), (0o2000, 0o100000)]
      |>.writeGen false 1 0o002000)
    t.fpp.fps &&& 0o17 = 0o14 ∧ t.fpp.fec = 0 := by
  decide +kernel

/-- ABSF AC1 (2.12). -/
theorem test_absf :
    let t := after (running [(0o1000, 0o170601)]
      |>.onFpp (fun c => { c with ac := c.ac.set 1 ⟨0o140200, 0o000000, 0o0, 0o0⟩ }))
    (t.fpp.ac[1]).w0 = 0o040200 ∧ (t.fpp.ac[1]).w1 = 0o000000 ∧ t.fpp.fps &&& 0o17 = 0o0 := by
  decide +kernel

/-- NEGD (R1) (2.12). -/
theorem test_negf :
    let t := after (running [(0o1000, 0o170711), (0o2000, 0o40300), (0o2002, 0o7), (0o2004, 0o6), (0o2006, 0o5)]
      |>.onFpp (fun c => { c with fps := 0o000200 })
      |>.writeGen false 1 0o002000)
    Memory.readWord t.mem 0o002000 = 0o140300 ∧ Memory.readWord t.mem 0o002002 = 0o000007 ∧
      Memory.readWord t.mem 0o002004 = 0o000006 ∧ Memory.readWord t.mem 0o002006 = 0o000005 ∧
      t.fpp.fps &&& 0o17 = 0o10 := by
  decide +kernel

/-- MULF #2.0,AC0 (2.12). -/
theorem test_mulf :
    let t := after (running [(0o1000, 0o171027), (0o1002, 0o40400)]
      |>.onFpp (fun c => { c with fps := 0o001000 })
      |>.onFpp (fun c => { c with ac := c.ac.set 0 ⟨0o077777, 0o177777, 0o0, 0o0⟩ }))
    (t.fpp.ac[0]).w0 = 0o000177 ∧ (t.fpp.ac[0]).w1 = 0o177777 ∧ t.fpp.fps &&& 0o17 = 0o6 ∧ t.fpp.fec = 8 ∧
      t.ctl.pending = { mmu := false, yellow := false, fpp := true, trace := false } := by
  decide +kernel

/-- MODF #1.0,AC0 (2.12). -/
theorem test_modf :
    let t := after (running [(0o1000, 0o171427), (0o1002, 0o40200)]
      |>.onFpp (fun c => { c with ac := c.ac.set 0 ⟨0o040440, 0o000000, 0o0, 0o0⟩ }))
    (t.fpp.ac[0]).w0 = 0o040000 ∧ (t.fpp.ac[0]).w1 = 0o000000 ∧ (t.fpp.ac[1]).w0 = 0o040400 ∧
      (t.fpp.ac[1]).w1 = 0o000000 ∧ t.fpp.fps &&& 0o17 = 0o0 := by
  decide +kernel

/-- ADDF (R1),AC0 (2.12). -/
theorem test_addf :
    let t := after (running [(0o1000, 0o172011), (0o2000, 0o77777), (0o2002, 0o177777)]
      |>.onFpp (fun c => { c with fps := 0o001000 })
      |>.onFpp (fun c => { c with ac := c.ac.set 0 ⟨0o077777, 0o177777, 0o0, 0o0⟩ })
      |>.writeGen false 1 0o002000)
    (t.fpp.ac[0]).w0 = 0o000177 ∧ (t.fpp.ac[0]).w1 = 0o177777 ∧ t.fpp.fps &&& 0o17 = 0o6 ∧
      t.fpp.fps = 0o101006 ∧ t.fpp.fec = 8 ∧
      t.ctl.pending = { mmu := false, yellow := false, fpp := true, trace := false } := by
  decide +kernel

/-- LDF (R1),AC0 (2.12). -/
theorem test_ldf :
    let t := after (running [(0o1000, 0o172411), (0o2000, 0o100000), (0o2002, 0o123)]
      |>.onFpp (fun c => { c with fps := 0o004000 })
      |>.writeGen false 1 0o002000)
    (t.fpp.ac[0]).w0 = 0o100000 ∧ (t.fpp.ac[0]).w1 = 0o000123 ∧ t.fpp.fps &&& 0o17 = 0o14 ∧
      t.fpp.fps = 0o104014 ∧ t.fpp.fec = 12 ∧ t.fpp.fea = 0o001000 ∧
      t.ctl.pending = { mmu := false, yellow := false, fpp := true, trace := false } := by
  decide +kernel

/-- SUBF #1.5,AC0 (2.12). -/
theorem test_subf :
    let t := after (running [(0o1000, 0o173027), (0o1002, 0o40300)]
      |>.onFpp (fun c => { c with ac := c.ac.set 0 ⟨0o040200, 0o000000, 0o0, 0o0⟩ }))
    (t.fpp.ac[0]).w0 = 0o140000 ∧ (t.fpp.ac[0]).w1 = 0o000000 ∧ t.fpp.fps &&& 0o17 = 0o10 := by
  decide +kernel

/-- CMPF #1.0,AC0 (2.12). -/
theorem test_cmpf :
    let t := after (running [(0o1000, 0o173427), (0o1002, 0o40200)]
      |>.onFpp (fun c => { c with ac := c.ac.set 0 ⟨0o040300, 0o000000, 0o0, 0o0⟩ }))
    t.fpp.fps &&& 0o17 = 0o10 := by
  decide +kernel

/-- STD AC1,-(R1) (2.12). -/
theorem test_stf :
    let t := after (running [(0o1000, 0o174141)]
      |>.onFpp (fun c => { c with fps := 0o000200 })
      |>.onFpp (fun c => { c with ac := c.ac.set 1 ⟨0o000001, 0o000002, 0o000003, 0o000004⟩ })
      |>.writeGen false 1 0o002010)
    t.readReg (.gen 1) = 0o002000 ∧ Memory.readWord t.mem 0o002000 = 0o000001 ∧
      Memory.readWord t.mem 0o002002 = 0o000002 ∧ Memory.readWord t.mem 0o002004 = 0o000003 ∧
      Memory.readWord t.mem 0o002006 = 0o000004 := by
  decide +kernel

/-- DIVF #0,AC0 (2.12). -/
theorem test_divf :
    let t := after (running [(0o1000, 0o174427), (0o1002, 0o0)]
      |>.onFpp (fun c => { c with ac := c.ac.set 0 ⟨0o040200, 0o000000, 0o0, 0o0⟩ })
      |>.onFpp (fun c => { c with fps := 0o000010 }))
    (t.fpp.ac[0]).w0 = 0o040200 ∧ (t.fpp.ac[0]).w1 = 0o000000 ∧ t.fpp.fps = 0o100010 ∧ t.fpp.fec = 4 ∧
      t.fpp.fea = 0o001000 ∧ t.ctl.pending = { mmu := false, yellow := false, fpp := true, trace := false } := by
  decide +kernel

/-- STEXP AC0,R0 (2.12). -/
theorem test_stexp :
    let t := after (running [(0o1000, 0o175000)]
      |>.onFpp (fun c => { c with ac := c.ac.set 0 ⟨0o040000, 0o000000, 0o0, 0o0⟩ })
      |>.writeGen false 0 0o000007)
    t.readReg (.gen 0) = 0o000000 ∧ t.fpp.fps &&& 0o17 = 0o4 ∧ t.psw &&& 0o17 = 0o4 := by
  decide +kernel

/-- STCFI AC0,R0 (2.12). -/
theorem test_stcfi :
    let t := after (running [(0o1000, 0o175400)]
      |>.onFpp (fun c => { c with fps := 0o000400 })
      |>.onFpp (fun c => { c with ac := c.ac.set 0 ⟨0o044000, 0o000000, 0o0, 0o0⟩ })
      |>.writeGen false 0 0o000007)
    t.readReg (.gen 0) = 0o000000 ∧ t.fpp.fps &&& 0o17 = 0o5 ∧ t.psw &&& 0o17 = 0o5 ∧ t.fpp.fps = 0o100405 ∧
      t.fpp.fec = 6 ∧ t.ctl.pending = { mmu := false, yellow := false, fpp := true, trace := false } := by
  decide +kernel

/-- STCFD AC0,(R1) (2.12). -/
theorem test_stcfd :
    let t := after (running [(0o1000, 0o176011), (0o2004, 0o7), (0o2006, 0o7)]
      |>.onFpp (fun c => { c with ac := c.ac.set 0 ⟨0o040300, 0o000005, 0o0, 0o0⟩ })
      |>.writeGen false 1 0o002000)
    Memory.readWord t.mem 0o002000 = 0o040300 ∧ Memory.readWord t.mem 0o002002 = 0o000005 ∧
      Memory.readWord t.mem 0o002004 = 0o000000 ∧ Memory.readWord t.mem 0o002006 = 0o000000 ∧
      t.fpp.fps &&& 0o17 = 0o0 := by
  decide +kernel

/-- LDEXP #200,AC0 (2.12). -/
theorem test_ldexp :
    let t := after (running [(0o1000, 0o176427), (0o1002, 0o200)]
      |>.onFpp (fun c => { c with fps := 0o001000 })
      |>.onFpp (fun c => { c with ac := c.ac.set 0 ⟨0o040200, 0o000000, 0o0, 0o0⟩ }))
    (t.fpp.ac[0]).w0 = 0o000000 ∧ (t.fpp.ac[0]).w1 = 0o000000 ∧ t.fpp.fps &&& 0o17 = 0o6 ∧ t.fpp.fec = 8 := by
  decide +kernel

/-- LDCLD (R1),AC0 (2.12). -/
theorem test_ldcif :
    let t := after (running [(0o1000, 0o177011), (0o2000, 0o400), (0o2002, 0o1)]
      |>.onFpp (fun c => { c with fps := 0o000300 })
      |>.writeGen false 1 0o002000)
    (t.fpp.ac[0]).w0 = 0o046200 ∧ (t.fpp.ac[0]).w1 = 0o000000 ∧ (t.fpp.ac[0]).w2 = 0o100000 ∧
      (t.fpp.ac[0]).w3 = 0o000000 ∧ t.fpp.fps &&& 0o17 = 0o0 := by
  decide +kernel

/-- LDCFD (R1)+,AC0 (2.12). -/
theorem test_ldcdf :
    let t := after (running [(0o1000, 0o177421), (0o2000, 0o40300), (0o2002, 0o5)]
      |>.onFpp (fun c => { c with fps := 0o000200 })
      |>.onFpp (fun c => { c with ac := c.ac.set 0 ⟨0o000001, 0o000002, 0o000003, 0o000004⟩ })
      |>.writeGen false 1 0o002000)
    (t.fpp.ac[0]).w0 = 0o040300 ∧ (t.fpp.ac[0]).w1 = 0o000005 ∧ (t.fpp.ac[0]).w2 = 0o000000 ∧
      (t.fpp.ac[0]).w3 = 0o000000 ∧ t.readReg (.gen 1) = 0o002004 ∧ t.fpp.fps &&& 0o17 = 0o0 := by
  decide +kernel

/-- (reserved) 000007 (2.7). -/
theorem test_reserved :
    let t := after (running (trapVectors ++ [(0o1000, 0o7)]))
    t.pc = 0o004100 ∧ t.readReg .sp = 0o000774 ∧ Memory.readWord t.mem 0o000776 = 0o000000 ∧
      Memory.readWord t.mem 0o000774 = 0o001002 := by
  decide +kernel

/-- (FPP illegal) 170003 (2.12). -/
theorem test_fppIllegal :
    let t := after (running [(0o1000, 0o170003)])
    t.fpp.fps = 0o100000 ∧ t.fpp.fec = 2 ∧ t.fpp.fea = 0o001000 ∧
      t.ctl.pending = { mmu := false, yellow := false, fpp := true, trace := false } ∧ t.pc = 0o001002 := by
  decide +kernel

/-- RTT then one cycle: no trace trap before the instruction returned to (2.7). -/
theorem test_rtt :
    let t := after (running [(0o1000, 0o6), (0o1400, 0o2000), (0o1402, 0o20)] |>.writeSpm .kernel 0o1400)
    t.pc = 0o2000 ∧ t.psw = 0o20 ∧ t.readReg .sp = 0o1404 ∧ t.ctl.pending.trace = false := by
  decide +kernel

/-- NOP at priority 4 with dev(6, 60): the interrupt is taken at the boundary (2.11). -/
theorem test_interrupt :
    let t := after (running [(0o60, 0o5100), (0o62, 0o200), (0o1000, 0o240), (0o5100, 0o240)]
      |>.setPsw 0o200
      |>.setDevices [⟨0o17760000, 8, some ⟨6, 0o60⟩⟩]
      |>.setIrqFlag true)
    t.pc = 0o5102 ∧ t.psw = 0o200 ∧ t.readReg .sp = 0o774 ∧ Memory.readWord t.mem 0o774 = 0o1000 := by
  decide +kernel

/-- What a translation with one page set up answers: the physical address or the vector, and what it leaves in the page
descriptor and in MMR0 (section 2.9). -/
def translated (m : ProcMode) (acc : Access) (va : VAddr) (w : Width) (mmr0 mmr3 par pdr : Word) : Nat × Bool × Word × Word :=
  let e := pageEntry m (pageIndex mmr3 m va)
  let s := (running []).onMmu fun u => { u with mmr0 := mmr0, mmr3 := mmr3, par := u.par.set e par, pdr := u.pdr.set e pdr }
  match translate m va acc w s with
  | .ok pa t => (pa.toNat, true, t.mmu.pdr[e], t.mmu.mmr0)
  | .error v t => (v.toNat, false, t.mmu.pdr[e], t.mmu.mmr0)

/-- Page address, fold of 18-bit addresses, 22-bit wrap, the Unibus window, odd words in main memory and in the I/O range,
data space, and a page with no access (2.9). -/
theorem test_translate :
    translated .kernel .read (inI 0o20100) .word 1 0 0o1234 0o77406 = (0o123500, true, 0o77606, 1) ∧
      translated .kernel .read (inI 0o101) .word 1 0 0o1234 0o77406 = (4, false, 0o77406, 1) ∧
      translated .kernel .read (inI 0) .word 1 0 0o7600 0o77406 = (0o17760000, true, 0o77606, 1) ∧
      translated .kernel .read (inI 1) .word 1 0 0o7600 0o77406 = (0o17760001, true, 0o77606, 1) ∧
      translated .kernel .read (inI 0) .word 1 0o20 0o7600 0o77406 = (4, false, 0o77406, 1) ∧
      translated .kernel .read (inI 0o100) .word 1 0o20 0o170000 0o77406 = (0o100, true, 0o77606, 1) ∧
      translated .kernel .read (inI 0o100) .word 1 0o20 0o177777 0o77406 = (0, true, 0o77606, 1) ∧
      translated .user .read (inD 0o100) .word 1 1 0o300 0o77406 = (0o30100, true, 0o77606, 1) ∧
      translated .kernel .read (inI 0o100) .word 1 0 0o1000 0o77400 = (0o250, false, 0o77400, 0o100001) := by
  decide +kernel

/-- A word at an odd address of the I/O range that no device answers is a bus timeout, not an odd-address error
(90_conflicts.md C7); below the I/O range it is an odd-address error, and a core-owned register answers it. -/
theorem test_odd_word :
    let timeout := fun (s : State) => s.onCtl fun c => { c with cpuErr := 0o20 }
    let odd := fun (s : State) => s.onCtl fun c => { c with cpuErr := 0o100 }
    physRead 0o17760001 .word (running []) = .error 4 (timeout (running [])) ∧
      physWrite 0o17760001 .word 5 (running []) = .error 4 (timeout (running [])) ∧
      physRead 0o1001 .word (running []) = .error 4 (odd (running [])) ∧
      physRead 0o17777777 .word (running []) = .ok 0 (running []) :=
  ⟨rfl, rfl, rfl, rfl⟩

/-- The constraints on `DEVICES` (R8): ranges on 8-byte boundaries inside the I/O range, disjoint, off the core-owned
addresses. -/
theorem test_devices :
    devicesWf [⟨0o17760000, 8, none⟩, ⟨0o17760010, 16, none⟩, ⟨0o17777560, 8, none⟩] = true ∧
      devicesWf [⟨0o17760004, 8, none⟩] = false ∧ devicesWf [⟨0o17757770, 8, none⟩] = false ∧
      devicesWf [⟨0o17760000, 16, none⟩, ⟨0o17760010, 8, none⟩] = false ∧ devicesWf [⟨0o17777570, 8, none⟩] = false := by
  decide +kernel

/-! ### Witnesses: for every obligation with hypotheses, states and operands that meet them -/

/-- Whether an operation completes. -/
def runs {α : Type} (m : M α) (s : State) : Bool :=
  match m s with
  | .ok _ _ => true
  | .error _ _ => false

section
variable {α β γ δ : Type} {m : M α} {k : α → M β} {l : α → β → M γ} {n : α → β → γ → M δ} {s : State}

theorem runs1 (h : runs m s = true) : ∃ a t, m s = .ok a t := by
  unfold runs at h
  split at h
  · exact ⟨_, _, by assumption⟩
  · cases h

theorem fails1 (h : runs m s = false) : ∃ e t, m s = .error e t := by
  unfold runs at h
  split at h
  · cases h
  · exact ⟨_, _, by assumption⟩

theorem runs2 (h : runs (m >>= k) s = true) : ∃ a t b u, m s = .ok a t ∧ k a t = .ok b u := by
  obtain ⟨b, u, h⟩ := runs1 h
  obtain ⟨a, t, h1, h2⟩ := bind_eq_ok h
  exact ⟨a, t, b, u, h1, h2⟩

/-- The first access completes and the second aborts. -/
theorem fails2 (h1 : runs m s = true) (h : runs (m >>= k) s = false) : ∃ a t e u, m s = .ok a t ∧ k a t = .error e u := by
  obtain ⟨a, t, h1⟩ := runs1 h1
  obtain ⟨e, u, h⟩ := fails1 h
  exact ⟨a, t, e, u, h1, by rwa [bind_ok h1] at h⟩

/-- Two accesses complete and the third aborts. -/
theorem fails3 (h1 : runs (m >>= k) s = true) (h : runs (m >>= fun a => k a >>= l a) s = false) :
    ∃ a t b u e v, m s = .ok a t ∧ k a t = .ok b u ∧ l a b u = .error e v := by
  obtain ⟨a, t, b, u, h1, h2⟩ := runs2 h1
  obtain ⟨e, v, h⟩ := fails1 h
  exact ⟨a, t, b, u, e, v, h1, h2, by rwa [bind_ok h1, bind_ok h2] at h⟩

theorem runs3 (h : runs (m >>= fun a => k a >>= l a) s = true) :
    ∃ a t b u c v, m s = .ok a t ∧ k a t = .ok b u ∧ l a b u = .ok c v := by
  obtain ⟨a, t, x, w, h1, h2⟩ := runs2 h
  obtain ⟨b, u, h2, h3⟩ := bind_eq_ok h2
  exact ⟨a, t, b, u, _, _, h1, h2, h3⟩

theorem runs4 (h : runs (m >>= fun a => k a >>= fun b => l a b >>= n a b) s = true) :
    ∃ a t b u c v d w, m s = .ok a t ∧ k a t = .ok b u ∧ l a b u = .ok c v ∧ n a b c v = .ok d w := by
  obtain ⟨a, t, b, u, x, y, h1, h2, h3⟩ := runs3 h
  obtain ⟨c, v, h3, h4⟩ := bind_eq_ok h3
  exact ⟨a, t, b, u, c, v, _, _, h1, h2, h3, h4⟩

end

/-- Every instruction answers a next state, its own effect or the trap it takes. -/
theorem exec_next (i : Instr) (s : State) : ∃ t, exec i s = .next t := by
  rw [exec_eq]
  unfold runBody
  split <;> exact ⟨_, rfl⟩

/-- Kernel mode, relocation off: pointers, a stack and a few data words. -/
def sample : State :=
  (((((running [(0o760, 0o5555), (0o1000, 0o2000), (0o1002, 0o357), (0o1500, 0o2), (0o2000, 0o3000), (0o2002, 0o3002),
    (0o2004, 0o40300), (0o3000, 0o123456), (0o3002, 0o40400), (0o3004, 0o7)]).setPc 0o1500).writeGen false 0 5).writeGen
      false 1 0o2000).writeGen false 2 0o2002).writeGen false 5 0o3004

/-- `sample` in user mode, coming from user mode, with a stack. -/
def sampleUser : State := (sample.setPsw 0o170000).writeSpm .user 0o2000

/-- `sample` in kernel mode, coming from user mode. -/
def samplePrev : State := (sample.setPsw 0o030000).writeSpm .user 0o2000

/-- `sample` with the memory management registers given: kernel page 0 and Unibus map register 0 among them. -/
def paged (mmr0 mmr3 par pdr : Word) (ub : BitVec 22) : State :=
  sample.onMmu fun u =>
    { u with mmr0 := mmr0, mmr3 := mmr3, par := u.par.set 0 par, pdr := u.pdr.set 0 pdr, ubmap := u.ubmap.set 0 ub }

/-- Relocation on, kernel page 0 at physical 0 with the descriptor given, and data space off. -/
def mapped (pdr mmr0 : Word) : State := paged mmr0 0 0 pdr 0

abbrev r0 : OpSpec := ⟨.direct, .gen 0⟩
abbrev r1 : OpSpec := ⟨.deferred, .gen 1⟩
abbrev r2 : OpSpec := ⟨.autoInc, .gen 2⟩
abbrev imm : OpSpec := ⟨.autoInc, .pc⟩

/-- DecodeEncode. -/
theorem witness_wellFormed :
    (Instr.reserved 0o7).wf = true ∧ (Instr.reserved 0o107777).wf = true ∧ (Instr.fppIllegal 0o170003).wf = true ∧
      (Instr.fppIllegal 0o170077).wf = true ∧ (Instr.mov r1 r2).wf = true := by
  decide +kernel

/-- The state the statements read the instruction word in, the delay of a lowered priority ended (R632, R633). -/
def fetching (s : State) : State :=
  { s with
    mmu := if s.mmu.mmr0.extractLsb' 13 3 = 0 then { s.mmu with mmr1 := 0, mmr2 := s.pc } else s.mmu
    ctl := { s.ctl with
      irqDelay := if s.ctl.irqFlag then false else s.ctl.irqDelay
      pending := { trace := s.psw.getLsbD 4 } } }

/-- StepRunsDecoded: both run states, with nothing flagged and inside the delay of a lowered priority, an abort frozen and
not, the T bit set and clear; and a fetch that aborts. -/
theorem witness_stepRunsDecoded (r : RunState) (hr : r = .run ∨ r = .step) (f : Bool) (m p : Word)
    (hm : m = 0 ∨ m = 0o100000) (hp : p = 0 ∨ p = 0o20) :
    let s := (((sample.setRunState r).setPsw p).onMmu fun u => { u with mmr0 := m }).onCtl fun c =>
      { c with irqFlag := f, irqDelay := f }
    s = s.takeInputs ∧ s = (s.setInputs [[]]).takeInputs ∧
      (s.ctl.irqFlag = false ∨ s.ctl.irqDelay = true) ∧ s.ctl.pending = {} ∧ s.ctl.runState = r ∧
      (∃ ir s1 i rest t, memRead (inI s.pc) .word (fetching s) = .ok ir s1 ∧
        decode (bytesOfWord ir ++ rest) = .ok (i, rest) ∧ exec i (s1.setPc (s.pc + 2)) = .next t) ∧
      ∃ v s1, memRead (inI 0o1501) .word (fetching (s.setPc 0o1501)) = .error v s1 := by
  intro s
  have h : ∃ ir s1, memRead (inI s.pc) .word (fetching s) = .ok ir s1 := by
    rcases hr with rfl | rfl <;> cases f <;> rcases hm with rfl | rfl <;> rcases hp with rfl | rfl <;>
      exact runs1 (by decide +kernel)
  obtain ⟨ir, s1, h⟩ := h
  obtain ⟨t, ht⟩ := exec_next (decodeWord (wordOfBytes (ir.extractLsb' 0 8) (ir.extractLsb' 8 8))) (s1.setPc (sample.pc + 2))
  refine ⟨rfl, rfl, by cases f <;> simp [s], rfl, rfl, ⟨ir, s1, _, [], t, h, rfl, ht⟩, ?_⟩
  rcases hr with rfl | rfl <;> cases f <;> rcases hm with rfl | rfl <;> rcases hp with rfl | rfl <;>
    exact fails1 (by decide +kernel)

/-- BoundaryEvents, the fetch: one that answers a word and one that aborts, an abort frozen and not, the T bit set and
clear; a cycle that executes an instruction and one that does not. -/
theorem witness_fetch (stepping : Bool) (m p : Word) (hm : m = 0 ∨ m = 0o100000) (hp : p = 0 ∨ p = 0o20) :
    let s := ((sample.setRunState (if stepping then .step else .run)).setPsw p).onMmu fun u => { u with mmr0 := m }
    let f := fun (s : State) => { s with
      mmu := if s.mmu.mmr0.extractLsb' 13 3 = 0 then { s.mmu with mmr1 := 0, mmr2 := s.pc } else s.mmu
      ctl := { s.ctl with pending := { s.ctl.pending with trace := s.psw.getLsbD 4 } } }
    (∃ ir t, memRead (inI s.pc) .word (f s) = .ok ir t) ∧
      (∃ v t, memRead (inI 0o1501) .word (f (s.setPc 0o1501)) = .error v t) ∧
      (∃ i t u, beginCycle s = .execute i stepping t ∧ exec i t = .next u) ∧
      ∃ t, beginCycle (s.setRunState .halt) = .done t := by
  intro s f
  have h : ∃ ir t, memRead (inI s.pc) .word (f s) = .ok ir t := by
    cases stepping <;> rcases hm with rfl | rfl <;> rcases hp with rfl | rfl <;> exact runs1 (by decide +kernel)
  have h2 : ∃ v t, memRead (inI 0o1501) .word (f (s.setPc 0o1501)) = .error v t := by
    cases stepping <;> rcases hm with rfl | rfl <;> rcases hp with rfl | rfl <;> exact fails1 (by decide +kernel)
  refine ⟨h, h2, ?_, s.setRunState .halt, rfl⟩
  obtain ⟨ir, t, h⟩ := h
  obtain ⟨u, hu⟩ := exec_next (decodeWord ir) (t.setPc (s.pc + 2))
  refine ⟨decodeWord ir, t.setPc (s.pc + 2), u, ?_, hu⟩
  have hb : beginCycle s = fetchInstr stepping s := by cases stepping <;> rfl
  have hf : fetch s.traceSnapshot = .ok ir (t.setPc (s.pc + 2)) :=
    fetch_run (s := s.traceSnapshot) (by rw [State.noteFetch_eq]; exact h)
  rw [hb]
  unfold fetchInstr
  rw [hf]

/-- BoundaryEvents, in every run state: nothing above the priority, PIRQ above it, a device above it, and a first trap. -/
theorem witness_boundaryEvents (r : RunState) :
    ((sample.setRunState r).interruptCheck.1 = false ∧ (sample.setRunState r).ctl.trapPsw = none) ∧
    (∃ s : State, s.ctl.runState = r ∧ pswPri s.psw < pirLevelField s.ctl.pirq ∧
      ∀ d ∈ s.devices, ∀ q, d.request = some q → q.level.toNat ≤ pirLevelField s.ctl.pirq) ∧
    ∃ (s : State) (pre : List Device) (d : Device) (post : List Device) (q : IrqRequest), s.ctl.runState = r ∧
      devicesWf s.devices = true ∧ s.devices = pre ++ d :: post ∧ d.request = some q ∧
      pswPri s.psw < q.level.toNat ∧ pirLevelField s.ctl.pirq < q.level.toNat ∧
      (∀ e ∈ pre, ∀ p, e.request = some p → p.level.toNat < q.level.toNat) ∧
      ∀ e ∈ post, ∀ p, e.request = some p → p.level.toNat ≤ q.level.toNat := by
  refine ⟨by cases r <;> decide +kernel,
    ⟨((sample.writeCore .pirq 0o20000).setDevices [⟨0o17760000, 8, some ⟨5, 0o60⟩⟩]).setRunState r, rfl, by cases r <;> decide +kernel, ?_⟩,
    ⟨((sample.setPsw 0o200).setDevices [⟨0o17760000, 8, some ⟨4, 0o60⟩⟩, ⟨0o17760010, 8, some ⟨5, 0o64⟩⟩,
        ⟨0o17760020, 8, some ⟨5, 0o70⟩⟩]).setRunState r,
      [⟨0o17760000, 8, some ⟨4, 0o60⟩⟩], ⟨0o17760010, 8, some ⟨5, 0o64⟩⟩, [⟨0o17760020, 8, some ⟨5, 0o70⟩⟩], ⟨5, 0o64⟩, rfl,
      by cases r <;> decide +kernel, rfl, rfl, by cases r <;> decide +kernel, by cases r <;> decide +kernel, ?_, ?_⟩⟩
  · intro d hd q hq
    have hd : d ∈ [(⟨0o17760000, 8, some ⟨5, 0o60⟩⟩ : Device)] := hd
    simp only [List.mem_singleton] at hd
    subst hd
    cases hq
    cases r <;> decide +kernel
  all_goals
    intro e he q hq
    simp only [List.mem_singleton] at he
    subst he
    cases hq
    decide

/-- BoundaryEvents, the gate of the check: in each run state, flagged or not, delayed or not; a waiting machine that is
granted and one that is not; a boundary after which the machine goes on. -/
theorem witness_boundaryGates :
    let s := fun (r : RunState) (f d : Bool) (p : Word) =>
      ((sample.writeCore .pirq p).setRunState r).onCtl fun c => { c with irqFlag := f, irqDelay := d }
    (∀ r f d p, (s r f d p).inputs = [] ∧ (s r f d p).ctl.runState = r ∧ (s r f d p).ctl.irqFlag = f ∧
      (s r f d p).ctl.irqDelay = d) ∧
      ((s .wait true true 0).setIrqDelay false).interruptCheck.1 = false ∧
      ((s .wait true true 0o1000).setIrqDelay false).interruptCheck.1 = true ∧
      (s .run true false 0o1000).interruptCheck.1 = true ∧ (s .step true false 0o1000).interruptCheck.1 = true ∧
      sample.ctl.runState ≠ .halt ∧ sample.deferredTrap.ctl.runState ≠ .halt := by
  refine ⟨fun r f d p => ⟨rfl, rfl, rfl, rfl⟩, ?_⟩
  decide +kernel

/-- BoundaryEvents: a schedule that leaves a machine in each run state, halted and reset ones among them, and one with
nothing scheduled; a machine with a boot image and canonical memory, and one without; the first, the last and no device. -/
theorem witness_hostEvents :
    let at_ := fun (r : RunState) (es : List Input) => ((sample.setRunState r).setInputs [es]).takeInputs.ctl.runState
    let boots := { sample with params := { sample.params with boot := some ⟨0o1000, [0o240, 0]⟩ } }
    let d := fun (a : Nat) => (⟨a, 8, none⟩ : Device)
    sample.inputs = [] ∧ (at_ .halt [.run] = .run ∧ at_ .halt [.step] = .step ∧ at_ .wait [] = .wait ∧
      at_ .run [.halt] = .halt ∧ at_ .run [.reset] = .reset ∧ at_ .step [.reset] = .halt ∧ at_ .run [.run, .halt] = .halt) ∧
      (sample.params.boot = none ∧ boots.params.boot = some ⟨0o1000, [0o240, 0]⟩ ∧ Memory.wf boots.mem = true ∧
        boots.params.wf = true) ∧
      ([d 0o17760000, d 0o17760010] = [] ++ d 0o17760000 :: [d 0o17760010] ∧
        [d 0o17760000, d 0o17760010] = [d 0o17760000] ++ d 0o17760010 :: [] ∧ [d 0o17760000, d 0o17760010].length ≤ 2) := by
  decide +kernel

/-- ResetSound's invariants together, on a machine that runs with two devices: StepKeepsMemory, StepKeepsReserved,
StepKeepsIllegalPages, StepKeepsIrqCover, StepLeavesIdle. -/
theorem witness_invariants :
    let s := (running [(0o1000, 0o2)]).setDevices [⟨0o17760000, 8, none⟩, ⟨0o17760010, 8, none⟩]
    ∃ t, s.params.wf = true ∧ s.memSound ∧ devicesWf s.devices = true ∧ s.reservedClear = true ∧ s.pirqCoherent = true ∧
      s.pdrReserved = true ∧ s.ubmapEven = true ∧ s.illegalPagesZero ∧ s.irqCovered ∧ s.idle ∧ step s = .next t := by
  intro s
  have hn : ∃ t, step s = .next t := by
    unfold step
    split
    · exact ⟨_, rfl⟩
    · obtain ⟨t, ht⟩ := exec_next _ _
      rw [ht]
      exact ⟨_, rfl⟩
  obtain ⟨t, ht⟩ := hn
  refine ⟨t, by decide +kernel, ⟨by decide +kernel, fun a ha => ?_⟩, by decide +kernel, by decide +kernel, by decide +kernel,
    by decide +kernel, by decide +kernel, fun p => ?_, fun _ => by decide +kernel, (rfl : s.ctl.trapPsw = none), ht⟩
  · have hm : s.mem = [(0o1000, 2)] := by decide +kernel
    have hc : s.params.memCeiling = 0o760000 := rfl
    rw [hm]
    rw [hc] at ha
    simp only [Memory.read]
    rw [if_neg (by omega), if_neg (by omega)]
  · revert p
    decide +kernel

/-- FppUntouched. -/
theorem witness_fppUntouched : isFppInstr (.mov r1 r2) = false ∧ ∃ t, exec (.mov r1 r2) sample = .next t :=
  ⟨rfl, exec_next _ _⟩

/-- Whether an operation completes with an answer and a state that meet a condition. -/
def holds {α : Type} (m : M α) (s : State) (p : α → State → Bool) : Bool :=
  match m s with
  | .ok a t => p a t
  | .error _ _ => false

theorem holds1 {α : Type} {m : M α} {s : State} {p : α → State → Bool} (h : holds m s p = true) :
    ∃ a t, m s = .ok a t ∧ p a t = true := by
  unfold holds at h
  split at h
  · exact ⟨_, _, by assumption, h⟩
  · cases h

theorem holds2 {α β : Type} {m : M α} {k : α → M β} {s : State} {p : β → State → Bool}
    (h : holds (m >>= k) s p = true) : ∃ a t b u, m s = .ok a t ∧ k a t = .ok b u ∧ p b u = true := by
  obtain ⟨b, u, h, hp⟩ := holds1 h
  obtain ⟨a, t, h1, h2⟩ := bind_eq_ok h
  exact ⟨a, t, b, u, h1, h2, hp⟩

/-- OperandsMemory: for every width and intent an operand in memory, at the highest word and byte a directly mapped
address names. -/
theorem witness_operandsMemory (w : Width) (acc : Access) :
    ∃ sp s va s1 pa s2, Memory.wf s.mem = true ∧ sp.mode ≠ .direct ∧ resolve sp w.len acc s = .ok va s1 ∧
      translate s1.cm va acc w s1 = .ok pa s2 ∧ s2.params.wf = true ∧ pa.toNat < s2.params.memCeiling ∧
      (w = .word → pa.getLsbD 0 = false) := by
  have h : holds (resolve ⟨.deferred, .gen 3⟩ w.len acc >>= fun va s => translate s.cm va acc w s)
      (sample.writeGen false 3 (if w = .word then 0o157776 else 0o157777)) (fun pa t => t.params.wf &&
        decide (pa.toNat < t.params.memCeiling) && (w != .word || pa.getLsbD 0 == false)) = true := by
    cases w <;> cases acc <;> decide +kernel
  obtain ⟨va, s1, pa, s2, h1, h2, hp⟩ := holds2 h
  simp only [Bool.and_eq_true, Bool.or_eq_true, decide_eq_true_eq, bne_iff_ne, beq_iff_eq] at hp
  exact ⟨_, _, va, s1, pa, s2, by cases w <;> decide +kernel, by decide, h1, h2, hp.1.1, hp.1.2, fun h => hp.2.resolve_left (fun n => n h)⟩

/-- Whether the words of an operand lie in main memory, and where: as `wordsAt`, computed. -/
def wordsFound (acc : Access) (va : VAddr) (s : State) : Nat → Option (List PAddr × State)
  | 0 => some ([], s)
  | n + 1 =>
    match translate s.cm va acc .word s with
    | .ok pa u =>
      if pa.toNat < s.params.memCeiling ∧ pa.getLsbD 0 = false then
        (wordsFound acc ⟨va.space, va.addr + 2⟩ u n).map fun r => (pa :: r.1, r.2)
      else none
    | .error _ _ => none

theorem wordsAt_of_found {acc : Access} {va : VAddr} {s : State} {n : Nat} {pas : List PAddr}
    (h : (wordsFound acc va s n).map Prod.fst = some pas) : ∃ t, wordsAt acc va s pas t := by
  induction n generalizing va s pas with
  | zero => cases h; exact ⟨s, rfl⟩
  | succ n ih =>
    rw [wordsFound] at h
    split at h
    · rename_i pa u ht
      split at h
      · rename_i hc
        cases hr : wordsFound acc ⟨va.space, va.addr + 2⟩ u n with
        | none => rw [hr] at h; cases h
        | some r =>
          rw [hr] at h
          cases h
          obtain ⟨t, h1⟩ := ih (va := ⟨va.space, va.addr + 2⟩) (s := u) (pas := r.1) (by rw [hr]; rfl)
          exact ⟨t, hc.1, hc.2, u, ht, h1⟩
      · cases h
    · cases h

/-- OperandsMemory: a floating or long operand for every intent, in the highest words that a directly mapped address
names, and an immediate. -/
theorem witness_operandWords (acc : Access) :
    let s := sample.writeGen false 3 0o157770
    (∃ s1, resolve ⟨.deferred, .gen 3⟩ 8 acc s = .ok (inD 0o157770) s1) ∧
      (∃ t, wordsAt acc (inD 0o157770) s [0o157770, 0o157772] t) ∧
      (∃ t, wordsAt acc (inD 0o157770) s [0o157770, 0o157772, 0o157774, 0o157776] t) ∧
      (∃ t, wordsAt acc (inI s.pc) s [0o1500] t) ∧ Memory.wf s.mem = true ∧ s.params.wf = true := by
  refine ⟨⟨_, rfl⟩, wordsAt_of_found (n := 2) ?_, wordsAt_of_found (n := 4) ?_, wordsAt_of_found (n := 1) ?_,
    by decide +kernel, by decide +kernel⟩ <;> cases acc <;> decide +kernel

/-- ResolverModes: the pointer and the index words that its clauses read. -/
theorem witness_resolverModes :
    (∃ ptr t, memRead (inD (sample.readReg (.gen 1))) .word sample = .ok ptr t) ∧
      (∃ ptr t, memRead (inI (sample.readReg .pc)) .word sample = .ok ptr t) ∧
      (∃ ptr t, memRead (inD (sample.readReg (.gen 2) - 2)) .word sample = .ok ptr t) ∧
      ∃ x s1 ptr s2, memRead (inI sample.pc) .word sample = .ok x s1 ∧
        memRead (inD (x + sample.readReg (.gen 1))) .word (s1.setPc (sample.pc + 2)) = .ok ptr s2 := by
  refine ⟨runs1 (by decide +kernel), runs1 (by decide +kernel), runs1 (by decide +kernel), ?_⟩
  exact runs2 (m := memRead (inI sample.pc) .word)
    (k := fun x s => memRead (inD (x + sample.readReg (.gen 1))) .word (s.setPc (sample.pc + 2))) (by decide +kernel)

/-- ResolverModes: pointers and an index word that cannot be read. -/
theorem witness_resolverErrors :
    let s := sample.writeGen false 1 0o2001
    (∃ v t, memRead (inD (s.readReg (.gen 1))) .word s = .error v t) ∧
      (∃ v t, memRead (inD (s.readReg (.gen 1) - 2)) .word s = .error v t) ∧
      (∃ v t, memRead (inI (s.setPc 0o1501).pc) .word (s.setPc 0o1501) = .error v t) ∧
      ∃ x s1, memRead (inI s.pc) .word s = .ok x s1 ∧
        ∃ v s2, memRead (inD (x + s.readReg (.gen 1))) .word (s1.setPc (s.pc + 2)) = .error v s2 := by
  refine ⟨fails1 (by decide +kernel), fails1 (by decide +kernel), fails1 (by decide +kernel), ?_⟩
  obtain ⟨x, s1, h, hp⟩ := holds1 (m := memRead (inI (sample.writeGen false 1 0o2001).pc) .word)
    (p := fun x t => !runs (memRead (inD (x + (sample.writeGen false 1 0o2001).readReg (.gen 1))) .word)
      (t.setPc ((sample.writeGen false 1 0o2001).pc + 2))) (s := sample.writeGen false 1 0o2001) (by decide +kernel)
  exact ⟨x, s1, h, fails1 (by simpa using hp)⟩

/-- ResolverModes, a destination -(SP): the stack above the limit, at both ends of the yellow zone, and in the red zone. -/
theorem witness_resolverStack (acc : Access) (ha : acc ≠ .read) :
    acc ≠ .read ∧ (∃ t u, SteppedBy (sample.writeSpm .kernel 0o402) t .sp (-2) ∧ stackCheck 0o400 t = .ok () u) ∧
      (∃ t u, SteppedBy (sample.writeSpm .kernel 0o400) t .sp (-2) ∧ stackCheck 0o376 t = .ok () u) ∧
      (∃ t u, SteppedBy (sample.writeSpm .kernel 0o342) t .sp (-2) ∧ stackCheck 0o340 t = .ok () u) ∧
      ∃ t v u, SteppedBy (sample.writeSpm .kernel 0o340) t .sp (-2) ∧ stackCheck 0o336 t = .error v u := by
  refine ⟨ha, ?_, ?_, ?_, ?_⟩
  · obtain ⟨_, u, h⟩ := runs1 (m := stackCheck 0o400) (s := (sample.writeSpm .kernel 0o402).step .sp (-2)) (by decide +kernel)
    exact ⟨_, u, State.step_steppedBy _ _ _, h⟩
  · obtain ⟨_, u, h⟩ := runs1 (m := stackCheck 0o376) (s := (sample.writeSpm .kernel 0o400).step .sp (-2)) (by decide +kernel)
    exact ⟨_, u, State.step_steppedBy _ _ _, h⟩
  · obtain ⟨_, u, h⟩ := runs1 (m := stackCheck 0o340) (s := (sample.writeSpm .kernel 0o342).step .sp (-2)) (by decide +kernel)
    exact ⟨_, u, State.step_steppedBy _ _ _, h⟩
  · obtain ⟨v, u, h⟩ := fails1 (m := stackCheck 0o336) (s := (sample.writeSpm .kernel 0o340).step .sp (-2)) (by decide +kernel)
    exact ⟨_, v, u, State.step_steppedBy _ _ _, h⟩

/-- StackLimit: outside kernel mode, the first address above the limit, the two ends of the yellow zone, and the top of
the red zone. -/
theorem witness_stackLimit :
    let sl : Nat := ((sample.ctl.slr &&& 0o177400) ||| 0o377).toNat
    sampleUser.cm ≠ .kernel ∧ sample.cm = .kernel ∧ sl < (0o400 : Word).toNat ∧
      ((0o377 : Word).toNat ≤ sl ∧ sl < (0o377 : Word).toNat + 32) ∧
      ((0o340 : Word).toNat ≤ sl ∧ sl < (0o340 : Word).toNat + 32) ∧ (0o337 : Word).toNat + 32 ≤ sl := by
  decide +kernel

/-- StackLimit, the push: the yellow and the red zone at their edges, above the limit, unchecked, and outside kernel mode;
an address that is not translated. -/
theorem witness_pushes :
    let sl : Nat := ((sample.ctl.slr &&& 0o177400) ||| 0o377).toNat
    let a := fun (sp : Word) => (sample.writeSpm .kernel sp).readReg .sp - 2
    (∀ sp ∈ [(0o402 : Word), 0o400, 0o342, 0o340, 2],
      ∃ pa s2, translate .kernel (inD (a sp)) .write .word ((sample.writeSpm .kernel sp).step .sp (-2)) = .ok pa s2 ∧
        (pa.toNat < sample.params.memCeiling ∧ pa.getLsbD 0 = false)) ∧
      sl < (a 0o402).toNat ∧ ((a 0o400).toNat ≤ sl ∧ sl < (a 0o400).toNat + 32) ∧
      ((a 0o342).toNat ≤ sl ∧ sl < (a 0o342).toNat + 32) ∧ (a 0o340).toNat + 32 ≤ sl ∧ (a 2).toNat + 32 ≤ sl ∧
      runs (translate .kernel (inD 0o775) .write .word) ((sample.writeSpm .kernel 0o777).step .sp (-2)) = false := by
  refine ⟨fun sp h => ?_, ?_⟩
  · simp only [List.mem_cons, List.not_mem_nil, or_false] at h
    have h : holds (translate .kernel (inD ((sample.writeSpm .kernel sp).readReg .sp - 2)) .write .word)
        ((sample.writeSpm .kernel sp).step .sp (-2)) (fun pa _ => decide (pa.toNat < sample.params.memCeiling ∧
          pa.getLsbD 0 = false)) = true := by
      rcases h with rfl | rfl | rfl | rfl | rfl <;> decide +kernel
    obtain ⟨pa, t, h1, h2⟩ := holds1 h
    exact ⟨pa, t, h1, of_decide_eq_true h2⟩
  · decide +kernel

/-- DirectMapping: a word at an odd address, a word at the last address below the I/O page, a byte at the top. -/
theorem witness_directMapping (acc : Access) :
    mmuEnabled sample.mmu.mmr0 acc = false ∧ (inI 0o1001).addr.getLsbD 0 = true ∧
      (inI 0o157776).addr.getLsbD 0 = false ∧ (inI 0o177777).addr.toNat = 0o177777 := by
  cases acc <;> decide +kernel

/-- PageProtection: no access, read only, and a page too short in either direction, with an abort frozen and without,
and at the address of MMR0. -/
theorem witness_pageProtection (m : Word) (hm : m = 1 ∨ m = 0o100001) (par : Word) (hp : par = 0 ∨ par = 0o7755) (d : Word)
    (acc : Access) (hd : (d = 0 ∨ d = 0o77407) ∨ (d = 2 ∧ acc ≠ .read) ∨ (d = 6 ∨ d = 0o77416)) :
    let s := paged m 0 par d 0
    let va := inI 0o2072
    s.params.wf = true ∧ (s.mmu.mmr0.getLsbD 0 || (s.mmu.mmr0.getLsbD 8 && acc.wr)) = true ∧
      mappedAddress s .kernel va .word = .ok (if par = 0 then 0o2072 else 0o17777572) ∧
      (let d := s.mmu.pdr[pageEntry .kernel (mappedPage s.mmu.mmr3 .kernel va)]
       let acf := (d.extractLsb' 0 3).toNat
       let plf := (d.extractLsb' 8 7).toNat
       let blk := (va.addr.extractLsb' 6 7).toNat
       ((acf == 0 || acf == 3 || acf == 7) || ((acf == 1 || acf == 2) && acc.wr) ||
         if d.getLsbD 3 then decide (blk < plf) else decide (plf < blk)) = true) := by
  rcases hm with rfl | rfl <;> rcases hp with rfl | rfl <;>
    rcases hd with (rfl | rfl) | ⟨rfl, ha⟩ | rfl | rfl <;> cases acc <;>
    first
    | exact absurd rfl ha
    | exact ⟨by decide +kernel, by decide +kernel, rfl, by decide +kernel⟩

/-- PageProtection: the three errors of the ceiling test, at the addresses where they begin, with relocation on for every
intent and for writes only. -/
theorem witness_ceiling :
    (∀ acc, (((1 : Word).getLsbD 0) || ((1 : Word).getLsbD 8 && Access.wr acc)) = true) ∧
      ((0o400 : Word).getLsbD 0 || ((0o400 : Word).getLsbD 8 && Access.write.wr)) = true ∧
      mappedAddress (paged 1 0 0o7577 0 0) .kernel (inI 0o77) .word = .error 6 ∧
      mappedAddress (paged 1 0o20 0o7600 0 0) .kernel (inI 0) .word = .error 5 ∧
      mappedAddress (paged 1 0o20 0o167777 0 0) .kernel (inI 0o77) .byte = .error 5 ∧
      mappedAddress (paged 1 0o60 0o170000 0 0o760000) .kernel (inI 0) .word = .error 4 := by
  refine ⟨fun acc => by cases acc <;> decide, by decide, rfl, rfl, rfl, rfl⟩

/-- MappedAccess: every access-control code that allows an access, and both directions of growth at the page's edge. -/
theorem witness_mappedAccess (acc : Access) (d : Word)
    (hd : d = 0o10004 ∨ d = 0o10005 ∨ d = 0o10006 ∨ d = 0o10016 ∨ (acc = .read ∧ (d = 0o10001 ∨ d = 0o10002))) :
    (mapped d 0o1001).params.wf = true ∧
      ((mapped d 0o1001).mmu.mmr0.getLsbD 0 || ((mapped d 0o1001).mmu.mmr0.getLsbD 8 && acc.wr)) = true ∧
      mappedAddress (mapped d 0o1001) .kernel (inI 0o2000) .word = .ok 0o2000 ∧
      ∃ pa t, translate .kernel (inI 0o2000) acc .word (mapped d 0o1001) = .ok pa t := by
  rcases hd with rfl | rfl | rfl | rfl | ⟨rfl, rfl | rfl⟩ <;> try cases acc
  all_goals exact ⟨by decide +kernel, by decide +kernel, rfl, runs1 (by decide +kernel)⟩

/-- MappedAccess: the addresses at the edges of R102 to R104: the wrap and the fold, the Unibus window unmapped, mapped
and into the I/O range, an odd word of the I/O range, and the address of MMR0. -/
theorem witness_mappedAddresses :
    mappedAddress (paged 1 0o20 0o177777 6 0) .kernel (inI 0o100) .word = .ok 0 ∧
      mappedAddress (paged 1 0 0o7577 6 0) .kernel (inI 0o76) .word = .ok 0o757776 ∧
      mappedAddress (paged 1 0 0o7600 6 0) .kernel (inI 1) .word = .ok 0o17760001 ∧
      mappedAddress (paged 1 0o20 0o170000 6 0) .kernel (inI 0o100) .word = .ok 0o100 ∧
      mappedAddress (paged 1 0o60 0o170000 6 0o757700) .kernel (inI 0o76) .word = .ok 0o757776 ∧
      mappedAddress (paged 1 0o60 0o170000 6 0o17777572) .kernel (inI 0) .word = .ok 0o17777572 ∧
      mappedAddress (paged 1 0 0o7775 6 0) .kernel (inI 0o72) .word = .ok 0o17777572 :=
  ⟨rfl, rfl, rfl, rfl, rfl, rfl, rfl⟩

/-- CoreRegisters: a write of the status word that lowers the priority, one that keeps it and one that raises it. -/
theorem witness_priorityWrites :
    let s := sample.setPsw 0o200
    let pri := fun (v : Word) => pswPri ((v &&& 0o174357) ||| (s.psw &&& 0o20))
    s.params.wf = true ∧ pri 0o140 < pswPri s.psw ∧ pri 0o200 = pswPri s.psw ∧ pswPri s.psw < pri 0o240 := by
  decide +kernel

/-- CoreRegisters: both ends of the range of `MEM_CEILING`; the first and last words of the blocks of core-owned
registers; the first address of the I/O range and an odd one, with no device or none there. -/
theorem witness_coreRegisters :
    sample.params.wf = true ∧ ({ memCeiling := 2 } : Params).wf = true ∧ ({ memCeiling := 0o17000000 } : Params).wf = true ∧
      ([0o17770200, 0o17770376, 0o17772200, 0o17772376, 0o17772516, 0o17777570, 0o17777600, 0o17777676, 0o17777776].all
        coreWord) = true ∧
      coreWord (0o17760000 / 2 * 2) = false ∧ coreWord (0o17777701 / 2 * 2) = false ∧
      ∀ d ∈ [(⟨0o17760000, 8, none⟩ : Device)], d.contains 0o17760010 = false ∧ d.contains 0o17777701 = false := by
  decide +kernel

/-- CoreRegisters, the devices: the first, the middle and the last of three, at the edges of its range; a byte and a word at
an odd address, in main memory and between a ceiling and the I/O range. -/
theorem witness_deviceAccess :
    let d := fun (a : Nat) => (⟨a, 8, some ⟨5, 0o60⟩⟩ : Device)
    ([d 0o17760000, d 0o17760010, d 0o17777560] = [] ++ d 0o17760000 :: [d 0o17760010, d 0o17777560] ∧
      [d 0o17760000, d 0o17760010, d 0o17777560] = [d 0o17760000] ++ d 0o17760010 :: [d 0o17777560] ∧
      [d 0o17760000, d 0o17760010, d 0o17777560] = [d 0o17760000, d 0o17760010] ++ d 0o17777560 :: []) ∧
      devicesWf [d 0o17760000, d 0o17760010, d 0o17777560] = true ∧
      (d 0o17760000).contains 0o17760000 = true ∧ (d 0o17760000).contains 0o17760007 = true ∧
      (d 0o17760010).contains 0o17760011 = true ∧ (d 0o17760000).contains 0o17760010 = false ∧
      (d 0o17777560).contains 0o17777566 = true ∧ (d 0o17760010).contains 0o17777566 = false ∧
      coreWord (0o17760007 / 2 * 2) = false ∧ coreWord (0o17777566 / 2 * 2) = false ∧
      ({ memCeiling := 0o100000 } : Params).wf = true ∧ (0o17757777 : PAddr).toNat < 0o17760000 ∧
      (0o17757777 : PAddr).getLsbD 0 = true ∧ (0o100000 : PAddr).getLsbD 0 = false ∧
      ({ memCeiling := 0o100000 } : Params).memCeiling ≤ (0o100000 : PAddr).toNat := by
  decide +kernel

/-! The reading and storing instructions: operands in a register, in memory and immediate. -/

/-- CompareResult, FrameReading. -/
theorem witness_reads (w : Width) (dd : OpSpec) (hd : dd = r0 ∨ dd = r1 ∨ dd = r2 ∨ dd = imm) :
    ∃ src s1 dst s2, readOp r2 w sample = .ok src s1 ∧ readOp dd w s1 = .ok dst s2 := by
  rcases hd with rfl | rfl | rfl | rfl <;> cases w <;> exact runs2 (by decide +kernel)

/-- CompareResult, FrameReading, MulResult, DivResult, ArithmeticShiftResult, and the operands of the coprocessor's
instructions that read one word (FppStatusInstructions, FppIntegers, FrameFpp). -/
theorem witness_readOp (w : Width) (dd : OpSpec) (hd : dd = r0 ∨ dd = r1 ∨ dd = r2 ∨ dd = imm) :
    ∃ src s1, readOp dd w sample = .ok src s1 := by
  rcases hd with rfl | rfl | rfl | rfl <;> cases w <;> exact runs1 (by decide +kernel)

/-- MovResult, FrameStoring; memory is canonical. -/
theorem witness_moves (w : Width) (dd : OpSpec) (hd : dd = r0 ∨ dd = r1 ∨ dd = r2) :
    Memory.wf sample.mem = true ∧
      ∃ src s1 p s2, readOp imm w sample = .ok src s1 ∧ writeOp dd w src s1 = .ok p s2 := by
  refine ⟨by decide +kernel, ?_⟩
  rcases hd with rfl | rfl | rfl <;> cases w <;> exact runs2 (by decide +kernel)

/-- ClearExtendResult, FrameStoring, FppStatusInstructions, FppIntegers, FrameFpp. -/
theorem witness_writeOp (w : Width) (v : Word) (hv : v = 0 ∨ v = 0o177777) (dd : OpSpec) (hd : dd = r0 ∨ dd = r1 ∨ dd = r2) :
    Memory.wf sample.mem = true ∧ ∃ p s1, writeOp dd w v sample = .ok p s1 := by
  refine ⟨by decide +kernel, ?_⟩
  rcases hd with rfl | rfl | rfl <;> rcases hv with rfl | rfl <;> cases w <;> exact runs1 (by decide +kernel)

/-- LogicResult, AddSubResult, FrameStoring: a source read, then a destination modified. -/
theorem witness_combines (w : Width) (f : Word → Word → Word) (hf : f = (fun s d => d &&& ~~~s) ∨ f = fun s d => d + s)
    (dd : OpSpec) (hd : dd = r0 ∨ dd = r1 ∨ dd = r2) :
    ∃ src s1 o s2, readOp imm w sample = .ok src s1 ∧ modifyOp dd w (f src) s1 = .ok o s2 := by
  rcases hd with rfl | rfl | rfl <;> rcases hf with rfl | rfl <;> cases w <;> exact runs2 (by decide +kernel)

/-- LogicResult's XOR. -/
theorem witness_xor : ∃ pl s1 o s2, resolvePlace r2 .word .modify sample = .ok pl s1 ∧
    modifyPlace pl .word (fun d => d ^^^ s1.readReg (.gen 0)) s1 = .ok o s2 :=
  runs2 (m := resolvePlace r2 .word .modify)
    (k := fun pl s => modifyPlace pl .word (fun d => d ^^^ s.readReg (.gen 0)) s) (by decide +kernel)

/-- ComplementResult, IncrementResult, CarryResult, ShiftOneResult, FrameStoring. -/
theorem witness_modifies (w : Width) (dd : OpSpec) (hd : dd = r0 ∨ dd = r1 ∨ dd = r2) :
    ∃ o s1, modifyOp dd w (fun d => d + 1) sample = .ok o s1 := by
  rcases hd with rfl | rfl | rfl <;> cases w <;> exact runs1 (by decide +kernel)

/-- DivResult: a zero divisor, the quotients at both ends of the range, and the first ones outside it. -/
theorem witness_division :
    let q := fun (hi lo src : Word) => (hi ++ lo).toInt.tdiv src.toInt
    (0 : Word) = 0 ∧ q 0 0o77777 1 = 2 ^ 15 - 1 ∧ q 0 0o100000 1 = 2 ^ 15 ∧ q 0o177777 0o100000 1 = -2 ^ 15 ∧
      q 0o177777 0o77777 1 = -2 ^ 15 - 1 := by
  decide +kernel

/-- ArithmeticShiftResult: no shift, both ends of the count, and the counts around the width. -/
theorem witness_shiftCounts :
    let n := fun (src : Word) => (src.extractLsb' 0 6).toInt
    n 0 = 0 ∧ n 0o37 = 31 ∧ n 0o40 = -32 ∧ n 0o77 = -1 ∧ n 0o20 = 16 ∧ n 0o21 = 17 ∧ n 0o57 = -17 := by
  decide +kernel

/-- JumpResult, FrameFlow: a destination that resolves, then a push. -/
theorem witness_jump (r : Reg) (hr : r = .gen 5 ∨ r = .sp ∨ r = .pc) :
    Memory.wf sample.mem = true ∧ ∃ va s1 p s2, resolve r2 2 .read sample = .ok va s1 ∧
      push (s1.readReg r) true s1 = .ok p s2 := by
  refine ⟨by decide +kernel, ?_⟩
  have h : ∃ va s1 p s2, resolve r2 2 .read sample = .ok va s1 ∧ push (s1.readReg r) true s1 = .ok p s2 := by
    refine runs2 (m := resolve r2 2 .read) (k := fun _ s => push (s.readReg r) true s) ?_
    rcases hr with rfl | rfl | rfl <;> decide +kernel
  exact h

/-- JumpResult: the word pushed in main memory; and the conditions of its clause on mode 1, in kernel mode with the stack
just above its limit and in user mode with the stack at its lowest. -/
theorem witness_jumpPush (s : State) (hs : s = sample.writeSpm .kernel 0o402 ∨ s = sampleUser.writeSpm .user 2) :
    let a := s.readReg .sp - 2
    pushAddress s = [a.toNat] ∧ Memory.wf s.mem = true ∧ s.unmapped ∧ a.getLsbD 0 = false ∧
      a.toNat < s.params.memCeiling ∧ a.toNat < 0o160000 ∧ (s.cm ≠ .kernel ∨ effectiveLimit s.ctl.slr < a.toNat) := by
  rcases hs with rfl | rfl
  · exact ⟨by decide +kernel, by decide +kernel, ⟨by decide +kernel, by decide +kernel⟩, by decide +kernel, by decide +kernel,
      by decide +kernel, by decide +kernel⟩
  · exact ⟨by decide +kernel, by decide +kernel, ⟨by decide +kernel, by decide +kernel⟩, by decide +kernel, by decide +kernel,
      by decide +kernel, by decide +kernel⟩

/-- ReturnFromSubroutine, both instructions. -/
theorem witness_return :
    (∃ v s1, memRead (inD (sample.readReg .sp)) .word sample = .ok v s1) ∧
      ∃ v s1, memRead (inD (sample.pc + BitVec.ofNat 16 (2 * (0o77 : BitVec 6).toNat))) .word
        (sample.writeReg .sp (sample.pc + BitVec.ofNat 16 (2 * (0o77 : BitVec 6).toNat))) = .ok v s1 :=
  ⟨runs1 (by decide +kernel), runs1 (by decide +kernel)⟩

/-- HaltWaitResult, ResetInstruction: both modes, a request of either kind above the priority, and both values of the
parameter of RESET. -/
theorem witness_halt :
    sample.cm = .kernel ∧ sampleUser.cm ≠ .kernel ∧
      (pswPri sample.psw < pirLevelField (sample.writeCore .pirq 0o1000).ctl.pirq) ∧
      (∃ d ∈ (sample.setDevices [⟨0o17760000, 8, some ⟨1, 0o60⟩⟩]).devices, ∃ r, d.request = some r ∧ pswPri sample.psw < r.level.toNat) ∧
      ¬ (pswPri sample.psw < pirLevelField sample.ctl.pirq ∨
        ∃ d ∈ sample.devices, ∃ r, d.request = some r ∧ pswPri sample.psw < r.level.toNat) ∧
      sample.params.resetClearsPageTables = false ∧ ({ resetClearsPageTables := true } : Params).resetClearsPageTables = true := by
  refine ⟨by decide +kernel, by decide +kernel, by decide +kernel,
    ⟨⟨0o17760000, 8, some ⟨1, 0o60⟩⟩, List.mem_singleton.2 rfl, ⟨1, 0o60⟩, rfl, by decide +kernel⟩, ?_, rfl, rfl⟩
  rintro (h | ⟨d, hd, -⟩)
  · exact absurd h (by decide +kernel)
  · cases hd

/-- ReturnFromTrap: in kernel mode with the priority lowered, and in user mode. -/
theorem witness_returnFromTrap (s : State) (hs : s = sample.setPsw 0o340 ∨ s = sampleUser) :
    ∃ newPc s1 stacked s2, memRead (inD (s.readReg .sp)) .word s = .ok newPc s1 ∧
      memRead (inD (s.readReg .sp + 2)) .word s1 = .ok stacked s2 := by
  rcases hs with rfl | rfl
  · exact runs2 (k := fun _ => memRead (inD ((sample.setPsw 0o340).readReg .sp + 2)) .word) (by decide +kernel)
  · exact runs2 (k := fun _ => memRead (inD (sampleUser.readReg .sp + 2)) .word) (by decide +kernel)

/-- ReturnFromTrap's last clause: a restored priority below the old one. -/
theorem witness_priorityLowered :
    pswPri ((0o340 : Word) &&& 0o174377) = 7 ∧ pswPri ((0o357 : Word) &&& 0o174377) = 7 ∧
      pswPri ((0o17 : Word) &&& 0o174377) < pswPri (0o340 : Word) := by
  decide +kernel

/-- PriorityAndFlags: both modes, and a priority lowered, kept and raised. -/
theorem witness_spl :
    sampleUser.cm ≠ .kernel ∧ (sample.setPsw 0o140).cm = .kernel ∧ (sample.setPsw 0o140).psw &&& 0o003400 = 0 ∧
      (2 : BitVec 3).toNat < pswPri (sample.setPsw 0o140).psw ∧ pswPri (sample.setPsw 0o140).psw ≤ (3 : BitVec 3).toNat := by
  decide +kernel

/-- PreviousModeMoves, FrameFlow: the moves from the previous mode, through register 6 and through memory. -/
theorem witness_moveFrom (s : State) (hs : s = samplePrev ∨ s = sampleUser) :
    Memory.wf s.mem = true ∧ (∃ p s1, push (s.readSpm s.pm) true s = .ok p s1) ∧
      ∃ va s1 v s2 p s3, resolve r1 2 .read s = .ok va s1 ∧
        memReadM s.pm (if s.cm = .user ∧ s.pm = .user then va else inI va.addr) .word s1 = .ok v s2 ∧
        push v true s2 = .ok p s3 := by
  rcases hs with rfl | rfl
  · exact ⟨by decide +kernel, runs1 (by decide +kernel), runs3 (k := fun va => memReadM samplePrev.pm
      (if samplePrev.cm = .user ∧ samplePrev.pm = .user then va else inI va.addr) .word) (l := fun _ v => push v true)
      (by decide +kernel)⟩
  · exact ⟨by decide +kernel, runs1 (by decide +kernel), runs3 (k := fun va => memReadM sampleUser.pm
      (if sampleUser.cm = .user ∧ sampleUser.pm = .user then va else inI va.addr) .word) (l := fun _ v => push v true)
      (by decide +kernel)⟩

/-- PreviousModeMoves, FrameFlow: the moves to the previous mode. -/
theorem witness_moveTo :
    Memory.wf samplePrev.mem = true ∧ samplePrev.pm ≠ samplePrev.cm ∧ (∃ v s1, pop samplePrev = .ok v s1) ∧
      ∃ v s1 va s2 p s3, pop samplePrev = .ok v s1 ∧ resolve r1 2 .write s1 = .ok va s2 ∧
        memWriteM samplePrev.pm (inI va.addr) .word v s2 = .ok p s3 := by
  refine ⟨by decide +kernel, by decide +kernel, runs1 (by decide +kernel), ?_⟩
  exact runs3 (k := fun _ => resolve r1 2 .write) (l := fun v va => memWriteM samplePrev.pm (inI va.addr) .word v)
    (by decide +kernel)

/-- TrapEntry: into kernel mode with the stack just above the limit, and into user mode with the stack at its lowest. -/
theorem witness_trapEntry (s : State) (v : Word)
    (hs : (s = sample.writeSpm .kernel 0o404 ∧ v = 0o4) ∨
      (s = (sample.setMem (Memory.writeWord sample.mem 0o36 0o140000)).writeSpm .user 4 ∧ v = 0o34)) :
    let new : Word := (Memory.readWord s.mem (v.toNat + 2) &&& 0o144377) ||| ((s.psw >>> 2) &&& 0o030000)
    let sp := s.readSpm (pswCm new)
    s.params.wf = true ∧ Memory.wf s.mem = true ∧ s.unmapped ∧ s.ctl.trapPsw = none ∧ v.getLsbD 0 = false ∧
      v.toNat + 3 < s.params.memCeiling ∧ v.toNat + 3 < 0o160000 ∧ sp.getLsbD 0 = false ∧ 4 ≤ sp.toNat ∧
      sp.toNat ≤ s.params.memCeiling ∧ sp.toNat ≤ 0o160000 ∧
      (pswCm new = .kernel → effectiveLimit s.ctl.slr + 4 < sp.toNat) := by
  unfold State.unmapped
  rcases hs with ⟨rfl, rfl⟩ | ⟨rfl, rfl⟩ <;> decide +kernel

/-- DoubleTrap: a trap raised in user mode inside another, its handler in kernel mode with the stack just above the limit,
or in user mode with the stack at the bottom of memory. -/
theorem witness_nestedTrap (s : State) (v : Word)
    (hs : (s = (sampleUser.writeSpm .kernel 0o404).setTrapPsw (some 0o17) ∧ v = 0o4) ∨
      (s = ((sampleUser.setMem (Memory.writeWord sample.mem 0o36 0o140000)).writeSpm .user 4).setTrapPsw (some 0o17) ∧
        v = 0o34)) :
    let new : Word := (Memory.readWord s.mem (v.toNat + 2) &&& 0o144377) ||| (((0o17 : Word) >>> 2) &&& 0o030000)
    let sp := s.readSpm (pswCm new)
    s.params.wf = true ∧ Memory.wf s.mem = true ∧ s.unmapped ∧ s.ctl.trapPsw = some 0o17 ∧ s.cm ≠ .kernel ∧
      v.getLsbD 0 = false ∧ v.toNat + 3 < s.params.memCeiling ∧ v.toNat + 3 < 0o160000 ∧ sp.getLsbD 0 = false ∧
      4 ≤ sp.toNat ∧ sp.toNat ≤ s.params.memCeiling ∧ sp.toNat ≤ 0o160000 ∧
      (pswCm new = .kernel → effectiveLimit s.ctl.slr + 4 < sp.toNat) := by
  unfold State.unmapped
  rcases hs with ⟨rfl, rfl⟩ | ⟨rfl, rfl⟩ <;> decide +kernel

/-- DoubleTrap, the stack check: a first trap and one nested outside kernel mode, their handler in kernel mode, with the
stack at the edges of the yellow and the red zone: both pushes in the yellow zone, the second alone; the second in the red
zone, both. -/
theorem witness_trapZones (s : State) (hs : s = sample ∨ s = sampleUser.setTrapPsw (some 0o17)) (x : Word)
    (hx : x = 0o402 ∨ x = 0o344 ∨ x = 0o342 ∨ x = 0o340 ∨ x = 4) :
    let s := s.writeSpm .kernel x
    let new : Word := (Memory.readWord s.mem 6 &&& 0o144377) ||| ((s.ctl.trapPsw.getD s.psw >>> 2) &&& 0o030000)
    let sp := s.readSpm .kernel
    let sl := effectiveLimit s.ctl.slr
    (s.params.wf = true ∧ Memory.wf s.mem = true ∧ s.unmapped ∧ (s.ctl.trapPsw = none ∨ s.cm ≠ .kernel) ∧
      sp.getLsbD 0 = false ∧ 4 ≤ sp.toNat ∧ sp.toNat ≤ s.params.memCeiling ∧ sp.toNat ≤ 0o160000 ∧ pswCm new = .kernel) ∧
      (x = 0o402 ∨ x = 0o344 → sp.toNat ≤ sl + 4 ∧ sl + 4 < sp.toNat + 32) ∧
      (x = 0o342 → sp.toNat + 28 ≤ sl ∧ sl < sp.toNat + 30) ∧ (x = 0o340 ∨ x = 4 → sp.toNat + 30 ≤ sl) := by
  unfold State.unmapped
  rcases hs with rfl | rfl <;> rcases hx with rfl | rfl | rfl | rfl | rfl <;> decide +kernel

/-- DoubleTrap: a trap inside a trap, its handler in kernel and in user mode, and a trap whose accesses fail twice. -/
theorem witness_doubleTrap :
    (∀ x : Word, x = 0 ∨ x = 0o140000 →
      let s := ((sample.setMem (Memory.writeWord sample.mem 6 x)).writeSpm .user 4).setTrapPsw (some 0o17)
      let m := pswCm ((Memory.readWord s.mem 6 &&& 0o144377) ||| (((0o17 : Word) >>> 2) &&& 0o030000))
      let sp := if m = .kernel then 4 else s.readSpm m
      s.params.wf = true ∧ Memory.wf s.mem = true ∧ s.unmapped ∧ s.ctl.trapPsw = some 0o17 ∧ s.cm = .kernel ∧
        8 ≤ s.params.memCeiling ∧ m = (if x = 0 then .kernel else .user) ∧ sp.getLsbD 0 = false ∧ 4 ≤ sp.toNat ∧
        sp.toNat ≤ s.params.memCeiling ∧ sp.toNat ≤ 0o160000) ∧
    ∃ v s e s1 e' s2, trapBody (trapEnter v s).1 (trapEnter v s).2.1 (trapEnter v s).2.2 = .error e s1 ∧
      trapBody (trapEnter e s1).1 (trapEnter e s1).2.1 (trapEnter e s1).2.2 = .error e' s2 := by
  refine ⟨fun x hx => by unfold State.unmapped; rcases hx with rfl | rfl <;> decide +kernel, 0o4, mapped 0 1, ?_⟩
  have h : ∀ e t, trapBody (trapEnter 0o4 (mapped 0 1)).1 (trapEnter 0o4 (mapped 0 1)).2.1 (trapEnter 0o4 (mapped 0 1)).2.2 =
      .error e t → runs (fun s => trapBody (trapEnter e s).1 (trapEnter e s).2.1 (trapEnter e s).2.2) t = false := by
    intro e t h
    have : (match trapBody (trapEnter 0o4 (mapped 0 1)).1 (trapEnter 0o4 (mapped 0 1)).2.1
        (trapEnter 0o4 (mapped 0 1)).2.2 with
      | .ok _ _ => true
      | .error e t => runs (fun s => trapBody (trapEnter e s).1 (trapEnter e s).2.1 (trapEnter e s).2.2) t) = false := by
      decide +kernel
    rw [h] at this
    exact this
  obtain ⟨e, t, h1⟩ := fails1 (m := trapBody (trapEnter 0o4 (mapped 0 1)).1 (trapEnter 0o4 (mapped 0 1)).2.1)
    (s := (trapEnter 0o4 (mapped 0 1)).2.2) (by decide +kernel)
  obtain ⟨e', t', h2⟩ := fails1 (h e t h1)
  exact ⟨e, t, e', t', h1, h2⟩

/-! Accesses that abort: a page that is not resident (`mapped 0 1`), a page that may only be read, an odd address, and an
address behind the last that is directly mapped to memory. -/

/-- `sample` with relocation on and everything in a page that may only be read. -/
def readOnly : State := mapped 0o77402 1

/-- `sample` with register 1 at the last word that is directly mapped to memory: the word behind it times out. -/
def lastWord : State := sample.writeGen false 1 0o157776

abbrev x1 : OpSpec := ⟨.index, .gen 1⟩

/-- FrameReading: the source and the destination. -/
theorem witness_readingAborts (w : Width) :
    (∃ v u, readOp r1 w (mapped 0 1) = .error v u) ∧ (∃ v u, readOp r1 .word (sample.writeGen false 1 0o2001) = .error v u) ∧
      ∃ src s1 v u, readOp r0 w (mapped 0 1) = .ok src s1 ∧ readOp r2 w s1 = .error v u := by
  refine ⟨?_, fails1 (by decide +kernel), ?_⟩
  · cases w <;> exact fails1 (by decide +kernel)
  · cases w <;> exact fails2 (k := fun _ => readOp r2 _) (by decide +kernel) (by decide +kernel)

/-- FrameStoring: the source, and a destination that may only be read. -/
theorem witness_storingAborts (w : Width) (x : Word) (hx : x = 0 ∨ x = 0o177777) (f : Word → Word)
    (hf : f = (fun d => d + 1) ∨ f = fun d => ~~~d) :
    (∃ v u, readOp r2 w (mapped 0 1) = .error v u) ∧
      (∃ src s1 v u, readOp r2 w readOnly = .ok src s1 ∧ writeOp r1 w x s1 = .error v u) ∧
      ∃ src s1 v u, readOp r2 w readOnly = .ok src s1 ∧ modifyOp r1 w f s1 = .error v u := by
  refine ⟨?_, ?_, ?_⟩
  · cases w <;> exact fails1 (by decide +kernel)
  · rcases hx with rfl | rfl <;> cases w <;> exact fails2 (k := fun _ => writeOp r1 _ _) (by decide +kernel) (by decide +kernel)
  · rcases hf with rfl | rfl <;> cases w <;> exact fails2 (k := fun _ => modifyOp r1 _ _) (by decide +kernel) (by decide +kernel)

/-- FrameStoring: the destination of the instructions that only write or modify one. -/
theorem witness_destinationAborts (w : Width) :
    (∃ v u, writeOp r2 w 5 readOnly = .error v u) ∧ ∃ v u, modifyOp r2 w (fun d => ~~~d) readOnly = .error v u := by
  cases w <;> exact ⟨fails1 (by decide +kernel), fails1 (by decide +kernel)⟩

/-- FrameFlow: the specifier of a jump; the push of a call, refused by its page and in the red zone; the first and the
second word of a return; the word of MARK. -/
theorem witness_flowAborts :
    (∃ v u, resolve x1 2 .read (mapped 0 1) = .error v u) ∧
      (∃ va s1 v u, resolve r2 2 .read readOnly = .ok va s1 ∧ push (s1.readReg (.gen 5)) true s1 = .error v u) ∧
      (∃ va s1 v u, resolve r2 2 .read (sample.writeSpm .kernel 0o340) = .ok va s1 ∧
        push (s1.readReg (.gen 5)) true s1 = .error v u) ∧
      (∃ v u, memRead (inD ((mapped 0 1).readReg .sp)) .word (mapped 0 1) = .error v u) ∧
      (∃ newPc s1 v u, memRead (inD 0o157776) .word (sample.writeSpm .kernel 0o157776) = .ok newPc s1 ∧
        memRead (inD (0o157776 + 2)) .word s1 = .error v u) ∧
      ∃ v u, memRead (inD (0o1500 + BitVec.ofNat 16 (2 * (3 : BitVec 6).toNat))) .word
        ((mapped 0 1).writeReg .sp (0o1500 + BitVec.ofNat 16 (2 * (3 : BitVec 6).toNat))) = .error v u := by
  refine ⟨fails1 ?_, fails2 (k := fun _ s => push (s.readReg (.gen 5)) true s) ?_ ?_,
    fails2 (k := fun _ s => push (s.readReg (.gen 5)) true s) ?_ ?_, fails1 ?_,
    fails2 (k := fun _ => memRead (inD (0o157776 + 2)) .word) ?_ ?_, fails1 ?_⟩ <;> decide +kernel

/-- FrameFlow: MFPI and MFPD; a push on a page that may only be read, a previous mode with no page, and the push after a
read that completes. -/
theorem witness_moveFromAborts :
    (∃ v u, push (readOnly.readReg (.gen 1)) true readOnly = .error v u) ∧
      (∃ v u, push ((readOnly.setPsw 0o030000).readSpm .user) true (readOnly.setPsw 0o030000) = .error v u) ∧
      (∃ v u, resolve x1 2 .read (mapped 0 1) = .error v u) ∧
      (∃ va s1 v u, resolve r1 2 .read ((mapped 0o77406 1).setPsw 0o030000) = .ok va s1 ∧
        memReadM .user (inI va.addr) .word s1 = .error v u) ∧
      ∃ va s1 v s2 e u, resolve r1 2 .read readOnly = .ok va s1 ∧ memReadM .kernel (inI va.addr) .word s1 = .ok v s2 ∧
        push v true s2 = .error e u := by
  refine ⟨fails1 (by decide +kernel), fails1 (by decide +kernel), fails1 (by decide +kernel), ?_, ?_⟩
  · have h : ∃ v u, memReadM .user (inI 0o2000) .word ((mapped 0o77406 1).setPsw 0o030000) = .error v u :=
      fails1 (by decide +kernel)
    exact ⟨inD 0o2000, _, h.choose, h.choose_spec.choose, rfl, h.choose_spec.choose_spec⟩
  · have h : ∃ v s2 e u, memReadM .kernel (inI 0o2000) .word readOnly = .ok v s2 ∧ push v true s2 = .error e u :=
      fails2 (k := fun v => push v true) (by decide +kernel) (by decide +kernel)
    obtain ⟨v, s2, e, u, h1, h2⟩ := h
    exact ⟨inD 0o2000, _, v, s2, e, u, rfl, h1, h2⟩

/-- FrameFlow: MTPI and MTPD; the pop, the specifier, and a store on a page that may only be read. -/
theorem witness_moveToAborts :
    (∃ v u, pop (mapped 0 1) = .error v u) ∧
      (∃ v s1 e u, pop (sample.setPc 0o1501) = .ok v s1 ∧ resolve x1 2 .write s1 = .error e u) ∧
      ∃ v s1 va s2 e u, pop readOnly = .ok v s1 ∧ resolve r1 2 .write s1 = .ok va s2 ∧
        memWriteM .kernel (inI va.addr) .word v s2 = .error e u := by
  refine ⟨fails1 (by decide +kernel), fails2 (k := fun _ => resolve x1 2 .write) (by decide +kernel) (by decide +kernel), ?_⟩
  have h : ∃ v s1 e u, pop readOnly = .ok v s1 ∧ memWriteM .kernel (inI (s1.readReg (.gen 1))) .word v s1 = .error e u :=
    fails2 (k := fun v s => memWriteM .kernel (inI (s.readReg (.gen 1))) .word v s) (by decide +kernel) (by decide +kernel)
  obtain ⟨v, s1, e, u, h1, h2⟩ := h
  exact ⟨v, s1, inD (s1.readReg (.gen 1)), s1, e, u, h1, rfl, h2⟩

/-! The coprocessor: operands in an accumulator, an immediate and memory, at both precisions. -/

/-- `sample` with the coprocessor at a precision. -/
def sampleAt (p : Prec) : State := sample.setFpp { sample.fpp with fps := if p = .double then 0o200 else 0 }

/-- FppOneOperand, FppArithmetic, FppMoveCompare, FppPrecision, FrameFpp: a floating source at the precision in force or at
the other one. -/
theorem witness_floatSource (p q : Prec) (ss : OpSpec) (hs : ss = r0 ∨ ss = imm ∨ ss = r1 ∨ ss = r2) :
    precOf (sampleAt p).fpp.fps = p ∧
      ∃ pl s1 x s2, resolveF ss q .read (sampleAt p) = .ok (some pl) s1 ∧ readF pl q .read s1 = .ok x s2 := by
  have h : holds (resolveF ss q .read) (sampleAt p) (fun pl _ => pl.isSome) = true ∧
      runs (resolveF ss q .read >>= fun pl => readF (pl.getD (.ac 0)) q .read) (sampleAt p) = true := by
    rcases hs with rfl | rfl | rfl | rfl <;> cases p <;> cases q <;> exact ⟨by decide +kernel, by decide +kernel⟩
  obtain ⟨pl, s1, h1, hp⟩ := holds1 h.1
  obtain ⟨pl', s1', x, s2, h2, h3⟩ := runs2 h.2
  rw [h1] at h2
  cases h2
  refine ⟨by cases p <;> decide +kernel, ?_⟩
  cases pl with
  | none => cases hp
  | some pl => exact ⟨pl, s1, x, s2, h1, h3⟩

/-- FppOneOperand, FppMoveCompare, FppPrecision, FrameFpp: a floating destination, and one that is read first. -/
theorem witness_floatDestination (p q : Prec) (v : Accum) (hv : v = {} ∨ v = ⟨0o40300, 1, 2, 3⟩) (dd : OpSpec)
    (hd : dd = r0 ∨ dd = imm ∨ dd = r1 ∨ dd = r2) :
    precOf (sampleAt p).fpp.fps = p ∧ Memory.wf (sampleAt p).mem = true ∧
    (∃ pl s1 s2, resolveF dd q .write (sampleAt p) = .ok (some pl) s1 ∧ writeF pl q v s1 = .ok () s2) ∧
    ∃ pl s1 x s2 s3, resolveF dd q .modify (sampleAt p) = .ok (some pl) s1 ∧ readF pl q .modify s1 = .ok x s2 ∧
      writeF pl q v s2 = .ok () s3 := by
  have h : (holds (resolveF dd q .write) (sampleAt p) (fun pl _ => pl.isSome) = true ∧
      runs (resolveF dd q .write >>= fun pl => writeF (pl.getD (.ac 0)) q v) (sampleAt p) = true) ∧
      holds (resolveF dd q .modify) (sampleAt p) (fun pl _ => pl.isSome) = true ∧
      runs (resolveF dd q .modify >>= fun pl => readF (pl.getD (.ac 0)) q .modify >>= fun _ =>
        writeF (pl.getD (.ac 0)) q v) (sampleAt p) = true := by
    rcases hd with rfl | rfl | rfl | rfl <;> rcases hv with rfl | rfl <;> cases p <;> cases q <;>
      exact ⟨⟨by decide +kernel, by decide +kernel⟩, by decide +kernel, by decide +kernel⟩
  refine ⟨by cases p <;> decide +kernel, by cases p <;> decide +kernel, ?_, ?_⟩
  · obtain ⟨pl, s1, h1, hp⟩ := holds1 h.1.1
    obtain ⟨pl', s1', x, s2, h2, h3⟩ := runs2 h.1.2
    rw [h1] at h2
    cases h2
    cases pl with
    | none => cases hp
    | some pl => exact ⟨pl, s1, s2, h1, h3⟩
  · obtain ⟨pl, s1, h1, hp⟩ := holds1 h.2.1
    obtain ⟨pl', s1', x, s2, u, s3, h2, h3, h4⟩ := runs3 h.2.2
    rw [h1] at h2
    cases h2
    cases pl with
    | none => cases hp
    | some pl => exact ⟨pl, s1, x, s2, s3, h1, h3, h4⟩

/-- FrameFpp: a source whose specifier, whose first word or whose second word aborts. -/
theorem witness_floatSourceAborts (p q : Prec) (acc : Access) :
    let at_ := fun (s : State) => s.setFpp (sampleAt p).fpp
    (∃ v u, resolveF x1 q acc (at_ (sample.setPc 0o1501)) = .error v u) ∧
      (∃ pl s1 v u, resolveF r1 q acc (at_ (mapped 0 1)) = .ok (some pl) s1 ∧ readF pl q acc s1 = .error v u) ∧
      ∃ pl s1 v u, resolveF r1 q acc (at_ lastWord) = .ok (some pl) s1 ∧ readF pl q acc s1 = .error v u := by
  intro at_
  have h : ∀ s : State, s = mapped 0 1 ∨ s = lastWord →
      ∃ pl s1 v u, resolveF r1 q acc (at_ s) = .ok (some pl) s1 ∧ readF pl q acc s1 = .error v u := by
    intro s hs
    have h1 : ∀ t : State, resolveF r1 q acc t = .ok (some (.mem (inD (t.readReg (.gen 1))))) t := fun _ => rfl
    have h2 : runs (readF (.mem (inD ((at_ s).readReg (.gen 1)))) q acc) (at_ s) = false := by
      rcases hs with rfl | rfl <;> cases p <;> cases q <;> cases acc <;> decide +kernel
    obtain ⟨e, u, h2⟩ := fails1 h2
    exact ⟨_, _, e, u, h1 _, h2⟩
  refine ⟨?_, h _ (.inl rfl), h _ (.inr rfl)⟩
  cases p <;> cases q <;> cases acc <;> exact fails1 (by decide +kernel)

/-- FrameFpp: a destination that may only be read, and one whose second word aborts, the first stored. -/
theorem witness_floatStoreAborts (p q : Prec) (v : Accum) (hv : v = {} ∨ v = ⟨0o40300, 1, 2, 3⟩) (s : State)
    (hs : s = readOnly ∨ s = lastWord) :
    let s := s.setFpp (sampleAt p).fpp
    Memory.wf s.mem = true ∧
      ∃ pl s1 e u, resolveF r1 q .write s = .ok (some pl) s1 ∧ writeF pl q v s1 = .error e u := by
  intro s
  refine ⟨by rcases hs with rfl | rfl <;> cases p <;> decide +kernel, .mem (inD (s.readReg (.gen 1))), s, ?_⟩
  have h : runs (writeF (.mem (inD (s.readReg (.gen 1)))) q v) s = false := by
    rcases hv with rfl | rfl <;> rcases hs with rfl | rfl <;> cases p <;> cases q <;> decide +kernel
  obtain ⟨e, u, h⟩ := fails1 h
  exact ⟨e, u, rfl, h⟩

/-- `sample` with kernel page 0 over the page registers, 22-bit mapping on, and register 1 at the page's own address
register. -/
def ownPage : State := (paged 1 0o20 0o177723 0o77406 0).writeGen false 1 0o40

/-- FrameFpp: an operand read and then changed aborts at its second word where the first, stored, moved the page. -/
theorem witness_floatModifyAborts (result : Accum → Accum) (hr : result = absResult ∨ result = negResult) :
    ∃ x s1 e u, Memory.wf ownPage.mem = true ∧
      resolveF r1 (precOf ownPage.fpp.fps) .modify ownPage = .ok (some (.mem (inD 0o40))) ownPage ∧
      readF (.mem (inD 0o40)) (precOf ownPage.fpp.fps) .modify ownPage = .ok x s1 ∧
      writeF (.mem (inD 0o40)) (precOf ownPage.fpp.fps) (result x) s1 = .error e u := by
  have h : ∃ x s1 e u, readF (.mem (inD 0o40)) (precOf ownPage.fpp.fps) .modify ownPage = .ok x s1 ∧
      writeF (.mem (inD 0o40)) (precOf ownPage.fpp.fps) (result x) s1 = .error e u := by
    rcases hr with rfl | rfl
    · exact fails2 (k := fun x => writeF (.mem (inD 0o40)) (precOf ownPage.fpp.fps) (absResult x)) (by decide +kernel)
        (by decide +kernel)
    · exact fails2 (k := fun x => writeF (.mem (inD 0o40)) (precOf ownPage.fpp.fps) (negResult x)) (by decide +kernel)
        (by decide +kernel)
  obtain ⟨x, s1, e, u, h1, h2⟩ := h
  exact ⟨x, s1, e, u, by decide +kernel, rfl, h1, h2⟩

/-- FrameFpp: a word source, an integer of either length, a word destination; both words of STST and STCFL, the second one
aborting too. -/
theorem witness_integerAborts (long : Bool) :
    (∃ v u, readOp r1 .word (mapped 0 1) = .error v u) ∧ (∃ v u, readInteger r1 long (mapped 0 1) = .error v u) ∧
      (∃ v u, readInteger r1 true lastWord = .error v u) ∧ (∃ v u, writeOp r1 .word 7 readOnly = .error v u) ∧
      (∃ v u, memWrite (inI readOnly.pc) .word 7 readOnly = .error v u) ∧
      (∃ v u, resolve x1 4 .write (mapped 0 1) = .error v u) ∧
      (∃ va s1 v u, resolve r1 4 .write readOnly = .ok va s1 ∧ writeWordsAt va [7, 9] s1 = .error v u) ∧
      ∃ va s1 v u, resolve r1 4 .write lastWord = .ok va s1 ∧ writeWordsAt va [7, 9] s1 = .error v u := by
  refine ⟨fails1 ?_, by cases long <;> exact fails1 (by decide +kernel), fails1 ?_, fails1 ?_, fails1 ?_, fails1 ?_,
    fails2 (k := fun va => writeWordsAt va [7, 9]) ?_ ?_, fails2 (k := fun va => writeWordsAt va [7, 9]) ?_ ?_⟩ <;>
    decide +kernel

/-- FppArithmetic and FppMoveCompare: a zero and a non-zero source or accumulator, of either sign. -/
theorem witness_floatValues (p : Prec) :
    (unpack p {}).e = 0 ∧ (unpack p { w0 := 0o40200 }).e ≠ 0 ∧ (unpack p { w0 := 0o40200 }).s = false ∧
      (unpack p { w0 := 0o140200 }).e ≠ 0 ∧ (unpack p { w0 := 0o140200 }).s = true := by
  cases p <;> decide +kernel

/-- FppStatusInstructions, FrameFpp: the stores of STST. -/
theorem witness_statusStore :
    (∃ t, exec (.stst r0) sample = .next t) ∧ Memory.wf sample.mem = true ∧
      (∃ p s1, memWrite (inI sample.pc) .word (sample.fpp.fec.setWidth 16) sample = .ok p s1) ∧
      (∃ va s1 p s2 q s3, resolve r1 4 .write sample = .ok va s1 ∧
        memWrite va .word (sample.fpp.fec.setWidth 16) s1 = .ok p s2 ∧
        memWrite (va.plus 2) .word sample.fpp.fea s2 = .ok q s3) ∧
      ∃ va s1 s2, resolve r1 4 .write sample = .ok va s1 ∧
        writeWordsAt va [sample.fpp.fec.setWidth 16, sample.fpp.fea] s1 = .ok () s2 := by
  refine ⟨exec_next _ _, by decide +kernel, runs1 (by decide +kernel),
    runs3 (k := fun va => memWrite va .word (sample.fpp.fec.setWidth 16)) (l := fun va _ => memWrite (va.plus 2) .word sample.fpp.fea) (by decide +kernel), ?_⟩
  obtain ⟨va, s1, _, s2, h1, h2⟩ := runs2 (m := resolve r1 4 .write)
    (k := fun va => writeWordsAt va [sample.fpp.fec.setWidth 16, sample.fpp.fea]) (s := sample) (by decide +kernel)
  exact ⟨va, s1, s2, h1, h2⟩

/-- FrameFpp: a long integer that STCFI stores: in mode 0, as an immediate, and as two words. -/
theorem witness_longStore :
    let s := sample.setFpp { sample.fpp with fps := 0o100, ac := sample.fpp.ac.set 0 { w0 := 0o144000 } }
    Memory.wf s.mem = true ∧ s.fpp.fps.getLsbD 6 = true ∧ (0o177777 : Word) ++ (0o100000 : Word) =
        BitVec.ofInt 32 (fToInt (precOf s.fpp.fps) (unpack (precOf s.fpp.fps) s.fpp.ac[acField 0]) 32).1 ∧
      (∃ t, exec (.stcfi 0 r0) s = .next t) ∧ (∃ p s1, memWrite (inI s.pc) .word 0o177777 s = .ok p s1) ∧
      ∃ va s1 s2, resolve r1 4 .write s = .ok va s1 ∧ writeWordsAt va [0o177777, 0o100000] s1 = .ok () s2 := by
  refine ⟨by decide +kernel, by decide +kernel, by decide +kernel, exec_next _ _, runs1 (by decide +kernel), ?_⟩
  obtain ⟨va, s1, _, s2, h1, h2⟩ := runs2 (m := resolve r1 4 .write) (k := fun va => writeWordsAt va [0o177777, 0o100000])
    (s := sample.setFpp { sample.fpp with fps := 0o100, ac := sample.fpp.ac.set 0 { w0 := 0o144000 } }) (by decide +kernel)
  exact ⟨va, s1, s2, h1, h2⟩

/-- FppIntegers, FrameFpp: the operands of STCFI and LDCIF at both lengths. -/
theorem witness_integers (long : Bool) (dd : OpSpec) (hd : dd = r0 ∨ dd = imm ∨ dd = r1 ∨ dd = r2) :
    let s := sample.setFpp { sample.fpp with fps := if long then 0o100 else 0 }
    s.fpp.fps.getLsbD 6 = long ∧ (∃ q s1, writeInteger dd long (-5) s = .ok q s1) ∧
      ∃ x s1, readInteger dd long s = .ok x s1 := by
  rcases hd with rfl | rfl | rfl | rfl <;> cases long <;>
    exact ⟨by decide +kernel, runs1 (by decide +kernel), runs1 (by decide +kernel)⟩

/-- PackRoundTrip: both ends of the exponent and of the fraction. -/
theorem witness_packRange (p : Prec) :
    2 ^ (p.bits - 1) ≤ 2 ^ (p.bits - 1) ∧ 2 ^ (p.bits - 1) < 2 ^ p.bits ∧ 2 ^ (p.bits - 1) ≤ 2 ^ p.bits - 1 ∧
      2 ^ p.bits - 1 < 2 ^ p.bits ∧ (1 : Nat) ≤ 255 := by
  cases p <;> decide

/-- PackRoundTrip: the exponents on either side of both boundaries, and both values of each interrupt enable. -/
theorem witness_packBoundaries :
    (0 : Int) ≤ 0 ∧ (1 : Int) ≤ 1 ∧ (255 : Int) ≤ 255 ∧ (256 : Int) ≤ 256 ∧ (0o2000 : Word).getLsbD 10 = true ∧
      (0 : Word).getLsbD 10 = false ∧ (0o1000 : Word).getLsbD 9 = true ∧ (0 : Word).getLsbD 9 = false := by
  decide

/-- ArithmeticLaws, in numbers: single operands of equal and of different signs, the exponents of a product at which MODF
has no integer part, the first and the last with both parts, and the first with no fraction part; and the shifts that
normalize a difference and a fraction. -/
theorem witness_arithmeticNumbers :
    let f := 2 ^ 23
    let g := 3 * 2 ^ 22
    let e := fun (x y : Nat) => (x : Int) + y - 256
    2 ^ (Prec.single.bits - 1) ≤ f ∧ f < 2 ^ Prec.single.bits ∧ 2 ^ (Prec.single.bits - 1) ≤ g ∧ g < 2 ^ Prec.single.bits ∧
      f * f < 2 ^ 47 ∧ 2 ^ 47 ≤ g * g ∧ e 128 128 = 0 ∧ e 129 128 = 1 ∧ e 152 128 = 24 ∧ e 153 128 = 25 ∧
      (2 ^ 24 ≤ (2 * g - 2 * f) * 2 ^ 1 ∧ (2 * g - 2 * f) * 2 ^ 1 < 2 ^ 25) ∧
      (g * g % 2 ^ (48 - 1) = 2 ^ 44 ∧ 2 ^ 47 ≤ 2 ^ 44 * 2 ^ 3 ∧ 2 ^ 44 * 2 ^ 3 < 2 ^ 48) ∧
      2 * (f * f) % 2 ^ (48 - 1) = 0 := by
  decide

/-- ArithmeticLaws: the smallest and the largest exponent, and both zeros. -/
theorem witness_arithmeticLaws :
    exponentOf 0o200 ≠ 0 ∧ exponentOf 0o177777 ≠ 0 ∧ exponentOf 0 = 0 ∧ exponentOf 0o100177 = 0 := by
  decide +kernel

/-- FppOneOperand: the marker of an undefined variable, and a value on either side of it in each of the three tests. -/
theorem witness_undefinedVariable :
    let e := fun (x : Accum) => x.w0.toNat / 2 ^ 7 % 2 ^ 8
    ((⟨0o100177, 0, 0, 0⟩ : Accum).w0.msb = true ∧ e ⟨0o100177, 0, 0, 0⟩ = 0 ∧ (0o4000 : Word).getLsbD 11 = true) ∧
      (⟨0o177, 0, 0, 0⟩ : Accum).w0.msb = false ∧ e ⟨0o100200, 0, 0, 0⟩ ≠ 0 ∧ (0o173777 : Word).getLsbD 11 = false ∧
      (∃ a, FPlace.imm 0 = .imm a) ∧ ∃ va, FPlace.mem (inD 0) = .mem va :=
  ⟨⟨by decide, by decide, by decide⟩, by decide, by decide, by decide, ⟨_, rfl⟩, ⟨_, rfl⟩⟩

/-- IntegerRoundTrip, by R456: a value cut off toward zero on either side of it (-2.75 of R469, and just below 1), both
ends of the 16-bit and of the 32-bit integers, and the first values outside. -/
theorem test_toInteger :
    fToInt .single ⟨true, 130, 0xB00000⟩ 16 = (-2, false) ∧ fToInt .single ⟨false, 128, 0xFFFFFF⟩ 16 = (0, false) ∧
      fToInt .single ⟨true, 144, 0x8000FF⟩ 16 = (-32768, false) ∧ fToInt .single ⟨true, 144, 0x800100⟩ 16 = (0, true) ∧
      fToInt .single ⟨false, 143, 0xFFFFFF⟩ 16 = (32767, false) ∧ fToInt .single ⟨false, 144, 0x800000⟩ 16 = (0, true) ∧
      fToInt .single ⟨true, 160, 0x800000⟩ 32 = (-2147483648, false) ∧
      fToInt .double ⟨true, 160, 2 ^ 55 + 2 ^ 24⟩ 32 = (0, true) ∧ fToInt .single ⟨false, 160, 0x800000⟩ 32 = (0, true) := by
  decide +kernel

/-- IntegerRoundTrip, by R455: in single precision 2^24 converts exactly, 2^24 + 1 is rounded away from zero, or
truncated where FT is set, and the largest 32-bit integer rounds to 2^31. -/
theorem test_ofInteger :
    unpack .single (intToF .single 0 16777216).words = ⟨false, 153, 0x800000⟩ ∧
      unpack .single (intToF .single 0 16777217).words = ⟨false, 153, 0x800001⟩ ∧
      unpack .single (intToF .single 0o40 16777217).words = ⟨false, 153, 0x800000⟩ ∧
      unpack .single (intToF .single 0 (-16777217)).words = ⟨true, 153, 0x800001⟩ ∧
      unpack .single (intToF .single 0 2147483647).words = ⟨false, 160, 0x800000⟩ := by
  decide +kernel

/-- IntegerRoundTrip: an integer of exactly N bits, and one of one bit more, by the position of the leading one. -/
theorem witness_integerLengths (p : Prec) :
    (2 ^ (p.bits - 1) ≤ (-(2 ^ (p.bits - 1)) : Int).natAbs ∧ (-(2 ^ (p.bits - 1)) : Int).natAbs < 2 ^ (p.bits - 1 + 1) ∧
      p.bits - 1 < p.bits) ∧
      2 ^ p.bits ≤ (2 ^ p.bits + 1 : Int).natAbs ∧ (2 ^ p.bits + 1 : Int).natAbs < 2 ^ (p.bits + 1) ∧
      (2 ^ p.bits - 1 : Nat) < 2 ^ p.bits := by
  cases p <;> decide +kernel

/-- FppIllegal: an illegal opcode, and the two specifiers that name no accumulator. -/
theorem witness_fppIllegal (r : Reg) (hr : r = .sp ∨ r = .pc) :
    (∃ w, Instr.fppIllegal 0o170003 = .fppIllegal w) ∧ (OpSpec.mk .direct r).mode = .direct ∧
      ((OpSpec.mk .direct r).reg = .sp ∨ (OpSpec.mk .direct r).reg = .pc) :=
  ⟨⟨_, rfl⟩, rfl, hr⟩

end Sys2Proof.Tests
end

section
/-! What every step keeps of main memory and of the registered devices (00_scope.md rule R8, 10_state.md rule R70): the
relation `MemoryKept` composes, every named update is in it, and so is every step. -/

namespace Sys2Proof.Machine

/-! ### Main memory stays canonical and below its ceiling -/

/-- Soundness of memory depends on memory and the ceiling alone. -/
theorem State.memSound_congr {s t : State} (hm : t.mem = s.mem) (hp : t.params = s.params) (h : s.memSound) :
    t.memSound := by
  unfold State.memSound
  rwa [hm, hp]

/-- The ceiling is even (R8). -/
theorem params_ceiling_even {p : Params} (h : p.wf = true) : p.memCeiling % 2 = 0 := by
  simp only [Params.wf, Bool.and_eq_true, beq_iff_eq] at h
  obtain ⟨⟨⟨heven, -⟩, -⟩, -⟩ := h
  exact heven

/-- The boot image lies in main memory (R706). -/
theorem params_boot_le {p : Params} {b : BootImage} (h : p.wf = true) (hb : p.boot = some b) :
    b.base.toNat + 2 * b.image.length ≤ p.memCeiling := by
  simp only [Params.wf, hb, Bool.and_eq_true, decide_eq_true_eq] at h
  obtain ⟨-, -, hle⟩ := h
  exact hle.trans (min_le_left _ _)

/-- A word at an even address below the ceiling has both its bytes there, since the ceiling is even. -/
theorem State.memSound_writeMain {s : State} {pa : PAddr} {w : Width} (v : Word) (hw : s.params.wf = true)
    (hc : pa.toNat < s.params.memCeiling) (ho : isOddWord w (pa.getLsbD 0) = false) (h : s.memSound) :
    (s.setMem (writeMain s.mem pa w v)).memSound := by
  obtain ⟨hwf, hread⟩ := h
  refine ⟨Memory.wf_writeMain pa w v hwf, fun a (ha : s.params.memCeiling ≤ a) => ?_⟩
  refine (Memory.read_writeMain pa w v a hwf (.inr ?_)).trans (hread a ha)
  cases w with
  | byte => exact hc.trans_le ha
  | word =>
    have hlow : pa.getLsbD 0 = false := by simpa [isOddWord] using ho
    have heven : pa.toNat % 2 = 0 := by simpa [BitVec.getLsbD] using hlow
    have := params_ceiling_even hw
    show pa.toNat + 2 ≤ a
    omega

/-- Words stored from an address on, all below the ceiling (R706). -/
theorem State.memSound_writeWords {s : State} {a : Nat} {ws : List Word}
    (hle : a + 2 * ws.length ≤ s.params.memCeiling) (h : s.memSound) :
    (s.setMem (Memory.writeWords s.mem a ws)).memSound := by
  obtain ⟨hwf, hread⟩ := h
  refine ⟨Memory.wf_writeWords a ws hwf, fun x (hx : s.params.memCeiling ≤ x) => ?_⟩
  obtain ⟨-, others⟩ := Memory.writeWords_spec ws s.mem a hwf
  exact (others x (.inr (hle.trans hx))).trans (hread x hx)

/-! ### The relation between a state and a later one -/

/-- The parameters and the ranges of the devices are the same, and on a machine R8 admits memory stays sound. -/
structure MemoryKept (s t : State) : Prop where
  params : t.params = s.params
  ranges : t.devices.map Device.range = s.devices.map Device.range
  sound : s.params.wf = true → s.memSound → t.memSound

/-- An update that leaves memory and the parameters, and of the devices their ranges. -/
theorem MemoryKept.of_ranges {s t : State} (hm : t.mem = s.mem) (hp : t.params = s.params)
    (hd : t.devices.map Device.range = s.devices.map Device.range) : MemoryKept s t :=
  ⟨hp, hd, fun _ => State.memSound_congr hm hp⟩

/-- An update that leaves memory, the parameters and the devices. -/
theorem MemoryKept.of_same {s t : State} (hm : t.mem = s.mem) (hp : t.params = s.params)
    (hd : t.devices = s.devices) : MemoryKept s t := .of_ranges hm hp (congrArg _ hd)

theorem MemoryKept.refl (s : State) : MemoryKept s s := .of_same rfl rfl rfl

theorem MemoryKept.trans {s t u : State} (h1 : MemoryKept s t) (h2 : MemoryKept t u) : MemoryKept s u where
  params := h2.params.trans h1.params
  ranges := h2.ranges.trans h1.ranges
  sound hw hs := h2.sound (h1.params ▸ hw) (h1.sound hw hs)

theorem MemoryKept.ite {s t u : State} {p : Prop} [Decidable p] (ht : MemoryKept s t) (hu : MemoryKept s u) :
    MemoryKept s (if p then t else u) := by
  split
  · exact ht
  · exact hu

/-! ### The named updates of an instruction -/

theorem memoryKept_loadPsw (s : State) (v : Word) : MemoryKept s (s.loadPsw v) := by
  rw [State.loadPsw_eq]
  exact .of_same rfl rfl rfl

theorem memoryKept_writeReg (s : State) (r : Reg) (v : Word) : MemoryKept s (s.writeReg r v) :=
  .of_same (State.writeReg_mem s r v) (State.writeReg_params s r v) (State.writeReg_devices s r v)

theorem memoryKept_setDevices {s : State} {ds : List Device}
    (h : ds.map Device.range = s.devices.map Device.range) : MemoryKept s (s.setDevices ds) := .of_ranges rfl rfl h

/-- A device's answer changes a request, a draw and the interrupt flag (R98). -/
theorem memoryKept_afterReply (s : State) (pa : PAddr) (r : DeviceReply) : MemoryKept s (s.afterReply pa r) := by
  have h := updateDeviceAt_range pa (requestAfter r.change) s.devices
  exact .ite (.of_ranges rfl rfl h) (.of_ranges rfl rfl h)

/-- A core-owned register is not in main memory (R60, R61). -/
theorem memoryKept_writeCore (s : State) (r : CoreReg) (v : Word) : MemoryKept s (s.writeCore r v) := by
  cases r with
  | psw => exact memoryKept_loadPsw s _
  | _ => exact .of_same rfl rfl rfl

theorem memoryKept_resetEffect (s : State) : MemoryKept s s.resetEffect := by
  have h := resetDevices_range s.devices
  exact .ite (.of_ranges rfl rfl h) (.of_ranges rfl rfl h)

theorem memoryKept_accessRel : AccessRel MemoryKept MemoryKept where
  refl := .refl
  trans := .trans
  transE := .trans
  raise := .refl
  lastPage _ _ := .of_same rfl rfl rfl
  touch _ _ _ _ := .of_same rfl rfl rfl
  mmuTrap s := .ite (.refl s) (.ite (.of_same rfl rfl rfl) (.of_same rfl rfl rfl))
  reply := memoryKept_afterReply
  cpuError _ _ _ _ := .of_same rfl rfl rfl
  mmuAbort _ _ _ _ := .of_same rfl rfl rfl

theorem memoryKept_storeRel : StoreRel MemoryKept MemoryKept where
  toAccessRel := memoryKept_accessRel
  store _ _ _ v hc ho := ⟨rfl, rfl, fun hw => State.memSound_writeMain v hw hc ho⟩
  writeCore s _ r v _ := memoryKept_writeCore s r v

theorem memoryKept_stepRel : StepRel MemoryKept MemoryKept fun _ => True where
  toAccessRel := memoryKept_accessRel
  setPc _ _ := .of_same rfl rfl rfl
  writeReg s r v _ := memoryKept_writeReg s r v
  mmr1 _ _ := .of_same rfl rfl rfl
  yellow _ := .of_same rfl rfl rfl
  red _ _ _ := .of_same rfl rfl rfl

theorem memoryKept_trapRel : TrapRel MemoryKept where
  toStoreRel := memoryKept_storeRel
  __ := memoryKept_stepRel
  loadPsw := memoryKept_loadPsw
  mmr2 _ _ := .of_same rfl rfl rfl
  trapBegin _ := .of_same rfl rfl rfl
  trapEnd _ := .of_same rfl rfl rfl
  trapHalt _ := .of_same rfl rfl rfl

theorem memoryKept_execRel : ExecRel MemoryKept where
  toStoreRel := memoryKept_storeRel
  __ := memoryKept_stepRel
  trapSeq := trapSeq_rel memoryKept_trapRel
  loadPsw := memoryKept_loadPsw
  flags _ _ _ := .of_same rfl rfl rfl
  writeSpm _ _ _ := .of_same rfl rfl rfl
  setTrace _ _ := .of_same rfl rfl rfl
  setRunState _ _ := .of_same rfl rfl rfl
  flagIrq _ := .of_same rfl rfl rfl
  resetEffect := memoryKept_resetEffect

theorem memoryKept_fppRel : FppRel MemoryKept where
  fpp _ _ _ := .of_same rfl rfl rfl
  deferFpp _ := .of_same rfl rfl rfl

/-! ### The events of a boundary -/

/-- A boot stores its image in main memory and resets the devices (R706). -/
theorem memoryKept_boot (s : State) : MemoryKept s (s.bootWith s.params.boot) := by
  cases hb : s.params.boot with
  | none => exact .refl s
  | some b =>
    have stored : MemoryKept s (s.setMem (Memory.writeWords s.mem b.base.toNat b.image)) :=
      ⟨rfl, rfl, fun hw => State.memSound_writeWords (params_boot_le hw hb)⟩
    have loaded := stored.trans (memoryKept_loadPsw _ 0)
    have ranges := (resetDevices_range s.devices).trans loaded.ranges.symm
    exact loaded.trans (.of_ranges rfl rfl ranges)

/-- Every event of the outside world (R620, R640, R701, R702, R706). -/
theorem memoryKept_applyInput (s : State) (e : Input) : MemoryKept s (s.applyInput e) := by
  cases e with
  | raise dev level vector =>
    have raised : MemoryKept s ((s.setDevices (setRequest s.devices dev (some ⟨level, vector⟩))).setIrqFlag true) :=
      .of_ranges rfl rfl (setRequest_range _ _ _)
    exact raised.ite (.refl s)
  | drop dev => exact memoryKept_setDevices (setRequest_range _ _ _)
  | run | step => exact .ite (.of_same rfl rfl rfl) (.refl s)
  | halt => exact .of_same rfl rfl rfl
  | reset => exact (memoryKept_resetEffect s).trans (.of_same rfl rfl rfl)
  | boot => exact memoryKept_boot s
  | hardReset => exact .of_ranges rfl rfl (resetDevices_range _)
  | switches v => exact .of_same rfl rfl rfl

theorem memoryKept_cycleRel : CycleRel MemoryKept where
  toExecRel := memoryKept_execRel
  toFppRel := memoryKept_fppRel
  undelay _ := .of_same rfl rfl rfl
  unflag _ _ := .of_same rfl rfl rfl
  consume _ _ := memoryKept_setDevices (setRequest_range _ _ _)
  mmr2 _ _ := .of_same rfl rfl rfl
  inputs := takeInputs_rel memoryKept_accessRel.toComposes (fun _ _ => .of_same rfl rfl rfl) memoryKept_applyInput

/-- Settles O8: every step is in `MemoryKept`, and the constraints on the devices are constraints on their ranges. -/
theorem stepKeepsMemory : Obligations.StepKeepsMemory := by
  intro s t hw hs hstep
  have kept : MemoryKept s t := step_rel memoryKept_cycleRel hstep
  exact ⟨kept.params, kept.sound hw hs, kept.ranges, fun hd => (devicesWf_congr kept.ranges).trans hd⟩

end Sys2Proof.Machine
end

section
/-! What every step keeps of the control registers (10_state.md rules R26 to R68): an invariant of those registers that each
update of them keeps is kept by every step, and four invariants are of that kind. -/

namespace Sys2Proof.Machine

/-! ### Loads of the status word, resets and requests -/

@[simp] theorem State.loadPsw_devices (s : State) (v : Word) : (s.loadPsw v).devices = s.devices := by
  rw [State.loadPsw_eq]; rfl

/-- A reset drops the devices' requests, clears three control registers, turns relocation off, and clears the page
registers where the machine's parameters say so (R345). -/
theorem State.resetEffect_eq (s : State) :
    s.resetEffect = ((s.setDevices (resetDevices s.devices)).setCtl { s.ctl with pirq := 0, slr := 0, cpuErr := 0 }).setMmu
      { s.mmu with
        mmr0 := 0, mmr3 := 0, lastPage := 0
        par := if s.params.resetClearsPageTables then Vector.replicate 64 0 else s.mmu.par
        pdr := if s.params.resetClearsPageTables then Vector.replicate 64 0 else s.mmu.pdr } := by
  by_cases h : s.params.resetClearsPageTables = true
  · rw [if_pos h, if_pos h]
    exact if_pos h
  · rw [if_neg h, if_neg h]
    exact if_neg h

/-- No device requests after its reset (assumption log 5). -/
theorem resetDevices_request {ds : List Device} {d : Device} (h : d ∈ resetDevices ds) : d.request = none := by
  obtain ⟨e, -, rfl⟩ := List.mem_map.1 h
  rfl

/-- Withdrawing a request leaves every device as it was or without a request. -/
theorem setRequest_none_mem {ds : List Device} {k : Nat} {d : Device} (h : d ∈ setRequest ds k none) :
    d.request = none ∨ d ∈ ds := by
  unfold setRequest at h
  induction ds generalizing k with
  | nil => simp at h
  | cons e es ih =>
    cases k with
    | zero =>
      rcases List.mem_cons.1 h with rfl | h
      · exact .inl rfl
      · exact .inr (List.mem_cons_of_mem e h)
    | succ k =>
      rcases List.mem_cons.1 h with rfl | h
      · exact .inr List.mem_cons_self
      · exact (ih h).imp_right (List.mem_cons_of_mem e)

/-- An answer that raises nothing leaves every device as it was or without a request (R98). -/
theorem updateDeviceAt_mem {pa : PAddr} {c : RequestChange} (hc : changeRaises c = false) {ds : List Device} {d : Device}
    (h : d ∈ updateDeviceAt pa (requestAfter c) ds) : d.request = none ∨ d ∈ ds := by
  induction ds with
  | nil => cases h
  | cons e es ih =>
    unfold updateDeviceAt at h
    split at h
    · rcases List.mem_cons.1 h with rfl | h
      · cases c with
        | keep => exact .inr List.mem_cons_self
        | drop => exact .inl rfl
        | raise level vector => cases hc
      · exact .inr (List.mem_cons_of_mem e h)
    · rcases List.mem_cons.1 h with rfl | h
      · exact .inr List.mem_cons_self
      · exact (ih h).imp_right (List.mem_cons_of_mem e)

/-! ### Bits under a mask -/

/-- A word masked by `m` is 0 wherever `m` is. -/
theorem and_and_eq_zero {n : Nat} {m k : BitVec n} (v : BitVec n) (h : m &&& k = 0) : v &&& m &&& k = 0 := by
  rw [BitVec.and_assoc, h]
  exact BitVec.and_zero

/-- Equal under a mask, equal under every mask inside it. -/
theorem and_eq_of_and_eq {n : Nat} {v w m k : BitVec n} (h : v &&& m = w &&& m) (hk : m &&& k = k) :
    v &&& k = w &&& k := by
  rw [← hk, ← BitVec.and_assoc, h, BitVec.and_assoc]

/-- Words that differ in their flags alone are equal above them. -/
theorem and_eq_of_shift_eq {v w : Word} (h : v >>> 4 = w >>> 4) : v &&& 0o177760 = w &&& 0o177760 := by
  have up : ∀ x : Word, x &&& (0o177760 : Word) = x >>> 4 <<< 4 := fun x => by
    apply BitVec.eq_of_getLsbD_eq
    intro i hi
    interval_cases i <;> simp
  rw [up, up, h]

/-- The priority lies above the flags (R26). -/
theorem pswPri_eq_of_shift_eq {v w : Word} (h : v >>> 4 = w >>> 4) : pswPri v = pswPri w := by
  have up : ∀ x : Word, x.extractLsb' 5 3 = (x >>> 4).extractLsb' 1 3 := fun x => by
    apply BitVec.eq_of_getLsbD_eq
    intro i hi
    interval_cases i <;> simp
  rw [pswPri, pswPri, up, up, h]

/-- Recording an abort keeps bits 11:10 of MMR0 (R43, R110). -/
theorem recordAbort_reserved (u : Mmu) (anr apl aro inTrap : Bool) :
    (u.recordAbort anr apl aro inTrap).mmr0 &&& 0o006000 = u.mmr0 &&& 0o006000 := by
  have page : ∀ (w : Word) (p : BitVec 6), mmr0WithPage w p &&& 0o006000 = w &&& 0o006000 := fun w p => by
    have hp : ∀ p : BitVec 6, ((p.setWidth 16) <<< 1 : Word) &&& 0o006000 = 0 := by decide
    rw [mmr0WithPage, BitVec.and_or_distrib_right, hp, BitVec.and_assoc]
    exact BitVec.or_zero
  have bit : ∀ b : Bool, (if b then (0o100000 : Word) else 0) &&& 0o006000 = 0 ∧
      (if b then (0o040000 : Word) else 0) &&& 0o006000 = 0 ∧ (if b then (0o020000 : Word) else 0) &&& 0o006000 = 0 ∧
      (if b then (0o000200 : Word) else 0) &&& 0o006000 = 0 := by decide
  unfold Mmu.recordAbort
  split
  · rfl
  · simp only [page, BitVec.and_or_distrib_right, bit]
    simp

/-! ### An invariant of the control registers -/

/-- The registers the invariants speak of, everything else as after power-up. -/
def State.control (s : State) : State :=
  { State.reset with
    psw := s.psw
    mmu := { s.mmu with mmr1 := 0, mmr2 := 0, lastPage := 0 }
    ctl := { s.ctl with disp := 0, swr := 0, pending := {}, irqDelay := false, runState := .halt }
    fpp := { State.reset.fpp with fps := s.fpp.fps }
    devices := s.devices }

/-- A property that depends on the registers of `State.control` alone, holds after power-up, and is kept by each update of
one of them outside the trap sequence: a relation closed under every update follows. -/
structure ControlInvariant (P : State → Prop) : Prop where
  reads : ∀ s, P s.control ↔ P s
  reset : P State.reset
  loadPsw : ∀ s v, P s → P (s.loadPsw v)
  flags : ∀ (s : State) (w : Word), w >>> 4 = s.psw >>> 4 → P s → P (s.setPsw w)
  mmr0 : ∀ (s : State) (w : Word), w &&& 0o006000 = s.mmu.mmr0 &&& 0o006000 → P s →
    P (s.setMmu { s.mmu with mmr0 := w })
  touch : ∀ (s : State) (e : Fin 64) (d : Word), d &&& 0o177477 = s.mmu.pdr[e] &&& 0o177477 →
    (s.mmu.pdr[e] = 0 → d = 0) → P s → P (s.setMmu { s.mmu with pdr := s.mmu.pdr.set e d })
  cpuError : ∀ s b, 2 ≤ b → b < 8 → P s → P (s.cpuError b)
  writeCore : ∀ s pa r v, coreRegAt pa = some r → r ≠ .psw → P s → P (s.writeCore r v)
  resetEffect : ∀ s, P s → P s.resetEffect
  fps : ∀ (s : State) (w : Word), (s.fpp.fps &&& 0o030000 = 0 → w &&& 0o030000 = 0) → P s →
    P (s.setFpp { s.fpp with fps := w })
  raised : ∀ s ds, P s → P ((s.setDevices ds).setIrqFlag true)
  dropped : ∀ (s : State) ds, (∀ d ∈ ds, d.request = none ∨ d ∈ s.devices) → P s → P (s.setDevices ds)
  unflag : ∀ s : State, s.arbitrate.1 ≤ pswPri s.psw → P s → P (s.setIrqFlag false)
  boot : ∀ s : State, P s → P ((s.setDevices (resetDevices s.devices)).setCtl
    { s.ctl with pirq := 0, trapPsw := none, irqFlag := false })

/-- The later state has a property if the earlier has it. -/
def Keeps (P : State → Prop) (s t : State) : Prop := P s → P t

theorem Keeps.ite {P : State → Prop} {s t u : State} {p : Prop} [Decidable p] (ht : Keeps P s t) (hu : Keeps P s u) :
    Keeps P s (if p then t else u) := by
  split
  · exact ht
  · exact hu

namespace ControlInvariant

variable {P : State → Prop} (h : ControlInvariant P)
include h

/-- States with the same control registers have the property together. -/
theorem congr {s t : State} (hs : P s) (he : t.control = s.control) : P t := (h.reads t).1 (he ▸ (h.reads s).2 hs)

theorem same {s t : State} (he : t.control = s.control) : Keeps P s t := fun hs => h.congr hs he

theorem requestMmuTrap (s : State) : Keeps P s s.requestMmuTrap := by
  have trp : Keeps P s (s.setMmu { s.mmu with mmr0 := setBit s.mmu.mmr0 12 }) := h.mmr0 s _ (mask_setBit _ _ _ (by decide))
  unfold State.requestMmuTrap
  dsimp only
  split_ifs
  · exact id
  · exact fun hs => h.congr (trp hs) rfl
  · exact trp

theorem afterReply (s : State) (pa : PAddr) (r : DeviceReply) : Keeps P s (s.afterReply pa r) := by
  unfold State.afterReply
  dsimp only
  split_ifs with hr
  · exact fun hs => h.congr (h.raised s _ hs) rfl
  · exact fun hs => h.congr (h.dropped s _ (fun _ => updateDeviceAt_mem (Bool.eq_false_iff.2 hr)) hs) rfl

theorem accessRel : AccessRel (Keeps P) (Keeps P) where
  refl _ := id
  trans h1 h2 := h2 ∘ h1
  transE h1 h2 := h2 ∘ h1
  raise _ := id
  lastPage _ _ := h.same rfl
  touch s m p acc := h.touch s _ _ (pdrTouched_mask _ _) fun h0 => by cases acc <;> rw [h0] <;> rfl
  mmuTrap := h.requestMmuTrap
  reply := h.afterReply
  cpuError := h.cpuError
  mmuAbort s anr apl aro := by
    rw [Mmu.recordAbort_eq]
    exact h.mmr0 s _ (recordAbort_reserved _ _ _ _ _)

theorem storeRel : StoreRel (Keeps P) (Keeps P) where
  toAccessRel := h.accessRel
  store _ _ _ _ _ _ := h.same rfl
  writeCore s pa r v hr := by
    by_cases hp : r = .psw
    · subst hp
      exact h.loadPsw s _
    · exact h.writeCore s pa r v hr hp

theorem stepRel : StepRel (Keeps P) (Keeps P) fun _ => True where
  toAccessRel := h.accessRel
  setPc _ _ := h.same rfl
  writeReg _ _ _ _ := h.same (by simp [State.control])
  mmr1 _ _ := h.same rfl
  yellow s hs := h.congr (h.cpuError s 3 (by decide) (by decide) hs) rfl
  red s _ _ hs := h.congr (h.cpuError s 2 (by decide) (by decide) hs) rfl

/-- The trap sequence keeps a property that does not depend on the snapshot it holds (R602 to R609). -/
theorem trapSeq (hp : ∀ s v, P s → P (s.setTrapPsw v)) (v : Word) (s : State) : Keeps P s (trapSeq v s) :=
  trapSeq_rel (R := Keeps P)
    { h.storeRel, h.stepRel with
      loadPsw := h.loadPsw
      mmr2 := fun _ _ => h.same rfl
      trapBegin := fun s hs => h.congr (hp s (some s.psw) hs) rfl
      trapEnd := fun s => hp s none
      trapHalt := fun _ => h.same rfl } v s

theorem execRel (ht : ∀ v s, P s → P (Machine.trapSeq v s)) : ExecRel (Keeps P) where
  toStoreRel := h.storeRel
  __ := h.stepRel
  trapSeq := ht
  loadPsw := h.loadPsw
  flags := h.flags
  writeSpm _ _ _ := h.same rfl
  setTrace _ _ := h.same rfl
  setRunState _ _ := h.same rfl
  flagIrq s := h.raised s s.devices
  resetEffect := h.resetEffect

/-- Every event of the outside world (R620, R640, R701, R702, R706). -/
theorem applyInput (s : State) (e : Input) : Keeps P s (s.applyInput e) := by
  cases e with
  | raise dev level vector => exact Keeps.ite (h.raised s _) id
  | drop dev => exact h.dropped s _ fun _ => setRequest_none_mem
  | run | step => exact Keeps.ite (h.same rfl) id
  | halt => exact h.same rfl
  | reset => exact fun hs => h.congr (h.resetEffect s hs) rfl
  | boot =>
    show Keeps P s (s.bootWith s.params.boot)
    cases s.params.boot with
    | none => exact id
    | some b =>
      intro hs
      have loaded := h.loadPsw (s.setMem (Memory.writeWords s.mem b.base.toNat b.image)) 0 (h.congr hs rfl)
      exact h.congr (h.boot _ loaded) (by simp [State.bootWith, State.control, State.writeSpm])
  | hardReset =>
    exact fun _ => h.congr (h.dropped .reset _ (fun _ hd => .inl (resetDevices_request hd)) h.reset) rfl
  | switches v => exact h.same rfl

theorem cycleRel (ht : ∀ v s, P s → P (Machine.trapSeq v s)) : CycleRel (Keeps P) where
  toExecRel := h.execRel ht
  fpp s f hf hs := h.congr (h.fps s f.fps hf hs) rfl
  deferFpp _ := h.same rfl
  undelay _ := h.same rfl
  unflag := h.unflag
  consume s _ := h.dropped s _ fun _ => setRequest_none_mem
  mmr2 _ _ := h.same rfl
  inputs := takeInputs_rel h.accessRel.toComposes (fun _ _ => h.same rfl) h.applyInput

/-- Every step keeps the property. -/
theorem step (ht : ∀ v s, P s → P (Machine.trapSeq v s)) {s t : State} (he : step s = .next t) : P s → P t :=
  step_rel (h.cycleRel ht) he

end ControlInvariant

/-! ### No trap sequence in progress -/

/-- Only the trap sequence sets `trapPSW` (R65). -/
theorem idle_invariant : ControlInvariant State.idle where
  reads _ := Iff.rfl
  reset := rfl
  loadPsw s v hs := by
    rw [State.loadPsw_eq]
    show (if _ then _ else s.ctl).trapPsw = none
    split
    · exact hs
    · exact hs
  flags _ _ _ hs := hs
  mmr0 _ _ _ hs := hs
  touch _ _ _ _ _ hs := hs
  cpuError _ _ _ _ hs := hs
  writeCore s _ r v _ hne hs := by
    cases r with
    | psw => exact absurd rfl hne
    | _ => exact hs
  resetEffect s hs := by
    rw [State.resetEffect_eq]
    exact hs
  fps _ _ _ hs := hs
  raised _ _ hs := hs
  dropped _ _ _ hs := hs
  unflag _ _ hs := hs
  boot _ _ := rfl

/-- Settles O12: whatever a step does, the trap sequences it takes end with none in progress. -/
theorem stepLeavesIdle : Obligations.StepLeavesIdle := fun _ _ hs he =>
  idle_invariant.step (fun v s _ => trapSeq_trapPsw v s) he hs

/-! ### The page registers of mode 2 -/

/-- One entry of a vector set leaves every other. -/
theorem getElem_set_fin_ne {α : Type} {n : Nat} (p : Vector α n) (v : α) {i j : Fin n} (h : i ≠ j) :
    (p.set i v)[j] = p[j] :=
  Vector.getElem_set_ne _ _ fun e => h (Fin.ext e)

/-- No address names a page register of mode 2, and a translation that looks at one finds access denied (R40, R60, R108). -/
theorem illegalPages_invariant : ControlInvariant State.illegalPagesZero where
  reads _ := Iff.rfl
  reset p := ⟨Vector.getElem_replicate _, Vector.getElem_replicate _⟩
  loadPsw s v hs := by
    rw [State.loadPsw_eq]
    exact hs
  flags _ _ _ hs := hs
  mmr0 _ _ _ hs := hs
  touch s e d _ h0 hs p := by
    refine ⟨(hs p).1, ?_⟩
    show (s.mmu.pdr.set e d)[pageEntry .illegal p] = 0
    by_cases he : e = pageEntry .illegal p
    · subst he
      rw [h0 (hs p).2]
      exact Vector.getElem_set_self _
    · rw [getElem_set_fin_ne _ _ he]
      exact (hs p).2
  cpuError _ _ _ _ hs := hs
  writeCore s _ r v hr hne hs := by
    have other : ∀ {m : ProcMode} (q p : Fin 16), m ≠ .illegal → pageEntry m q ≠ pageEntry .illegal p :=
      fun q p hm he => hm (pageEntry_inj.1 he).1
    cases r with
    | psw => exact absurd rfl hne
    | pdr m q =>
      have hm : m ≠ .illegal := fun hm => (coreReg_mode hr).1 q (hm ▸ rfl)
      exact fun p => ⟨(hs p).1, (getElem_set_fin_ne _ _ (other q p hm)).trans (hs p).2⟩
    | par m q =>
      have hm : m ≠ .illegal := fun hm => (coreReg_mode hr).2 q (hm ▸ rfl)
      exact fun p => ⟨(getElem_set_fin_ne _ _ (other q p hm)).trans (hs p).1,
        (getElem_set_fin_ne _ _ (other q p hm)).trans (hs p).2⟩
    | _ => exact hs
  resetEffect s hs p := by
    rw [State.resetEffect_eq]
    show (if _ then _ else s.mmu.par)[pageEntry .illegal p] = 0 ∧
      (if _ then _ else s.mmu.pdr)[pageEntry .illegal p] = 0
    split
    · exact ⟨Vector.getElem_replicate _, Vector.getElem_replicate _⟩
    · exact hs p
  fps _ _ _ hs := hs
  raised _ _ hs := hs
  dropped _ _ _ hs := hs
  unflag _ _ hs := hs
  boot _ hs := hs

/-- Settles O10: the page registers of mode 2 are an invariant of the control registers. -/
theorem stepKeepsIllegalPages : Obligations.StepKeepsIllegalPages := fun _ _ hs he =>
  illegalPages_invariant.step (illegalPages_invariant.trapSeq fun _ _ hs => hs) he hs

/-! ### Requests above the priority -/

/-- The invariant of R624 stays where the flag is cleared by nothing, no request rises and the priority does not fall. -/
theorem State.irqCovered_mono {s t : State} (hs : s.irqCovered) (hf : t.ctl.irqFlag = false → s.ctl.irqFlag = false)
    (hq : pirLevelField t.ctl.pirq ≤ pirLevelField s.ctl.pirq)
    (hd : ∀ d ∈ t.devices, d.request = none ∨ d ∈ s.devices) (hp : pswPri s.psw ≤ pswPri t.psw) : t.irqCovered := by
  intro h
  obtain ⟨hpir, hdev⟩ := (arbitrate_le s _).1 (hs (hf h))
  refine (arbitrate_le t _).2 ⟨(hq.trans hpir).trans hp, fun d hmem r hr => ?_⟩
  rcases hd d hmem with hnone | hmem
  · rw [hnone] at hr
    cases hr
  · exact (hdev d hmem r hr).trans hp

/-- With no request in PIRQ and none of a device, none stands above the priority. -/
theorem State.irqCovered_quiet {s : State} (hq : s.ctl.pirq = 0) (hd : ∀ d ∈ s.devices, d.request = none) :
    s.irqCovered := by
  refine fun _ => (arbitrate_le s _).2 ⟨?_, fun d hmem r hr => ?_⟩
  · rw [hq]
    exact Nat.zero_le _
  · rw [hd d hmem] at hr
    cases hr

/-- What raises a request or lowers the priority sets `irqFlag` (R28, R51, R67, R622). -/
theorem irqCovered_invariant : ControlInvariant State.irqCovered where
  reads _ := Iff.rfl
  reset _ := Nat.le_refl 0
  loadPsw s v hs := by
    by_cases hv : pswPri v < pswPri s.psw
    · intro hf
      rw [State.loadPsw_eq, if_pos hv] at hf
      cases hf
    · rw [State.loadPsw_eq, if_neg hv]
      refine State.irqCovered_mono hs id le_rfl (fun _ => .inr) ?_
      show pswPri s.psw ≤ pswPri (v &&& 0o174377)
      rw [pswPri_and]
      exact Nat.not_lt.1 hv
  flags s w hw hs := State.irqCovered_mono hs id le_rfl (fun _ => .inr) (pswPri_eq_of_shift_eq hw).ge
  mmr0 _ _ _ hs := hs
  touch _ _ _ _ _ hs := hs
  cpuError _ _ _ _ hs := hs
  writeCore s _ r v _ hne hs := by
    cases r with
    | psw => exact absurd rfl hne
    | pirq => exact Bool.noConfusion
    | _ => exact hs
  resetEffect s _ := by
    rw [State.resetEffect_eq]
    exact State.irqCovered_quiet rfl fun _ => resetDevices_request
  fps _ _ _ hs := hs
  raised _ _ _ := Bool.noConfusion
  dropped _ _ hd hs := State.irqCovered_mono hs id le_rfl hd le_rfl
  unflag _ hle _ _ := hle
  boot _ _ := State.irqCovered_quiet rfl fun _ => resetDevices_request

/-- Settles O11: the invariant of R624 is an invariant of the control registers. -/
theorem stepKeepsIrqCover : Obligations.StepKeepsIrqCover := fun _ _ hs he =>
  irqCovered_invariant.step (irqCovered_invariant.trapSeq fun _ _ hs => hs) he hs

/-! ### The level fields of PIRQ -/

theorem pirqOfWrite_zero : (0 : Word) = pirqOfWrite 0 := by decide

theorem pirqLevel_le (v : Word) : pirqLevel v ≤ 7 := by
  unfold pirqLevel
  split_ifs <;> decide

/-- The level fields of PIRQ, bits 7:5 and 3:1, and the request bits as they lie in the register (R51). -/
theorem pirqOfWrite_level (v : Word) :
    ∃ l : Fin 8, l.val = pirqLevel (v &&& 0o177000) ∧
      pirqOfWrite v = (v &&& 0o177000) ||| BitVec.ofNat 16 (l.val * 34) := by
  have sum : ∀ l : Fin 8,
      BitVec.ofNat 16 (l.val * 32) ||| BitVec.ofNat 16 (l.val * 2) = BitVec.ofNat 16 (l.val * 34) := by decide
  refine ⟨⟨pirqLevel (v &&& 0o177000), Nat.lt_succ_of_le (pirqLevel_le _)⟩, rfl, ?_⟩
  rw [← sum, ← BitVec.or_assoc]
  rfl

/-- A write keeps the request bits as written (R51). -/
theorem pirqOfWrite_requests (v : Word) : pirqOfWrite v &&& 0o177000 = v &&& 0o177000 := by
  obtain ⟨l, -, hl⟩ := pirqOfWrite_level v
  have low : ∀ l : Fin 8, BitVec.ofNat 16 (l.val * 34) &&& 0o177000 = 0 := by decide
  rw [hl, BitVec.and_or_distrib_right, low, BitVec.and_assoc]
  exact BitVec.or_zero

/-- The level fields of the register written are computed from its request bits. -/
theorem pirqOfWrite_idem (v : Word) : pirqOfWrite (pirqOfWrite v) = pirqOfWrite v := by
  have same : ∀ {x y : Word}, x &&& 0o177000 = y &&& 0o177000 → pirqOfWrite x = pirqOfWrite y := fun h => by
    simp only [pirqOfWrite, h]
  exact same (pirqOfWrite_requests v)

/-! ### The bits that read 0 -/

/-- The bits that read 0 hold 0, and the level fields of PIRQ are computed (R26, R42, R43, R46, R47, R50 to R52, R402). -/
structure State.ReservedSound (s : State) : Prop where
  psw : s.psw &&& 0o003400 = 0
  slr : s.ctl.slr &&& 0o000377 = 0
  cpuErr : s.ctl.cpuErr &&& 0o177403 = 0
  mmr0 : s.mmu.mmr0 &&& 0o006000 = 0
  mmr3 : s.mmu.mmr3 &&& 0o177710 = 0
  fps : s.fpp.fps &&& 0o030000 = 0
  pirq : s.ctl.pirq = pirqOfWrite s.ctl.pirq
  pdr : ∀ d ∈ s.mmu.pdr, d &&& 0o100060 = 0
  ubmap : ∀ u ∈ s.mmu.ubmap, u.getLsbD 0 = false

/-- The four checks of the reserved bits say the same. -/
theorem State.reservedSound_iff (s : State) : s.ReservedSound ↔
    s.reservedClear = true ∧ s.pirqCoherent = true ∧ s.pdrReserved = true ∧ s.ubmapEven = true := by
  simp only [State.reservedClear, State.pirqCoherent, State.pdrReserved, State.ubmapEven, Bool.and_eq_true, beq_iff_eq,
    List.all_eq_true, Vector.mem_toList_iff, Bool.not_eq_true', and_assoc]
  constructor
  · rintro ⟨psw, slr, cpuErr, mmr0, mmr3, fps, pirq, pdr, ubmap⟩
    exact ⟨psw, slr, cpuErr, mmr0, mmr3, fps, pirq, pdr, ubmap⟩
  · rintro ⟨psw, slr, cpuErr, mmr0, mmr3, fps, pirq, pdr, ubmap⟩
    exact ⟨psw, slr, cpuErr, mmr0, mmr3, fps, pirq, pdr, ubmap⟩

/-- A property of all entries of a vector stays when one entry that has it is stored. -/
theorem forall_mem_set {α : Type} {n : Nat} {p : Vector α n} {Q : α → Prop} (h : ∀ x ∈ p, Q x) {i : Fin n} {v : α}
    (hv : Q v) : ∀ x ∈ p.set i v, Q x := fun x hx => by
  rcases Vector.mem_or_eq_of_mem_set hx with hx | rfl
  · exact h x hx
  · exact hv

/-- The lowest bit of a Unibus map register is that of its low word (R47). -/
theorem append_low (hi : BitVec 6) (lo : Word) : (hi ++ lo : BitVec 22).getLsbD 0 = lo.getLsbD 0 :=
  BitVec.getLsbD_append

/-- Every write masks the bits that read 0, and the recording of an access or an error sets none of them. -/
theorem reserved_invariant : ControlInvariant State.ReservedSound where
  reads _ := ⟨fun hs => { hs with }, fun hs => { hs with }⟩
  reset := (State.reservedSound_iff _).2 (by decide)
  loadPsw s v hs := by
    have hp : (v &&& 0o174377 : Word) &&& 0o003400 = 0 := and_and_eq_zero v rfl
    rw [State.loadPsw_eq]
    split
    · exact { hs with psw := hp }
    · exact { hs with psw := hp }
  flags s w hw hs := { hs with psw := (and_eq_of_and_eq (and_eq_of_shift_eq hw) rfl).trans hs.psw }
  mmr0 _ _ hw hs := { hs with mmr0 := hw.trans hs.mmr0 }
  touch s e d hd _ hs :=
    { hs with pdr := forall_mem_set hs.pdr ((and_eq_of_and_eq hd rfl).trans (hs.pdr _ (Vector.getElem_mem _))) }
  cpuError s b h2 h8 hs :=
    { hs with cpuErr := (mask_setBit _ _ _ (by interval_cases b <;> decide)).trans hs.cpuErr }
  writeCore s _ r v _ hne hs := by
    cases r with
    | psw => exact absurd rfl hne
    | slr => exact { hs with slr := and_and_eq_zero v rfl }
    | pirq => exact { hs with pirq := (pirqOfWrite_idem v).symm }
    | cpuErr => exact { hs with cpuErr := BitVec.zero_and }
    | mmr0 =>
      refine { hs with mmr0 := ?_ }
      show ((v &&& 0o171601) ||| (s.mmu.mmr0 &&& 0o000176) : Word) &&& 0o006000 = 0
      rw [BitVec.and_or_distrib_right, and_and_eq_zero v rfl, and_and_eq_zero s.mmu.mmr0 rfl]
      rfl
    | mmr3 => exact { hs with mmr3 := and_and_eq_zero v rfl }
    | pdr m p => exact { hs with pdr := forall_mem_set hs.pdr (and_and_eq_zero v rfl) }
    | par m p =>
      have old := hs.pdr _ (Vector.getElem_mem (pageEntry m p).isLt)
      exact { hs with pdr := forall_mem_set hs.pdr (by rw [BitVec.and_assoc]; exact old) }
    | ubLow k =>
      refine { hs with ubmap := forall_mem_set hs.ubmap ((append_low _ _).trans ?_) }
      simp
    | ubHigh k =>
      have old := hs.ubmap _ (Vector.getElem_mem k.isLt)
      refine { hs with ubmap := forall_mem_set hs.ubmap ((append_low _ _).trans ?_) }
      simpa using old
    | mmr1 | mmr2 => exact hs
    | switches => exact { hs with }
  resetEffect s hs := by
    rw [State.resetEffect_eq]
    refine { hs with
      slr := BitVec.zero_and, cpuErr := BitVec.zero_and, pirq := pirqOfWrite_zero, mmr0 := BitVec.zero_and,
      mmr3 := BitVec.zero_and, pdr := ?_ }
    show ∀ d ∈ (if s.params.resetClearsPageTables then Vector.replicate 64 0 else s.mmu.pdr), d &&& 0o100060 = 0
    split
    · intro d hd
      rw [Vector.eq_of_mem_replicate hd]
      rfl
    · exact hs.pdr
  fps _ _ hw hs := { hs with fps := hw hs.fps }
  raised _ _ hs := { hs with }
  dropped _ _ _ hs := { hs with }
  unflag _ _ hs := { hs with }
  boot _ hs := { hs with pirq := pirqOfWrite_zero }

/-- Settles O9: the reserved bits are an invariant of the control registers. -/
theorem stepKeepsReserved : Obligations.StepKeepsReserved := by
  intro s t hclear hpirq hpdr hubmap he
  have hs := (State.reservedSound_iff s).2 ⟨hclear, hpirq, hpdr, hubmap⟩
  have trap := reserved_invariant.trapSeq fun _ _ hs => { hs with }
  exact (State.reservedSound_iff t).1 (reserved_invariant.step trap he hs)

/-! ### The machine after power-up -/

/-- Settles O6: every register of the state after power-up is 0, and memory lists nothing. -/
theorem resetState : Obligations.ResetState := by
  have entry : ∀ {α : Type} {n : Nat} {x : α} (i : Fin n), (Vector.replicate n x)[i] = x := fun i =>
    Vector.getElem_replicate i.isLt
  refine ⟨fun rs i => ?_, fun m => entry (modeNumber m), rfl, rfl, rfl, rfl, fun e => ⟨entry e, entry e⟩, rfl, rfl, rfl,
    rfl, entry, rfl, rfl, rfl, rfl, rfl, rfl, rfl, rfl, rfl, rfl, rfl, rfl, rfl, entry, fun _ => rfl⟩
  cases rs with
  | false => exact entry i
  | true => exact entry i

/-- Settles O7: each invariant of the control registers holds after power-up, the parameters are R8's defaults, and there
is no device and no byte of memory listed. -/
theorem resetSound : Obligations.ResetSound := by
  obtain ⟨clear, pirq, pdr, ubmap⟩ := (State.reservedSound_iff _).1 reserved_invariant.reset
  exact ⟨by decide, rfl, ⟨Memory.wf_reset, fun _ _ => rfl⟩, clear, pirq, pdr, ubmap, illegalPages_invariant.reset,
    idle_invariant.reset, irqCovered_invariant.reset⟩

end Sys2Proof.Machine
end

section
/-! Physical accesses outside main memory (10_state.md rules R29, R41 to R53, R60, R61, 20_memory.md rules R84, R85, R96 to
R98): each core-owned register at its address, the registered devices, and the addresses that are refused. -/

namespace Sys2Proof.Machine

/-! ### A core-owned register behind a physical access -/

/-- A word or a byte read in a core-owned register, a byte its half of the word (R61, R84). -/
theorem physRead_core {pa : PAddr} {w : Width} {s : State} {r : CoreReg} (hw : s.params.wf = true)
    (h : 0o17760000 ≤ pa.toNat) (hr : coreRegAt pa = some r) :
    physRead pa w s = .ok (match w with
      | .word => s.readCore r
      | .byte => (byteOfWord (s.readCore r) (pa.getLsbD 0)).setWidth 16) s := by
  have := params_ceiling_le hw
  have ho : s.oddRefused pa w = false := by
    unfold State.oddRefused State.inIoRange
    simp [h, show s.params.memCeiling ≤ pa.toNat by omega]
  unfold physRead
  rw [get_bind, ho]
  simp only [Bool.false_eq_true, if_false, show ¬ pa.toNat < s.params.memCeiling by omega, h, if_true, hr]
  cases w <;> rfl

/-- Every word of the table of core-owned registers lies in the I/O range (R60). -/
theorem coreWord_io {a : Nat} (h : coreWord a = true) : 0o17760000 ≤ a ∧ a < 0o17777777 ∧ a % 2 = 0 := by
  simp only [coreWord, Bool.and_eq_true, Bool.or_eq_true, beq_iff_eq, decide_eq_true_eq, List.mem_cons, List.not_mem_nil,
    or_false] at h
  omega

/-- A conditional whose first branch answers: it answers if the rest does where the condition fails. -/
theorem exists_ite_some {α : Type} {p : Prop} [Decidable p] {a : α} {o : Option α} (h : ¬ p → ∃ r, o = some r) :
    ∃ r, (if p then some a else o) = some r := by
  split
  · exact ⟨a, rfl⟩
  · exact h ‹_›

/-- Each word of the table is answered by a register (R60). -/
theorem coreRegAt_some {pa : PAddr} (h : coreWord pa.toNat = true) : ∃ r, coreRegAt pa = some r := by
  have he : pa.toNat / 2 * 2 = pa.toNat := by
    have := coreWord_io h
    omega
  simp only [coreWord, Bool.and_eq_true, Bool.or_eq_true, beq_iff_eq, decide_eq_true_eq, List.mem_cons, List.not_mem_nil,
    or_false] at h
  unfold coreRegAt
  rw [he]
  dsimp only
  iterate 12 refine exists_ite_some fun _ => ?_
  rw [if_pos (by omega)]
  exact exists_ite_some fun _ => ⟨_, rfl⟩

/-- An odd address names the register of the word it lies in (R60). -/
theorem coreRegAt_succ {pa : PAddr} (h : coreWord pa.toNat = true) :
    (pa + 1).toNat = pa.toNat + 1 ∧ coreRegAt (pa + 1) = coreRegAt pa := by
  obtain ⟨-, hlt, heven⟩ := coreWord_io h
  have hs : (pa + 1).toNat = pa.toNat + 1 := by
    rw [BitVec.toNat_add]
    exact Nat.mod_eq_of_lt (by simp; omega)
  refine ⟨hs, ?_⟩
  unfold coreRegAt
  rw [hs, show (pa.toNat + 1) / 2 * 2 = pa.toNat / 2 * 2 by omega]

theorem getLsbD_zero_of_toNat {n : Nat} (x : BitVec n) : x.getLsbD 0 = decide (x.toNat % 2 = 1) := by
  simp [BitVec.getLsbD]

/-! ### The status word (R28, R29) -/

/-- A write of the status word, `x` being the word written, changes nothing else, but that one which lowers the priority
flags the interrupt check with its delay. -/
theorem physWrite_status {pa : PAddr} {w : Width} {v x y : Word} {s : State} (hw : s.params.wf = true)
    (hpa : coreRegAt pa = some .psw) (hio : 0o17760000 ≤ pa.toNat)
    (hx : (match w with | .word => v | .byte => mergeByte s.psw (pa.getLsbD 0) (v.extractLsb' 0 8)) = x)
    (hy : ((x &&& 0o177757) ||| (s.psw &&& 0o20)) &&& 0o174377 = y) :
    ∃ t, physWrite pa w v s = .ok () t ∧ t.psw = y ∧ t = (s.setPsw t.psw).setCtl t.ctl ∧
      (pswPri t.psw < pswPri s.psw → t.ctl = { s.ctl with irqFlag := true, irqDelay := true }) ∧
      (pswPri s.psw ≤ pswPri t.psw → t.ctl = s.ctl) := by
  obtain ⟨hrest, hpsw, hlow, hkeep⟩ := State.loadPsw_priority s ((x &&& 0o177757) ||| (s.psw &&& 0o20))
  refine ⟨_, ?_, hpsw.trans hy, hrest, hlow, hkeep⟩
  rw [physWrite_core hw hio hpa]
  subst hx
  rfl

/-- The three writes of the status word: T is kept, bits 10:8 read 0, a byte keeps the other half (R26, R29, R61). -/
theorem status_written (v p : Word) :
    ((v &&& 0o177757) ||| (p &&& 0o20)) &&& 0o174377 = (v &&& 0o174357) ||| (p &&& 0o20) ∧
    ((mergeByte p false (v.extractLsb' 0 8) &&& 0o177757) ||| (p &&& 0o20)) &&& 0o174377 =
      (p &&& 0o174020) ||| (v &&& 0o357) ∧
    ((mergeByte p true (v.extractLsb' 0 8) &&& 0o177757) ||| (p &&& 0o20)) &&& 0o174377 =
      ((v <<< 8) &&& 0o174000) ||| (p &&& 0o377) := by
  refine ⟨?_, ?_, ?_⟩
  · rw [BitVec.and_or_distrib_right, BitVec.and_assoc, BitVec.and_assoc]
    rfl
  all_goals
    apply BitVec.eq_of_getLsbD_eq
    intro i hi
    simp only [mergeByte, BitVec.getLsbD_or, BitVec.getLsbD_and, BitVec.getLsbD_append, BitVec.getLsbD_extractLsb',
      BitVec.getLsbD_shiftLeft, Bool.false_eq_true, if_false, if_true]
    interval_cases i <;> simp

/-! ### PIRQ (R51) -/

/-- Request k stands at bit 8 + k: the level is that of the highest. -/
theorem pirqLevel_spec (req : Word) :
    (∀ k : Fin 8, req.getLsbD (8 + k.val) = true → k.val ≤ pirqLevel req) ∧
      (pirqLevel req ≠ 0 → req.getLsbD (8 + pirqLevel req) = true) := by
  unfold pirqLevel
  refine ⟨fun k hk => ?_, ?_⟩
  · fin_cases k <;> grind
  · split_ifs with h7 h6 h5 h4 h3 h2 h1
    · exact fun _ => h7
    · exact fun _ => h6
    · exact fun _ => h5
    · exact fun _ => h4
    · exact fun _ => h3
    · exact fun _ => h2
    · exact fun _ => h1
    · exact fun h => absurd rfl h

/-- What software finds in PIRQ after a write: both fields name the highest request, the bits between read 0. -/
theorem pirqOfWrite_spec (v : Word) :
    let q := pirqOfWrite v
    q &&& 0o421 = 0 ∧ q.extractLsb' 1 3 = q.extractLsb' 5 3 ∧
      (∀ k : Fin 8, q.getLsbD (8 + k.val) = true → k.val ≤ pirLevelField q) ∧
      (pirLevelField q ≠ 0 → q.getLsbD (8 + pirLevelField q) = true) := by
  intro q
  obtain ⟨l, hl, (hq : q = _)⟩ := pirqOfWrite_level v
  have fields : ∀ l : Fin 8, BitVec.ofNat 16 (l.val * 34) &&& 0o421 = 0 ∧
      (BitVec.ofNat 16 (l.val * 34)).extractLsb' 1 3 = BitVec.ofNat 3 l.val ∧
      (BitVec.ofNat 16 (l.val * 34)).extractLsb' 5 3 = BitVec.ofNat 3 l.val ∧
      (BitVec.ofNat 3 l.val).toNat = l.val ∧
      ∀ k : Fin 8, (BitVec.ofNat 16 (l.val * 34)).getLsbD (8 + k.val) = false := by decide
  obtain ⟨hgap, hlow, hhigh, hnum, hbits⟩ := fields l
  have clear : ∀ j ≤ 6, (v &&& 0o177000 : Word).extractLsb' j 3 = 0 := fun j hj => by
    apply BitVec.eq_of_getLsbD_eq
    intro i hi
    interval_cases j <;> interval_cases i <;> simp
  have hfield : pirLevelField q = l.val := by
    rw [pirLevelField, hq, BitVec.extractLsb'_or, clear 5 (by decide), hhigh]
    exact (congrArg BitVec.toNat BitVec.zero_or).trans hnum
  have hbit : ∀ k : Fin 8, q.getLsbD (8 + k.val) = (v &&& 0o177000 : Word).getLsbD (8 + k.val) := fun k => by
    rw [hq, BitVec.getLsbD_or, hbits, Bool.or_false]
  obtain ⟨hbelow, hset⟩ := pirqLevel_spec (v &&& 0o177000)
  rw [hfield]
  refine ⟨?_, ?_, fun k hk => ?_, fun hne => ?_⟩
  · rw [hq, BitVec.and_or_distrib_right, and_and_eq_zero v rfl, hgap]
    rfl
  · rw [hq, BitVec.extractLsb'_or, BitVec.extractLsb'_or, clear 1 (by decide), clear 5 (by decide), hlow, hhigh]
  · rw [hl]
    exact hbelow k (hbit k ▸ hk)
  · rw [hbit l]
    rw [hl] at hne ⊢
    exact hset hne

/-! ### Page registers and the Unibus map (R41, R42, R47, R60) -/

/-- The addresses of the page registers: eight descriptors of instruction space, eight of data space, and 32 bytes above
each the address register of its page. -/
theorem coreRegAt_page : ∀ p : Fin 8, ∀ b ∈ ([(0o17772300, .kernel, 0), (0o17772320, .kernel, 8),
    (0o17772200, .supervisor, 0), (0o17772220, .supervisor, 8), (0o17777600, .user, 0), (0o17777620, .user, 8)] :
      List (PAddr × ProcMode × Nat)),
    let a := b.1 + BitVec.ofNat 22 (2 * p.val)
    coreRegAt a = some (.pdr b.2.1 (Fin.ofNat 16 (b.2.2 + p.val))) ∧
      coreRegAt (a + 0o40) = some (.par b.2.1 (Fin.ofNat 16 (b.2.2 + p.val))) ∧
      0o17760000 ≤ a.toNat ∧ 0o17760000 ≤ (a + 0o40).toNat := by
  decide +kernel

/-- The addresses of the Unibus map: the low word of a register, then its high six bits. -/
theorem coreRegAt_ubmap : ∀ k : Fin 32,
    let a : PAddr := 0o17770200 + BitVec.ofNat 22 (4 * k.val)
    coreRegAt a = some (.ubLow k) ∧ coreRegAt (a + 2) = some (.ubHigh k) ∧
      0o17760000 ≤ a.toNat ∧ 0o17760000 ≤ (a + 2).toNat := by
  decide

/-- A Unibus map register as its two words, read and written. -/
theorem ubmap_words (u : BitVec 22) (v : Word) :
    (u.extractLsb' 16 6 ++ (v &&& 0o177776) : BitVec 22) = (u &&& 0o17600000) ||| (v &&& 0o177776).setWidth 22 ∧
      (v.extractLsb' 0 6 ++ u.extractLsb' 0 16 : BitVec 22) = ((v &&& 0o77).setWidth 22 <<< 16) ||| (u &&& 0o177777) ∧
      u.extractLsb' 0 16 = u.setWidth 16 ∧ (u.extractLsb' 16 6).setWidth 16 = (u >>> 16).setWidth 16 := by
  refine ⟨?_, ?_, ?_, ?_⟩
  all_goals
    apply BitVec.eq_of_getLsbD_eq
    intro i hi
  · rw [BitVec.getLsbD_append]
    interval_cases i <;> simp
  · rw [BitVec.getLsbD_append]
    interval_cases i <;> simp
  · interval_cases i <;> simp
  · interval_cases i <;> simp

/-! ### The external bus (R96 to R98) -/

/-- No device at an address: a bus timeout (R97). -/
theorem busAccess_none {pa : PAddr} {s : State} (h : ∀ d ∈ s.devices, d.contains pa = false) :
    busAccess pa s = .error 0o4 (s.cpuError 4) := by
  have hany : s.devices.any (·.contains pa) = false := List.any_eq_false.2 fun d hd => by rw [h d hd]; decide
  unfold busAccess
  rw [get_bind, hany]
  rfl

/-- The first device whose range contains the address answers (R96, R98). -/
theorem busAccess_device {pa : PAddr} {s : State} {d : Device} (hd : d ∈ s.devices) (hc : d.contains pa = true) :
    let r := Config.deviceReply s.draws
    busAccess pa s = if r.fault then .error 0o4 ((s.afterReply pa r).cpuError 4) else .ok r.value (s.afterReply pa r) := by
  have hany : s.devices.any (·.contains pa) = true := List.any_eq_true.2 ⟨d, hd, hc⟩
  unfold busAccess
  rw [get_bind, hany]
  simp only [if_true, change_bind]
  split <;> rfl

/-- What an answer leaves: the draw, the request of the device reached, and the flag where it raised one (R98). -/
theorem State.afterReply_mid {s : State} {pa : PAddr} (r : DeviceReply) {pre post : List Device} {d : Device}
    (hs : s.devices = pre ++ d :: post) (hd : d.contains pa = true) (hp : ∀ e ∈ pre, e.contains pa = false) :
    s.afterReply pa r = { s with
      draws := s.draws + 1
      devices := pre ++ { d with request := requestAfter r.change d.request } :: post
      ctl := { s.ctl with irqFlag := s.ctl.irqFlag || changeRaises r.change } } := by
  unfold State.afterReply
  rw [hs, updateDeviceAt_mid _ post hd hp]
  cases changeRaises r.change with
  | false => simp [State.setDraws, State.setDevices]
  | true => simp [State.setDraws, State.setDevices, State.setIrqFlag, State.setCtl]

/-! ### Addresses that are refused (R84, R85) -/

/-- Below the I/O range a word at an odd address is refused. -/
theorem phys_odd {pa : PAddr} (v : Word) {s : State} (h : pa.toNat < 0o17760000) (ho : pa.getLsbD 0 = true) :
    physRead pa .word s = .error 0o4 (s.cpuError 6) ∧ physWrite pa .word v s = .error 0o4 (s.cpuError 6) := by
  have hr : s.oddRefused pa .word = true := by
    simp [State.oddRefused, State.inIoRange, isOddWord, ho, Nat.not_le.2 h]
  unfold physRead physWrite
  rw [get_bind, get_bind, hr]
  exact ⟨rfl, rfl⟩

/-- Between the ceiling and the I/O range there is no memory. -/
theorem phys_nonexistent {pa : PAddr} {w : Width} (v : Word) {s : State} (h : pa.toNat < 0o17760000)
    (hc : s.params.memCeiling ≤ pa.toNat) (ho : w = .byte ∨ pa.getLsbD 0 = false) :
    physRead pa w s = .error 0o4 (s.cpuError 5) ∧ physWrite pa w v s = .error 0o4 (s.cpuError 5) := by
  have hr : s.oddRefused pa w = false := by
    rcases ho with rfl | ho
    · rfl
    · rw [State.oddRefused, isOddWord, ho, Bool.and_false, Bool.false_and]
  unfold physRead physWrite
  rw [get_bind, get_bind, hr]
  simp only [Bool.false_eq_true, if_false, Nat.not_lt.2 hc, Nat.not_le.2 h]
  exact ⟨rfl, rfl⟩

/-! ### The clauses together -/

/-- `MMR0` as software reads it: bits 6:1 follow the page last used unless an abort has frozen them (R43, R48). -/
theorem Mmu.visibleMmr0_eq (u : Mmu) : u.visibleMmr0 = if u.mmr0.extractLsb' 13 3 = 0
    then (u.mmr0 &&& 0o177601) ||| (u.lastPage.setWidth 16 <<< 1) else u.mmr0 := by
  unfold Mmu.visibleMmr0
  by_cases h : u.mmr0.extractLsb' 13 3 = 0
  · rw [if_pos h, if_neg fun hf => (mmr0Frozen_iff _).1 hf h]
    rfl
  · rw [if_neg h, if_pos ((mmr0Frozen_iff _).2 h)]

theorem extractLsb'_low (v : Word) : v.extractLsb' 0 8 = lowByte v := by
  apply BitVec.eq_of_getLsbD_eq
  intro i hi
  simp [lowByte, hi]

/-- A core-owned register at both bytes of its word: what is read there, and the word that a write of either width, or at
the odd address, comes to (R60, R61). -/
theorem coreRegister_bytes {a : PAddr} {s : State} (v : Word) (hw : s.params.wf = true) (ha : coreWord a.toNat = true) :
    ∃ u, physRead a .word s = .ok u s ∧ physRead (a + 1) .word s = .ok u s ∧
      physRead a .byte s = .ok ((lowByte u).setWidth 16) s ∧
      physRead (a + 1) .byte s = .ok ((u.extractLsb' 8 8).setWidth 16) s ∧
      physWrite (a + 1) .word v s = physWrite a .word v s ∧
      physWrite a .byte v s = physWrite a .word (u.extractLsb' 8 8 ++ lowByte v) s ∧
      physWrite (a + 1) .byte v s = physWrite a .word (lowByte v ++ lowByte u) s := by
  obtain ⟨hio, -, heven⟩ := coreWord_io ha
  obtain ⟨r, hr⟩ := coreRegAt_some ha
  obtain ⟨hsucc, hsame⟩ := coreRegAt_succ ha
  have hr' : coreRegAt (a + 1) = some r := hsame.trans hr
  have hio' : 0o17760000 ≤ (a + 1).toNat := by omega
  have h0 : a.getLsbD 0 = false := by
    rw [getLsbD_zero_of_toNat]
    exact decide_eq_false (by omega)
  have h1 : (a + 1).getLsbD 0 = true := by
    rw [getLsbD_zero_of_toNat, hsucc]
    exact decide_eq_true (by omega)
  refine ⟨s.readCore r, physRead_core hw hio hr, physRead_core hw hio' hr', ?_, ?_, ?_, ?_, ?_⟩
  · rw [physRead_core hw hio hr, ← extractLsb'_low, h0]
    rfl
  · rw [physRead_core hw hio' hr', h1]
    rfl
  · rw [physWrite_core hw hio hr, physWrite_core hw hio' hr']
  · rw [physWrite_core hw hio hr, physWrite_core hw hio hr, ← extractLsb'_low, h0]
    rfl
  · rw [physWrite_core hw hio' hr', physWrite_core hw hio hr, ← extractLsb'_low, ← extractLsb'_low, h1]
    rfl

/-- An access of the I/O range that no device answers (R97). -/
theorem phys_noDevice {a : PAddr} {w : Width} {s : State} (v : Word) (hw : s.params.wf = true)
    (hio : 0o17760000 ≤ a.toNat) (ha : coreRegAt a = none) (hd : ∀ d ∈ s.devices, d.contains a = false) :
    physRead a w s = .error 0o4 (s.cpuError 4) ∧ physWrite a w v s = .error 0o4 (s.cpuError 4) := by
  obtain ⟨hread, hwrite⟩ := phys_bus v hw hio ha
  rw [hread, hwrite]
  exact ⟨bind_error (busAccess_none hd), bind_error (busAccess_none hd)⟩

/-- An access that a device answers, with a fault or a value, `t` being the state after the answer (R96, R98). -/
theorem phys_device {a : PAddr} {w : Width} {s t : State} {d : Device} (v : Word) (hw : s.params.wf = true)
    (hio : 0o17760000 ≤ a.toNat) (ha : coreRegAt a = none) (hd : d ∈ s.devices) (hc : d.contains a = true)
    (ht : s.afterReply a (Config.deviceReply s.draws) = t) :
    let r := Config.deviceReply s.draws
    (r.fault = true → physRead a w s = .error 0o4 (t.cpuError 4) ∧ physWrite a w v s = .error 0o4 (t.cpuError 4)) ∧
      (r.fault = false → physRead a w s = .ok (narrowTo w r.value) t ∧ physWrite a w v s = .ok () t) := by
  intro r
  subst ht
  obtain ⟨hread, hwrite⟩ := phys_bus v hw hio ha
  have hbus : busAccess a s = if r.fault then .error 0o4 ((s.afterReply a r).cpuError 4)
      else .ok r.value (s.afterReply a r) := busAccess_device hd hc
  rw [hread, hwrite]
  refine ⟨fun hf => ?_, fun hf => ?_⟩
  · rw [if_pos hf] at hbus
    exact ⟨bind_error hbus, bind_error hbus⟩
  · rw [if_neg (by rw [hf]; decide)] at hbus
    exact ⟨bind_ok hbus, bind_ok hbus⟩

/-- Settles O21: each clause is the access of its register, of the bus or of a refused address. -/
theorem coreRegisters : Obligations.CoreRegisters := by
  intro s v hw
  have read : ∀ {a : PAddr} (r : CoreReg), coreRegAt a = some r → 0o17760000 ≤ a.toNat →
      physRead a .word s = .ok (s.readCore r) s := fun _ hr hio => physRead_core hw hio hr
  have write : ∀ {a : PAddr} (r : CoreReg), coreRegAt a = some r → 0o17760000 ≤ a.toNat →
      physWrite a .word v s = .ok () (s.writeCore r v) := fun _ hr hio => physWrite_core hw hio hr
  refine ⟨?status, ⟨_, write .slr rfl (by decide), rfl, rfl⟩, ?pirq, ⟨_, write .cpuErr rfl (by decide), rfl⟩,
    ⟨_, write .mmr0 rfl (by decide), rfl⟩, write .mmr1 rfl (by decide), write .mmr2 rfl (by decide),
    write .switches rfl (by decide), ⟨_, write .mmr3 rfl (by decide), rfl⟩, ?pages, ?ubmap, read .psw rfl (by decide),
    read .slr rfl (by decide), read .pirq rfl (by decide), read .cpuErr rfl (by decide), ?mmr0,
    read .mmr1 rfl (by decide), read .mmr2 rfl (by decide), read .switches rfl (by decide), read .mmr3 rfl (by decide),
    fun a ha => coreRegister_bytes v hw ha, ?bus, ?refused⟩
  case status =>
    intro lowering
    obtain ⟨hword, hlow, hhigh⟩ := status_written v s.psw
    exact ⟨physWrite_status hw rfl (by decide) rfl hword, physWrite_status hw rfl (by decide) rfl hlow,
      physWrite_status hw rfl (by decide) rfl hhigh⟩
  case pirq =>
    obtain ⟨hgap, hfields, hbelow, hset⟩ := pirqOfWrite_spec v
    exact ⟨_, write .pirq rfl (by decide), pirqOfWrite_requests v, hgap, rfl, hfields, hbelow, hset⟩
  case pages =>
    intro p b hb e a
    obtain ⟨hpdr, hpar, hio, hio'⟩ := coreRegAt_page p b hb
    exact ⟨⟨_, write _ hpdr hio, rfl, rfl⟩, ⟨_, write _ hpar hio', rfl, rfl⟩, read _ hpdr hio, read _ hpar hio'⟩
  case ubmap =>
    intro k a u
    obtain ⟨hl, hh, hio, hio'⟩ := coreRegAt_ubmap k
    obtain ⟨writeLow, writeHigh, readLow, readHigh⟩ := ubmap_words u v
    rw [← writeLow, ← writeHigh, ← readLow, ← readHigh]
    exact ⟨write _ hl hio, write _ hh hio', read _ hl hio, read _ hh hio'⟩
  case mmr0 =>
    rw [← Mmu.visibleMmr0_eq]
    exact read .mmr0 rfl (by decide)
  case bus =>
    intro a w hio ha
    have hnone := coreRegAt_none ha
    refine ⟨phys_noDevice v hw hio hnone, fun pre d post hs hd hp => ?_⟩
    intro r request raised t f
    have ht : s.afterReply a r = t := by
      rw [State.afterReply_mid r hs hd hp]
      simp only [t, request, raised]
      cases r.change <;> rfl
    have hmem : d ∈ s.devices := by rw [hs]; simp
    obtain ⟨hfault, hvalue⟩ := phys_device (w := w) v hw hio hnone hmem hd ht
    refine ⟨hfault, fun hf => ?_⟩
    cases w with
    | byte => exact hvalue hf
    | word => exact hvalue hf
  case refused =>
    intro a w hlt
    refine ⟨fun hword hodd => ?_, fun hodd hc => phys_nonexistent v hlt hc hodd⟩
    subst hword
    exact phys_odd v hlt hodd

end Sys2Proof.Machine
end

section
/-! Address translation (20_memory.md rules R88 to R113): the direct map, and with the MMU enabled the three ends of a
translation, refused by the ceiling test, forbidden by the page, or allowed. -/

namespace Sys2Proof.Machine

/-! ### The direct map (R90, R91) -/

/-- With the MMU disabled for the intent, translation is the direct map (R88, R89). -/
theorem translate_disabled {m : ProcMode} {va : VAddr} {acc : Access} {w : Width} {s : State}
    (h : mmuEnabled s.mmu.mmr0 acc = false) :
    translate m va acc w s = if isOddWord w (va.addr.getLsbD 0) then .error 0o4 (s.directAfter.cpuError 6)
      else .ok (directAddress va.addr) s.directAfter := by
  unfold translate
  rw [get_bind, h]
  unfold directMap setLastPage
  rw [if_neg Bool.false_ne_true, change_bind]
  split <;> rfl

/-- The direct map in numbers: the top 8 KB go to the I/O range, the six bits above the address set (R90). -/
theorem directAddress_io {a : Word} (h : 0o160000 ≤ a.toNat) : (directAddress a).toNat = a.toNat + 0o17600000 := by
  have happend : directAddress a = (0o77 : BitVec 6) ++ a := by
    rw [BitVec.append_def, BitVec.or_comm]
    exact if_pos h
  rw [happend, BitVec.toNat_append, ← Nat.shiftLeft_add_eq_or_of_lt a.isLt, Nat.add_comm]
  rfl

/-- Settles O18: translation with the MMU disabled is the direct map, its address read in numbers. -/
theorem directMapping : Obligations.DirectMapping := by
  intro m va acc w s h
  refine ⟨fun hword hodd => ?_, fun heven => ⟨directAddress va.addr, ?_, ?_⟩⟩
  · rw [translate_disabled h, hword, hodd]
    rfl
  · have hok : isOddWord w (va.addr.getLsbD 0) = false := by
      rcases heven with rfl | heven
      · rfl
      · rw [isOddWord, heven, Bool.and_false]
    rw [translate_disabled h, hok]
    rfl
  · split
    · exact directAddress_toNat ‹_›
    · exact directAddress_io (by omega)

/-! ### The checks of a page (R107 to R112) -/

/-- Whether the page of descriptor `d` does not allow an access to `a`, or does not reach so far (R107 to R109). -/
def pageForbids (d a : Word) (wr : Bool) : Bool :=
  (acfEffect (pdrAcf d) wr).anr || lengthError d a || (acfEffect (pdrAcf d) wr).aro

/-- Which accesses a page allows, and how far it reaches (R107 to R109). -/
theorem pageForbids_eq_false_iff (d a : Word) (wr : Bool) :
    let acf := (d.extractLsb' 0 3).toNat
    let plf := (d.extractLsb' 8 7).toNat
    let blk := (a.extractLsb' 6 7).toNat
    pageForbids d a wr = false ↔ (acf = 4 ∨ acf = 5 ∨ acf = 6 ∨ (wr = false ∧ (acf = 1 ∨ acf = 2))) ∧
      (d.getLsbD 3 = false → blk ≤ plf) ∧ (d.getLsbD 3 = true → plf ≤ blk) := by
  intro acf plf blk
  obtain ⟨hanr, haro, -⟩ := acfEffect_eq d wr
  have hacf : ∀ k < 8, ∀ wr : Bool, ((k == 0 || k == 3 || k == 7) || ((k == 1 || k == 2) && wr)) = false ↔
      k = 4 ∨ k = 5 ∨ k = 6 ∨ (wr = false ∧ (k = 1 ∨ k = 2)) := by decide
  have hlength : lengthError d a = false ↔
      (d.getLsbD 3 = false → blk ≤ plf) ∧ (d.getLsbD 3 = true → plf ≤ blk) := by
    rw [show lengthError d a = if d.getLsbD 3 then decide (blk < plf) else decide (plf < blk) from rfl]
    cases d.getLsbD 3 <;> simp
  rw [pageForbids, hanr, haro, Bool.or_right_comm, Bool.or_eq_false_iff, hlength, hacf acf (d.extractLsb' 0 3).isLt wr]

/-- The page registers once an access has set the A and W bits of its page (R42, R108). -/
def Mmu.touchPage (u : Mmu) (e : Fin 64) (wr : Bool) : Mmu :=
  { u with pdr := u.pdr.set e (pdrTouched u.pdr[e] (acfEffect (pdrAcf u.pdr[e]) wr)) }

/-- The page registers an access leaves, `d` being the descriptor of its page with A and W as they should be: no other page
register changes, but for the page last used (R42, R48, R108). -/
theorem Mmu.touchPage_notePage {u : Mmu} {m : ProcMode} {p : Fin 16} {wr : Bool} {d : Word} (a : Nat)
    (h : pdrTouched u.pdr[pageEntry m p] (acfEffect (pdrAcf u.pdr[pageEntry m p]) wr) = d) :
    (u.notePage m p a).touchPage (pageEntry m p) wr = { u with
      pdr := u.pdr.set (pageEntry m p) d
      lastPage := if a = 0o17777572 then u.lastPage else BitVec.ofNat 6 (16 * (modeNumber m).val + p.val) } := by
  rw [← h]
  rfl

/-- A page that forbids the access aborts it, once the A and W bits are set (R107 to R110). -/
theorem checkPage_forbidden {m : ProcMode} {p : Fin 16} {a : Word} {acc : Access} {s : State}
    (h : pageForbids s.mmu.pdr[pageEntry m p] a acc.wr = true) :
    checkPage m p a acc s =
      (let d := s.mmu.pdr[pageEntry m p]
       .error 0o250 (s.setMmu ((s.mmu.touchPage (pageEntry m p) acc.wr).recordAbort (acfEffect (pdrAcf d) acc.wr).anr
         (lengthError d a) (acfEffect (pdrAcf d) acc.wr).aro s.ctl.trapPsw.isSome))) := by
  rw [checkPage_run]
  exact if_pos h

/-- A page that allows it requests the MMU trap where its access-control field says so (R107 to R109, R112). -/
theorem checkPage_allowed {m : ProcMode} {p : Fin 16} {a : Word} {acc : Access} {s : State}
    (h : pageForbids s.mmu.pdr[pageEntry m p] a acc.wr = false) :
    checkPage m p a acc s =
      (let t := s.setMmu (s.mmu.touchPage (pageEntry m p) acc.wr)
       .ok () (if (acfEffect (pdrAcf s.mmu.pdr[pageEntry m p]) acc.wr).trp then t.requestMmuTrap else t)) := by
  rw [checkPage_run]
  refine (if_neg (ne_true_of_eq_false h)).trans ?_
  split <;> rfl

/-- An access the access-control field allows sets A, and W if it writes; one that it does not leaves both (R108). -/
theorem pdrTouched_acf (d : Word) (wr : Bool) :
    let e := acfEffect (pdrAcf d) wr
    pdrTouched d e = if e.anr || e.aro then d else d ||| 0o200 ||| (if wr then 0o100 else 0) := by
  intro e
  obtain ⟨-, -, -, ha, hw⟩ := acfEffect_eq d wr
  unfold pdrTouched
  rw [show e.w = (wr && e.a) from hw, show e.a = (!e.anr && !e.aro) from ha]
  cases e.anr <;> cases e.aro <;> simp

/-- So one that the page allows sets A, and W if it writes (R108). -/
theorem pdrTouched_allowed {d a : Word} {wr : Bool} (h : pageForbids d a wr = false) :
    pdrTouched d (acfEffect (pdrAcf d) wr) = d ||| 0o200 ||| (if wr then 0o100 else 0) := by
  obtain ⟨hacf, haro⟩ := Bool.or_eq_false_iff.1 h
  obtain ⟨hanr, -⟩ := Bool.or_eq_false_iff.1 hacf
  exact (pdrTouched_acf d wr).trans (if_neg (by rw [hanr, haro]; decide))

/-- The MMU trap where it is asked for: latched in MMR0 unless it is already or an abort is frozen there, and deferred
where it is enabled (R112). -/
theorem State.requestMmuTrap_if (s : State) (traps : Bool) :
    let asks := traps && s.mmu.mmr0.extractLsb' 12 4 == 0
    (if traps then s.requestMmuTrap else s) =
      (s.setMmu { s.mmu with mmr0 := if asks then s.mmu.mmr0 ||| 0o10000 else s.mmu.mmr0 }).setCtl { s.ctl with
        pending := { s.ctl.pending with mmu := s.ctl.pending.mmu || (asks && s.mmu.mmr0.getLsbD 9) } } := by
  have hlatched : (mmr0Frozen s.mmu.mmr0 || mmr0Trp s.mmu.mmr0) = !(s.mmu.mmr0.extractLsb' 12 4 == 0) := by
    have hany : ∀ x : BitVec 4, (x.getLsbD 3 || x.getLsbD 2 || x.getLsbD 1 || x.getLsbD 0) = !(x == 0) := by decide
    rw [← hany]
    simp [mmr0Frozen, mmr0Trp]
  have hent : mmr0Ent s.mmu.mmr0 = s.mmu.mmr0.getLsbD 9 := rfl
  unfold State.requestMmuTrap
  rw [hlatched, hent]
  cases traps with
  | false =>
    simp only [Bool.false_and, Bool.or_false, Bool.false_eq_true, if_false]
    rfl
  | true =>
    cases s.mmu.mmr0.extractLsb' 12 4 == 0 with
    | false =>
      simp only [Bool.and_false, Bool.false_and, Bool.or_false, Bool.false_eq_true, if_false, Bool.not_false, if_true]
      rfl
    | true =>
      simp only [Bool.and_true, Bool.true_and, Bool.not_true, Bool.false_eq_true, if_false, if_true]
      cases s.mmu.mmr0.getLsbD 9 with
      | false =>
        simp only [Bool.or_false]
        rfl
      | true =>
        simp only [Bool.or_true]
        rfl

/-! ### The record of an abort in MMR0 (R110) -/

/-- Bits 6:1 of MMR0 are the page, every other bit is the word's (R43). -/
theorem mmr0WithPage_bits (w : Word) (page : BitVec 6) :
    (mmr0WithPage w page).extractLsb' 1 6 = page ∧
      ∀ i < 16, i = 0 ∨ 7 ≤ i → (mmr0WithPage w page).getLsbD i = w.getLsbD i := by
  unfold mmr0WithPage
  refine ⟨BitVec.eq_of_getLsbD_eq fun i hi => ?_, fun i hi hout => ?_⟩
  · interval_cases i <;> simp
  · rcases hout with rfl | h7
    · simp
    · interval_cases i <;> simp

/-- Where an abort is frozen, another leaves no record (R110). -/
theorem Mmu.recordAbort_frozen {u : Mmu} {anr apl aro inTrap : Bool} (h : u.mmr0.extractLsb' 13 3 ≠ 0) :
    u.recordAbort anr apl aro inTrap = u := if_pos ((mmr0Frozen_iff _).2 h)

/-- The bits an abort sets in MMR0: its causes, and whether it came inside a trap sequence (R110). -/
def abortCause (anr apl aro inTrap : Bool) : Word :=
  (if anr then 0o100000 else 0) ||| (if apl then 0o040000 else 0) ||| (if aro then 0o020000 else 0) |||
    (if inTrap then 0o000200 else 0)

theorem abortCause_bits : ∀ anr apl aro inTrap : Bool,
    let c := abortCause anr apl aro inTrap
    c.getLsbD 15 = anr ∧ c.getLsbD 14 = apl ∧ c.getLsbD 13 = aro ∧ (∀ i : Fin 5, c.getLsbD (8 + i.val) = false) ∧
      c.getLsbD 7 = inTrap ∧ c.getLsbD 0 = false := by decide

/-- Where none is, it leaves its causes and its page (R110). -/
theorem Mmu.recordAbort_free {u : Mmu} {anr apl aro inTrap : Bool} (h : u.mmr0.extractLsb' 13 3 = 0) :
    u.recordAbort anr apl aro inTrap =
      { u with mmr0 := mmr0WithPage (u.mmr0 ||| abortCause anr apl aro inTrap) u.lastPage } := by
  unfold Mmu.recordAbort abortCause
  rw [if_neg fun hf => (mmr0Frozen_iff _).1 hf h]
  simp only [BitVec.or_assoc]

/-- MMR0 after such an abort: its causes in bits 15:13, bit 7 set inside a trap sequence, the page last used in bits 6:1,
every other bit kept (R43, R110). -/
theorem Mmu.recordAbort_mmr0 {u : Mmu} {anr apl aro inTrap : Bool} (h : u.mmr0.extractLsb' 13 3 = 0) :
    let t := u.recordAbort anr apl aro inTrap
    t.mmr0.getLsbD 15 = anr ∧ t.mmr0.getLsbD 14 = apl ∧ t.mmr0.getLsbD 13 = aro ∧
      t.mmr0.extractLsb' 8 5 = u.mmr0.extractLsb' 8 5 ∧ t.mmr0.getLsbD 7 = (u.mmr0.getLsbD 7 || inTrap) ∧
      t.mmr0.extractLsb' 1 6 = t.lastPage ∧ t.mmr0.getLsbD 0 = u.mmr0.getLsbD 0 := by
  obtain ⟨h15, h14, h13, hmid, h7, h0⟩ := abortCause_bits anr apl aro inTrap
  have hfree : mmr0Frozen u.mmr0 = false := Bool.eq_false_iff.2 fun hf => (mmr0Frozen_iff _).1 hf h
  obtain ⟨hu, hu13⟩ := Bool.or_eq_false_iff.1 hfree
  obtain ⟨hu15, hu14⟩ := Bool.or_eq_false_iff.1 hu
  obtain ⟨hpage, hbits⟩ := mmr0WithPage_bits (u.mmr0 ||| abortCause anr apl aro inTrap) u.lastPage
  rw [Mmu.recordAbort_free h]
  refine ⟨?_, ?_, ?_, BitVec.eq_of_getLsbD_eq fun i hi => ?_, ?_, hpage, ?_⟩
  · rw [hbits 15 (by decide) (by decide), BitVec.getLsbD_or, hu15, h15, Bool.false_or]
  · rw [hbits 14 (by decide) (by decide), BitVec.getLsbD_or, hu14, h14, Bool.false_or]
  · rw [hbits 13 (by decide) (by decide), BitVec.getLsbD_or, hu13, h13, Bool.false_or]
  · rw [BitVec.getLsbD_extractLsb', BitVec.getLsbD_extractLsb', hbits (8 + i) (by omega) (by omega), BitVec.getLsbD_or,
      hmid ⟨i, hi⟩, Bool.or_false]
  · rw [hbits 7 (by decide) (by decide), BitVec.getLsbD_or, h7]
  · rw [hbits 0 (by decide) (by decide), BitVec.getLsbD_or, h0, Bool.or_false]

/-! ### The three ends of a mapped translation (R100) -/

section
variable {m : ProcMode} {va : VAddr} {acc : Access} {w : Width} {s : State}

/-- The ceiling test refuses the address: an abort through 4, whatever the page allows (R104, R105). -/
theorem translate_refused {b : Nat} (hw : s.params.wf = true) (he : mmuEnabled s.mmu.mmr0 acc = true)
    (ha : mappedAddress s m va w = .error b) : translate m va acc w s = .error 0o4 (s.cpuError b) := by
  have hbus := busAddress_eq m va w s hw
  dsimp only at hbus
  rw [ha] at hbus
  rw [translate_mapped m va acc w s he]
  exact bind_error hbus

/-- It admits the address: the page last used is recorded, and the page makes its checks (R103 to R107). -/
theorem translate_admitted {a : Nat} (hw : s.params.wf = true) (he : mmuEnabled s.mmu.mmr0 acc = true)
    (ha : mappedAddress s m va w = .ok a) :
    let p := mappedPage s.mmu.mmr3 m va
    ∃ pa : PAddr, pa.toNat = a ∧ translate m va acc w s =
      (checkPage m p va.addr acc >>= fun _ => pure pa : M PAddr) (s.setMmu (s.mmu.notePage m p a)) := by
  have hbus := busAddress_eq m va w s hw
  dsimp only at hbus
  rw [ha] at hbus
  obtain ⟨pa, hpa, hbus⟩ := hbus
  refine ⟨pa, hpa, ?_⟩
  rw [translate_mapped m va acc w s he]
  exact bind_ok hbus

/-- The page forbids the access: an abort through 0o250, recorded in MMR0 (R107 to R110). -/
theorem translate_forbidden {a : Nat} (hw : s.params.wf = true) (he : mmuEnabled s.mmu.mmr0 acc = true)
    (ha : mappedAddress s m va w = .ok a)
    (hf : pageForbids s.mmu.pdr[pageEntry m (mappedPage s.mmu.mmr3 m va)] va.addr acc.wr = true) :
    let p := mappedPage s.mmu.mmr3 m va
    let d := s.mmu.pdr[pageEntry m p]
    let e := acfEffect (pdrAcf d) acc.wr
    translate m va acc w s = .error 0o250 (s.setMmu (((s.mmu.notePage m p a).touchPage (pageEntry m p) acc.wr).recordAbort
      e.anr (lengthError d va.addr) e.aro s.ctl.trapPsw.isSome)) := by
  obtain ⟨pa, -, ht⟩ := translate_admitted hw he ha
  exact ht.trans (bind_error (checkPage_forbidden hf))

/-- The page allows it: the address, and the MMU trap requested where the page asks for it (R102 to R109, R112). -/
theorem translate_allowed {a : Nat} (hw : s.params.wf = true) (he : mmuEnabled s.mmu.mmr0 acc = true)
    (ha : mappedAddress s m va w = .ok a)
    (hf : pageForbids s.mmu.pdr[pageEntry m (mappedPage s.mmu.mmr3 m va)] va.addr acc.wr = false) :
    let p := mappedPage s.mmu.mmr3 m va
    let t := s.setMmu ((s.mmu.notePage m p a).touchPage (pageEntry m p) acc.wr)
    ∃ pa : PAddr, pa.toNat = a ∧ translate m va acc w s = .ok pa
      (if (acfEffect (pdrAcf s.mmu.pdr[pageEntry m p]) acc.wr).trp then t.requestMmuTrap else t) := by
  obtain ⟨pa, hpa, ht⟩ := translate_admitted hw he ha
  exact ⟨pa, hpa, ht.trans (bind_ok (checkPage_allowed hf))⟩

end

/-- Settles O19: the ceiling test refuses, or the page forbids and its abort is recorded. -/
theorem pageProtection : Obligations.PageProtection := by
  intro m va acc w s hw he p e d acf plf blk anr aro apl
  obtain ⟨hanr, haro, -⟩ := acfEffect_eq d acc.wr
  have htouched := pdrTouched_acf d acc.wr
  dsimp only at hanr haro htouched
  rw [hanr, haro] at htouched
  refine ⟨fun b hb => translate_refused hw he hb, fun a ha hforbids => ?_⟩
  have hf : pageForbids d va.addr acc.wr = true := by
    rw [Bool.or_right_comm] at hforbids
    rw [pageForbids, hanr, haro]
    exact hforbids
  have ht := translate_forbidden hw he ha hf
  dsimp only at ht
  rw [hanr, haro] at ht
  have htouch := Mmu.touchPage_notePage a htouched
  generalize (s.mmu.notePage m (mappedPage s.mmu.mmr3 m va) a).touchPage _ acc.wr = u at ht htouch
  have hmmr0 : u.mmr0 = s.mmu.mmr0 := by rw [htouch]
  refine ⟨_, ht, ?_, fun hfree => ?_, fun hfrozen => ?_⟩
  · rw [Mmu.recordAbort_eq, htouch]
    rfl
  · rw [← hmmr0] at hfree ⊢
    exact Mmu.recordAbort_mmr0 hfree
  · rw [Mmu.recordAbort_frozen (by rw [hmmr0]; exact hfrozen)]
    exact hmmr0

/-- Settles O20: a translation answers exactly where the ceiling test admits the address and the page allows the access. -/
theorem mappedAccess : Obligations.MappedAccess := by
  intro m va acc w s hw he p e d acf plf blk traps asks allowed
  have hallowed : pageForbids d va.addr acc.wr = false ↔ allowed := pageForbids_eq_false_iff d va.addr acc.wr
  refine ⟨fun a ha hal => ?_, fun pa t h => ?_⟩
  · obtain ⟨pa, -, ht⟩ := translate_allowed hw he ha (hallowed.2 hal)
    exact ⟨pa, _, ht⟩
  cases ha : mappedAddress s m va w with
  | error b =>
    rw [translate_refused hw he ha] at h
    cases h
  | ok a =>
    cases hf : pageForbids d va.addr acc.wr with
    | true =>
      rw [translate_forbidden hw he ha hf] at h
      cases h
    | false =>
      obtain ⟨pa', rfl, ht⟩ := translate_allowed hw he ha hf
      obtain ⟨-, -, (htrp : _ = traps), -⟩ := acfEffect_eq d acc.wr
      have htouch := Mmu.touchPage_notePage pa'.toNat (pdrTouched_allowed hf)
      generalize (s.mmu.notePage m (mappedPage s.mmu.mmr3 m va) pa'.toNat).touchPage _ acc.wr = u at ht htouch
      rw [htrp, State.requestMmuTrap_if] at ht
      rw [ht] at h
      cases h
      refine ⟨rfl, hallowed.1 hf, ?_, ?_, rfl⟩
      · rw [htouch]
        rfl
      · rw [htouch]
        rfl

end Sys2Proof.Machine
end

section
/-! Operands in main memory (20_memory.md rules R81 to R85, R125 to R127, 40_addressing.md rule R185,
52_fpp_instructions.md rules R471 to R473): bytes and words, and the words of floating and long operands. -/

namespace Sys2Proof.Machine

/-! ### Bytes and words (R81, R125 to R127, R185) -/

/-- A specifier of any mode but 0 names the address it resolves to (R185). -/
theorem resolvePlace_mem {sp : OpSpec} {w : Width} {acc : Access} {s t : State} {va : VAddr} (hm : sp.mode ≠ .direct)
    (h : resolve sp w.len acc s = .ok va t) : resolvePlace sp w acc s = .ok (.mem va) t := by
  unfold resolvePlace
  rw [if_neg hm]
  exact bind_ok h

/-- The status word is not in main memory (R8, R60). -/
theorem isPswAddr_main {pa : PAddr} {p : Params} (hw : p.wf = true) (h : pa.toNat < p.memCeiling) :
    isPswAddr pa = false := by
  have hbelow : ∀ x : PAddr, 0o17000000 ≤ x.toNat → (pa == x) = false := fun x hx => by
    refine beq_eq_false_iff_ne.2 ?_
    rintro rfl
    exact absurd (params_ceiling_le hw) (by omega)
  exact Bool.or_eq_false_iff.2 ⟨hbelow _ (by decide), hbelow _ (by decide)⟩

/-- Where a store of either width in main memory goes: its bytes, low byte at the lower address, and no other (R81, R85). -/
theorem writeMain_spec {s : State} (pa : PAddr) (w : Width) (v : Word) (hw : Memory.wf s.mem = true) :
    let t := s.setMem (writeMain s.mem pa w v)
    MemFrame s t [pa.toNat] w.len ∧ Memory.read t.mem pa.toNat = lowByte v ∧
      (w = .word → Memory.read t.mem (pa.toNat + 1) = v.extractLsb' 8 8) := by
  refine ⟨fun a ha => ?_, ?_, ?_⟩
  · have ha := ha pa.toNat List.mem_cons_self
    exact Memory.read_writeMain pa w v a hw (by cases w <;> exact ha)
  · rw [← extractLsb'_low]
    cases w with
    | byte => exact (Memory.read_write _ _ _ hw).trans (if_pos rfl)
    | word => exact ((Memory.read_writeWord _ _ _ hw).trans (if_neg (by omega))).trans (if_pos rfl)
  · rintro rfl
    exact (Memory.read_writeWord _ _ _ hw).trans (if_pos rfl)

section
variable {sp : OpSpec} {w : Width} {s s1 s2 : State} {va : VAddr} {pa : PAddr}

/-- An operand read in main memory (R125, R185). -/
theorem readOp_main (hm : sp.mode ≠ .direct) (hr : resolve sp w.len .read s = .ok va s1)
    (ht : translate s1.cm va .read w s1 = .ok pa s2) (hc : pa.toNat < s2.params.memCeiling)
    (he : w = .word → pa.getLsbD 0 = false) : readOp sp w s = .ok (readMain s2.mem pa w) s2 := by
  unfold readOp
  rw [bind_ok (resolvePlace_mem hm hr)]
  exact (bind_ok ht).trans (physRead_main hc he)

/-- An operand stored in main memory (R126, R185). -/
theorem writeOp_main {v : Word} (hm : sp.mode ≠ .direct) (hr : resolve sp w.len .write s = .ok va s1)
    (ht : translate s1.cm va .write w s1 = .ok pa s2) (hw : s2.params.wf = true) (hc : pa.toNat < s2.params.memCeiling)
    (he : w = .word → pa.getLsbD 0 = false) :
    writeOp sp w v s = .ok false (s2.setMem (writeMain s2.mem pa w v)) := by
  unfold writeOp
  rw [bind_ok (resolvePlace_mem hm hr)]
  refine (bind_ok ht).trans ((bind_ok (physWrite_main hc he)).trans ?_)
  rw [isPswAddr_main hw hc]
  rfl

/-- An operand read, changed and stored in main memory (R127, R185). -/
theorem modifyOp_main {f : Word → Word} (hm : sp.mode ≠ .direct) (hr : resolve sp w.len .modify s = .ok va s1)
    (ht : translate s1.cm va .modify w s1 = .ok pa s2) (hw : s2.params.wf = true) (hc : pa.toNat < s2.params.memCeiling)
    (he : w = .word → pa.getLsbD 0 = false) :
    modifyOp sp w f s = .ok (readMain s2.mem pa w, false)
      (s2.setMem (writeMain s2.mem pa w (f (readMain s2.mem pa w)))) := by
  unfold modifyOp
  rw [bind_ok (resolvePlace_mem hm hr)]
  refine (bind_ok ht).trans ((bind_ok (physRead_main hc he)).trans ((bind_ok (physWrite_main hc he)).trans ?_))
  rw [isPswAddr_main hw hc]
  rfl

/-- Resolving a specifier and translating its address keep memory (R185). -/
theorem resolved_mem {n : Nat} {acc : Access} (hr : resolve sp n acc s = .ok va s1)
    (ht : translate s1.cm va acc w s1 = .ok pa s2) : s2.mem = s.mem :=
  (translate_frame ht fun _ => True).mem.trans (resolve_frame hr (fun _ => True) fun _ _ => trivial).mem

end

/-! ### Floating operands (R407, R471, R472) -/

/-- A floating operand read word by word (R471). -/
theorem readF_mem {p : Prec} {acc : Access} {va : VAddr} {s t : State} {pas : List PAddr}
    (h : wordsAt acc va s pas t) (hl : pas.length = p.words) :
    readF (.mem va) p acc s = .ok (accumOfWords (pas.map fun pa => Memory.readWord s.mem pa.toNat)) t := by
  obtain ⟨hread, -⟩ := readWordsAs_run h
  rw [hl] at hread
  exact bind_ok hread

/-- Translating the words of an operand keeps the PC (R89). -/
theorem wordsAt_pc {acc : Access} {va : VAddr} {s t : State} {pas : List PAddr} (h : wordsAt acc va s pas t) :
    t.pc = s.pc := by
  induction pas generalizing va s with
  | nil => exact congrArg State.pc h
  | cons pa pas ih =>
    obtain ⟨-, -, u, ht, hr⟩ := h
    exact (ih hr).trans ((translate_post pcSame_access _ _ _ _ _).ok ht)

/-- One word read from main memory with the intent of its operand (R471). -/
theorem readWordAs_run {acc : Access} {va : VAddr} {s t : State} {a : PAddr} (h : wordsAt acc va s [a] t) :
    readWordAs acc va s = .ok (Memory.readWord s.mem a.toNat) t := by
  obtain ⟨hc, he, u, ht, rfl⟩ := h
  have f := translate_frame ht fun _ => True
  rw [← f.special.params] at hc
  rw [← f.mem]
  exact (bind_ok ht).trans (physRead_main hc fun _ => he)

/-- One word stored in main memory (R126). -/
theorem memWrite_word {va : VAddr} {v : Word} {s t : State} {a : PAddr} (h : wordsAt .write va s [a] t)
    (hw : s.params.wf = true) (hm : Memory.wf s.mem = true) :
    ∃ m, memWrite va .word v s = .ok false (t.setMem m) ∧ MemFrame s (t.setMem m) [a.toNat] 2 ∧
      Memory.readWord m a.toNat = v := by
  obtain ⟨hc, he, u, ht, rfl⟩ := h
  refine ⟨_, memWrite_run (x := s.mem) hw hc he ht, fun b hb => ?_, Memory.readWord_writeWord _ _ hm⟩
  exact (Memory.read_writeMain a .word v b hm (hb _ List.mem_cons_self))

/-! ### Long integers (R473) -/

/-- A long integer read from main memory, its high half first. -/
theorem readInteger_mem {sp : OpSpec} {va : VAddr} {s s1 t : State} {a b : PAddr} (hd : sp.mode ≠ .direct)
    (hi : sp.isImmediate = false) (hr : resolve sp 4 .read s = .ok va s1) (h : wordsAt .read va s1 [a, b] t) :
    readInteger sp true s =
      .ok (2 ^ 16 * (Memory.readWord s.mem a.toNat).toInt + (Memory.readWord s.mem b.toNat).toNat) t := by
  obtain ⟨hca, hea, u, hta, hb⟩ := h
  have hmem := (resolve_frame hr (fun _ => True) fun _ _ => trivial).mem
  have hmem' := (translate_frame hta fun _ => True).mem
  have hlow := memRead_run hb
  have hhigh := memRead_run ⟨hca, hea, u, hta, rfl⟩
  rw [hmem] at hhigh
  rw [hmem', hmem] at hlow
  have hlong : readLong sp s = .ok (Memory.readWord s.mem a.toNat ++ Memory.readWord s.mem b.toNat) t := by
    unfold readLong
    rw [if_neg hd, hi]
    exact (bind_ok hr).trans ((bind_ok hhigh).trans (bind_ok hlow))
  rw [← long_toInt]
  exact bind_ok hlong

/-- A long integer stored in main memory, its high half first. -/
theorem writeInteger_mem {sp : OpSpec} {va : VAddr} {s s1 t : State} {a b : PAddr} (x : Int) (hd : sp.mode ≠ .direct)
    (hi : sp.isImmediate = false) (hr : resolve sp 4 .write s = .ok va s1) (h : wordsAt .write va s1 [a, b] t)
    (hw : s.params.wf = true) (hm : Memory.wf s.mem = true) :
    ∃ m, writeInteger sp true x s = .ok false (t.setMem m) ∧ MemFrame s (t.setMem m) [a.toNat, b.toNat] 2 ∧
      wordsStored m [a, b] [BitVec.ofInt 16 (x / 2 ^ 16), BitVec.ofInt 16 x] := by
  obtain ⟨hca, hea, u, hta, hcb, heb, t, htb, rfl⟩ := h
  have f := resolve_frame hr (fun _ => True) fun _ _ => trivial
  have hw1 : s1.params.wf = true := by rw [f.special.params]; exact hw
  have hwu : u.params.wf = true := by rw [(translate_frame hta fun _ => True).special.params]; exact hw1
  have hlong : writeLong sp (BitVec.ofInt 32 x) s =
      .ok false (t.setMem (storeWords s1.mem [a, b] [BitVec.ofInt 16 (x / 2 ^ 16), BitVec.ofInt 16 x])) := by
    unfold writeLong
    rw [if_neg hd, hi, long_high, long_low]
    exact (bind_ok hr).trans ((bind_ok (memWrite_run (x := s1.mem) hw1 hca hea hta)).trans
      (bind_ok (memWrite_run hwu hcb heb htb)))
  obtain ⟨hstored, hframe⟩ := storeWords_spec (ws := [BitVec.ofInt 16 (x / 2 ^ 16), BitVec.ofInt 16 x])
    (f.mem.symm ▸ hm) (wordsAt_even (pas := [a, b]) ⟨hca, hea, u, hta, hcb, heb, t, htb, rfl⟩) rfl
  exact ⟨_, hlong, fun c hc => (hframe c hc).trans (congrArg (Memory.read · c) f.mem), hstored⟩

/-- An immediate long integer is its high half, the low half 0, and the PC moves past it. -/
theorem readInteger_immediate {s t : State} {a : PAddr} (h : wordsAt .read (inI s.pc) s [a] t) :
    readInteger ⟨.autoInc, .pc⟩ true s =
      .ok (2 ^ 16 * (Memory.readWord s.mem a.toNat).toInt) (t.setPc (s.pc + 2)) := by
  have hfetch : fetchExtension s = .ok (Memory.readWord s.mem a.toNat) (t.setPc (s.pc + 2)) := by
    rw [← wordsAt_pc h]
    exact bind_ok (memRead_run h)
  have hvalue : (Memory.readWord s.mem a.toNat ++ (0 : Word)).toInt = 2 ^ 16 * (Memory.readWord s.mem a.toNat).toInt :=
    (long_toInt _ _).trans (Int.add_zero _)
  rw [← hvalue]
  exact bind_ok (bind_ok hfetch)

/-- An immediate long integer stored: its high half alone, and the PC moves past it. -/
theorem writeInteger_immediate {s t : State} {a : PAddr} (x : Int) (h : wordsAt .write (inI s.pc) s [a] t)
    (hw : s.params.wf = true) (hm : Memory.wf s.mem = true) :
    ∃ m, writeInteger ⟨.autoInc, .pc⟩ true x s = .ok false ((t.setMem m).setPc (s.pc + 2)) ∧
      MemFrame s (t.setMem m) [a.toNat] 2 ∧ Memory.readWord m a.toNat = BitVec.ofInt 16 (x / 2 ^ 16) := by
  rw [← long_high]
  obtain ⟨m, hstore, hframe, hstored⟩ := memWrite_word h hw hm
  refine ⟨m, ?_, hframe, hstored⟩
  rw [← wordsAt_pc h]
  exact bind_ok hstore

/-- Settles O15: an operand in main memory is the bytes at its address, a longer one the words at its addresses. -/
theorem operandsMemory : Obligations.OperandsMemory := by
  refine ⟨fun sp w s va s1 pa s2 hm hd hw hc he => ⟨fun hr ht => ?read, fun hr ht v => ?write, fun hr ht f => ?modify⟩,
    fun sp p acc s va s1 hd hi hr => ?place,
    fun va acc s t a b c d =>
      ⟨fun h => readF_mem (p := .single) h rfl, fun h => readF_mem (p := .double) h rfl⟩,
    fun va s t a b c d v hm hw =>
      ⟨fun h => writeWordsAt_spec (ws := wordsOfAccum .single v) h rfl hw hm,
        fun h => writeWordsAt_spec (ws := wordsOfAccum .double v) h rfl hw hm⟩,
    fun p acc s t a v x hm hw =>
      ⟨rfl, fun h => bind_ok (readWordAs_run h), readInteger_immediate,
        fun h => ⟨?immediate, writeInteger_immediate x h hw hm⟩⟩,
    fun sp s va s1 t a b x hd hi hm hw =>
      ⟨readInteger_mem hd hi, fun hr h => writeInteger_mem x hd hi hr h hw hm⟩,
    fun sp s x => ⟨fun v s1 h => bind_ok h, fun q s1 h => h⟩⟩
  case read =>
    have hread := readOp_main hd hr ht hc he
    cases w with
    | byte => exact ⟨fun _ => hread, nofun⟩
    | word => exact ⟨nofun, fun _ => hread⟩
  case write =>
    exact ⟨_, writeOp_main hd hr ht hw hc he, rfl, writeMain_spec pa w v (resolved_mem hr ht ▸ hm)⟩
  case modify =>
    exact ⟨_, _, modifyOp_main hd hr ht hw hc he, rfl, rfl, writeMain_spec pa w _ (resolved_mem hr ht ▸ hm)⟩
  case place =>
    have hlen : 2 * p.words = if p = .single then 4 else 8 := by cases p <;> rfl
    unfold resolveF
    rw [if_neg hd, hi, hlen]
    exact bind_ok hr
  case immediate =>
    obtain ⟨m, hstore, hframe, hstored⟩ := memWrite_word h hw hm
    exact ⟨m, bind_ok hstore, hframe, hstored⟩

end Sys2Proof.Machine
end

section
/-! The decoder and the encoder are inverse to each other (30_encoding.md rules R142, R145 to R150, R160, R162): a field
read out of a word is the one its code was put in by, a range of numbers is the table that decodes it, and each table
agrees with the encoder in both directions. -/

namespace Sys2Proof

open Laws.Length (code_lt specCode_lt)

/-! ### Digits of a number -/

/-- A field that does not carry into a digit leaves it as it was. -/
theorem add_div_of_no_carry {b c d : Nat} (h : b % d + c < d) : (b + c) / d = b / d := by
  rw [Nat.add_div_eq_of_add_mod_lt ((Nat.add_le_add_left (Nat.mod_le c d) _).trans_lt h),
    Nat.div_eq_of_lt ((Nat.le_add_left c _).trans_lt h), Nat.add_zero]

theorem ofNat_add_toNat {w b : Nat} (x : BitVec w) (hb : b % 2 ^ w = 0) : BitVec.ofNat w (b + x.toNat) = x := by
  apply BitVec.eq_of_toNat_eq
  rw [BitVec.toNat_ofNat, Nat.add_mod, hb, Nat.zero_add, Nat.mod_mod, Nat.mod_eq_of_lt x.isLt]

/-! ### The code of a field read out of a number -/

theorem Reg.code_ofCode (n : Nat) : (Reg.ofCode n).code = n % 8 := by
  unfold Reg.ofCode
  split
  · rfl
  · split <;> simp only [Reg.code] <;> omega

theorem AddrMode.code_ofCode (n : Nat) : (AddrMode.ofCode n).code = n % 8 := by
  have : n % 8 < 8 := Nat.mod_lt n (by decide)
  unfold AddrMode.ofCode
  interval_cases n % 8 <;> rfl

theorem OpSpec.code_ofCode (n : Nat) : (OpSpec.ofCode n).code = n % 64 := by
  simp only [OpSpec.code, OpSpec.ofCode, Reg.code_ofCode, AddrMode.code_ofCode]
  omega

@[simp] theorem code_fieldDd (n : Nat) : (fieldDd n).code = n % 64 := by
  rw [fieldDd, OpSpec.code_ofCode, Nat.mod_mod]

@[simp] theorem code_fieldSs (n : Nat) : (fieldSs n).code = n / 64 % 64 := by
  rw [fieldSs, OpSpec.code_ofCode, Nat.mod_mod]

@[simp] theorem code_fieldR (n : Nat) : (fieldR n).code = n / 64 % 8 := by
  rw [fieldR, Reg.code_ofCode, Nat.mod_mod]

@[simp] theorem code_fieldReg (n : Nat) : (fieldReg n).code = n % 8 := by
  rw [fieldReg, Reg.code_ofCode, Nat.mod_mod]

@[simp] theorem val_fieldAc (n : Nat) : (fieldAc n).val = n / 64 % 4 := rfl

@[simp] theorem toNat_field8 (n : Nat) : (field8 n).toNat = n % 256 := BitVec.toNat_ofNat n 8

@[simp] theorem toNat_field6 (n : Nat) : (field6 n).toNat = n % 64 := BitVec.toNat_ofNat n 6

/-! ### The field a code was put in by -/

theorem Reg.ofCode_code (r : Reg) : Reg.ofCode r.code = r := by
  cases r with
  | gen i =>
    have hi : i.val % 8 = i.val := Nat.mod_eq_of_lt (by omega)
    simp only [Reg.code, Reg.ofCode, hi, i.isLt, dite_true]
  | sp => rfl
  | pc => rfl

theorem AddrMode.ofCode_code (m : AddrMode) : AddrMode.ofCode m.code = m := by
  cases m <;> rfl

/-- Two specifiers with one code have one mode and one register: the register's code is below 8. -/
theorem OpSpec.code_injective : Function.Injective OpSpec.code := by
  intro a b h
  have ha := code_lt a.reg
  have hb := code_lt b.reg
  simp only [OpSpec.code] at h
  have hm : a.mode = b.mode := Function.LeftInverse.injective AddrMode.ofCode_code (by omega)
  have hr : a.reg = b.reg := Function.LeftInverse.injective Reg.ofCode_code (by omega)
  cases a
  cases b
  exact congrArg₂ OpSpec.mk hm hr

theorem fieldDd_add {b : Nat} (sp : OpSpec) (hb : b % 64 = 0) : fieldDd (b + sp.code) = sp := by
  have := specCode_lt sp
  exact OpSpec.code_injective (by rw [code_fieldDd]; omega)

theorem fieldSs_add {b c : Nat} (sp : OpSpec) (hb : b % 4096 = 0) (hc : c < 64) :
    fieldSs (b + 64 * sp.code + c) = sp := by
  have := specCode_lt sp
  exact OpSpec.code_injective (by rw [code_fieldSs]; omega)

theorem fieldR_add {b c : Nat} (r : Reg) (hb : b % 512 = 0) (hc : c < 64) :
    fieldR (b + 64 * r.code + c) = r := by
  have := code_lt r
  exact Function.LeftInverse.injective Reg.ofCode_code (by rw [code_fieldR]; omega)

theorem fieldReg_add {b : Nat} (r : Reg) (hb : b % 8 = 0) : fieldReg (b + r.code) = r := by
  have := code_lt r
  exact Function.LeftInverse.injective Reg.ofCode_code (by rw [code_fieldReg]; omega)

theorem fieldAc_add {b c : Nat} (ac : Fin 4) (hb : b % 256 = 0) (hc : c < 64) :
    fieldAc (b + 64 * ac.val + c) = ac :=
  Fin.ext (by rw [val_fieldAc]; omega)

theorem field8_add {b : Nat} (x : BitVec 8) (hb : b % 256 = 0) : field8 (b + x.toNat) = x :=
  ofNat_add_toNat x hb

theorem field6_add {b : Nat} (x : BitVec 6) (hb : b % 64 = 0) : field6 (b + x.toNat) = x :=
  ofNat_add_toNat x hb

/-! ### The table a number is in -/

section

variable {n : Nat}

theorem decodeNat_00 (hi : n < 0o010000) : decodeNat n = decode00 n := by
  rw [decodeNat, if_pos (by omega)]

theorem decodeNat_zop (hi : n < 0o000100) : decodeNat n = decodeZop n := by
  rw [decodeNat_00 (by omega), decode00, if_pos (by omega)]

theorem decodeNat_0002 (lo : 0o000200 ≤ n) (hi : n < 0o000300) : decodeNat n = decode0002 n := by
  rw [decodeNat_00 (by omega), decode00, if_neg (by omega), if_neg (by omega), if_pos (by omega)]

theorem decodeNat_branch00 (lo : 0o000400 ≤ n) (hi : n < 0o004000) : decodeNat n = decodeBranch00 n := by
  rw [decodeNat_00 (by omega), decode00, if_neg (by omega), if_neg (by omega), if_neg (by omega),
    if_neg (by omega), if_pos (by omega)]

theorem decodeNat_jsr (lo : 0o004000 ≤ n) (hi : n < 0o005000) : decodeNat n = .jsr (fieldR n) (fieldDd n) := by
  rw [decodeNat_00 (by omega), decode00, if_neg (by omega), if_neg (by omega), if_neg (by omega),
    if_neg (by omega), if_neg (by omega), if_pos (by omega)]

theorem decodeNat_sop00 (lo : 0o005000 ≤ n) (hi : n < 0o010000) : decodeNat n = decodeSop00 n := by
  rw [decodeNat_00 (by omega), decode00, if_neg (by omega), if_neg (by omega), if_neg (by omega),
    if_neg (by omega), if_neg (by omega), if_neg (by omega)]

theorem decodeNat_07 (lo : 0o070000 ≤ n) (hi : n < 0o100000) : decodeNat n = decode07 n := by
  have h : n / 4096 = 7 := by omega
  simp [decodeNat, h]

theorem decodeNat_10 (lo : 0o100000 ≤ n) (hi : n < 0o110000) : decodeNat n = decode10 n := by
  have h : n / 4096 = 8 := by omega
  simp [decodeNat, h]

theorem decodeNat_branch10 (lo : 0o100000 ≤ n) (hi : n < 0o105000) : decodeNat n = decodeBranch10 n := by
  rw [decodeNat_10 lo (by omega), decode10, if_pos (by omega)]

theorem decodeNat_sop10 (lo : 0o105000 ≤ n) (hi : n < 0o110000) : decodeNat n = decodeSop10 n := by
  rw [decodeNat_10 (by omega) hi, decode10, if_neg (by omega)]

theorem decodeNat_17 (lo : 0o170000 ≤ n) (hi : n < 0o200000) : decodeNat n = decode17 n := by
  have h : n / 4096 = 15 := by omega
  simp [decodeNat, h]

theorem decodeNat_fp1 (lo : 0o170000 ≤ n) (hi : n < 0o171000) : decodeNat n = decodeFp1 n := by
  rw [decodeNat_17 lo (by omega), decode17, if_pos (by omega)]

theorem decodeNat_fp0 (lo : 0o170000 ≤ n) (hi : n < 0o170100) : decodeNat n = decodeFp0 n := by
  rw [decodeNat_fp1 lo (by omega), decodeFp1, if_pos (by omega)]

end

/-! ### Decoding what was encoded -/

/-- The ranges of numbers of the reserved words (R160), as inequalities for `omega`. -/
abbrev ReservedNumber (n : Nat) : Prop :=
  (0o000007 ≤ n ∧ n ≤ 0o000077) ∨ (0o000210 ≤ n ∧ n ≤ 0o000227) ∨
  (0o007000 ≤ n ∧ n ≤ 0o007777) ∨ (0o075000 ≤ n ∧ n ≤ 0o076777) ∨
  (0o106400 ≤ n ∧ n ≤ 0o106477) ∨ (0o106700 ≤ n ∧ n ≤ 0o106777) ∨
  (0o107000 ≤ n ∧ n ≤ 0o107777)

/-- The ranges of numbers of the illegal coprocessor words (R162). -/
abbrev FppIllegalNumber (n : Nat) : Prop := (0o170003 ≤ n ∧ n ≤ 0o170010) ∨ (0o170013 ≤ n ∧ n ≤ 0o170077)

theorem isReservedWord_iff (w : Word) : isReservedWord w = true ↔ ReservedNumber w.toNat := by
  simp only [isReservedWord, Bool.or_eq_true, Bool.and_eq_true, decide_eq_true_eq, or_assoc]

theorem isFppIllegalWord_iff (w : Word) : isFppIllegalWord w = true ↔ FppIllegalNumber w.toNat := by
  simp only [isFppIllegalWord, Bool.or_eq_true, Bool.and_eq_true, decide_eq_true_eq]

/-- Each range of reserved words is what its table leaves over (R160). -/
theorem decodeNat_reserved {w : Word} (h : isReservedWord w = true) : decodeNat w.toNat = .reserved w := by
  have hw : BitVec.ofNat 16 w.toNat = w := by rw [BitVec.ofNat_toNat, BitVec.setWidth_eq]
  rcases (isReservedWord_iff w).1 h with h | h | h | h | h | h | h <;> obtain ⟨lo, hi⟩ := h
  · rw [decodeNat_zop (by omega)]
    simp (disch := omega) only [decodeZop, if_neg, hw]
  · rw [decodeNat_0002 (by omega) (by omega)]
    simp (disch := omega) only [decode0002, if_neg, if_pos, hw]
  · rw [decodeNat_sop00 (by omega) (by omega)]
    simp (disch := omega) only [decodeSop00, if_neg, hw]
  · rw [decodeNat_07 (by omega) (by omega)]
    simp (disch := omega) only [decode07, if_neg, hw]
  all_goals
    rw [decodeNat_sop10 (by omega) (by omega)]
    simp (disch := omega) only [decodeSop10, if_neg, hw]

/-- The illegal coprocessor words are what their table leaves over (R162). -/
theorem decodeNat_fppIllegal {w : Word} (h : isFppIllegalWord w = true) : decodeNat w.toNat = .fppIllegal w := by
  have hw : BitVec.ofNat 16 w.toNat = w := by rw [BitVec.ofNat_toNat, BitVec.setWidth_eq]
  have hr := (isFppIllegalWord_iff w).1 h
  rw [decodeNat_fp0 (by omega) (by omega)]
  simp (disch := omega) only [decodeFp0, if_neg, hw]

/-- The number of a well-formed instruction is a word's, and the table it is in decodes it by the digits above its
operand fields (R142, R146 to R150). -/
theorem number_lt_and_decodeNat_number {i : Instr} (hi : i.wf = true) :
    i.number < 2 ^ 16 ∧ decodeNat i.number = i := by
  cases i with
  | halt | wait | rti | bpt | iot | reset | rtt | cfcc | setf | seti | setd | setl => exact ⟨by decide, rfl⟩
  | reserved w => exact ⟨w.isLt, decodeNat_reserved hi⟩
  | fppIllegal w => exact ⟨w.isLt, decodeNat_fppIllegal hi⟩
  | jmp sp | swab sp =>
    have := specCode_lt sp
    refine ⟨by rw [Instr.number]; omega, ?_⟩
    rw [Instr.number, decodeNat_00 (by omega), decode00, add_div_of_no_carry (by omega), fieldDd_add sp rfl]
    rfl
  | rts r =>
    have := code_lt r
    refine ⟨by rw [Instr.number]; omega, ?_⟩
    rw [Instr.number, decodeNat_0002 (by omega) (by omega), decode0002, if_pos (by omega), fieldReg_add r rfl]
  | spl x | clx x | sex x =>
    refine ⟨by rw [Instr.number]; omega, ?_⟩
    rw [Instr.number, decodeNat_0002 (by omega) (by omega)]
    simp (disch := omega) only [decode0002, if_pos, if_neg, ofNat_add_toNat]
  | br x | bne x | beq x | bge x | blt x | bgt x | ble x =>
    refine ⟨by rw [Instr.number]; omega, ?_⟩
    rw [Instr.number, decodeNat_branch00 (by omega) (by omega), decodeBranch00, add_div_of_no_carry (by omega),
      field8_add x rfl]
    rfl
  | bpl x | bmi x | bhi x | blos x | bvc x | bvs x | bcc x | bcs x | emt x | trap x =>
    refine ⟨by rw [Instr.number]; omega, ?_⟩
    rw [Instr.number, decodeNat_branch10 (by omega) (by omega), decodeBranch10, add_div_of_no_carry (by omega),
      field8_add x rfl]
    rfl
  | jsr r sp =>
    have := code_lt r
    have := specCode_lt sp
    refine ⟨by rw [Instr.number]; omega, ?_⟩
    rw [Instr.number, decodeNat_jsr (by omega) (by omega), fieldR_add r rfl (by omega), fieldDd_add sp (by omega)]
  | clr sp | com sp | inc sp | dec sp | neg sp | adc sp | sbc sp | tst sp | ror sp | rol sp | asr sp | asl sp
  | mfpi sp | mtpi sp | sxt sp =>
    have := specCode_lt sp
    refine ⟨by rw [Instr.number]; omega, ?_⟩
    rw [Instr.number, decodeNat_sop00 (by omega) (by omega), decodeSop00, add_div_of_no_carry (by omega),
      fieldDd_add sp rfl]
    rfl
  | mark x =>
    refine ⟨by rw [Instr.number]; omega, ?_⟩
    rw [Instr.number, decodeNat_sop00 (by omega) (by omega), decodeSop00, add_div_of_no_carry (by omega),
      field6_add x rfl]
    rfl
  | clrb sp | comb sp | incb sp | decb sp | negb sp | adcb sp | sbcb sp | tstb sp | rorb sp | rolb sp | asrb sp | aslb sp
  | mfpd sp | mtpd sp =>
    have := specCode_lt sp
    refine ⟨by rw [Instr.number]; omega, ?_⟩
    rw [Instr.number, decodeNat_sop10 (by omega) (by omega), decodeSop10, add_div_of_no_carry (by omega),
      fieldDd_add sp rfl]
    rfl
  | mov ss dd | cmp ss dd | bit ss dd | bic ss dd | bis ss dd | add ss dd
  | movb ss dd | cmpb ss dd | bitb ss dd | bicb ss dd | bisb ss dd | sub ss dd =>
    have := specCode_lt ss
    have := specCode_lt dd
    refine ⟨by rw [Instr.number]; omega, ?_⟩
    rw [Instr.number, decodeNat, add_div_of_no_carry (by omega), add_div_of_no_carry (by omega),
      fieldSs_add ss rfl (by omega), fieldDd_add dd (by omega)]
    rfl
  | mul r sp | div r sp | ash r sp | ashc r sp | xor r sp =>
    have := code_lt r
    have := specCode_lt sp
    refine ⟨by rw [Instr.number]; omega, ?_⟩
    rw [Instr.number, decodeNat_07 (by omega) (by omega), decode07, add_div_of_no_carry (by omega),
      add_div_of_no_carry (by omega), fieldR_add r rfl (by omega), fieldDd_add sp (by omega)]
    rfl
  | sob r x =>
    have := code_lt r
    refine ⟨by rw [Instr.number]; omega, ?_⟩
    rw [Instr.number, decodeNat_07 (by omega) (by omega), decode07, add_div_of_no_carry (by omega),
      add_div_of_no_carry (by omega), fieldR_add r rfl (by omega), field6_add x (by omega)]
    rfl
  | ldfps sp | stfps sp | stst sp | clrf sp | tstf sp | absf sp | negf sp =>
    have := specCode_lt sp
    refine ⟨by rw [Instr.number]; omega, ?_⟩
    rw [Instr.number, decodeNat_fp1 (by omega) (by omega), decodeFp1, add_div_of_no_carry (by omega),
      fieldDd_add sp rfl]
    rfl
  | mulf ac sp | modf ac sp | addf ac sp | ldf ac sp | subf ac sp | cmpf ac sp | stf ac sp | divf ac sp | stexp ac sp
  | stcfi ac sp | stcfd ac sp | ldexp ac sp | ldcif ac sp | ldcdf ac sp =>
    have := specCode_lt sp
    refine ⟨by rw [Instr.number]; omega, ?_⟩
    rw [Instr.number, decodeNat_17 (by omega) (by omega), decode17, add_div_of_no_carry (by omega),
      add_div_of_no_carry (by omega), fieldAc_add ac rfl (by omega), fieldDd_add sp (by omega)]
    rfl

/-! ### Encoding what was decoded -/

/-- The instruction is well-formed and the number is its encoding. -/
def Encodes (i : Instr) (n : Nat) : Prop := i.wf = true ∧ i.number = n

section

variable {n : Nat}

theorem Encodes.ite {i j : Instr} {c : Prop} [Decidable c] (hi : c → Encodes i n) (hj : ¬c → Encodes j n) :
    Encodes (if c then i else j) n := by
  split
  · exact hi ‹_›
  · exact hj ‹_›

theorem encodes_reserved (hn : n < 2 ^ 16) (h : ReservedNumber n) : Encodes (.reserved (BitVec.ofNat 16 n)) n := by
  have hw : (BitVec.ofNat 16 n).toNat = n := Nat.mod_eq_of_lt hn
  exact ⟨(isReservedWord_iff _).2 (by rwa [hw]), hw⟩

theorem encodes_fppIllegal (hn : n < 2 ^ 16) (h : FppIllegalNumber n) :
    Encodes (.fppIllegal (BitVec.ofNat 16 n)) n := by
  have hw : (BitVec.ofNat 16 n).toNat = n := Nat.mod_eq_of_lt hn
  exact ⟨(isFppIllegalWord_iff _).2 (by rwa [hw]), hw⟩

theorem encodes_decodeZop (hi : n < 0o000100) : Encodes (decodeZop n) n := by
  unfold decodeZop
  iterate 7 refine .ite (fun _ => ⟨rfl, by rw [Instr.number]; omega⟩) fun _ => ?_
  exact encodes_reserved (by omega) (by omega)

theorem encodes_decode0002 (lo : 0o000200 ≤ n) (hi : n < 0o000300) : Encodes (decode0002 n) n := by
  unfold decode0002
  refine .ite (fun _ => ⟨rfl, by rw [Instr.number, code_fieldReg]; omega⟩) fun _ => ?_
  refine .ite (fun _ => encodes_reserved (by omega) (by omega)) fun _ => ?_
  iterate 2 refine .ite (fun _ => ⟨rfl, by rw [Instr.number, BitVec.toNat_ofNat]; omega⟩) fun _ => ?_
  exact ⟨rfl, by rw [Instr.number, BitVec.toNat_ofNat]; omega⟩

theorem encodes_decodeBranch00 (lo : 0o000400 ≤ n) (hi : n < 0o004000) : Encodes (decodeBranch00 n) n := by
  unfold decodeBranch00
  iterate 6 refine .ite (fun _ => ⟨rfl, by rw [Instr.number, toNat_field8]; omega⟩) fun _ => ?_
  exact ⟨rfl, by rw [Instr.number, toNat_field8]; omega⟩

theorem encodes_decodeSop00 (lo : 0o005000 ≤ n) (hi : n < 0o010000) : Encodes (decodeSop00 n) n := by
  unfold decodeSop00
  iterate 12 refine .ite (fun _ => ⟨rfl, by rw [Instr.number, code_fieldDd]; omega⟩) fun _ => ?_
  refine .ite (fun _ => ⟨rfl, by rw [Instr.number, toNat_field6]; omega⟩) fun _ => ?_
  iterate 3 refine .ite (fun _ => ⟨rfl, by rw [Instr.number, code_fieldDd]; omega⟩) fun _ => ?_
  exact encodes_reserved (by omega) (by omega)

theorem encodes_decode00 (hi : n < 0o010000) : Encodes (decode00 n) n := by
  unfold decode00
  refine .ite (fun _ => encodes_decodeZop (by omega)) fun _ => ?_
  refine .ite (fun _ => ⟨rfl, by rw [Instr.number, code_fieldDd]; omega⟩) fun _ => ?_
  refine .ite (fun _ => encodes_decode0002 (by omega) (by omega)) fun _ => ?_
  refine .ite (fun _ => ⟨rfl, by rw [Instr.number, code_fieldDd]; omega⟩) fun _ => ?_
  refine .ite (fun _ => encodes_decodeBranch00 (by omega) (by omega)) fun _ => ?_
  refine .ite (fun _ => ⟨rfl, by rw [Instr.number, code_fieldR, code_fieldDd]; omega⟩) fun _ => ?_
  exact encodes_decodeSop00 (by omega) hi

theorem encodes_decode07 (lo : 0o070000 ≤ n) (hi : n < 0o100000) : Encodes (decode07 n) n := by
  unfold decode07
  iterate 5 refine .ite (fun _ => ⟨rfl, by rw [Instr.number, code_fieldR, code_fieldDd]; omega⟩) fun _ => ?_
  refine .ite (fun _ => ⟨rfl, by rw [Instr.number, code_fieldR, toNat_field6]; omega⟩) fun _ => ?_
  exact encodes_reserved (by omega) (by omega)

theorem encodes_decodeBranch10 (lo : 0o100000 ≤ n) (hi : n < 0o105000) : Encodes (decodeBranch10 n) n := by
  unfold decodeBranch10
  iterate 9 refine .ite (fun _ => ⟨rfl, by rw [Instr.number, toNat_field8]; omega⟩) fun _ => ?_
  exact ⟨rfl, by rw [Instr.number, toNat_field8]; omega⟩

theorem encodes_decodeSop10 (lo : 0o105000 ≤ n) (hi : n < 0o110000) : Encodes (decodeSop10 n) n := by
  unfold decodeSop10
  iterate 14 refine .ite (fun _ => ⟨rfl, by rw [Instr.number, code_fieldDd]; omega⟩) fun _ => ?_
  exact encodes_reserved (by omega) (by omega)

theorem encodes_decode10 (lo : 0o100000 ≤ n) (hi : n < 0o110000) : Encodes (decode10 n) n := by
  unfold decode10
  exact .ite (fun _ => encodes_decodeBranch10 lo (by omega)) fun _ => encodes_decodeSop10 (by omega) hi

theorem encodes_decodeFp0 (lo : 0o170000 ≤ n) (hi : n < 0o170100) : Encodes (decodeFp0 n) n := by
  unfold decodeFp0
  iterate 5 refine .ite (fun _ => ⟨rfl, by rw [Instr.number]; omega⟩) fun _ => ?_
  exact encodes_fppIllegal (by omega) (by omega)

theorem encodes_decodeFp1 (lo : 0o170000 ≤ n) (hi : n < 0o171000) : Encodes (decodeFp1 n) n := by
  unfold decodeFp1
  refine .ite (fun _ => encodes_decodeFp0 lo (by omega)) fun _ => ?_
  iterate 6 refine .ite (fun _ => ⟨rfl, by rw [Instr.number, code_fieldDd]; omega⟩) fun _ => ?_
  exact ⟨rfl, by rw [Instr.number, code_fieldDd]; omega⟩

theorem encodes_decode17 (lo : 0o170000 ≤ n) (hi : n < 0o200000) : Encodes (decode17 n) n := by
  unfold decode17
  refine .ite (fun _ => encodes_decodeFp1 lo (by omega)) fun _ => ?_
  iterate 13 refine .ite (fun _ => ⟨rfl, by rw [Instr.number, val_fieldAc, code_fieldDd]; omega⟩) fun _ => ?_
  exact ⟨rfl, by rw [Instr.number, val_fieldAc, code_fieldDd]; omega⟩

/-- Every number of a word is encoded by what it decodes to: each table by its own lemma, and the double-operand groups
by their group digit (R147). -/
theorem encodes_decodeNat (hn : n < 2 ^ 16) : Encodes (decodeNat n) n := by
  unfold decodeNat
  refine .ite (fun _ => encodes_decode00 (by omega)) fun _ => ?_
  iterate 6 refine .ite (fun _ => ⟨rfl, by rw [Instr.number, code_fieldSs, code_fieldDd]; omega⟩) fun _ => ?_
  refine .ite (fun _ => encodes_decode07 (by omega) (by omega)) fun _ => ?_
  refine .ite (fun _ => encodes_decode10 (by omega) (by omega)) fun _ => ?_
  iterate 6 refine .ite (fun _ => ⟨rfl, by rw [Instr.number, code_fieldSs, code_fieldDd]; omega⟩) fun _ => ?_
  exact encodes_decode17 (by omega) hn

end

/-! ### Words and their bytes -/

theorem wordOfBytes_extractLsb' (w : Word) : wordOfBytes (w.extractLsb' 0 8) (w.extractLsb' 8 8) = w :=
  BitVec.extractLsb'_append_extractLsb'

/-- The decoder reads the two bytes of a word, low byte first, and leaves the rest (R81, R145). -/
theorem decode_bytesOfWord_append (w : Word) (rest : List Byte) :
    decode (bytesOfWord w ++ rest) = .ok (decodeWord w, rest) := by
  show Except.ok (decodeWord (wordOfBytes _ _), rest) = _
  rw [wordOfBytes_extractLsb']

theorem toNat_encodeWord {i : Instr} (hi : i.wf = true) : (encodeWord i).toNat = i.number :=
  Nat.mod_eq_of_lt (number_lt_and_decodeNat_number hi).1

theorem decodeWord_encodeWord {i : Instr} (hi : i.wf = true) : decodeWord (encodeWord i) = i := by
  rw [decodeWord, toNat_encodeWord hi]
  exact (number_lt_and_decodeNat_number hi).2

/-- A row of the tables, 16 bits wide, decodes to the instruction whose number it is. -/
theorem decodeTableWord_of_number {i : Instr} {n : Nat} (hi : i.wf = true) (hn : i.number = n) :
    decodeTableWord 16 n = some i := by
  subst hn
  have hmod : i.number % 2 ^ 16 = i.number := Nat.mod_eq_of_lt (number_lt_and_decodeNat_number hi).1
  have hd := decode_bytesOfWord_append (encodeWord i) []
  rw [List.append_nil, decodeWord_encodeWord hi, encodeWord] at hd
  rw [decodeTableWord, hmod, hd]

/-- Settles O1: the decoder reads the instruction's word back from its bytes, and the word's table gives the
instruction. -/
theorem decodeEncode : Obligations.DecodeEncode := by
  intro i hi rest
  rw [encode, decode_bytesOfWord_append, decodeWord_encodeWord hi]

/-- Settles O2: what a number decodes to encodes it, and the number of a word is below `2 ^ 16`. -/
theorem encodeDecode : Obligations.EncodeDecode := by
  intro w
  obtain ⟨hwf, hnumber⟩ := encodes_decodeNat w.isLt
  refine ⟨hwf, ?_⟩
  rw [encodeWord, decodeWord, hnumber, BitVec.ofNat_toNat, BitVec.setWidth_eq]

/-- Settles O3: each word is the number of its instruction. -/
theorem decodeWords : Obligations.DecodeWords := by
  unfold Obligations.DecodeWords
  and_intros <;> exact decodeTableWord_of_number rfl rfl

end Sys2Proof
end

section
/-! Operands in registers (40_addressing.md rule R185, 52_fpp_instructions.md rules R471 to R474): what mode 0 reads and
writes at each width. -/

namespace Sys2Proof.Machine

/-- A register read as a byte is its low byte (R185). -/
theorem narrowReg_byte (v : Word) : narrowReg .byte v = (lowByte v).setWidth 16 := by
  show v &&& 0o377 = _
  apply BitVec.eq_of_getLsbD_eq
  intro i hi
  interval_cases i <;> simp [lowByte]

/-- A register written as a byte keeps its high byte (R185). -/
theorem mergeReg_byte (old v : Word) : mergeReg .byte old v = old.extractLsb' 8 8 ++ lowByte v := by
  show (old &&& 0o177400) ||| (v &&& 0o377) = _
  apply BitVec.eq_of_getLsbD_eq
  intro i hi
  rw [BitVec.getLsbD_append]
  interval_cases i <;> simp [lowByte]

theorem lowByte_setWidth (b : Byte) : lowByte (b.setWidth 16) = b := BitVec.setWidth_setWidth_of_le b (by decide)

theorem lowByte_onByte (f : Byte → Byte) (b : Byte) : lowByte (onByte f (b.setWidth 16)) = f b := by
  rw [onByte, lowByte_setWidth, lowByte_setWidth]

section
variable (r : Reg) (w : Width) (s : State)

theorem readOp_direct : readOp ⟨.direct, r⟩ w s = .ok (narrowReg w (s.readReg r)) s := rfl

theorem writeOp_direct (v : Word) :
    writeOp ⟨.direct, r⟩ w v s = .ok false (s.writeReg r (mergeReg w (s.readReg r) v)) := rfl

theorem modifyOp_direct (f : Word → Word) :
    modifyOp ⟨.direct, r⟩ w f s = .ok (narrowReg w (s.readReg r), false)
      (s.writeReg r (mergeReg w (s.readReg r) (f (narrowReg w (s.readReg r))))) := rfl

/-- A register is a long integer with a low half of 0 (R473). -/
theorem readInteger_direct :
    readInteger ⟨.direct, r⟩ true s = .ok (2 ^ 16 * (s.readReg r).toInt) s := by
  rw [← Int.add_zero (2 ^ 16 * _)]
  exact congrArg (EStateM.Result.ok · s) (long_toInt (s.readReg r) 0)

/-- A register receives the high half of a long integer (R473). -/
theorem writeInteger_direct (v : Int) :
    writeInteger ⟨.direct, r⟩ true v s = .ok false (s.writeReg r (BitVec.ofInt 16 (v / 2 ^ 16))) := by
  rw [← long_high]
  rfl

end

/-- Settles O14: a register operand at each width, and the registers of the coprocessor. -/
theorem operandsDirect : Obligations.OperandsDirect := by
  refine ⟨fun r s => ⟨readOp_direct r .word s, ?readByte, writeOp_direct r .word s, fun v => ?writeByte,
      modifyOp_direct r .word s, fun f => ?modifyByte, fun v => ?same, fun v => RegFrame.writeReg s r v rfl⟩,
    fun i s v acc => ⟨fun p => ⟨rfl, rfl, rfl⟩, rfl, rfl, rfl, rfl⟩,
    fun r s v => ⟨rfl, readInteger_direct r s, rfl, writeInteger_direct r s v⟩⟩
  case readByte => rw [readOp_direct, narrowReg_byte]
  case writeByte => rw [writeOp_direct, mergeReg_byte]
  case modifyByte =>
    rw [modifyOp_direct, narrowReg_byte, mergeReg_byte, lowByte_onByte]
  case same => rw [State.readReg_writeReg, if_pos rfl]

end Sys2Proof.Machine
end

section
/-! The addressing modes (40_addressing.md rules R172 to R182): each mode but 0 as the accesses and the step it is made
of, and from them the address it gives. -/

namespace Sys2Proof.Machine

/-- The step of modes 2 and 4: 2 for the PC, the length rounded up to words for the stack pointer (R175). -/
theorem stepSize_eq (r : Reg) (len : Nat) :
    stepSize r len = if r = .pc then 2 else if r = .sp then len + len % 2 else len := by
  cases r with
  | gen i => rfl
  | sp =>
    show (len + 1) / 2 * 2 = len + len % 2
    omega
  | pc => rfl

/-- Every intent but a read includes a write (R88). -/
theorem Access.wr_iff {acc : Access} : acc.wr = true ↔ acc ≠ .read := by cases acc <;> decide

/-- A register moved down by the step of mode 4 (R176). -/
theorem readReg_step_down (s : State) (r : Reg) (n : Nat) :
    (s.step r (-(n : Int))).readReg r = s.readReg r - BitVec.ofNat 16 n := by
  rw [(State.step_steppedBy s r _).reg, BitVec.ofInt_neg, BitVec.ofInt_natCast, BitVec.sub_eq_add_neg]

section
variable {r : Reg} {len : Nat} {acc : Access} {s s1 s2 : State} {ptr x v : Word}

/-- Mode 3 reads its pointer, then steps its register (R174). -/
theorem resolve_autoIncDeferred :
    resolve ⟨.autoIncDeferred, r⟩ len acc s =
      (memRead (spaceOf r (s.readReg r)) .word >>= fun ptr =>
        change (·.step r 2) >>= fun _ => pure (inD ptr) : M VAddr) s := rfl

/-- Mode 5 reads its pointer 2 below, then steps its register down (R177). -/
theorem resolve_autoDecDeferred :
    resolve ⟨.autoDecDeferred, r⟩ len acc s =
      (memRead (spaceOf r (s.readReg r - 2)) .word >>= fun ptr =>
        change (·.step r (-2)) >>= fun _ => pure (inD ptr) : M VAddr) s := rfl

/-- Mode 4 steps its register first, then checks the stack where it writes through the stack pointer (R176, R184). -/
theorem resolve_autoDec :
    let a := s.readReg r - BitVec.ofNat 16 (stepSize r len)
    resolve ⟨.autoDec, r⟩ len acc s =
      ((if r = .sp ∧ acc.wr = true then stackCheck a else pure ()) >>= fun _ => pure (spaceOf r a) : M VAddr)
        (s.step r (-(stepSize r len : Int))) := by
  intro a
  rw [show a = _ from (readReg_step_down s r (stepSize r len)).symm]
  unfold resolve
  split_ifs <;> rfl

/-- The index word of modes 6 and 7 moves the PC past it and keeps MMR1 (R178). -/
theorem fetchExtension_ok (h : memRead (inI s.pc) .word s = .ok x s1) :
    fetchExtension s = .ok x (s1.setPc (s.pc + 2)) := by
  rw [← (memRead_regs h).2.2]
  exact bind_ok h

/-- An index word that cannot be read ends modes 6 and 7 (R178). -/
theorem fetchExtension_error (h : memRead (inI s.pc) .word s = .error v s1) : fetchExtension s = .error v s1 := by
  unfold fetchExtension
  rw [get_bind]
  exact bind_error h

/-- The base register of modes 6 and 7, the PC already past the index word (R178). -/
theorem readReg_after_extension (h : memRead (inI s.pc) .word s = .ok x s1) :
    (s1.setPc (s.pc + 2)).readReg r = if r = .pc then s.pc + 2 else s.readReg r := by
  obtain ⟨-, hregs, -⟩ := memRead_regs h
  cases r with
  | gen i => exact hregs (.gen i)
  | sp => exact hregs .sp
  | pc => rfl

theorem resolve_index (h : memRead (inI s.pc) .word s = .ok x s1) :
    resolve ⟨.index, r⟩ len acc s =
      .ok (inD (x + if r = .pc then s.pc + 2 else s.readReg r)) (s1.setPc (s.pc + 2)) := by
  rw [← readReg_after_extension h]
  exact bind_ok (fetchExtension_ok h)

/-- Mode 7 reads the address that mode 6 gives (R179). -/
theorem resolve_indexDeferred (h : memRead (inI s.pc) .word s = .ok x s1) :
    resolve ⟨.indexDeferred, r⟩ len acc s =
      (memRead (inD (x + if r = .pc then s.pc + 2 else s.readReg r)) .word >>= fun ptr => pure (inD ptr) : M VAddr)
        (s1.setPc (s.pc + 2)) := by
  rw [← readReg_after_extension h]
  exact bind_ok (fetchExtension_ok h)

end

/-- Settles O16: the address of each mode but 0, and how its register was stepped. -/
theorem resolverModes : Obligations.ResolverModes := by
  intro r len acc s space size
  have hsize : stepSize r len = size := stepSize_eq r len
  clear_value size
  subst hsize
  refine ⟨rfl, ⟨_, rfl, State.step_steppedBy s r _⟩,
    fun ptr s1 h => ⟨_, resolve_autoIncDeferred.trans (bind_ok h), .after_read h (State.step_steppedBy s1 r 2)⟩,
    fun v s1 h => resolve_autoIncDeferred.trans (bind_error h), ⟨_, State.step_steppedBy s r _, ?unchecked, ?checked⟩,
    fun ptr s1 h => ⟨_, resolve_autoDecDeferred.trans (bind_ok h), .after_read h (State.step_steppedBy s1 r (-2))⟩,
    fun v s1 h => resolve_autoDecDeferred.trans (bind_error h),
    fun x s1 h => ⟨resolve_index h, (memRead_regs h).1, fun ptr s2 h2 => ⟨?pointer, ?mmr1⟩, fun v s2 h2 => ?unread⟩,
    fun v s1 h => ⟨bind_error (fetchExtension_error h), bind_error (fetchExtension_error h)⟩⟩
  case unchecked =>
    intro h
    rw [resolve_autoDec, if_neg fun ⟨hsp, hwr⟩ => h.elim (Access.wr_iff.1 hwr) (absurd hsp)]
    rfl
  case checked =>
    intro hacc hsp
    rw [resolve_autoDec, if_pos ⟨hsp, Access.wr_iff.2 hacc⟩]
    exact ⟨fun u hu => bind_ok hu, fun v u hu => bind_error hu⟩
  case pointer => exact (resolve_indexDeferred h).trans (bind_ok h2)
  case mmr1 => exact (memRead_regs h2).1.trans (memRead_regs h).1
  case unread => exact (resolve_indexDeferred h).trans (bind_error h2)

end Sys2Proof.Machine
end

section
/-! The stack check in its three zones, and a push in each of them (40_addressing.md rules R184, R186). -/

namespace Sys2Proof.Machine

/-- Outside kernel mode and above the limit the check does nothing (R184). -/
theorem stackCheck_free {a : Word} {s : State} (h : s.cm ≠ .kernel ∨ effectiveLimit s.ctl.slr < a.toNat) :
    stackCheck a s = .ok () s := by
  unfold stackCheck
  rw [get_bind, if_neg fun ⟨hk, hl⟩ => h.elim (absurd hk) (Nat.not_lt.2 (of_decide_eq_true hl))]
  rfl

/-- What the red zone leaves: its bit of the CPU error register set and the kernel stack pointer at 4 (R184). -/
theorem stackCheck_red_leaves {a : Word} {s : State} (hk : s.cm = .kernel)
    (h : a.toNat + 32 ≤ effectiveLimit s.ctl.slr) :
    ∃ t, stackCheck a s = .error 0o4 t ∧ t.ctl = { s.ctl with cpuErr := s.ctl.cpuErr ||| 0o4 } ∧
      t.readSpm .kernel = 4 ∧ t = (s.setCtl t.ctl).setSpm t.spm ∧ t.mem = s.mem ∧
      ∀ m, m ≠ .kernel → t.readSpm m = s.readSpm m := by
  refine ⟨_, stackCheck_red hk h, rfl, ?_, rfl, rfl, fun m hm => ?_⟩
  · rw [State.readSpm_writeSpm, if_pos rfl]
  · rw [State.readSpm_writeSpm, if_neg hm]
    rfl

/-- A push whose address is translated and whose check passes stores the word (R186). -/
theorem push_stores {v : Word} {b : Bool} {s s2 u : State} {pa : PAddr}
    (ht : translate s.cm (inD (s.readReg .sp - 2)) .write .word (s.step .sp (-2)) = .ok pa s2)
    (hcheck : (if b then stackCheck (s.readReg .sp - 2) else pure () : M Unit) s2 = .ok () u)
    (hc : pa.toNat < u.params.memCeiling) (he : pa.getLsbD 0 = false) :
    push v b s = .ok (isPswAddr pa) (u.setMem (Memory.writeWord u.mem pa.toNat v)) := by
  rw [push_translated ht, bind_ok hcheck]
  exact bind_ok (physWrite_main (w := .word) hc fun _ => he)

/-- What translating the address of a push leaves: the stack pointer 2 lower, and all the check and the store look at as
it was (R186). -/
theorem push_translation_keeps {s s2 : State} {m : ProcMode} {va : VAddr} {pa : PAddr}
    (ht : translate m va .write .word (s.step .sp (-2)) = .ok pa s2) :
    s2.readReg .sp = s.readReg .sp - 2 ∧ s2.mem = s.mem ∧ s2.cm = s.cm ∧ s2.ctl.slr = s.ctl.slr ∧
      s2.params = s.params := by
  have st := State.step_steppedBy s .sp (-2)
  have f := translate_frame ht fun _ => True
  obtain ⟨-, hpsw, -, -, hspm, -⟩ := (translate_post regsSame_access _ _ _ _ _).ok ht
  have hreg : s2.readReg .sp = (s.step .sp (-2)).readReg .sp := by
    simp only [State.readReg, State.readSpm, State.cm, hpsw, hspm]
  refine ⟨hreg.trans (st.reg.trans (sub_two _)), f.mem.trans st.mem, congrArg pswCm (f.psw.trans st.psw),
    f.special.slr.trans st.special.slr, f.special.params.trans st.special.params⟩

/-- Settles O17: the check in each zone, and the push around it. -/
theorem stackLimit : Obligations.StackLimit := by
  refine ⟨fun a s => ⟨stackCheck_free, fun hk h1 h2 => ⟨_, stackCheck_yellow hk h1 h2, rfl, rfl⟩, fun hk h => ?red⟩,
    fun v checked s => ⟨_, State.step_steppedBy s .sp (-2), fun e t => push_untranslated, fun pa s2 ht => ?pushed⟩⟩
  case red =>
    obtain ⟨t, hcheck, hctl, hsp, ht, -, hothers⟩ := stackCheck_red_leaves hk h
    exact ⟨t, hcheck, hctl, hsp, ht, hothers⟩
  case pushed =>
    obtain ⟨hreg, hmem, hcm, hslr, hparams⟩ := push_translation_keeps ht
    rw [← hmem, ← hcm, ← hparams, ← hslr]
    refine ⟨hreg, rfl, fun hb hk hl => ?red, fun hc he => ⟨fun h => ⟨_, push_stores ht ?free hc he⟩,
      fun hb hk h1 h2 => ⟨_, push_stores (u := s2.setCtl s2.ctl.yellowed) ht ?yellow hc he⟩⟩⟩
    case red =>
      obtain ⟨t, hcheck, hleaves⟩ := stackCheck_red_leaves hk hl
      refine ⟨t, ?_, hleaves⟩
      rw [push_translated ht, if_pos hb]
      exact bind_error hcheck
    case free =>
      split
      · next hb => exact stackCheck_free (h.resolve_left (by simp [hb]))
      · rfl
    case yellow =>
      rw [if_pos hb]
      exact stackCheck_yellow hk h1 h2

end Sys2Proof.Machine
end

section
/-! The results of the double-operand instructions, of TST and of XOR (41_double_operand.md rules R203 to R214,
42_single_operand.md rules R245 and R246, 43_eis.md rule R285): each flag rule in the words of the statements, then the
shapes the instructions share. -/

namespace Sys2Proof.Machine

/-! ### The flag rules -/

section
variable {w : Nat} (src dst : BitVec w)

theorem ccLogic_eq (r : BitVec w) (c : Bool) : ccLogic r c = ⟨r.msb, r == 0, false, c⟩ := by
  rw [ccLogic, signBit_eq_msb]

theorem ccCmp_eq : ccCmp src dst = ⟨(src - dst).msb, src - dst == 0,
    src.msb != dst.msb && (src - dst).msb == dst.msb, decide (src.toNat < dst.toNat)⟩ := by
  simp only [ccCmp, signBit_eq_msb]
  rfl

theorem ccTst_eq : ccTst dst = ⟨dst.msb, dst == 0, false, false⟩ := by
  rw [ccTst, signBit_eq_msb]

/-- V of ADD compares the result's sign with either operand's, which are the same where V can be set (R213). -/
theorem ccAdd_eq : ccAdd src dst = ⟨(dst + src).msb, dst + src == 0,
    src.msb == dst.msb && (dst + src).msb != src.msb, decide (2 ^ w ≤ dst.toNat + src.toNat)⟩ := by
  have sign : ∀ a b r : Bool, (a == b && r != b) = (a == b && r != a) := by decide
  simp only [ccAdd, signBit_eq_msb, sign]

theorem ccSub_eq : ccSub src dst = ⟨(dst - src).msb, dst - src == 0,
    src.msb != dst.msb && (dst - src).msb == src.msb, decide (dst.toNat < src.toNat)⟩ := by
  simp only [ccSub, signBit_eq_msb]
  rfl

end

/-! ### The shapes -/

theorem State.carry_congr {s t : State} (h : t.psw = s.psw) : t.carry = s.carry := congrArg pswC h

section
variable {i : Instr} {ss dd : OpSpec} {w : Width} {s s1 s2 : State} {src dst : Word}
  {cc : Word → Word → Bool → Cc}

/-- A body that ends in a flag update, the flags given as one value (R29). -/
theorem flags_result_cc {p n z v c : Bool} {f : State → Cc} (h : bodyOf i s = setFlagsUnless p f s1)
    (hf : p = false → f s1 = ⟨n, z, v, c⟩) : ∃ t, exec i s = .next t ∧ StoredFlags p s1 t n z v c :=
  flags_result_kept h fun hp => by rw [hf hp]; exact ⟨rfl, rfl, rfl, rfl⟩

/-- MOV and MOVB: the carry kept is the one before the instruction, unless the store was in the status word (R203). -/
theorem flags_after_write {v : Word} {p n z : Bool} {m : Nat} {x : BitVec m}
    (hb : bodyOf i s = (writeOp dd w v >>= fun p => setFlagsUnless p fun t => ccLogic x t.carry) s1)
    (h1 : s1.psw = s.psw) (h2 : writeOp dd w v s1 = .ok p s2) (hn : x.msb = n) (hz : (x == 0) = z) :
    ∃ t, exec i s = .next t ∧ StoredFlags p s2 t n z false s.carry := by
  refine flags_result_cc (hb.trans (bind_ok h2)) fun hp => ?_
  subst hp hn hz
  rw [State.carry_congr ((writeOp_psw h2).trans h1), ccLogic_eq]

/-- CMP and BIT: two operands read, the carry still the one before the instruction (R200). -/
theorem flags_after_reads {n z v c : Bool} (hb : bodyOf i = compareBody w ss dd cc) (h1 : readOp ss w s = .ok src s1)
    (h2 : readOp dd w s1 = .ok dst s2) (hcc : cc src dst s.carry = ⟨n, z, v, c⟩) :
    ∃ t, exec i s = .next t ∧ Flagged s2 t n z v c := by
  refine flags_result_cc (p := false) (f := fun t => cc src dst t.carry) ?_ fun _ => ?_
  · rw [hb]
    exact (bind_ok h1).trans (bind_ok h2)
  · rw [State.carry_congr ((readOp_psw h2).trans (readOp_psw h1)), hcc]

/-- BIC, BIS, ADD and SUB, the flags given as one value (R200). -/
theorem modifyGives_combine {f : Word → Word → Word} {g : Word → Word} {n z v c : Word → Bool}
    (hb : bodyOf i = combineBody w ss dd f cc) (h : readOp ss w s = .ok src s1) (hg : f src = g)
    (hcc : ∀ d, cc src d s.carry = ⟨n d, z d, v d, c d⟩) : ModifyGives i s s1 dd w g n z v c := by
  subst hg
  intro old p s2 hm
  have h := modifyGives_double hb h old p s2 hm
  simpa only [hcc] using h

end

/-! ### The statements -/

/-- Settles O22: MOV and MOVB end in a write, a register receiving the byte of MOVB as a word. -/
theorem movResult : Obligations.MovResult := by
  intro ss dd s src s1
  refine ⟨fun h p s2 hw => flags_after_write (bind_ok h) (readOp_psw h) hw rfl rfl, fun h => ⟨fun p s2 hd hw => ?_,
    fun hd => ?_⟩⟩
  · refine flags_after_write ((bind_ok h).trans ?_) (readOp_psw h) hw rfl rfl
    rw [if_neg hd]
    rfl
  · obtain ⟨m, r⟩ := dd
    subst hd
    exact flags_after_write (bind_ok h) (readOp_psw h) (writeOp_direct r .word s1 _) rfl rfl

/-- Settles O23: the operands are read, and the flags follow the rule of each instruction. -/
theorem compareResult : Obligations.CompareResult := by
  intro ss dd s src s1 dst s2
  refine ⟨fun h1 h2 => ⟨flags_after_reads (.refl (cmpBody ss dd)) h1 h2 (ccCmp_eq _ _),
      flags_after_reads (.refl (bitBody ss dd)) h1 h2 (ccLogic_eq _ _)⟩,
    fun h1 h2 => ⟨flags_after_reads (.refl (cmpbBody ss dd)) h1 h2 (ccCmp_eq _ _),
      flags_after_reads (.refl (bitbBody ss dd)) h1 h2 (ccLogic_eq _ _)⟩,
    fun h => ?word, fun h => ?byte⟩
  case word => exact flags_result_cc (p := false) (f := fun _ => ccTst dst) (bind_ok h) fun _ => ccTst_eq _
  case byte => exact flags_result_cc (p := false) (f := fun _ => ccTst (lowByte dst)) (bind_ok h) fun _ => ccTst_eq _

/-- Settles O24: BIC and BIS have the shape of R200; XOR reads its register once the destination is resolved. -/
theorem logicResult : Obligations.LogicResult := by
  refine ⟨fun ss dd s src s1 h => ⟨?bic, ?bis⟩, fun ss dd s src s1 h => ⟨?bicb, ?bisb⟩,
    fun r dd s pl s1 old p s2 hpl hm => ?xor⟩
  case bic => exact modifyGives_combine (.refl (bicBody ss dd)) h rfl fun _ => ccLogic_eq _ _
  case bis => exact modifyGives_combine (.refl (bisBody ss dd)) h rfl fun _ => ccLogic_eq _ _
  case bicb => exact modifyGives_combine (.refl (bicbBody ss dd)) h rfl fun _ => ccLogic_eq _ _
  case bisb => exact modifyGives_combine (.refl (bisbBody ss dd)) h rfl fun _ => ccLogic_eq _ _
  case xor =>
    refine flags_result_cc (f := fun t => ccLogic (old ^^^ s1.readReg r) t.carry)
      ((bind_ok hpl).trans (bind_ok hm)) fun hp => ?_
    subst hp
    have hpsw : s1.psw = s.psw := (resolvePlace_post pswSame_step dd (fun _ => trivial) .word .modify s).ok hpl
    rw [State.carry_congr ((modifyPlace_psw hm).trans hpsw), ccLogic_eq]

/-- Settles O25: both have the shape of R200, with the flag rules of R213 and R214. -/
theorem addSubResult : Obligations.AddSubResult := fun ss dd _ _ _ h =>
  ⟨modifyGives_combine (.refl (addBody ss dd)) h rfl (ccAdd_eq _),
    modifyGives_combine (.refl (subBody ss dd)) h rfl (ccSub_eq _)⟩

end Sys2Proof.Machine
end

section
/-! The frames of the instructions with one or two operands (41_double_operand.md rules R200 and R201,
42_single_operand.md rule R230, 43_eis.md rule R280): how each instruction ends once its source has been read, and what
that leaves unchanged where the last access completes and where it aborts. -/

namespace Sys2Proof.Machine

/-! ### How an instruction ends -/

/-- `i` begins by reading the operand `ss`. -/
def BeginsReading (i : Instr) (ss : OpSpec) (w : Width) : Prop := ∃ k : Word → M Unit, bodyOf i = readOp ss w >>= k

/-- `i`, run in `s`, goes on in `s1` by reading the operand `dd`, and sets the flags. -/
def EndsReading (i : Instr) (s s1 : State) (dd : OpSpec) (w : Width) : Prop :=
  ∃ f : Word → State → Cc, bodyOf i s = (readOp dd w >>= fun x => setFlagsUnless false (f x)) s1

/-- `i`, run in `s`, goes on in `s1` by writing the operand `dd`, and sets the flags. -/
def EndsWriting (i : Instr) (s s1 : State) (dd : OpSpec) (w : Width) : Prop :=
  ∃ x f, bodyOf i s = (writeOp dd w x >>= fun p => setFlagsUnless p f) s1

/-- `i`, run in `s`, goes on in `s1` by modifying the operand `dd`, and sets the flags. -/
def EndsModifying (i : Instr) (s s1 : State) (dd : OpSpec) (w : Width) : Prop :=
  ∃ (g : Word → Word) (f : Word → State → Cc),
    bodyOf i s = (modifyOp dd w g >>= fun o => setFlagsUnless o.2 (f o.1)) s1

section
variable {i : Instr} {ss dd : OpSpec} {w : Width} {r : Reg} {s s1 : State} {src : Word}

/-! ### Which instruction ends how -/

/-- CMP, BIT and their byte forms (R205 to R208). -/
theorem compareBody_of (hi : (w = .word ∧ (i = .cmp ss dd ∨ i = .bit ss dd)) ∨
    (w = .byte ∧ (i = .cmpb ss dd ∨ i = .bitb ss dd))) : ∃ cc, bodyOf i = compareBody w ss dd cc := by
  rcases hi with ⟨rfl, rfl | rfl⟩ | ⟨rfl, rfl | rfl⟩
  · exact ⟨_, .refl (cmpBody ss dd)⟩
  · exact ⟨_, .refl (bitBody ss dd)⟩
  · exact ⟨_, .refl (cmpbBody ss dd)⟩
  · exact ⟨_, .refl (bitbBody ss dd)⟩

/-- BIC, BIS, their byte forms, ADD and SUB (R209 to R214). -/
theorem combineBody_of (hi : (w = .word ∧ (i = .bic ss dd ∨ i = .bis ss dd ∨ i = .add ss dd ∨ i = .sub ss dd)) ∨
    (w = .byte ∧ (i = .bicb ss dd ∨ i = .bisb ss dd))) : ∃ f cc, bodyOf i = combineBody w ss dd f cc := by
  rcases hi with ⟨rfl, rfl | rfl | rfl | rfl⟩ | ⟨rfl, rfl | rfl⟩
  · exact ⟨_, _, .refl (bicBody ss dd)⟩
  · exact ⟨_, _, .refl (bisBody ss dd)⟩
  · exact ⟨_, _, .refl (addBody ss dd)⟩
  · exact ⟨_, _, .refl (subBody ss dd)⟩
  · exact ⟨_, _, .refl (bicbBody ss dd)⟩
  · exact ⟨_, _, .refl (bisbBody ss dd)⟩

/-- The instructions of one word modified but XOR (R230). -/
theorem modifyBody_of (hi : i = .com dd ∨ i = .inc dd ∨ i = .dec dd ∨ i = .neg dd ∨ i = .adc dd ∨ i = .sbc dd ∨
    i = .ror dd ∨ i = .rol dd ∨ i = .asr dd ∨ i = .asl dd ∨ i = .swab dd) :
    ∃ f cc, bodyOf i = modifyBody .word dd f cc := by
  rcases hi with rfl | rfl | rfl | rfl | rfl | rfl | rfl | rfl | rfl | rfl | rfl <;>
    (unfold bodyOf; exact ⟨_, _, rfl⟩)

/-- Their byte forms (R230). -/
theorem modifyByteBody_of (hi : i = .comb dd ∨ i = .incb dd ∨ i = .decb dd ∨ i = .negb dd ∨ i = .adcb dd ∨
    i = .sbcb dd ∨ i = .rorb dd ∨ i = .rolb dd ∨ i = .asrb dd ∨ i = .aslb dd) :
    ∃ f cc, bodyOf i = modifyByteBody dd f cc := by
  rcases hi with rfl | rfl | rfl | rfl | rfl | rfl | rfl | rfl | rfl | rfl <;> (unfold bodyOf; exact ⟨_, _, rfl⟩)

theorem endsReading_of_compare {cc : Word → Word → Bool → Cc} (hb : bodyOf i = compareBody w ss dd cc)
    (h : readOp ss w s = .ok src s1) : EndsReading i s s1 dd w :=
  ⟨fun x t => cc src x t.carry, by rw [hb]; exact bind_ok h⟩

theorem endsModifying_of_combine {f : Word → Word → Word} {cc : Word → Word → Bool → Cc}
    (hb : bodyOf i = combineBody w ss dd f cc) (h : readOp ss w s = .ok src s1) : EndsModifying i s s1 dd w :=
  ⟨f src, fun d t => cc src d t.carry, by rw [hb]; exact bind_ok h⟩

theorem endsModifying_of_modify {f : Bool → Word → Word} {cc : Bool → Word → Cc}
    (hb : bodyOf i = modifyBody w dd f cc) : EndsModifying i s s dd w :=
  ⟨f s.carry, fun d _ => cc s.carry d, by rw [hb]; rfl⟩

/-- XOR too modifies its destination, by the register as it is once the destination is resolved (R285). -/
theorem endsModifying_xor : EndsModifying (.xor r dd) s s dd .word := by
  cases h : resolvePlace dd .word .modify s with
  | ok pl s1 =>
    refine ⟨fun d => d ^^^ s1.readReg r, fun d t => ccLogic (d ^^^ s1.readReg r) t.carry, ?_⟩
    rw [modifyOp, bind_assoc, bind_ok h]
    exact bind_ok h
  | error v u =>
    refine ⟨id, fun _ _ => ccClr, ?_⟩
    rw [modifyOp, bind_assoc, bind_error h]
    exact bind_error h

/-- The instructions that modify one operand (R230, R285). -/
theorem endsModifying_single (hi : (w = .word ∧ (i = .com dd ∨ i = .inc dd ∨ i = .dec dd ∨ i = .neg dd ∨ i = .adc dd ∨
        i = .sbc dd ∨ i = .ror dd ∨ i = .rol dd ∨ i = .asr dd ∨ i = .asl dd ∨ i = .swab dd ∨ ∃ r, i = .xor r dd)) ∨
      (w = .byte ∧ (i = .comb dd ∨ i = .incb dd ∨ i = .decb dd ∨ i = .negb dd ∨ i = .adcb dd ∨ i = .sbcb dd ∨
        i = .rorb dd ∨ i = .rolb dd ∨ i = .asrb dd ∨ i = .aslb dd))) : EndsModifying i s s dd w := by
  rcases hi with ⟨rfl, hi⟩ | ⟨rfl, hi⟩
  · simp only [← or_assoc] at hi
    obtain hi | ⟨r, rfl⟩ := hi
    · simp only [or_assoc] at hi
      obtain ⟨f, cc, hb⟩ := modifyBody_of hi
      exact endsModifying_of_modify hb
    · exact endsModifying_xor
  · obtain ⟨f, cc, hb⟩ := modifyByteBody_of hi
    rw [modifyByteBody] at hb
    exact endsModifying_of_modify hb

theorem endsReading_tst (hi : (w = .word ∧ i = .tst dd) ∨ (w = .byte ∧ i = .tstb dd)) : EndsReading i s s dd w := by
  rcases hi with ⟨rfl, rfl⟩ | ⟨rfl, rfl⟩
  · exact ⟨fun x _ => ccTst x, rfl⟩
  · exact ⟨fun x _ => ccTst (lowByte x), rfl⟩

theorem endsWriting_clear (hi : (w = .word ∧ (i = .clr dd ∨ i = .sxt dd)) ∨ (w = .byte ∧ i = .clrb dd)) :
    EndsWriting i s s dd w := by
  rcases hi with ⟨rfl, rfl | rfl⟩ | ⟨rfl, rfl⟩
  · exact ⟨0, fun _ => ccClr, rfl⟩
  · exact ⟨sxtResult (pswN s.psw), fun t => ⟨pswN s.psw, !pswN s.psw, false, t.carry⟩, rfl⟩
  · exact ⟨0, fun _ => ccClr, rfl⟩

theorem endsWriting_mov (h : readOp ss .word s = .ok src s1) : EndsWriting (.mov ss dd) s s1 dd .word :=
  ⟨src, fun t => ccLogic src t.carry, bind_ok h⟩

/-- MOVB writes a byte in memory (R204). -/
theorem endsWriting_movb (h : readOp ss .byte s = .ok src s1) (hd : dd.mode ≠ .direct) :
    EndsWriting (.movb ss dd) s s1 dd .byte := by
  refine ⟨src, fun t => ccLogic (lowByte src) t.carry, (bind_ok h).trans ?_⟩
  rw [if_neg hd]
  rfl

/-- MOVB writes a register as a word (R204). -/
theorem endsWriting_movb_direct (h : readOp ss .byte s = .ok src s1) :
    EndsWriting (.movb ss ⟨.direct, r⟩) s s1 ⟨.direct, r⟩ .word :=
  ⟨(lowByte src).signExtend 16, fun t => ccLogic (lowByte src) t.carry, bind_ok h⟩

/-- The instructions that modify one operand after reading another are neither MOV nor MOVB (R200). -/
theorem endsModifying_double (hi : (w = .word ∧ (i = .bic ss dd ∨ i = .bis ss dd ∨ i = .add ss dd ∨ i = .sub ss dd)) ∨
    (w = .byte ∧ (i = .bicb ss dd ∨ i = .bisb ss dd))) (h : readOp ss w s = .ok src s1) :
    i ≠ .mov ss dd ∧ i ≠ .movb ss dd ∧ EndsModifying i s s1 dd w := by
  obtain ⟨f, cc, hb⟩ := combineBody_of hi
  refine ⟨?_, ?_, endsModifying_of_combine hb h⟩ <;> (rintro rfl; simp at hi)

/-- The instructions that store one operand after reading another: MOV and MOVB write it, the others modify it. -/
theorem ends_of_double (hi : (w = .word ∧ (i = .mov ss dd ∨ i = .bic ss dd ∨ i = .bis ss dd ∨ i = .add ss dd ∨
      i = .sub ss dd)) ∨ (w = .byte ∧ (i = .movb ss dd ∨ i = .bicb ss dd ∨ i = .bisb ss dd)))
    (h : readOp ss w s = .ok src s1) :
    ((i = .mov ss dd ∨ i = .movb ss dd) ∧ (dd.mode ≠ .direct → EndsWriting i s s1 dd w)) ∨
      (i ≠ .mov ss dd ∧ i ≠ .movb ss dd ∧ EndsModifying i s s1 dd w) := by
  rcases hi with ⟨rfl, rfl | hi⟩ | ⟨rfl, rfl | hi⟩
  · exact .inl ⟨.inl rfl, fun _ => endsWriting_mov h⟩
  · exact .inr (endsModifying_double (.inl ⟨rfl, hi⟩) h)
  · exact .inl ⟨.inr rfl, endsWriting_movb h⟩
  · exact .inr (endsModifying_double (.inr ⟨rfl, hi⟩) h)

end

/-! ### What it leaves -/

/-- A register destination can always be written (R185). -/
theorem writeOp_error_mode {dd : OpSpec} {w : Width} {x v : Word} {s u : State} (h : writeOp dd w x s = .error v u) :
    dd.mode ≠ .direct := by
  obtain ⟨m, r⟩ := dd
  rintro rfl
  cases h

section
variable {i : Instr} {ss dd : OpSpec} {w : Width} {T : Reg → Prop} {s s1 s2 t u : State} {v x : Word}

/-- A flag update, suppressed or not, keeps the PC. -/
theorem StoredFlags.pc {p n z v c : Bool} (h : StoredFlags p s t n z v c) : t.pc = s.pc := by
  cases p with
  | true => exact congrArg State.pc h
  | false =>
    obtain ⟨e, -⟩ := (h : Flagged s t n z v c)
    rw [e]
    rfl

/-- An instruction that ends in a flag update leaves the state its last access left, with some flags. -/
theorem exec_flags {α : Type} {m : M α} {p : α → Bool} {f : α → State → Cc} {a : α}
    (hb : bodyOf i s = (m >>= fun a => setFlagsUnless (p a) (f a)) s1) (hm : m s1 = .ok a s2)
    (he : exec i s = .next t) : ∃ n z v c, StoredFlags (p a) s2 t n z v c := by
  obtain ⟨t', ht, hf⟩ := flags_result (hb.trans (bind_ok hm)) rfl rfl rfl rfl
  rw [ht] at he
  cases he
  exact ⟨_, _, _, _, hf⟩

/-- A source that cannot be read (R12, R183). -/
theorem BeginsReading.abort (h : BeginsReading i ss w) (hr : readOp ss w s = .error v u) :
    exec i s = .next (trapSeq v u) ∧ AbortFrame s u (specSteps ss) := by
  obtain ⟨k, hb⟩ := h
  refine ⟨exec_abort ?_, readOp_abort hr fun _ => id⟩
  rw [hb]
  exact bind_error hr

theorem EndsReading.frame (h : EndsReading i s s1 dd w) (hf : ReadFrame T s s1) (hT : ∀ r, specSteps dd r → T r)
    (hr : readOp dd w s1 = .ok x s2) (he : exec i s = .next t) :
    InstrFrame s t T [] 0 ∧ t.pc = pcAfter dd s1.pc := by
  obtain ⟨f, hb⟩ := h
  obtain ⟨n, z, v, c, hs⟩ := exec_flags hb hr he
  obtain ⟨frame, -⟩ := InstrFrame.flagged ((readFrame_access T).trans hf (readOp_frame hr T hT)) hs
  exact ⟨frame, hs.pc.trans (readOp_pc hr)⟩

theorem EndsReading.abort (h : EndsReading i s s1 dd w) (hf : ReadFrame T s s1) (hT : ∀ r, specSteps dd r → T r)
    (hr : readOp dd w s1 = .error v u) : exec i s = .next (trapSeq v u) ∧ AbortFrame s u T := by
  obtain ⟨f, hb⟩ := h
  exact ⟨exec_abort (hb.trans (bind_error hr)), hf.abort (readOp_abort hr hT)⟩

/-- The flags set after a store: its frame and the PC as the store left them (R29, R141). -/
theorem WriteFrame.stored_pc {dst : List Nat} {len : Nat} {pc : Word} {p n z v c : Bool}
    (hf : WriteFrame T dst len s s2) (hpc : PcStored dd s2 pc) (hs : StoredFlags p s2 t n z v c) :
    RegFrame s t T ∧ InstrFrame s t T dst len ∧ PcStored dd t pc := by
  obtain ⟨regs, frame⟩ := hf.stored hs
  exact ⟨regs, frame, hpc.imp_right hs.pc.trans⟩

/-- That one value can be stored says of the value the instruction stores what it leaves unchanged (R185). -/
theorem EndsWriting.frame {p : Bool} (h : EndsWriting i s s1 dd w) (hw : Memory.wf s.mem = true)
    (hf : ReadFrame T s s1) (hT : ∀ r, specLands dd r → T r) (hx : writeOp dd w x s1 = .ok p s2)
    (he : exec i s = .next t) : RegFrame s t T ∧ InstrFrame s t T (destAddress dd w .write s1) w.len ∧
      PcStored dd t (pcAfter dd s1.pc) := by
  obtain ⟨y, f, hb⟩ := h
  obtain ⟨s3, hy⟩ := writeOp_any hx y
  obtain ⟨n, z, v, c, hs⟩ := exec_flags hb hy he
  have written := (writeOp_frame hy (by rw [hf.mem]; exact hw)).mono hT
  exact (hf.trans_write written).stored_pc (writeOp_pc hy) hs

theorem EndsWriting.abort (h : EndsWriting i s s1 dd w) (hf : ReadFrame T s s1) (hT : ∀ r, specSteps dd r → T r)
    (hx : writeOp dd w x s1 = .error v u) : exec i s = .next (trapSeq v u) ∧ AbortFrame s u T := by
  obtain ⟨y, f, hb⟩ := h
  exact ⟨exec_abort (hb.trans (bind_error (writeOp_any_error hx y))), hf.abort (writeOp_abort hx hT)⟩

theorem EndsModifying.frame {g : Word → Word} {o : Word × Bool} (h : EndsModifying i s s1 dd w)
    (hw : Memory.wf s.mem = true) (hf : ReadFrame T s s1) (hT : ∀ r, specLands dd r → T r)
    (hg : modifyOp dd w g s1 = .ok o s2) (he : exec i s = .next t) :
    RegFrame s t T ∧ InstrFrame s t T (destAddress dd w .modify s1) w.len ∧ PcStored dd t (pcAfter dd s1.pc) := by
  obtain ⟨g', f, hb⟩ := h
  obtain ⟨s3, hg'⟩ := modifyOp_any hg g'
  obtain ⟨n, z, v, c, hs⟩ := exec_flags hb hg' he
  have written := (modifyOp_frame hg' (by rw [hf.mem]; exact hw)).mono hT
  exact (hf.trans_write written).stored_pc (modifyOp_pc hg') hs

theorem EndsModifying.abort {g : Word → Word} (h : EndsModifying i s s1 dd w) (hf : ReadFrame T s s1)
    (hT : ∀ r, specSteps dd r → T r) (hg : modifyOp dd w g s1 = .error v u) :
    exec i s = .next (trapSeq v u) ∧ AbortFrame s u T := by
  obtain ⟨g', f, hb⟩ := h
  exact ⟨exec_abort (hb.trans (bind_error (modifyOp_any_error hg g'))), hf.abort (modifyOp_abort hg hT)⟩

/-- A byte moved to a register: nothing is stored at any address (R185, R204). -/
theorem movb_direct_frame {r : Reg} (hr : readOp ss .byte s = .ok x s1) (hw : Memory.wf s.mem = true)
    (hf : ReadFrame T s s1) (hT : T r) (he : exec (.movb ss ⟨.direct, r⟩) s = .next t) (dst : List Nat) (len : Nat) :
    RegFrame s t T ∧ InstrFrame s t T dst len ∧ PcStored ⟨.direct, r⟩ t (pcAfter ⟨.direct, r⟩ s1.pc) := by
  obtain ⟨y, f, hb⟩ := endsWriting_movb_direct (r := r) hr
  have hy : writeOp ⟨.direct, r⟩ .word y s1 = .ok false (s1.writeReg r y) := writeOp_direct r .word s1 y
  obtain ⟨n, z, v, c, hs⟩ := exec_flags hb hy he
  have written := (readFrame_access T).trans hf ((readFrame_step T).writeReg s1 r y hT)
  exact (written.write hw dst len).stored_pc (writeOp_pc hy) hs

end

/-! ### The register-source instructions -/

section
variable {i : Instr} {ss : OpSpec} {r : Reg} {T : Reg → Prop} {s s1 u : State} {src : Word} {cc : Cc}

/-- The frame of an instruction that ends by setting the flags (R27). -/
theorem ReadFrame.setCc (h : ReadFrame T s u) : InstrFrame s (u.setCc cc) T [] 0 := by
  obtain ⟨frame, -⟩ := InstrFrame.flagged h (flagged_setCc u cc)
  exact frame

theorem readFrame_writePair (s : State) (hi lo : Word) (hr : T r) (hr1 : T (regOrOne r)) :
    ReadFrame T s (s.writePair r hi lo) :=
  (readFrame_access T).trans ((readFrame_step T).writeReg s r hi hr)
    ((readFrame_step T).writeReg (s.writeReg r hi) (regOrOne r) lo hr1)

/-- The second register of a pair is the PC only where the first is the stack pointer or the PC (R280). -/
theorem regOrOne_ne_pc (hsp : r ≠ .sp) (hpc : r ≠ .pc) : regOrOne r ≠ .pc := by
  cases r with
  | gen k =>
    unfold regOrOne
    dsimp only
    split <;> simp
  | sp => exact absurd rfl hsp
  | pc => exact absurd rfl hpc

theorem writePair_pc (s : State) (hi lo : Word) (hsp : r ≠ .sp) (hpc : r ≠ .pc) : (s.writePair r hi lo).pc = s.pc := by
  rw [State.writePair, State.pc_writeReg, if_neg (regOrOne_ne_pc hsp hpc), State.pc_writeReg, if_neg hpc]

/-- A register-source instruction applies a function of its operand to the state. -/
theorem exec_change {f : Word → State → State} (hb : bodyOf i = readOp ss .word >>= fun x => change (f x))
    (h : readOp ss .word s = .ok src s1) : exec i s = .next (f src s1) := by
  rw [exec_eq, hb]
  exact runBody_ok (bind_ok h)

/-- MUL, DIV and ASHC write a register pair, which DIV may leave, and set the flags (R281, R282, R284). -/
theorem exec_pair (hi : i = .mul r ss ∨ i = .div r ss ∨ i = .ashc r ss) (h : readOp ss .word s = .ok src s1) :
    ∃ u cc, exec i s = .next (u.setCc cc) ∧ (u = s1 ∨ ∃ hi lo, u = s1.writePair r hi lo) := by
  rcases hi with rfl | rfl | rfl
  · exact ⟨_, _, exec_change (i := .mul r ss) (.refl (mulBody r ss)) h, .inr ⟨_, _, rfl⟩⟩
  · have he := exec_change (i := .div r ss) (.refl (divBody r ss)) h
    dsimp only at he
    split at he
    · exact ⟨_, _, he, .inl rfl⟩
    · exact ⟨_, _, he, .inr ⟨_, _, rfl⟩⟩
  · exact ⟨_, _, exec_change (i := .ashc r ss) (.refl (ashcBody r ss)) h, .inr ⟨_, _, rfl⟩⟩

/-- The frame of a register pair written or left (R280). -/
theorem pair_frame (hp : u = s1 ∨ ∃ hi lo, u = s1.writePair r hi lo) (hf : ReadFrame T s s1) (hr : T r)
    (hr1 : T (regOrOne r)) : ReadFrame T s u ∧ (r ≠ .sp → r ≠ .pc → u.pc = s1.pc) := by
  obtain rfl | ⟨hi, lo, rfl⟩ := hp
  · exact ⟨hf, fun _ _ => rfl⟩
  · exact ⟨(readFrame_access T).trans hf (readFrame_writePair s1 hi lo hr hr1), writePair_pc s1 hi lo⟩

theorem exec_ash (h : readOp ss .word s = .ok src s1) :
    ∃ y cc, exec (.ash r ss) s = .next ((s1.writeReg r y).setCc cc) :=
  ⟨_, _, exec_change (i := .ash r ss) (.refl (ashBody r ss)) h⟩

end

/-! ### The statements -/

/-- Settles O57: the last operand read, or the registers written after it, and the trap where a read aborts. -/
theorem frameReading : Obligations.FrameReading := by
  refine ⟨fun w ss dd s src s1 dst s2 i t h1 h2 hi he => ?compare, fun w dd s dst s1 i t h hi he => ?test,
    fun r ss s src s1 i t h hi he => ?pair, fun r ss s src s1 t h he => ?ash, fun w ss dd s v u i h hi => ?compareAbort,
    fun w r ss s v u i h hi => ?sourceAbort⟩
  case compare =>
    obtain ⟨cc, hb⟩ := compareBody_of hi
    have source := readOp_frame h1 (fun x => specSteps ss x ∨ specSteps dd x) fun _ => .inl
    rw [← readOp_pc h1]
    exact (endsReading_of_compare hb h1).frame source (fun _ => .inr) h2 he
  case test => exact (endsReading_tst hi).frame ((readFrame_access _).refl s) (fun _ => id) h he
  case pair =>
    obtain ⟨u, cc, hu, hp⟩ := exec_pair hi h
    rw [hu] at he
    cases he
    have source := readOp_frame h (fun x => specSteps ss x ∨ x = r ∨ x = regOrOne r) fun _ => .inl
    obtain ⟨written, pc⟩ := pair_frame hp source (.inr (.inl rfl)) (.inr (.inr rfl))
    exact ⟨written.setCc, fun hsp hpc => (pc hsp hpc).trans (readOp_pc h)⟩
  case ash =>
    obtain ⟨y, cc, hy⟩ := exec_ash (r := r) h
    rw [hy] at he
    cases he
    have source := readOp_frame h (fun x => specSteps ss x ∨ x = r) fun _ => .inl
    have written := (readFrame_access _).trans source ((readFrame_step _).writeReg s1 r y (.inr rfl))
    refine ⟨written.setCc, fun hpc => ?_⟩
    show (s1.writeReg r y).pc = _
    rw [State.pc_writeReg, if_neg hpc, readOp_pc h]
  case compareAbort =>
    obtain ⟨cc, hb⟩ := compareBody_of hi
    obtain h | ⟨src, s1, h1, h2⟩ := h
    · obtain ⟨he, frame⟩ := BeginsReading.abort ⟨_, hb⟩ h
      exact ⟨he, frame.mono fun _ => .inl⟩
    · exact (endsReading_of_compare hb h1).abort (readOp_frame h1 _ fun _ => .inl) (fun _ => .inr) h2
  case sourceAbort =>
    refine BeginsReading.abort (w := w) ?_ h
    rcases hi with ⟨rfl, rfl | rfl | rfl | rfl | rfl⟩ | ⟨rfl, rfl⟩ <;> exact ⟨_, rfl⟩

/-- Settles O58: the one store, whatever the value, and the trap where an access before it aborts. -/
theorem frameStoring : Obligations.FrameStoring := by
  refine ⟨fun ss dd s src s1 p s2 t hw h1 h2 he => ?mov, fun ss dd s src s1 p s2 t hw h1 h2 he => ?movb,
    fun w dd s v p s1 i t hw h hi he => ?clear, fun w ss dd s src s1 f o s2 i t hw h1 h2 hi he => ?combine,
    fun w dd s f o s1 i t hw h hi he => ?modify, fun w ss dd s v u i hi => ⟨fun h => ?sourceAbort,
      fun src s1 h1 h => ?storeAbort⟩, fun w dd s x v u i h hi => ?clearAbort, fun w dd s f v u i h hi => ?modifyAbort⟩
  case mov =>
    rw [← readOp_pc h1]
    exact (endsWriting_mov h1).frame hw (readOp_frame h1 _ fun _ => .inl) (fun _ => .inr) h2 he
  case movb =>
    rw [← readOp_pc h1]
    have source := readOp_frame h1 (fun x => specSteps ss x ∨ specLands dd x) fun _ => .inl
    by_cases hd : dd.mode = .direct
    · obtain ⟨m, r⟩ := dd
      subst hd
      exact movb_direct_frame h1 hw source (.inr (.inr ⟨rfl, rfl⟩)) he _ _
    · exact (endsWriting_movb h1 hd).frame hw source (fun _ => .inr) h2 he
  case clear => exact (endsWriting_clear hi).frame hw ((readFrame_access _).refl s) (fun _ => id) h he
  case combine =>
    obtain ⟨-, -, modify⟩ := endsModifying_double hi h1
    rw [← readOp_pc h1]
    exact modify.frame hw (readOp_frame h1 _ fun _ => .inl) (fun _ => .inr) h2 he
  case modify => exact (endsModifying_single hi).frame hw ((readFrame_access _).refl s) (fun _ => id) h he
  case sourceAbort =>
    refine BeginsReading.abort (w := w) ?_ h
    rcases hi with ⟨rfl, rfl | rfl | rfl | rfl | rfl⟩ | ⟨rfl, rfl | rfl | rfl⟩ <;> exact ⟨_, rfl⟩
  case storeAbort =>
    have source := readOp_frame h1 (fun x => specSteps ss x ∨ specSteps dd x) fun _ => .inl
    obtain ⟨hmov, write⟩ | ⟨hmov, hmovb, modify⟩ := ends_of_double hi h1
    · obtain ⟨x, -, hx⟩ | ⟨f, hn, hnb, -⟩ := h
      · exact (write (writeOp_error_mode hx)).abort source (fun _ => .inr) hx
      · exact absurd hmov (not_or.2 ⟨hn, hnb⟩)
    · obtain ⟨x, hm, -⟩ | ⟨f, -, -, hf⟩ := h
      · exact absurd hm (not_or.2 ⟨hmov, hmovb⟩)
      · exact modify.abort source (fun _ => .inr) hf
  case clearAbort => exact (endsWriting_clear hi).abort ((readFrame_access _).refl s) (fun _ => id) h
  case modifyAbort => exact (endsModifying_single hi).abort ((readFrame_access _).refl s) (fun _ => id) h

end Sys2Proof.Machine
end

section
/-! The results of the single-operand instructions that store (42_single_operand.md rules R231 to R244 and R247 to
R256): each flag rule in the words of the statements, the shift by one place as bits, then the two shapes, word and
byte, of R230. -/

namespace Sys2Proof.Machine

/-! ### The flag rules of COM to SBC, at every width (R233 to R244) -/

section
variable {w : Nat} (d : BitVec w) (c : Bool)

theorem ccCom_eq : ccCom d = ⟨(~~~d).msb, ~~~d == 0, false, true⟩ := by
  rw [ccCom, signBit_eq_msb]

theorem ccInc_eq : ccInc d c = ⟨(d + 1).msb, d + 1 == 0, d == maxPos w, c⟩ := by
  rw [ccInc, signBit_eq_msb]

theorem ccDec_eq : ccDec d c = ⟨(d - 1).msb, d - 1 == 0, d == minNeg w, c⟩ := by
  rw [ccDec, signBit_eq_msb]

/-- The negation is 0 exactly where the operand is, which gives Z and C of NEG (R239). -/
theorem ccNeg_eq : ccNeg d = ⟨(0 - d).msb, d == 0, 0 - d == minNeg w, d != 0⟩ := by
  have zero : (-d == 0) = (d == 0) := Bool.eq_iff_iff.2 (by simp)
  simp only [ccNeg, signBit_eq_msb, bne, zero, zero_sub]

theorem ccAdc_eq : ccAdc d c =
    ⟨(d + carryIn c).msb, d + carryIn c == 0, d == maxPos w && c, d == BitVec.allOnes w && c⟩ := by
  simp only [ccAdc, signBit_eq_msb]

theorem ccSbc_eq : ccSbc d c = ⟨(d - carryIn c).msb, d - carryIn c == 0, d == minNeg w && c, d == 0 && c⟩ := by
  simp only [ccSbc, signBit_eq_msb]

end

/-! ### The shifts and rotates by one place, as bits (R247 to R254) -/

theorem getLsbD_ofNat_two_pow (w i j : Nat) :
    (BitVec.ofNat w (2 ^ i)).getLsbD j = (decide (j < w) && decide (i = j)) := by
  rw [BitVec.getLsbD_ofNat, Nat.testBit_two_pow]

section
variable {w : Nat} (c : Bool)

/-- The word with bit `i` replaced, bit by bit. -/
theorem getLsbD_putBit (x : BitVec w) (i : Nat) {j : Nat} (hj : j < w) :
    (putBit x i c).getLsbD j = if i = j then c else x.getLsbD j := by
  cases c with
  | true =>
    rw [putBit, if_pos rfl, setBit, BitVec.getLsbD_or, getLsbD_ofNat_two_pow]
    by_cases h : i = j <;> simp [h, hj]
  | false =>
    rw [putBit, if_neg Bool.false_ne_true, BitVec.getLsbD_and, BitVec.getLsbD_not, getLsbD_ofNat_two_pow]
    by_cases h : i = j <;> simp [h, hj]

/-- ROR moves the carry in above the bits that stay (R247). -/
theorem rorResult_eq (d : BitVec (1 + w)) : rorResult d c = BitVec.ofBool c ++ d.extractLsb' 1 w := by
  apply BitVec.eq_of_getLsbD_eq
  intro i hi
  rw [rorResult, getLsbD_putBit _ _ _ hi, BitVec.getLsbD_append]
  by_cases h : i < w
  · rw [if_neg (by omega), if_pos h]
    simp [h]
  · obtain rfl : i = w := by omega
    simp

/-- ROL moves the carry in below the bits that stay (R249). -/
theorem rolResult_eq (d : BitVec (w + 1)) : rolResult d c = d.extractLsb' 0 w ++ BitVec.ofBool c := by
  apply BitVec.eq_of_getLsbD_eq
  intro i hi
  rw [rolResult, BitVec.getLsbD_append, BitVec.getLsbD_or, BitVec.getLsbD_shiftLeft]
  cases i with
  | zero => cases c <;> simp [carryIn]
  | succ i => cases c <;> simp [carryIn, hi, Nat.lt_of_succ_lt_succ hi]

/-- ASR repeats the sign bit (R251). -/
theorem asrResult_eq (d : BitVec w) : asrResult d = d.sshiftRight 1 := by
  apply BitVec.eq_of_getLsbD_eq
  intro i hi
  rw [asrResult, minNeg, BitVec.getLsbD_or, BitVec.getLsbD_and, getLsbD_ofNat_two_pow, BitVec.getLsbD_ushiftRight,
    BitVec.getLsbD_sshiftRight, BitVec.msb_eq_getLsbD_last]
  by_cases h : 1 + i < w
  · simp [h, hi.not_ge, show w - 1 ≠ i by omega]
  · obtain rfl : i = w - 1 := by omega
    rw [BitVec.getLsbD_of_ge d _ (Nat.not_lt.1 h)]
    simp [h, hi, hi.not_ge]

/-- ASL doubles (R253). -/
theorem aslResult_eq (d : BitVec w) : aslResult d = d + d := by
  apply BitVec.eq_of_toNat_eq
  rw [aslResult, BitVec.toNat_shiftLeft, BitVec.toNat_add, Nat.shiftLeft_eq, pow_one, mul_two]

/-- ASL is ROL of a clear carry (R249, R253). -/
theorem aslResult_eq_rolResult (d : BitVec w) : aslResult d = rolResult d false := by
  simp [aslResult, rolResult, carryIn]

theorem append_beq_zero {m n : Nat} (x : BitVec m) (y : BitVec n) : (x ++ y == 0) = (x == 0 && y == 0) := by
  rw [Bool.eq_iff_iff]
  simp [← BitVec.toNat_inj, Nat.or_eq_zero_iff, Nat.shiftLeft_eq_zero_iff]

theorem ofBool_beq_zero : (BitVec.ofBool c == 0) = !c := by cases c <;> rfl

/-- The flags of ROR: N is the carry that came in (R247). -/
theorem ccShiftRight_rorResult (d : BitVec (1 + w)) : ccShiftRight d (rorResult d c) =
    ⟨c, !c && d.extractLsb' 1 w == 0, c != d.getLsbD 0, d.getLsbD 0⟩ := by
  have sign : (rorResult d c).msb = c := by simp [rorResult_eq, BitVec.msb_append]
  have zero : (rorResult d c == 0) = (!c && d.extractLsb' 1 w == 0) := by
    rw [rorResult_eq, append_beq_zero, ofBool_beq_zero]
  simp only [ccShiftRight, ccShift, signBit_eq_msb, sign, zero]

/-- The flags of ROL: N is the bit below the sign bit (R249). -/
theorem ccShiftLeft_rolResult (d : BitVec (w + 2)) : ccShiftLeft d (rolResult d c) =
    ⟨d.getLsbD w, !c && d.extractLsb' 0 (w + 1) == 0, d.getLsbD w != d.getLsbD (w + 1), d.getLsbD (w + 1)⟩ := by
  have sign : signBit (rolResult d c) = d.getLsbD w := by
    rw [signBit, rolResult_eq, BitVec.getLsbD_append]
    simp
  have zero : (rolResult d c == 0) = (!c && d.extractLsb' 0 (w + 1) == 0) := by
    rw [rolResult_eq, append_beq_zero, ofBool_beq_zero, Bool.and_comm]
  have out : signBit d = d.getLsbD (w + 1) := rfl
  simp only [ccShiftLeft, ccShift, sign, zero, out]

/-- The flags of ASR: the sign is kept (R251). -/
theorem ccShiftRight_asrResult (d : BitVec w) : ccShiftRight d (asrResult d) =
    ⟨d.msb, d.sshiftRight 1 == 0, d.msb != d.getLsbD 0, d.getLsbD 0⟩ := by
  simp only [ccShiftRight, ccShift, signBit_eq_msb, asrResult_eq, BitVec.msb_sshiftRight]

/-- The flags of ASL are those of ROL of a clear carry (R253). -/
theorem ccShiftLeft_aslResult (d : BitVec (w + 2)) : ccShiftLeft d (aslResult d) =
    ⟨d.getLsbD w, d + d == 0, d.getLsbD w != d.getLsbD (w + 1), d.getLsbD (w + 1)⟩ := by
  have zero : (!false && d.extractLsb' 0 (w + 1) == 0) = (d + d == 0) := by
    rw [← aslResult_eq, aslResult_eq_rolResult, rolResult_eq, append_beq_zero, ofBool_beq_zero, Bool.and_comm]
  rw [aslResult_eq_rolResult, ccShiftLeft_rolResult, zero]

end

/-! ### Bits of a word's low byte -/

theorem getLsbD_lowByte (d : Word) {i : Nat} (hi : i < 8) : (lowByte d).getLsbD i = d.getLsbD i := by
  simp [lowByte, hi]

theorem extractLsb'_lowByte (d : Word) {i n : Nat} (h : i + n ≤ 8) :
    (lowByte d).extractLsb' i n = d.extractLsb' i n := by
  apply BitVec.eq_of_getLsbD_eq
  intro j hj
  rw [BitVec.getLsbD_extractLsb', BitVec.getLsbD_extractLsb', getLsbD_lowByte d (by omega)]

/-- SWAB takes N and Z from the low byte of its result, the high byte of its operand (R255). -/
theorem ccSwab_swabResult (d : Word) : ccSwab (swabResult d) =
    ⟨d.getLsbD 15, d.extractLsb' 8 8 == 0, false, false⟩ := by
  have low : (swabResult d).extractLsb' 0 8 = d.extractLsb' 8 8 := by
    rw [extractLsb'_low, swabResult, lowByte, BitVec.setWidth_append_eq_right]
  have sign : (swabResult d).getLsbD 7 = d.getLsbD 15 := by
    rw [swabResult, BitVec.getLsbD_append]
    simp
  rw [ccSwab, low, sign]

/-! ### The shapes -/

section
variable {i : Instr} {dd : OpSpec} {s : State} {n z v c : Word → Bool}

/-- The word forms, the flags given as one value (R230). -/
theorem modifyGives_word {f : Bool → Word → Word} {cc : Bool → Word → Cc} {g : Word → Word}
    (hb : bodyOf i = modifyBody .word dd f cc) (hg : ∀ d, f s.carry d = g d)
    (hcc : ∀ d, cc s.carry d = ⟨n d, z d, v d, c d⟩) : ModifyGives i s s dd .word g n z v c := by
  obtain rfl : f s.carry = g := funext hg
  simpa only [hcc] using modifyGives_single (s := s) hb

/-- The byte forms: result and flags are of the low byte (R230). -/
theorem modifyGives_byte {f : Bool → Byte → Byte} {cc : Bool → Byte → Cc} {g : Byte → Byte}
    (hb : bodyOf i = modifyByteBody dd f cc) (hg : ∀ b, f s.carry b = g b)
    (hcc : ∀ d, cc s.carry (lowByte d) = ⟨n d, z d, v d, c d⟩) :
    ModifyGives i s s dd .byte (onByte g) n z v c := by
  obtain rfl : f s.carry = g := funext hg
  have h : bodyOf i = modifyBody .byte dd (fun c => onByte (f c)) fun c d => cc c (lowByte d) := hb
  simpa only [hcc] using modifyGives_single (s := s) h

end

/-! ### The statements -/

/-- Settles O26: each ends in a write; SXT keeps the carry, which a store outside the status word leaves. -/
theorem clearExtendResult : Obligations.ClearExtendResult := by
  refine fun dd s p s1 => ⟨fun h => ?clr, fun h => ?clrb, fun h => ?sxt⟩
  case clr => exact flags_result_cc (f := fun _ => ccClr) (bind_ok h) fun _ => rfl
  case clrb => exact flags_result_cc (f := fun _ => ccClr) (bind_ok h) fun _ => rfl
  case sxt =>
    refine flags_result_cc (f := fun t => ⟨pswN s.psw, !pswN s.psw, false, t.carry⟩) (bind_ok h) fun hp => ?_
    subst hp
    rw [State.carry_congr (writeOp_psw h)]

/-- Settles O27: all have the shape of R230; a negation is the difference from 0. -/
theorem complementResult : Obligations.ComplementResult := fun dd _ =>
  ⟨modifyGives_word (.refl (comBody dd)) (fun _ => rfl) ccCom_eq,
    modifyGives_byte (.refl (combBody dd)) (fun _ => rfl) fun _ => ccCom_eq _,
    modifyGives_word (.refl (negBody dd)) (fun d => (zero_sub d).symm) ccNeg_eq,
    modifyGives_byte (.refl (negbBody dd)) (fun b => (zero_sub b).symm) fun _ => ccNeg_eq _,
    modifyGives_word (.refl (swabBody dd)) (fun _ => rfl) ccSwab_swabResult⟩

/-- Settles O28: all have the shape of R230, with the flag rules of R235 and R237. -/
theorem incrementResult : Obligations.IncrementResult := fun dd _ =>
  ⟨modifyGives_word (.refl (incBody dd)) (fun _ => rfl) fun _ => ccInc_eq _ _,
    modifyGives_byte (.refl (incbBody dd)) (fun _ => rfl) fun _ => ccInc_eq _ _,
    modifyGives_word (.refl (decBody dd)) (fun _ => rfl) fun _ => ccDec_eq _ _,
    modifyGives_byte (.refl (decbBody dd)) (fun _ => rfl) fun _ => ccDec_eq _ _⟩

/-- Settles O29: all have the shape of R230, with the flag rules of R241 and R243. -/
theorem carryResult : Obligations.CarryResult := fun dd _ =>
  ⟨modifyGives_word (.refl (adcBody dd)) (fun _ => rfl) fun _ => ccAdc_eq _ _,
    modifyGives_byte (.refl (adcbBody dd)) (fun _ => rfl) fun _ => ccAdc_eq _ _,
    modifyGives_word (.refl (sbcBody dd)) (fun _ => rfl) fun _ => ccSbc_eq _ _,
    modifyGives_byte (.refl (sbcbBody dd)) (fun _ => rfl) fun _ => ccSbc_eq _ _⟩

/-- Settles O30: all have the shape of R230; a byte form's bits are those of the word that holds it. -/
theorem shiftOneResult : Obligations.ShiftOneResult := by
  intro dd s
  refine ⟨?ror, ?rorb, ?rol, ?rolb, ?asr, ?asrb, ?asl, ?aslb⟩
  case ror =>
    exact modifyGives_word (.refl (rorBody dd)) (rorResult_eq (w := 15) _) (ccShiftRight_rorResult (w := 15) _)
  case rorb =>
    refine modifyGives_byte (.refl (rorbBody dd)) (rorResult_eq (w := 7) _) fun d => ?_
    rw [← extractLsb'_lowByte d (by decide), ← getLsbD_lowByte d (by decide)]
    exact ccShiftRight_rorResult (w := 7) _ _
  case rol =>
    exact modifyGives_word (.refl (rolBody dd)) (rolResult_eq (w := 15) _) (ccShiftLeft_rolResult (w := 14) _)
  case rolb =>
    refine modifyGives_byte (.refl (rolbBody dd)) (rolResult_eq (w := 7) _) fun d => ?_
    rw [← extractLsb'_lowByte d (by decide), ← getLsbD_lowByte d (by decide), ← getLsbD_lowByte d (by decide)]
    exact ccShiftLeft_rolResult (w := 6) _ _
  case asr => exact modifyGives_word (.refl (asrBody dd)) asrResult_eq ccShiftRight_asrResult
  case asrb =>
    refine modifyGives_byte (.refl (asrbBody dd)) asrResult_eq fun d => ?_
    rw [← getLsbD_lowByte d (by decide)]
    exact ccShiftRight_asrResult _
  case asl => exact modifyGives_word (.refl (aslBody dd)) aslResult_eq (ccShiftLeft_aslResult (w := 14))
  case aslb =>
    refine modifyGives_byte (.refl (aslbBody dd)) aslResult_eq fun d => ?_
    rw [← getLsbD_lowByte d (by decide), ← getLsbD_lowByte d (by decide)]
    exact ccShiftLeft_aslResult (w := 6) _

end Sys2Proof.Machine
end

section
/-! The results of MUL, DIV, ASH and ASHC (43_eis.md rules R280 to R284): what each computes from its operands in the
words of the statements, then the state each leaves. -/

namespace Sys2Proof.Machine

/-- The flags set, given as one value (R27). -/
theorem flagged_setCc_of_eq {s : State} {cc : Cc} {n z v c : Bool} (hcc : cc = ⟨n, z, v, c⟩) :
    Flagged s (s.setCc cc) n z v c := by
  subst hcc
  exact flagged_setCc s _

/-! ### Products and quotients -/

theorem ccMul_eq (p : Int) :
    ccMul p = ⟨decide (p < 0), decide (p = 0), false, decide (p < -2 ^ 15 ∨ 2 ^ 15 ≤ p)⟩ := by
  rw [Bool.decide_or]
  rfl

section
variable {d : BitVec 32} {src : Word}

theorem divResult_zero (h : src = 0) : divResult d src = ⟨none, ⟨false, true, true, true⟩⟩ := if_pos h

theorem divResult_overflow (h : src ≠ 0)
    (hq : ¬ (-2 ^ 15 ≤ d.toInt.tdiv src.toInt ∧ d.toInt.tdiv src.toInt < 2 ^ 15)) :
    divResult d src = ⟨none, ⟨decide (d.toInt.tdiv src.toInt < 0), false, true, false⟩⟩ :=
  (if_neg h).trans (if_pos (by omega))

/-- The dividend less the quotient times the divisor is the remainder of the division truncated toward zero (R282). -/
theorem divResult_quotient (h : src ≠ 0) (hl : -2 ^ 15 ≤ d.toInt.tdiv src.toInt)
    (hu : d.toInt.tdiv src.toInt < 2 ^ 15) :
    divResult d src =
      ⟨some (BitVec.ofInt 16 (d.toInt.tdiv src.toInt), BitVec.ofInt 16 (d.toInt.tmod src.toInt)),
        ⟨decide (d.toInt.tdiv src.toInt < 0), decide (d.toInt.tdiv src.toInt = 0), false, false⟩⟩ := by
  rw [Int.tmod_def, Int.mul_comm src.toInt]
  exact (if_neg h).trans (if_neg (by omega))

end

/-! ### Shifts by a signed count, at every width -/

/-- The top `n + 1` bits, zeros below bit 0, are equal exactly where each is the sign (R283, R284). -/
theorem topBitsEqual_iff {w : Nat} (d : BitVec (w + 1)) (n : Nat) :
    topBitsEqual d n = true ↔ ∀ j ≤ n, (decide (j ≤ w) && d.getLsbD (w - j)) = d.msb := by
  have bit (j : Nat) : (if j ≤ w then d.getLsbD (w + 1 - 1 - j) else false) =
      (decide (j ≤ w) && d.getLsbD (w - j)) := by
    by_cases h : j ≤ w <;> simp [h]
  simp only [topBitsEqual, signBit_eq_msb, List.all_eq_true, List.mem_range, Nat.lt_succ_iff, beq_iff_eq, bit]

section
variable {w : Nat} (d : BitVec (w + 1)) {n : Int}

theorem arithShift_zero (h : n = 0) :
    (arithShift d n).res = d ∧ (arithShift d n).v = false ∧ (arithShift d n).c = false := by
  rw [arithShift, if_pos h]
  exact ⟨rfl, rfl, rfl⟩

theorem arithShift_left (h : 0 < n) : (arithShift d n).res = d <<< n.natAbs ∧
    (arithShift d n).c = (decide (n.natAbs ≤ w + 1) && d.getLsbD (w + 1 - n.natAbs)) ∧
    ((arithShift d n).v = false ↔ ∀ j ≤ n.natAbs, (decide (j ≤ w) && d.getLsbD (w - j)) = d.msb) := by
  rw [arithShift, if_neg h.ne', if_pos h, show n.toNat = n.natAbs by omega, ← topBitsEqual_iff]
  refine ⟨rfl, ?_, by rw [Bool.not_eq_false']⟩
  by_cases hk : n.natAbs ≤ w + 1 <;> simp [hk]

theorem arithShift_right (h : n < 0) :
    (arithShift d n).res = BitVec.ofInt (w + 1) (d.toInt / 2 ^ n.natAbs) ∧ (arithShift d n).v = false ∧
      (arithShift d n).c = if n.natAbs ≤ w + 1 then d.getLsbD (n.natAbs - 1) else d.msb := by
  rw [arithShift, if_neg h.ne, if_neg h.not_gt, signBit_eq_msb, show (-n).toNat = n.natAbs by omega]
  exact ⟨rfl, rfl, rfl⟩

end

theorem ccArithShift_eq {w : Nat} (x : ShiftResult w) : ccArithShift x = ⟨x.res.msb, x.res == 0, x.v, x.c⟩ := by
  rw [ccArithShift, signBit_eq_msb]

theorem shiftCount_bounds (src : Word) : -32 ≤ shiftCount src ∧ shiftCount src < 32 :=
  ⟨BitVec.le_toInt _, BitVec.toInt_lt⟩

/-! ### The statements -/

/-- Settles O31: the halves of the product at 32 bits are its quotient by `2 ^ 16` and itself, each at 16 bits. -/
theorem mulResult : Obligations.MulResult := by
  intro r ss s src s1 h p
  refine ⟨_, exec_change (i := .mul r ss) (.refl (mulBody r ss)) h, ?_⟩
  rw [← long_high, ← long_low]
  exact flagged_setCc_of_eq (ccMul_eq p)

/-- Settles O32: the divisor is zero, or the quotient does not fit, or it fits. -/
theorem divResult_holds : Obligations.DivResult := by
  intro r ss s src s1 h d q
  refine ⟨_, exec_change (i := .div r ss) (.refl (divBody r ss)) h, fun h0 => ?zero, fun h0 hq => ?overflow,
    fun h0 hl hu => ?quotient⟩
  case zero =>
    rw [divResult_zero h0]
    exact flagged_setCc s1 _
  case overflow =>
    rw [divResult_overflow (d := s1.readPair r) h0 hq]
    exact flagged_setCc s1 _
  case quotient =>
    rw [divResult_quotient (d := s1.readPair r) h0 hl hu]
    exact flagged_setCc _ _

/-- Settles O33: one arithmetic shift, at widths 16 and 32; of the latter every count stays within the bits. -/
theorem arithmeticShiftResult : Obligations.ArithmeticShiftResult := by
  intro r ss s src s1 h n k
  refine ⟨?ash, ?ashc⟩
  case ash =>
    intro d
    exact ⟨_, _, _, _, exec_change (i := .ash r ss) (.refl (ashBody r ss)) h, flagged_setCc_of_eq (ccArithShift_eq _),
      arithShift_zero d, arithShift_left d, arithShift_right d⟩
  case ashc =>
    intro d
    obtain ⟨hlow, hhigh⟩ : -32 ≤ n ∧ n < 32 := shiftCount_bounds src
    refine ⟨_, _, _, _, exec_change (i := .ashc r ss) (.refl (ashcBody r ss)) h,
      flagged_setCc_of_eq (ccArithShift_eq _), arithShift_zero d, fun hn => ?left, fun hn => ?right⟩
    case left =>
      obtain ⟨hres, hc, hv⟩ := arithShift_left d hn
      rw [decide_eq_true (by omega), Bool.true_and] at hc
      refine ⟨hres, hc, hv.trans (forall₂_congr fun j hj => ?_)⟩
      rw [decide_eq_true (by omega), Bool.true_and]
    case right =>
      obtain ⟨hres, hv, hc⟩ := arithShift_right d hn
      rw [if_pos (by omega)] at hc
      exact ⟨hres, hv, hc⟩

end Sys2Proof.Machine
end

section
/-! The branches and SOB (44_control.md rules R300 to R315 and R324): the conditions and the offsets in the words of the
statements. -/

namespace Sys2Proof.Machine

/-! ### Branches -/

theorem branchTarget_eq (pc : Word) (off : BitVec 8) : branchTarget pc off = pc + BitVec.ofInt 16 (2 * off.toInt) := by
  rw [BitVec.ofInt_mul]
  rfl

/-- When each conditional branch is taken (R302 to R315). -/
theorem branch_conditions : ∀ n z v c : Bool,
    let f : Cc := ⟨n, z, v, c⟩
    (condBne f = true ↔ z = false) ∧ (condBeq f = true ↔ z = true) ∧
      (condBge f = true ↔ (n ^^ v) = false) ∧ (condBlt f = true ↔ (n ^^ v) = true) ∧
      (condBgt f = true ↔ (z || (n ^^ v)) = false) ∧ (condBle f = true ↔ (z || (n ^^ v)) = true) ∧
      (condBpl f = true ↔ n = false) ∧ (condBmi f = true ↔ n = true) ∧
      (condBhi f = true ↔ (c || z) = false) ∧ (condBlos f = true ↔ (c || z) = true) ∧
      (condBvc f = true ↔ v = false) ∧ (condBvs f = true ↔ v = true) ∧
      (condBcc f = true ↔ c = false) ∧ (condBcs f = true ↔ c = true) := by decide

/-- Every branch moves the PC exactly where its condition holds (R300). -/
theorem exec_branch {i : Instr} {cond : Cc → Bool} {off : BitVec 8} {s : State} {p : Prop} [Decidable p]
    (hb : bodyOf i = branchBody cond off) (h : cond (ccOfWord s.psw) = true ↔ p) :
    exec i s = .next (if p then s.setPc (s.pc + BitVec.ofInt 16 (2 * off.toInt)) else s) := by
  rw [exec_eq, hb, ← branchTarget_eq]
  exact congrArg Host.Outcome.next (if_congr h rfl rfl)

/-- Settles O34: the one operation of the branches under each of their conditions. -/
theorem branchResult : Obligations.BranchResult := by
  intro off s n z v c moved
  obtain ⟨bne, beq, bge, blt, bgt, ble, bpl, bmi, bhi, blos, bvc, bvs, bcc, bcs⟩ := branch_conditions n z v c
  refine ⟨?always, exec_branch rfl bne, exec_branch rfl beq, exec_branch rfl bge, exec_branch rfl blt,
    exec_branch rfl bgt, exec_branch rfl ble, exec_branch rfl bpl, exec_branch rfl bmi, exec_branch rfl bhi,
    exec_branch rfl blos, exec_branch rfl bvc, exec_branch rfl bvs, exec_branch rfl bcc, exec_branch rfl bcs⟩
  case always => exact (exec_branch (p := True) rfl (iff_of_true rfl trivial)).trans (by rw [if_pos trivial])

/-! ### SOB -/

theorem State.readReg_setPc (s : State) (v : Word) (r : Reg) :
    (s.setPc v).readReg r = if r = .pc then v else s.readReg r := State.readReg_writeReg s .pc r v

theorem two_mul_setWidth (n : BitVec 6) : 2 * n.setWidth 16 = BitVec.ofNat 16 (2 * n.toNat) := by
  apply BitVec.eq_of_toNat_eq
  simp

/-- SOB counts its register down, and moves the PC back where that leaves it other than 0 (R324). -/
theorem exec_sob (r : Reg) (off : BitVec 6) (s : State) :
    let s1 := s.writeReg r (s.readReg r - 1)
    exec (.sob r off) s =
      .next (if s.readReg r = 1 then s1 else s1.setPc (s1.pc - BitVec.ofNat 16 (2 * off.toNat))) := by
  intro s1
  have last : s1.readReg r = 0 ↔ s.readReg r = 1 := by
    rw [State.readReg_writeReg, if_pos rfl, sub_eq_zero]
  rw [← two_mul_setWidth]
  exact congrArg Host.Outcome.next (if_congr last rfl rfl)

/-- What reads and register writes leave unchanged, as the frame of an instruction that stores nothing. -/
theorem ReadFrame.instrFrame {T : Reg → Prop} {s t : State} (h : ReadFrame T s t) : InstrFrame s t T [] 0 :=
  ⟨MemFrame.of_eq h.mem _ _, h.fpp, fun _ => ⟨h.regs, h.special⟩⟩

/-- Writing a register, then the PC (R321, R324). -/
theorem readFrame_writeReg_setPc {T : Reg → Prop} {r : Reg} (s : State) (x y : Word) (hr : T r) :
    ReadFrame T s ((s.writeReg r x).setPc y) :=
  (readFrame_access T).trans ((readFrame_step T).writeReg s r x hr) ((readFrame_step T).setPc _ y)

/-- Settles O35: the register counted down to 0 or not, the PC being that register or another. -/
theorem sobResult : Obligations.SobResult := by
  intro r off s
  refine ⟨_, exec_sob r off s, ?_⟩
  have counted := (readFrame_step (· = r)).writeReg s r (s.readReg r - 1) rfl
  split
  next hlast =>
    refine ⟨counted.psw, counted.instrFrame, fun hr => ⟨?_, ?_, (State.setPc_self _).symm⟩, ?_⟩
    · rw [State.readReg_writeReg, if_pos rfl]
    · rw [State.pc_writeReg, if_neg hr]
    · rintro rfl
      rw [if_pos (show s.pc = 1 from hlast), hlast]
      rfl
  next hmore =>
    have moved := readFrame_writeReg_setPc (T := (· = r)) s (s.readReg r - 1)
      ((s.writeReg r (s.readReg r - 1)).pc - BitVec.ofNat 16 (2 * off.toNat)) rfl
    refine ⟨moved.psw, moved.instrFrame, fun hr => ⟨?_, ?_, rfl⟩, ?_⟩
    · rw [State.readReg_setPc, if_neg hr, State.readReg_writeReg, if_pos rfl]
    · rw [State.setPc_pc, State.pc_writeReg, if_neg hr]
    · rintro rfl
      rw [if_neg (show ¬ s.pc = 1 from hmore)]
      rfl

end Sys2Proof.Machine
end

section
/-! Jumps and subroutines (44_control.md rules R320 to R323): what each leaves once its accesses have completed. -/

namespace Sys2Proof.Machine

/-! ### JMP and JSR -/

section
variable {dd : OpSpec} {r : Reg} {s s1 s2 : State} {va : VAddr} {p : Bool}

theorem exec_jmp (h : resolve dd 2 .read s = .ok va s1) : exec (.jmp dd) s = .next (s1.setPc va.addr) := by
  rw [exec_eq]
  exact runBody_ok (bind_ok h)

/-- The link register receives the PC as it was before the push, which keeps it (R186, R321). -/
theorem exec_jsr (h : resolve dd 2 .read s = .ok va s1) (hp : push (s1.readReg r) true s1 = .ok p s2) :
    exec (.jsr r dd) s = .next ((s2.writeReg r s1.pc).setPc va.addr) := by
  rw [exec_eq, ← push_pc hp]
  exact runBody_ok ((bind_ok h).trans (bind_ok hp))

theorem resolve_direct {n : Nat} {acc : Access} (hm : dd.mode = .direct) :
    resolve dd n acc s = .error s.params.vecIllegalMode.word s := by
  obtain ⟨m, x⟩ := dd
  subst hm
  rfl

theorem resolve_deferred {n : Nat} {acc : Access} (hm : dd.mode = .deferred) :
    resolve dd n acc s = .ok (spaceOf dd.reg (s.readReg dd.reg)) s := by
  obtain ⟨m, x⟩ := dd
  subst hm
  rfl

end

theorem spaceOf_addr (r : Reg) (a : Word) : (spaceOf r a).addr = a := by
  unfold spaceOf
  split <;> rfl

/-- What a push to main memory leaves (R186). -/
theorem push_main {v : Word} {s t : State} {p : Bool} {a : Nat} (h : push v true s = .ok p t)
    (hw : Memory.wf s.mem = true) (ha : pushAddress s = [a]) (hm : a < s.params.memCeiling) :
    t.readReg .sp = s.readReg .sp - 2 ∧ Memory.readWord t.mem a = v ∧ MemFrame s t [a] 2 ∧ RegFrame s t (· = .sp) ∧
      t.psw = s.psw ∧ t.pc = s.pc := by
  obtain ⟨hsp, hword, hpsw, hpc, -⟩ := push_stored h ha hm hw
  have frame := push_frame h hw
  exact ⟨hsp, hword, ha ▸ frame.mem, frame.regs, hpsw, hpc⟩

/-- Settles O36: the specifier resolved, then the push, or the trap of mode 0. -/
theorem jumpResult : Obligations.JumpResult := by
  refine fun r dd s => ⟨fun va s1 h => ⟨exec_jmp h, fun p s2 hp => ⟨exec_jsr h hp, fun hw a => push_main hp hw⟩⟩,
    fun hm => ⟨?jmpDeferred, ?jsrDeferred⟩, fun hm => ?direct⟩
  case jmpDeferred => rw [exec_jmp (resolve_deferred hm), spaceOf_addr]
  case jsrDeferred =>
    intro a hw hu h0 hceil hio hlimit
    obtain ⟨p, s2, hp, ha⟩ := push_run (s.readReg r) s hu h0 hceil hio hlimit
    obtain ⟨hsp, hword, hmem, hregs, hpsw, -⟩ := push_main hp hw ha hceil
    have frame := push_frame hp hw
    have link := readFrame_writeReg_setPc (T := fun x => x = r ∨ x = .sp) s2 s.pc
      (spaceOf dd.reg (s.readReg dd.reg)).addr (.inl rfl)
    refine ⟨_, exec_jsr (resolve_deferred hm) hp, spaceOf_addr _ _, fun hr => ?_, fun hr => ?_, ?_, ?_, ?_, ?_, ?_⟩
    · rw [State.readReg_setPc, if_neg hr, State.readReg_writeReg, if_pos rfl]
    · rw [State.readReg_setPc, if_neg (by decide), State.readReg_writeReg, if_neg (Ne.symm hr), hsp]
    · rw [link.mem, hword]
    · intro b hb
      rw [link.mem, hmem b hb]
    · exact (hregs.mono fun _ => .inr).trans link.regs (by rw [hpsw])
    · exact link.psw.trans hpsw
    · exact link.fpp.trans frame.fpp
  case direct =>
    exact ⟨exec_abort (i := .jmp dd) (bind_error (resolve_direct hm)),
      exec_abort (i := .jsr r dd) (bind_error (resolve_direct hm))⟩

/-! ### RTS and MARK -/

/-- A register after one was stepped (R173, R176). -/
theorem State.readReg_step (s : State) (r x : Reg) (d : Int) :
    (s.step r d).readReg x = if x = r then s.readReg r + BitVec.ofInt 16 d else s.readReg x := by
  obtain ⟨u, -, h⟩ := State.step_eq s r d
  rw [h, ← State.readReg_writeReg]
  cases x <;> rfl

section
variable {r : Reg} {nn : BitVec 6} {s s1 u : State} {v e : Word}

/-- Popping reads the word at the stack pointer, then steps the stack pointer past it (R187). -/
theorem pop_ok (h : memRead (inD (s.readReg .sp)) .word s = .ok v s1) : pop s = .ok v (s1.step .sp 2) := bind_ok h

theorem pop_error (h : memRead (inD (s.readReg .sp)) .word s = .error e u) : pop s = .error e u := by
  unfold pop
  rw [get_bind]
  exact bind_error h

theorem exec_rts (h : pop s = .ok v u) : exec (.rts r) s = .next ((u.setPc (u.readReg r)).writeReg r v) := by
  rw [exec_eq]
  exact runBody_ok (bind_ok h)

/-- MARK first moves the stack pointer past the arguments, then reads the word there (R323). -/
theorem bodyOf_mark (nn : BitVec 6) (s : State) :
    let a := s.pc + BitVec.ofNat 16 (2 * nn.toNat)
    bodyOf (.mark nn) s = (memRead (inD a) .word >>= fun t => change fun s =>
      let s2 := (s.setPc (s.readReg (.gen 5))).writeReg (.gen 5) t
      s2.writeReg .sp (s2.readReg .sp + 2) : M Unit) (s.writeReg .sp a) := by
  intro a
  have moved : (s.writeReg .sp a).readReg .sp = a := by rw [State.readReg_writeReg, if_pos rfl]
  show markBody nn s = _
  unfold markBody
  rw [change_bind, two_mul_setWidth, look_bind, moved]

theorem exec_mark (h : memRead (inD (s.pc + BitVec.ofNat 16 (2 * nn.toNat))) .word
      (s.writeReg .sp (s.pc + BitVec.ofNat 16 (2 * nn.toNat))) = .ok v s1) :
    let s2 := (s1.setPc (s1.readReg (.gen 5))).writeReg (.gen 5) v
    exec (.mark nn) s = .next (s2.writeReg .sp (s2.readReg .sp + 2)) := by
  rw [exec_eq]
  exact runBody_ok ((bodyOf_mark nn s).trans (bind_ok h))

/-- RTS changes its link register and the stack pointer (R322). -/
theorem rts_frame {T : Reg → Prop} (hr : T r) (hsp : T .sp) (h : pop s = .ok v u) :
    ReadFrame T s ((u.setPc (u.readReg r)).writeReg r v) :=
  (readFrame_access T).trans ((pop_post (readFrame_step T) hsp s).ok h) ((readFrame_access T).trans
    ((readFrame_step T).setPc u (u.readReg r)) ((readFrame_step T).writeReg _ r v hr))

/-- MARK changes register 5 and the stack pointer (R323). -/
theorem mark_frame {T : Reg → Prop} {a : Word} (x y : Word) (h5 : T (.gen 5)) (hsp : T .sp)
    (h : memRead (inD a) .word (s.writeReg .sp a) = .ok v s1) :
    ReadFrame T s (((s1.setPc y).writeReg (.gen 5) v).writeReg .sp x) := by
  have c := readFrame_access T
  have write := (readFrame_step T).writeReg
  have read := (memRead_post c _ _ _).ok h
  have jumped := (readFrame_step T).setPc s1 y
  exact c.trans (write s .sp a hsp) (c.trans read (c.trans jumped (c.trans (write _ (.gen 5) v h5) (write _ .sp x hsp))))

/-- The registers once the stack was popped: the stack pointer 2 higher (R187). -/
theorem readReg_popped (h : memRead (inD (s.readReg .sp)) .word s = .ok v s1) (x : Reg) :
    (s1.step .sp 2).readReg x = if x = .sp then s.readReg .sp + 2 else s.readReg x := by
  obtain ⟨-, hregs, -⟩ := memRead_regs h
  rw [State.readReg_step, hregs, hregs]
  rfl

end

/-- Settles O37: the word read, then the registers written in order. -/
theorem returnFromSubroutine : Obligations.ReturnFromSubroutine := by
  refine ⟨fun r s v s1 h => ?rts, fun nn s v s1 => ?mark⟩
  case rts =>
    have popped := readReg_popped h
    have frame := rts_frame (T := fun x => x = r ∨ x = .sp) (.inl rfl) (.inr rfl) (pop_ok h)
    refine ⟨_, exec_rts (pop_ok h), frame.psw, frame.instrFrame, ?_, ?_, fun hpc hsp => ⟨?_, ?_, ?_⟩⟩
    · rintro rfl
      exact ⟨rfl, (popped .sp).trans (if_pos rfl)⟩
    · rintro rfl
      refine ⟨(popped .sp).trans (if_pos rfl), ?_⟩
      rw [State.readReg_writeReg, if_pos rfl]
    · rw [State.pc_writeReg, if_neg hpc, State.setPc_pc, popped, if_neg hsp]
    · rw [State.readReg_writeReg, if_pos rfl]
    · rw [State.readReg_writeReg, if_neg (Ne.symm hsp), State.readReg_setPc, if_neg (by decide), popped, if_pos rfl]
  case mark =>
    intro a h
    obtain ⟨-, hregs, -⟩ := memRead_regs h
    have frame := fun x y => mark_frame (T := fun r => r = .gen 5 ∨ r = .sp) x y (.inl rfl) (.inr rfl) h
    refine ⟨_, exec_mark h, (frame _ _).psw, (frame _ _).instrFrame, ?_, ?_, ?_⟩
    · rw [State.pc_writeReg, if_neg (by decide), State.pc_writeReg, if_neg (by decide), State.setPc_pc, hregs,
        State.readReg_writeReg, if_neg (by decide)]
    · rw [State.readReg_writeReg, if_neg (by decide), State.readReg_writeReg, if_pos rfl]
    · rw [State.readReg_writeReg, if_pos rfl, State.readReg_writeReg, if_neg (by decide), State.readReg_setPc,
        if_neg (by decide), hregs, State.readReg_writeReg, if_pos rfl]

end Sys2Proof.Machine
end

section
/-! The moves to and from the previous mode (45_system.md rules R370 to R373): each body as the accesses it is made of. -/

namespace Sys2Proof.Machine

section
variable {i : Instr} {sp : OpSpec} {s s1 s2 u : State} {va vb : VAddr} {v e : Word}

/-! ### From the previous mode -/

theorem bodyOf_moveFrom (hi : i = .mfpi sp ∨ i = .mfpd sp) : ∃ forceI, bodyOf i = moveFromPrevious sp forceI := by
  rcases hi with rfl | rfl <;> exact ⟨_, rfl⟩

/-- The address read in the previous mode: MFPD keeps the space of the specifier, MFPI between user modes alone
(R370, R371). -/
theorem moveFrom_operand (hi : i = .mfpi sp ∨ i = .mfpd sp)
    (hv : vb = if i = .mfpd sp ∨ (s.cm = .user ∧ s.pm = .user) then va else inI va.addr) :
    (i = .mfpi sp ∧ vb = if s.cm = .user ∧ s.pm = .user then va else inI va.addr) ∨ (i = .mfpd sp ∧ vb = va) := by
  rcases hi with rfl | rfl
  · exact .inl ⟨rfl, hv.trans (if_congr (or_iff_right (by simp)) rfl rfl)⟩
  · exact .inr ⟨rfl, hv.trans (if_pos (.inl rfl))⟩

/-- A register is pushed (R370, R371). -/
theorem moveFrom_direct (hi : i = .mfpi sp ∨ i = .mfpd sp) (hm : sp.mode = .direct) :
    bodyOf i s = (push (s.readPrevReg sp.reg) true >>= fun p =>
      setFlagsUnless p fun t => ccLogic (s.readPrevReg sp.reg) t.carry : M Unit) s := by
  obtain ⟨forceI, hb⟩ := bodyOf_moveFrom hi
  rw [hb, moveFromPrevious, if_pos hm]
  rfl

/-- A specifier that cannot be resolved ends the move (R370, R371). -/
theorem moveFrom_unresolved (hi : i = .mfpi sp ∨ i = .mfpd sp) (hm : sp.mode ≠ .direct)
    (hr : resolve sp 2 .read s = .error e u) : bodyOf i s = .error e u := by
  obtain ⟨forceI, hb⟩ := bodyOf_moveFrom hi
  rw [hb, moveFromPrevious, if_neg hm]
  exact bind_error hr

/-- A word in memory is read in the previous mode, then pushed (R370, R371). -/
theorem moveFrom_memory (hm : sp.mode ≠ .direct) (hr : resolve sp 2 .read s = .ok va s1)
    (hv : (i = .mfpi sp ∧ vb = if s.cm = .user ∧ s.pm = .user then va else inI va.addr) ∨ (i = .mfpd sp ∧ vb = va)) :
    bodyOf i s = (memReadM s.pm vb .word >>= fun v => push v true >>= fun p =>
      setFlagsUnless p fun t => ccLogic v t.carry : M Unit) s1 := by
  have hpsw := (resolve_frame hr (fun _ => True) fun _ _ => trivial).psw
  have body : ∀ forceI, moveFromPrevious sp forceI s =
      (memReadM s1.pm (if forceI s1 then inI va.addr else va) .word >>= fun v => push v true >>= fun p =>
        setFlagsUnless p fun t => ccLogic v t.carry : M Unit) s1 := fun forceI => by
    rw [moveFromPrevious, if_neg hm]
    exact bind_ok hr
  have keepsSpace : s1.userToUser = true ↔ s.cm = .user ∧ s.pm = .user := by
    simp [State.userToUser, hpsw]
  have hpm : s1.pm = s.pm := congrArg pswPm hpsw
  rcases hv with ⟨rfl, rfl⟩ | ⟨rfl, rfl⟩
  · refine (body _).trans ?_
    rw [hpm, ← if_congr keepsSpace rfl rfl]
    cases s1.userToUser <;> rfl
  · refine (body _).trans ?_
    rw [hpm]
    rfl

/-! ### To the previous mode -/

theorem bodyOf_moveTo (hi : i = .mtpi sp ∨ i = .mtpd sp) : ∃ forceI, bodyOf i = moveToPrevious sp forceI := by
  rcases hi with rfl | rfl <;> exact ⟨_, rfl⟩

/-- The address stored at in the previous mode: MTPI moves it to instruction space (R372, R373). -/
theorem moveTo_operand (hi : i = .mtpi sp ∨ i = .mtpd sp) (hv : vb = if i = .mtpd sp then va else inI va.addr) :
    (i = .mtpi sp ∧ vb = inI va.addr) ∨ (i = .mtpd sp ∧ vb = va) := by
  rcases hi with rfl | rfl
  · exact .inl ⟨rfl, hv.trans (if_neg (by simp))⟩
  · exact .inr ⟨rfl, hv.trans (if_pos rfl)⟩

/-- A stack that cannot be popped ends the move (R372, R373). -/
theorem moveTo_unpopped (hi : i = .mtpi sp ∨ i = .mtpd sp) (hp : pop s = .error e u) : bodyOf i s = .error e u := by
  obtain ⟨forceI, hb⟩ := bodyOf_moveTo hi
  rw [hb]
  exact bind_error hp

/-- The word popped goes to a register (R372, R373). -/
theorem moveTo_direct (hi : i = .mtpi sp ∨ i = .mtpd sp) (hm : sp.mode = .direct) (hp : pop s = .ok v s1) :
    bodyOf i s = setFlagsUnless false (fun t => ccLogic v t.carry) (s1.writePrevReg sp.reg v) := by
  obtain ⟨forceI, hb⟩ := bodyOf_moveTo hi
  rw [hb, moveToPrevious, bind_ok hp, if_pos hm]
  rfl

/-- A specifier that cannot be resolved ends the move after the pop (R372, R373). -/
theorem moveTo_unresolved (hi : i = .mtpi sp ∨ i = .mtpd sp) (hm : sp.mode ≠ .direct) (hp : pop s = .ok v s1)
    (hr : resolve sp 2 .write s1 = .error e u) : bodyOf i s = .error e u := by
  obtain ⟨forceI, hb⟩ := bodyOf_moveTo hi
  rw [hb, moveToPrevious, bind_ok hp, if_neg hm]
  exact bind_error hr

theorem pop_frame {T : Reg → Prop} (hp : pop s = .ok v s1) (hT : T .sp) : ReadFrame T s s1 :=
  (pop_post (readFrame_step T) hT s).ok hp

/-- The word popped is stored in memory in the previous mode (R372, R373). -/
theorem moveTo_memory (hm : sp.mode ≠ .direct) (hp : pop s = .ok v s1) (hr : resolve sp 2 .write s1 = .ok va s2)
    (hv : (i = .mtpi sp ∧ vb = inI va.addr) ∨ (i = .mtpd sp ∧ vb = va)) :
    bodyOf i s = (memWriteM s.pm vb .word v >>= fun p => setFlagsUnless p fun t => ccLogic v t.carry : M Unit) s2 := by
  have hpsw := ((resolve_frame hr (fun _ => True) fun _ _ => trivial).psw).trans
    (pop_frame (T := fun _ => True) hp trivial).psw
  have body : ∀ forceI, moveToPrevious sp forceI s =
      (memWriteM s2.pm (if forceI then inI va.addr else va) .word v >>= fun p =>
        setFlagsUnless p fun t => ccLogic v t.carry : M Unit) s2 := fun forceI => by
    rw [moveToPrevious, bind_ok hp, if_neg hm]
    exact bind_ok hr
  rw [show s.pm = s2.pm from (congrArg pswPm hpsw).symm]
  rcases hv with ⟨rfl, rfl⟩ | ⟨rfl, rfl⟩
  · exact body true
  · exact body false

/-! ### The register written -/

/-- Register 6 of the previous mode is the stack pointer of the one mode or of the other (R372). -/
theorem writePrevReg_sp (s : State) (v : Word) :
    ∃ m, (m = s.cm ∨ m = s.pm) ∧ s.writePrevReg .sp v = s.writeSpm m v := by
  unfold State.writePrevReg
  split
  · exact ⟨s.pm, .inr rfl, rfl⟩
  · exact ⟨s.cm, .inl rfl, rfl⟩

theorem writePrevReg_ne_sp {r : Reg} (s : State) (v : Word) (hr : r ≠ .sp) : s.writePrevReg r v = s.writeReg r v :=
  if_neg fun h => hr h.1

end

end Sys2Proof.Machine
end

section
/-! The frame of jumps, calls, returns and previous-mode moves, and the trap where one of their accesses aborts
(44_control.md rules R320 to R323, 45_system.md rules R343 and R370 to R373, 00_scope.md rule R12). -/

namespace Sys2Proof.Machine

section
variable {i : Instr} {sp dd : OpSpec} {r : Reg} {T : Reg → Prop} {s s1 s2 t u : State} {va vb : VAddr} {v x e : Word}
  {p : Bool}

/-! ### A store followed by register writes or by the flags -/

/-- Register writes after a store (R321). -/
theorem WriteFrame.then_registers {dst : List Nat} {len : Nat} (h1 : WriteFrame T dst len s s1) (h2 : ReadFrame T s1 t) :
    InstrFrame s t T dst len ∧ (InMain s dst → t.psw = s.psw) := by
  refine ⟨⟨fun a ha => ?_, h2.fpp.trans h1.fpp, fun hm => ?_⟩, fun hm => ?_⟩
  · rw [h2.mem, h1.mem a ha]
  · obtain ⟨special, -⟩ := h1.special hm
    exact ⟨h1.regs.trans h2.regs special.psw, special.trans h2.special⟩
  · obtain ⟨-, psw⟩ := h1.special hm
    exact h2.psw.trans psw

/-- Reads followed by a push (R186). -/
theorem ReadFrame.push (hf : ReadFrame T s s1) (hw : Memory.wf s.mem = true) (hT : T .sp)
    (hp : push v true s1 = .ok p s2) : WriteFrame T (pushAddress s1) 2 s s2 :=
  hf.trans_write ((push_frame hp (by rw [hf.mem]; exact hw)).mono fun _ hx => hx ▸ hT)

/-- A move that ends by pushing a word and setting the flags, whatever the word (R370, R371). -/
theorem pushed_frame {f : Bool → State → Cc} (hb : bodyOf i s = (push v true >>= fun p => setFlagsUnless p (f p) : M Unit) s1)
    (hf : ReadFrame T s s1) (hT : T .sp) (hw : Memory.wf s.mem = true) (hp : push x true s1 = .ok p s2)
    (he : exec i s = .next t) : RegFrame s t T ∧ InstrFrame s t T (pushAddress s1) 2 ∧ t.pc = s1.pc := by
  obtain ⟨s3, hv⟩ := push_any hp v
  obtain ⟨n, z, o, c, hs⟩ := exec_flags (p := fun b => b) hb hv he
  obtain ⟨regs, frame⟩ := (hf.push hw hT hv).stored hs
  exact ⟨regs, frame, hs.pc.trans (push_pc hv)⟩

/-! ### The stack popped -/

theorem pop_run (hp : pop s = .ok v u) :
    ∃ s1, memRead (inD (s.readReg .sp)) .word s = .ok v s1 ∧ u = s1.step .sp 2 := by
  unfold pop at hp
  rw [get_bind] at hp
  obtain ⟨a, s1, hread, hstep⟩ := bind_eq_ok hp
  cases hstep
  exact ⟨s1, hread, rfl⟩

/-- Popping keeps the PC and the general registers of both sets (R187). -/
theorem pop_same (hp : pop s = .ok v u) : u.pc = s.pc ∧ u.gr0 = s.gr0 ∧ u.gr1 = s.gr1 := by
  obtain ⟨s1, hread, rfl⟩ := pop_run hp
  obtain ⟨-, -, hgr0, hgr1, -, hpc⟩ := (memRead_post regsSame_access _ _ s).ok hread
  obtain ⟨w, -, hstep⟩ := State.step_eq s1 .sp 2
  rw [hstep]
  exact ⟨hpc, hgr0, hgr1⟩

/-- A pop aborts where its read does, before the stack pointer moves (R187). -/
theorem pop_unread (hp : pop s = .error e u) : memRead (inD (s.readReg .sp)) .word s = .error e u := by
  unfold pop at hp
  rw [get_bind] at hp
  rcases bind_eq_error hp with h | ⟨a, s1, -, h⟩
  · exact h
  · cases h

/-! ### The word popped goes to a register of the previous mode -/

/-- Setting the flags of a state leaves the rest of it. -/
theorem Flagged.special {n z o c : Bool} (h : Flagged s t n z o c) : SpecialFrame s t := by
  obtain ⟨ht, hpsw, -⟩ := h
  refine SpecialFrame.of_same ?_ ?_ hpsw ?_ ?_ <;> rw [ht] <;> rfl

/-- Into a register other than the stack pointer (R372, R373). -/
theorem moveTo_register_frame (hi : i = .mtpi sp ∨ i = .mtpd sp) (hm : sp.mode = .direct) (hp : pop s = .ok v s1)
    (hr : sp.reg ≠ .sp) (he : exec i s = .next t) :
    MemFrame s t [] 0 ∧ t.fpp = s.fpp ∧ SpecialFrame s t ∧ PcStored sp t s.pc ∧
      RegFrame s t (fun x => x = sp.reg ∨ x = .sp) := by
  have hb := moveTo_direct hi hm hp
  rw [writePrevReg_ne_sp s1 v hr] at hb
  obtain ⟨t', ht, hs⟩ := flags_result hb rfl rfl rfl rfl
  rw [ht] at he
  cases he
  have popped := pop_frame (T := fun x => x = sp.reg ∨ x = .sp) hp (.inr rfl)
  have written := (readFrame_access _).trans popped ((readFrame_step _).writeReg s1 sp.reg v (.inl rfl))
  obtain ⟨⟨mem, fpp, -⟩, regs, special⟩ := InstrFrame.flagged written hs
  obtain ⟨hpc, -, -⟩ := pop_same hp
  refine ⟨mem, fpp, special, ?_, regs⟩
  by_cases hreg : sp.reg = .pc
  · exact .inl ⟨hm, hreg⟩
  · exact .inr (by rw [hs.pc, State.pc_writeReg, if_neg hreg, hpc])

/-- Into the stack pointer of the one mode or of the other (R372, R373). -/
theorem moveTo_stack_frame (hi : i = .mtpi sp ∨ i = .mtpd sp) (hm : sp.mode = .direct) (hp : pop s = .ok v s1)
    (hr : sp.reg = .sp) (he : exec i s = .next t) :
    MemFrame s t [] 0 ∧ t.fpp = s.fpp ∧ SpecialFrame s t ∧ PcStored sp t s.pc ∧
      t.gr0 = s.gr0 ∧ t.gr1 = s.gr1 ∧ ∀ m, m ≠ s.cm → m ≠ s.pm → t.readSpm m = s.readSpm m := by
  have hb := moveTo_direct hi hm hp
  obtain ⟨k, hk, hwrite⟩ := writePrevReg_sp s1 v
  rw [hr, hwrite] at hb
  obtain ⟨t', ht, hs⟩ := flags_result hb rfl rfl rfl rfl
  rw [ht] at he
  cases he
  have popped := pop_frame (T := (· = .sp)) hp rfl
  obtain ⟨hpc, hgr0, hgr1⟩ := pop_same hp
  have written : SpecialFrame s1 (s1.writeSpm k v) := SpecialFrame.of_same rfl rfl rfl rfl rfl
  have special := popped.special.trans (written.trans hs.special)
  obtain ⟨ht', -⟩ := hs
  rw [State.cm, State.pm, popped.psw] at hk
  refine ⟨MemFrame.of_eq (by rw [ht']; exact popped.mem) _ _, by rw [ht']; exact popped.fpp, special,
    .inr (by rw [ht']; exact hpc), by rw [ht']; exact hgr0, by rw [ht']; exact hgr1, fun m hcm hpm => ?_⟩
  have hmk : m ≠ k := fun h => hk.elim (fun hc => hcm (h.trans hc)) fun hp => hpm (h.trans hp)
  rw [ht', ← popped.regs.2 m fun h => hcm h.1]
  exact (State.readSpm_writeSpm s1 k m v).trans (if_neg hmk)

/-- The word popped is stored in memory (R372, R373). -/
theorem moveTo_memory_frame {s3 : State} (hm : sp.mode ≠ .direct) (hw : Memory.wf s.mem = true)
    (hp : pop s = .ok v s1) (hr : resolve sp 2 .write s1 = .ok va s2)
    (hv : (i = .mtpi sp ∧ vb = inI va.addr) ∨ (i = .mtpd sp ∧ vb = va)) (hx : memWriteM s.pm vb .word v s2 = .ok p s3)
    (he : exec i s = .next t) :
    let T := fun x => specSteps sp x ∨ x = .sp
    ∃ pa s4, translate s.pm vb .write .word s2 = .ok pa s4 ∧
      RegFrame s t T ∧ InstrFrame s t T [pa.toNat] 2 ∧ t.pc = pcAfter sp s.pc := by
  intro T
  obtain ⟨n, z, o, c, hs⟩ := exec_flags (p := fun b => b) (moveTo_memory hm hp hr hv) hx he
  have resolved := (readFrame_access T).trans (pop_frame hp (.inr rfl)) (resolve_frame hr T fun _ => .inl)
  obtain ⟨pa, s4, ha, written⟩ := memWriteM_frame hx (by rw [resolved.mem]; exact hw) T
  obtain ⟨regs, frame⟩ := (resolved.trans_write written).stored hs
  obtain ⟨hpc, -, -⟩ := pop_same hp
  exact ⟨pa, s4, ha, regs, frame, by rw [hs.pc, (memWriteM_post pcSame_store _ _ _ _ _).ok hx, resolve_pc hr, hpc]⟩

/-! ### Returns that abort -/

theorem bodyOf_return (hi : i = .rti ∨ i = .rtt) : ∃ f, bodyOf i = returnFromTrap >>= fun _ => change f := by
  rcases hi with rfl | rfl <;> exact ⟨_, rfl⟩

theorem bodyOf_return_unread (hi : i = .rti ∨ i = .rtt) (h : memRead (inD (s.readReg .sp)) .word s = .error e u) :
    bodyOf i s = .error e u := by
  obtain ⟨f, hb⟩ := bodyOf_return hi
  have first : returnFromTrap s = .error e u := by
    unfold returnFromTrap
    rw [get_bind]
    exact bind_error h
  rw [hb, bind_error first]

theorem bodyOf_return_unread_psw (hi : i = .rti ∨ i = .rtt) (h : memRead (inD (s.readReg .sp)) .word s = .ok v s1)
    (h2 : memRead (inD (s.readReg .sp + 2)) .word s1 = .error e u) : bodyOf i s = .error e u := by
  obtain ⟨f, hb⟩ := bodyOf_return hi
  have second : returnFromTrap s = .error e u := by
    unfold returnFromTrap
    rw [get_bind, bind_ok h]
    exact bind_error h2
  rw [hb, bind_error second]

/-! ### Moves that abort -/

/-- Every access of a move from the previous mode (R370, R371). -/
theorem moveFrom_aborts (hi : i = .mfpi sp ∨ i = .mfpd sp) :
    (sp.mode = .direct → push (s.readPrevReg sp.reg) true s = .error e u →
      exec i s = .next (trapSeq e u) ∧ AbortFrame s u (· = .sp)) ∧
    (sp.mode ≠ .direct → resolve sp 2 .read s = .error e u →
      exec i s = .next (trapSeq e u) ∧ AbortFrame s u (specSteps sp)) ∧
    ∀ va s1 vb, sp.mode ≠ .direct → resolve sp 2 .read s = .ok va s1 →
      vb = (if i = .mfpd sp ∨ (s.cm = .user ∧ s.pm = .user) then va else inI va.addr) →
      (memReadM s.pm vb .word s1 = .error e u → exec i s = .next (trapSeq e u) ∧ AbortFrame s u (specSteps sp)) ∧
      ∀ v s2, memReadM s.pm vb .word s1 = .ok v s2 → push v true s2 = .error e u →
        exec i s = .next (trapSeq e u) ∧ AbortFrame s u (fun x => specSteps sp x ∨ x = .sp) := by
  refine ⟨fun hm hp => ?_, fun hm hr => ?_, fun va s1 vb hm hr hv => ⟨fun hread => ?_, fun v s2 hread hp => ?_⟩⟩
  · exact ⟨exec_abort ((moveFrom_direct hi hm).trans (bind_error hp)), push_abort hp rfl⟩
  · exact ⟨exec_abort (moveFrom_unresolved hi hm hr), resolve_abort hr fun _ => id⟩
  · have hb := moveFrom_memory hm hr (moveFrom_operand hi hv)
    exact ⟨exec_abort (hb.trans (bind_error hread)), (resolve_frame hr _ fun _ => id).abort (memReadM_abort hread _)⟩
  · have hb := moveFrom_memory hm hr (moveFrom_operand hi hv)
    have resolved := resolve_frame hr (fun x => specSteps sp x ∨ x = .sp) fun _ => .inl
    have read := (readFrame_access _).trans resolved ((memReadM_post (readFrame_access _) _ _ _ _).ok hread)
    exact ⟨exec_abort (hb.trans ((bind_ok hread).trans (bind_error hp))), read.abort (push_abort hp (.inr rfl))⟩

/-- Every access of a move to the previous mode (R372, R373). -/
theorem moveTo_aborts (hi : i = .mtpi sp ∨ i = .mtpd sp) :
    (pop s = .error e u → exec i s = .next (trapSeq e u) ∧ AbortFrame s u fun _ => False) ∧
    ∀ v s1, pop s = .ok v s1 → sp.mode ≠ .direct →
      (resolve sp 2 .write s1 = .error e u →
        exec i s = .next (trapSeq e u) ∧ AbortFrame s u (fun x => specSteps sp x ∨ x = .sp)) ∧
      ∀ va s2, resolve sp 2 .write s1 = .ok va s2 →
        memWriteM s.pm (if i = .mtpd sp then va else inI va.addr) .word v s2 = .error e u →
        exec i s = .next (trapSeq e u) ∧ AbortFrame s u (fun x => specSteps sp x ∨ x = .sp) := by
  refine ⟨fun hp => ⟨exec_abort (moveTo_unpopped hi hp), memRead_abort (pop_unread hp) _⟩, fun v s1 hp hm => ?_⟩
  have popped := pop_frame (T := fun x => specSteps sp x ∨ x = .sp) hp (.inr rfl)
  refine ⟨fun hr => ?_, fun va s2 hr hx => ?_⟩
  · exact ⟨exec_abort (moveTo_unresolved hi hm hp hr), popped.abort (resolve_abort hr fun _ => .inl)⟩
  · have hb := moveTo_memory hm hp hr (moveTo_operand hi rfl)
    have resolved := resolve_frame hr (fun x => specSteps sp x ∨ x = .sp) fun _ => .inl
    exact ⟨exec_abort (hb.trans (bind_error hx)), popped.abort (resolved.abort (memWriteM_abort hx _))⟩

end

/-- Settles O59: what each of these leaves where it completes, and the trap where an access of it aborts. -/
theorem frameFlow : Obligations.FrameFlow := by
  refine ⟨fun dd s va s1 t h he => ?jmp, fun r dd s va s1 p s2 t hw h hp he => ?jsr,
    fun sp s t v p s1 hw hm hp i hi he => ?fromRegister,
    fun sp s va s1 v s2 p s3 i vb t hw hm hr hv hread hp he => ?fromMemory,
    fun sp s v s1 i t hm hp hi he => ?toRegister,
    fun sp s v s1 va s2 p s3 i vb t hw hm hp hr hv hx he => ?toMemory,
    fun r dd s v u h i hi => ?unresolved, fun r dd s va s1 v u h hp => ?unpushed,
    fun r s v u h i hi => ?unread, fun s newPc s1 v u h h2 i hi => ?unreadPsw, fun nn s v u => ?mark,
    fun sp s e u i hi => moveFrom_aborts hi, fun sp s e u i hi => moveTo_aborts hi⟩
  case jmp =>
    rw [exec_jmp h] at he
    cases he
    have frame := (readFrame_access _).trans (resolve_frame h _ fun _ => id) ((readFrame_step _).setPc s1 va.addr)
    exact ⟨frame.instrFrame, frame.psw⟩
  case jsr =>
    rw [exec_jsr h hp] at he
    cases he
    have resolved := resolve_frame h (fun x => specSteps dd x ∨ x = r ∨ x = .sp) fun _ => .inl
    have pushed := resolved.push hw (.inr (.inr rfl)) hp
    exact pushed.then_registers (readFrame_writeReg_setPc s2 s1.pc va.addr (.inr (.inl rfl)))
  case fromRegister =>
    exact pushed_frame (moveFrom_direct hi hm) ((readFrame_access _).refl s) rfl hw hp he
  case fromMemory =>
    have resolved := resolve_frame hr (fun x => specSteps sp x ∨ x = .sp) fun _ => .inl
    have read := (readFrame_access _).trans resolved ((memReadM_post (readFrame_access _) _ _ _ _).ok hread)
    rw [← resolve_pc hr, ← (memReadM_post pcSame_access _ _ _ _).ok hread]
    exact pushed_frame ((moveFrom_memory hm hr hv).trans (bind_ok hread)) read (.inr rfl) hw hp he
  case toRegister =>
    by_cases hr : sp.reg = .sp
    · obtain ⟨mem, fpp, special, pc, kept⟩ := moveTo_stack_frame hi hm hp hr he
      exact ⟨mem, fpp, special, pc, fun h => absurd hr h, fun _ => kept⟩
    · obtain ⟨mem, fpp, special, pc, regs⟩ := moveTo_register_frame hi hm hp hr he
      exact ⟨mem, fpp, special, pc, fun _ => regs, fun h => absurd h hr⟩
  case toMemory =>
    obtain ⟨pa, s4, ha, frame⟩ := moveTo_memory_frame hm hw hp hr hv hx he
    rw [ha]
    exact frame
  case unresolved =>
    refine ⟨?_, resolve_abort h fun _ => id⟩
    rcases hi with rfl | rfl
    · exact exec_abort (i := .jmp dd) (bind_error h)
    · exact exec_abort (i := .jsr r dd) (bind_error h)
  case unpushed =>
    exact ⟨exec_abort (i := .jsr r dd) ((bind_ok h).trans (look_bind.trans (bind_error hp))),
      (resolve_frame h _ fun _ => .inl).abort (push_abort hp (.inr rfl))⟩
  case unread =>
    refine ⟨?_, memRead_abort h _⟩
    rcases hi with rfl | hi
    · exact exec_abort (i := .rts r) (bind_error (pop_error h))
    · exact exec_abort (bodyOf_return_unread hi h)
  case unreadPsw =>
    exact ⟨exec_abort (bodyOf_return_unread_psw hi h h2),
      ReadFrame.abort ((memRead_post (readFrame_access _) _ _ _).ok h) (memRead_abort h2 _)⟩
  case mark =>
    intro a h
    exact ⟨exec_abort ((bodyOf_mark nn s).trans (bind_error h)),
      ((readFrame_step (· = .sp)).writeReg s .sp a rfl).abort (memRead_abort h _)⟩

end Sys2Proof.Machine
end

section
/-! System, trap and condition-code instructions (45_system.md rules R341 to R352 and R360): the state each leaves. -/

namespace Sys2Proof.Machine

/-! ### HALT and WAIT -/

/-- HALT halts the machine in kernel mode, and outside it stops with the illegal-halt bit set (R341). -/
theorem bodyOf_halt (s : State) :
    bodyOf .halt s = if s.cm = .kernel then .ok () (s.setRunState .halt)
      else .error s.params.vecIllegalHalt.word (s.cpuError 7) := by
  show haltBody s = _
  unfold haltBody
  rw [get_bind]
  split <;> rfl

/-- Some request stands above a level: one in PIRQ, or one of a device (R621). -/
theorem lt_arbitrate (s : State) (n : Nat) :
    n < s.arbitrate.1 ↔
      n < pirLevelField s.ctl.pirq ∨ ∃ d ∈ s.devices, ∃ r, d.request = some r ∧ n < r.level.toNat := by
  rw [← not_le, arbitrate_le, not_and_or]
  push Not
  rfl

/-- Settles O38: HALT in either mode, and WAIT as the arbitration answers. -/
theorem haltWaitResult : Obligations.HaltWaitResult := by
  intro s
  have wait : exec .wait s =
      .next (if pswPri s.psw < s.arbitrate.1 then s.setIrqFlag true else s.setRunState .wait) := rfl
  refine ⟨fun hk => ?kernel, fun hk => ⟨_, rfl, ?outside⟩, fun hreq => ?request, fun hreq => ?idle⟩
  case kernel => rw [exec_eq, runBody_ok ((bodyOf_halt s).trans (if_pos hk))]
  case outside => exact exec_abort ((bodyOf_halt s).trans (if_neg hk))
  case request => rw [wait, if_pos ((lt_arbitrate s _).2 hreq)]
  case idle => rw [wait, if_neg (mt (lt_arbitrate s _).1 hreq)]

/-! ### RTI and RTT -/

/-- The status word loaded by a return, in the masks of R28 and R343. -/
theorem returnPsw_loaded (psw stacked : Word) :
    returnPsw psw stacked &&& 0o174377 =
      if pswCm psw = .kernel then stacked &&& 0o174377 else (stacked &&& 0o174037) ||| (psw &&& 0o174340) := by
  unfold returnPsw
  split
  · rfl
  · rw [BitVec.and_or_distrib_right, BitVec.and_assoc, BitVec.and_assoc]
    rfl

/-- The T bit comes from the word on the stack in every mode (R343). -/
theorem pswT_returnPsw (psw stacked : Word) : pswT (returnPsw psw stacked &&& 0o174377) = stacked.getLsbD 4 := by
  rw [returnPsw_loaded]
  split <;> simp [pswT]

/-- What a return leaves before the status word is loaded: both words read, the stack pointer past them, and the PC
(R343). -/
def State.returned (s2 : State) (sp newPc : Word) : State := (s2.writeReg .sp sp).setPc newPc

theorem State.returned_readSpm (s : State) (sp pc : Word) (m : ProcMode) :
    (s.returned sp pc).readSpm m = if m = s.cm then sp else s.readSpm m := State.readSpm_writeSpm s s.cm m sp

section
variable {i : Instr} {s s1 s2 : State} {newPc stacked : Word}
  (h1 : memRead (inD (s.readReg .sp)) .word s = .ok newPc s1)
  (h2 : memRead (inD (s.readReg .sp + 2)) .word s1 = .ok stacked s2)
include h1 h2

/-- Reading both words keeps the registers (R343). -/
theorem return_reads_same : s2.psw = s.psw ∧ s2.gr0 = s.gr0 ∧ s2.gr1 = s.gr1 ∧ s2.spm = s.spm := by
  obtain ⟨-, psw, gr0, gr1, spm, -⟩ := regsSame_access.trans ((memRead_post regsSame_access _ _ s).ok h1)
    ((memRead_post regsSame_access _ _ s1).ok h2)
  exact ⟨psw, gr0, gr1, spm⟩

/-- A return loads the status word, then asks for a trace trap: RTI where the T bit is set, RTT never (R343, R344). -/
theorem exec_return (hi : i = .rti ∨ i = .rtt) :
    exec i s = .next (((s2.returned (s.readReg .sp + 4) newPc).loadPsw (returnPsw s.psw stacked)).setTrace
      (decide (i = .rti) && stacked.getLsbD 4)) := by
  have returns : returnFromTrap s =
      .ok () ((s2.returned (s.readReg .sp + 4) newPc).loadPsw (returnPsw s.psw stacked)) := by
    obtain ⟨same, -⟩ := return_reads_same h1 h2
    unfold returnFromTrap
    rw [get_bind, bind_ok h1, bind_ok h2, ← same, ← State.writeReg_psw s2 .sp (s.readReg .sp + 4)]
    rfl
  obtain ⟨-, hpsw, -⟩ := State.loadPsw_priority (s2.returned (s.readReg .sp + 4) newPc) (returnPsw s.psw stacked)
  rw [exec_eq, ← pswT_returnPsw s.psw, ← hpsw]
  rcases hi with rfl | rfl <;> exact runBody_ok (bind_ok returns)

theorem return_frame (sp pc : Word) : ReadFrame (· = .sp) s (s2.returned sp pc) :=
  have c := readFrame_access (· = .sp)
  c.trans ((memRead_post c _ _ s).ok h1) (c.trans ((memRead_post c _ _ s1).ok h2)
    (c.trans ((readFrame_step _).writeReg s2 .sp sp rfl) ((readFrame_step _).setPc _ pc)))

end

/-- Loading the status word and asking for a trace trap leaves the other special registers. -/
theorem SpecialFrame.loadPsw_setTrace (s : State) (v : Word) (b : Bool) :
    SpecialFrame s (((s.loadPsw v).setTrace b).setPsw s.psw) := by
  rw [State.loadPsw_eq]
  split <;> exact { SpecialFrame.refl s with }

/-- Settles O39: two reads, the stack pointer and the PC, the load of the status word, and the trace request. -/
theorem returnFromTrap_restores : Obligations.ReturnFromTrap := by
  intro s newPc s1 stacked s2 h1 h2 loaded i hi
  have hloaded : returnPsw s.psw stacked &&& 0o174377 = loaded := returnPsw_loaded s.psw stacked
  obtain ⟨same_psw, same_gr0, same_gr1, same_spm⟩ := return_reads_same h1 h2
  have frame := return_frame h1 h2 (s.readReg .sp + 4) newPc
  have stack : ∀ m, (s2.returned (s.readReg .sp + 4) newPc).readSpm m =
      if m = s.cm then s.readReg .sp + 4 else s.readSpm m := fun m => by
    rw [State.returned_readSpm, State.cm, same_psw, State.readSpm, same_spm]
    rfl
  have run := exec_return h1 h2 hi
  have special := frame.special.trans (SpecialFrame.loadPsw_setTrace _ (returnPsw s.psw stacked)
    (decide (i = .rti) && stacked.getLsbD 4))
  rw [State.loadPsw_eq, hloaded, frame.psw] at run special
  refine ⟨_, run, rfl, rfl, (stack _).trans (if_pos rfl), fun m hm => (stack m).trans (if_neg hm), same_gr0, same_gr1,
    frame.mem, frame.fpp, special, rfl, fun hlow => ?lowered⟩
  case lowered =>
    rw [← hloaded, pswPri_and] at hlow
    rw [if_pos hlow]
    exact ⟨rfl, rfl⟩

/-! ### RESET and the trap instructions -/

/-- Settles O40: in kernel mode the effect of a reset and the run state, outside it nothing. -/
theorem resetInstruction : Obligations.ResetInstruction := by
  intro s
  have run : exec .reset s = .next (if s.cm = .kernel then s.resetEffect.setRunState .reset else s) := rfl
  refine ⟨fun hk => by rw [run, if_neg hk], fun hk => ?_⟩
  rw [if_pos hk, State.resetEffect_eq] at run
  refine ⟨_, run, rfl, rfl, rfl, rfl, rfl, rfl, rfl, fun _ => resetDevices_request, fun hclear e => ?cleared,
    fun hkeep => ⟨?par, ?pdr⟩, rfl, rfl, rfl, rfl, rfl, rfl, rfl, rfl, rfl, rfl, rfl, rfl, rfl⟩
  case cleared =>
    rw [if_pos hclear, if_pos hclear]
    exact ⟨Vector.getElem_replicate _, Vector.getElem_replicate _⟩
  case par => exact if_neg (Bool.eq_false_iff.1 hkeep)
  case pdr => exact if_neg (Bool.eq_false_iff.1 hkeep)

/-- Settles O41: the body of each stops at once with its vector. -/
theorem trapInstructions : Obligations.TrapInstructions := fun _ =>
  ⟨exec_abort (i := .bpt) rfl, exec_abort (i := .iot) rfl, fun code => exec_abort (i := .emt code) rfl,
    fun code => exec_abort (i := .trap code) rfl, fun w => exec_abort (i := .reserved w) rfl⟩

/-! ### SPL and the flags -/

/-- The status word with its priority replaced (R26, R350). -/
def withPriority (w : Word) (n : BitVec 3) : Word := (w &&& 0o177437) ||| (n.setWidth 16 : Word) <<< 5

theorem exec_spl (n : BitVec 3) (s : State) :
    exec (.spl n) s = .next (if s.cm = .kernel then s.loadPsw (withPriority s.psw n) else s) := rfl

theorem pswPri_withPriority (w : Word) (n : BitVec 3) : pswPri (withPriority w n) = n.toNat := by
  unfold pswPri
  congr 1
  apply BitVec.eq_of_getLsbD_eq
  intro i hi
  interval_cases i <;> simp [withPriority]

/-- Loading it keeps every bit outside the priority, where bits 10:8 read 0 (R28, R350). -/
theorem withPriority_others {w : Word} (n : BitVec 3) (hw : w &&& 0o003400 = 0) :
    withPriority w n &&& 0o174377 &&& 0o177437 = w &&& 0o177437 := by
  have field : ∀ n : BitVec 3, (n.setWidth 16 : Word) <<< 5 &&& 0o174037 = 0 := by decide
  calc withPriority w n &&& 0o174377 &&& 0o177437
      = withPriority w n &&& 0o174037 := by rw [BitVec.and_assoc]; rfl
    _ = w &&& 0o174037 := by
        rw [withPriority, BitVec.and_or_distrib_right, field, BitVec.and_assoc]; exact BitVec.or_zero
    _ = w &&& 0o174037 ||| w &&& 0o003400 := by rw [hw]; exact BitVec.or_zero.symm
    _ = w &&& 0o177437 := BitVec.and_or_distrib_left.symm

/-- `Flags` takes the bits under its mask from the value, and keeps the other flags (R27). -/
theorem flagsWord_bit (w : Word) (m v : BitVec 4) {i : Nat} (hi : i < 4) :
    (flagsWord w m v).getLsbD i = if m.getLsbD i then v.getLsbD i else w.getLsbD i := by
  have hi16 : i < 16 := by omega
  cases hm : m.getLsbD i <;> simp [flagsWord, hm, hi16]

/-- `Flags` leaves each flag as a function `f` of the old flag and of its bit of the mask (R27). -/
theorem flagged_flags (s : State) {m v : BitVec 4} {f : Bool → Bool → Bool}
    (hf : ∀ b i, (if m.getLsbD i then v.getLsbD i else b) = f b (m.getLsbD i)) :
    Flagged s (s.flags m v) (f (pswN s.psw) (m.getLsbD 3)) (f (pswZ s.psw) (m.getLsbD 2)) (f (pswV s.psw) (m.getLsbD 1))
      (f (pswC s.psw) (m.getLsbD 0)) := by
  have bit : ∀ i < 4, (flagsWord s.psw m v).getLsbD i = f (s.psw.getLsbD i) (m.getLsbD i) := fun i hi =>
    (flagsWord_bit _ _ _ hi).trans (hf _ i)
  exact ⟨rfl, flagsWord_shift _ _ _, bit 3 (by decide), bit 2 (by decide), bit 1 (by decide), bit 0 (by decide)⟩

/-- The flags under the mask cleared (R351). -/
theorem flagged_clear (s : State) (m : BitVec 4) :
    Flagged s (s.flags m 0) (pswN s.psw && !m.getLsbD 3) (pswZ s.psw && !m.getLsbD 2) (pswV s.psw && !m.getLsbD 1)
      (pswC s.psw && !m.getLsbD 0) :=
  flagged_flags s (f := fun b k => b && !k) fun b i => by cases m.getLsbD i <;> simp

/-- The flags under the mask set (R352). -/
theorem flagged_set (s : State) (m : BitVec 4) :
    Flagged s (s.flags m m) (pswN s.psw || m.getLsbD 3) (pswZ s.psw || m.getLsbD 2) (pswV s.psw || m.getLsbD 1)
      (pswC s.psw || m.getLsbD 0) :=
  flagged_flags s (f := fun b k => b || k) fun b i => by cases m.getLsbD i <;> simp

/-- Settles O42: the load of the status word with the priority replaced, and `Flags` with each mask. -/
theorem priorityAndFlags : Obligations.PriorityAndFlags := by
  refine fun s => ⟨fun n hk => by rw [exec_spl, if_neg hk], fun n hk hres => ?kernel,
    fun m => ⟨⟨_, rfl, flagged_clear s m⟩, _, rfl, flagged_set s m⟩⟩
  case kernel =>
    obtain ⟨hrest, hpsw, hlow, hkeep⟩ := State.loadPsw_priority s (withPriority s.psw n)
    have hpri : pswPri (s.loadPsw (withPriority s.psw n)).psw = n.toNat := by
      rw [hpsw, pswPri_and, pswPri_withPriority]
    rw [hpri] at hlow hkeep
    exact ⟨_, by rw [exec_spl, if_pos hk], hpri, by rw [hpsw, withPriority_others n hres], hrest, hlow, hkeep⟩

end Sys2Proof.Machine
end

section
/-! What the moves to and from the previous mode store, and the flags they leave (45_system.md rules R370 to R373,
10_state.md rule R29). -/

namespace Sys2Proof.Machine

theorem resolve_psw {sp : OpSpec} {n : Nat} {acc : Access} {va : VAddr} {s t : State}
    (h : resolve sp n acc s = .ok va t) : t.psw = s.psw :=
  (resolve_post pswSame_step sp (fun _ => trivial) n acc s).ok h

theorem pop_psw {v : Word} {s t : State} (h : pop s = .ok v t) : t.psw = s.psw :=
  (pop_post pswSame_step trivial s).ok h

theorem State.writePrevReg_psw (s : State) (r : Reg) (v : Word) : (s.writePrevReg r v).psw = s.psw := by
  unfold State.writePrevReg
  split
  · rfl
  · exact State.writeReg_psw s r v

/-- A push outside the status word keeps it (R29, R186). -/
theorem push_psw {v : Word} {s t : State} (h : push v true s = .ok false t) : t.psw = s.psw := by
  unfold push at h
  rw [change_bind, get_bind] at h
  obtain ⟨pa, s1, htranslate, h⟩ := bind_eq_ok h
  obtain ⟨⟨⟩, s2, hcheck, h⟩ := bind_eq_ok h
  obtain ⟨⟨⟩, s3, hwrite, h⟩ := bind_eq_ok h
  have last : (EStateM.Result.ok (isPswAddr pa) s3 : EStateM.Result Word State Bool) = .ok false t := h
  injection last with outside same
  obtain ⟨-, -, checked, -⟩ := stackCheck_same hcheck
  rw [← same, physWrite_psw hwrite outside, checked, (translate_post pswSame_access _ _ _ _ _).ok htranslate,
    (State.step_steppedBy s .sp (-2)).psw]

/-- A move that ends in a store outside the status word has the carry of the state before it; its other flags are of the
word moved (R29, R370 to R373). -/
theorem move_flags {i : Instr} {s t : State} {v : Word} {p : Bool}
    (hb : bodyOf i s = setFlagsUnless p (fun t => ccLogic v t.carry) t) (hc : p = false → t.psw = s.psw) :
    ∃ u, exec i s = .next u ∧ StoredFlags p t u v.msb (v == 0) false s.carry :=
  flags_result_kept hb fun hp => by
    rw [ccLogic_eq, State.carry, hc hp]
    exact ⟨rfl, rfl, rfl, rfl⟩

section
variable {i : Instr} {sp : OpSpec} {s s1 s2 s3 : State} {va vb : VAddr} {v : Word} {p : Bool}

/-- A move from the previous mode ends in the push of the word read (R370, R371). -/
theorem pushed_flags
    (hb : bodyOf i s = (push v true >>= fun p => setFlagsUnless p fun t => ccLogic v t.carry : M Unit) s2)
    (hs : s2.psw = s.psw) (hp : push v true s2 = .ok p s3) :
    ∃ t, exec i s = .next t ∧ StoredFlags p s3 t v.msb (v == 0) false s.carry := by
  refine move_flags (hb.trans (bind_ok hp)) fun hstored => ?_
  subst hstored
  exact (push_psw hp).trans hs

/-- The word popped is stored in a register, never in the status word (R372, R373). -/
theorem moveTo_register_flags (hi : i = .mtpi sp ∨ i = .mtpd sp) (hm : sp.mode = .direct) (hp : pop s = .ok v s1) :
    ∃ t, exec i s = .next t ∧ Flagged (s1.writePrevReg sp.reg v) t v.msb (v == 0) false s.carry := by
  refine move_flags (p := false) (moveTo_direct hi hm hp) fun _ => ?_
  rw [State.writePrevReg_psw, pop_psw hp]

theorem moveTo_memory_flags (hm : sp.mode ≠ .direct) (hp : pop s = .ok v s1) (hr : resolve sp 2 .write s1 = .ok va s2)
    (hv : (i = .mtpi sp ∧ vb = inI va.addr) ∨ (i = .mtpd sp ∧ vb = va))
    (hx : memWriteM s.pm vb .word v s2 = .ok p s3) :
    ∃ t, exec i s = .next t ∧ StoredFlags p s3 t v.msb (v == 0) false s.carry := by
  refine move_flags ((moveTo_memory hm hp hr hv).trans (bind_ok hx)) fun hstored => ?_
  subst hstored
  rw [memWriteM_psw hx, resolve_psw hr, pop_psw hp]

end

/-- Settles O43: a word of a register or of memory pushed, and the word popped stored in a register or in memory. -/
theorem previousModeMoves : Obligations.PreviousModeMoves := by
  intro sp s
  refine ⟨fun hm p s1 hp i hi => ?fromRegister, fun va s1 hm hr i vb hv v s2 p s3 hread hp => ?fromMemory,
    fun v s1 hp => ⟨fun hm i hi => ?toRegister, fun hm va s2 hr i vb hv p s3 hx => ?toMemory⟩⟩
  case fromRegister => exact pushed_flags (moveFrom_direct hi hm) rfl hp
  case fromMemory =>
    have read := (memReadM_post pswSame_access _ _ _ _).ok hread
    exact pushed_flags ((moveFrom_memory hm hr hv).trans (bind_ok hread)) (read.trans (resolve_psw hr)) hp
  case toRegister =>
    have flags := moveTo_register_flags hi hm hp
    rw [State.writePrevReg, State.pm, State.cm, pop_psw hp] at flags
    exact flags
  case toMemory => exact moveTo_memory_flags hm hp hr hv hx

end Sys2Proof.Machine
end

section
/-! An instruction outside the coprocessor leaves the coprocessor's registers as they were (50_fpp_state_format.md rules
R400, R405), through every update such an instruction and the trap it may take are made of. -/

namespace Sys2Proof.Machine

/-- The registers of the coprocessor are the same. -/
def FppKept (s t : State) : Prop := t.fpp = s.fpp

theorem fppKept_loadPsw (s : State) (v : Word) : FppKept s (s.loadPsw v) := by
  rw [State.loadPsw_eq]
  rfl

theorem fppKept_resetEffect (s : State) : FppKept s s.resetEffect := by
  rw [State.resetEffect_eq]
  rfl

/-- An access that aborts leaves them as one that completes does: it records its cause in `CPUERR` or `MMR0`. -/
theorem fppKept_accessRel : AccessRel FppKept FppKept where
  refl := fppSame_store.refl
  trans := fppSame_store.trans
  transE := fppSame_store.trans
  raise := fppSame_store.refl
  lastPage := fppSame_store.lastPage
  touch := fppSame_store.touch
  mmuTrap := fppSame_store.mmuTrap
  reply := fppSame_store.reply
  cpuError _ _ _ _ := rfl
  mmuAbort _ _ _ _ := rfl

theorem fppKept_storeRel : StoreRel FppKept FppKept where
  toAccessRel := fppKept_accessRel
  store := fppSame_store.store
  writeCore := fppSame_store.writeCore

theorem fppKept_stepRel : StepRel FppKept FppKept fun _ => True where
  toAccessRel := fppKept_accessRel
  setPc := fppSame_step.setPc
  writeReg := fppSame_step.writeReg
  mmr1 := fppSame_step.mmr1
  yellow := fppSame_step.yellow
  red _ _ _ := rfl

theorem fppKept_trapRel : TrapRel FppKept where
  toStoreRel := fppKept_storeRel
  __ := fppKept_stepRel
  loadPsw := fppKept_loadPsw
  mmr2 _ _ := rfl
  trapBegin _ := rfl
  trapEnd _ := rfl
  trapHalt _ := rfl

theorem fppKept_execRel : ExecRel FppKept where
  toStoreRel := fppKept_storeRel
  __ := fppKept_stepRel
  trapSeq := trapSeq_rel fppKept_trapRel
  loadPsw := fppKept_loadPsw
  flags _ _ _ := rfl
  writeSpm _ _ _ := rfl
  setTrace _ _ := rfl
  setRunState _ _ := rfl
  flagIrq _ := rfl
  resetEffect := fppKept_resetEffect

/-- Settles O13: every update an instruction outside the coprocessor is made of, the trap sequence among them, is in
`FppKept`. -/
theorem fppUntouched : Obligations.FppUntouched := fun i _ _ hi he => exec_rel_base fppKept_execRel i hi he

end Sys2Proof.Machine
end

section
/-! Packing a result, one equation for each side of the two boundaries, and unpacking it (50_fpp_state_format.md rules R409,
R411, R412). -/

namespace Sys2Proof.Machine

section
variable {p : Prec} {fps : Word} {s : Bool} {e : Int} {f : Nat}

/-- Between the boundaries the exponent is stored as it is (R411). -/
theorem pack_between (h1 : 1 ≤ e) (h2 : e ≤ 255) :
    pack p fps s e f = ⟨spliceWords p s e.toNat f, false, false, []⟩ := by
  have hu : ¬ e ≤ 0 := by omega
  have ho : ¬ 256 ≤ e := by omega
  simp only [pack, if_neg hu, if_neg ho]

/-- At and below the underflow boundary (R411). -/
theorem pack_underflow (h : e ≤ 0) :
    pack p fps s e f = if fpsFiu fps then
      ⟨spliceWords p s (e % 256).toNat f, (e % 256).toNat == 0, false, [.underflow]⟩ else zeroResult := by
  simp only [pack, if_pos h]
  rfl

/-- At and above the overflow boundary (R411). -/
theorem pack_overflow (h : 256 ≤ e) :
    pack p fps s e f = if fpsFiv fps then
      ⟨spliceWords p s (e % 256).toNat f, (e % 256).toNat == 0, true, [.overflow]⟩ else { zeroResult with v := true } := by
  have hu : ¬ e ≤ 0 := by omega
  simp only [pack, if_neg hu, if_pos h]
  rfl

/-- The exponent a trap sees is within its field (R411). -/
theorem wrapped_lt (e : Int) : (e % 256).toNat < 256 := by omega

/-- Whether that exponent is 0, asked of the natural number or of the integer. -/
theorem wrapped_beq_zero (e : Int) : ((e % 256).toNat == 0) = decide (e % 256 = 0) := by
  rw [Bool.beq_eq_decide_eq, decide_eq_decide]
  omega

end

/-- Settles O54: on each side of the boundaries `pack` splices words whose fields `unpack` reads back, or gives the zero. -/
theorem packRoundTrip : Obligations.PackRoundTrip := by
  refine ⟨fun p fps s e f hlo hhi => ?_, fun x => ⟨unpack_single x, unpack_double x⟩⟩
  have back : ∀ k < 256, unpack p (spliceWords p s k f) = ⟨s, k, f⟩ := fun k hk =>
    unpack_spliceWords p s k f hk hlo hhi
  refine ⟨fun h1 h2 => ?between, fun h hfiu => ?underflow, fun h hfiu => ?flushed, fun h hfiv => ?overflow,
    fun h hfiv => ?cleared⟩
  case between =>
    rw [pack_between h1 h2]
    exact ⟨rfl, rfl, rfl, back _ (by omega)⟩
  case underflow =>
    rw [pack_underflow h, fpsFiu, if_pos hfiu]
    exact ⟨wrapped_beq_zero e, rfl, rfl, back _ (wrapped_lt e)⟩
  case flushed => rw [pack_underflow h, fpsFiu, hfiu, if_neg Bool.false_ne_true]
  case overflow =>
    rw [pack_overflow h, fpsFiv, if_pos hfiv]
    exact ⟨wrapped_beq_zero e, rfl, rfl, back _ (wrapped_lt e)⟩
  case cleared => rw [pack_overflow h, fpsFiv, hfiv, if_neg Bool.false_ne_true]

end Sys2Proof.Machine
end

section
/-! What an instruction of the coprocessor leaves in its registers (50_fpp_state_format.md rules R413, R414,
52_fpp_instructions.md rules R470 to R506): the exceptions recorded one after the other, and one lemma for each shape of
body, from which the statements about the single instructions follow. -/

namespace Sys2Proof.Machine

/-! ### Exceptions and condition codes -/

section
variable {i : Instr} {sp : OpSpec} {p : Prec} {pl : FPlace} {s s1 s2 s3 : State} {x v : Accum} {addr : Word}

/-- The registers once an exception of the instruction at `addr` is recorded (R403, R413). -/
def Fpp.recorded (f : Fpp) (addr : Word) (e : FppError) : Fpp :=
  { f with fps := f.fps ||| 0o100000, fec := e.code, fea := addr }

/-- The control registers once the trap of an exception is requested, where it is (R66, R413). -/
def Ctl.fppRequested (c : Ctl) (b : Bool) : Ctl :=
  { c with pending := { c.pending with fpp := c.pending.fpp || b } }

theorem Ctl.fppRequested_false (c : Ctl) : c.fppRequested false = c := by
  simp only [Ctl.fppRequested, Bool.or_false]

theorem Ctl.fppRequested_twice (c : Ctl) (a b : Bool) :
    (c.fppRequested a).fppRequested b = c.fppRequested (a || b) := by
  simp only [Ctl.fppRequested, Bool.or_assoc]

/-- One exception recorded: the registers, and the trap unless FID is set (R413). -/
theorem State.fppException_eq (s : State) (f : Fpp) (addr : Word) (e : FppError) :
    (s.setFpp f).fppException addr e =
      (s.setCtl (s.ctl.fppRequested (!fpsFid f.fps))).setFpp (f.recorded addr e) := by
  unfold State.fppException
  cases h : fpsFid f.fps
  · rw [State.setFpp_fpp, h, Ctl.fppRequested, Bool.not_false, Bool.or_true]
    rfl
  · rw [State.setFpp_fpp, h, Bool.not_true, Ctl.fppRequested_false]
    rfl

/-- FER is not FID, so a later exception finds FID as the first one did (R402). -/
theorem fpsFid_recorded (f : Fpp) (addr : Word) (e : FppError) : fpsFid (f.recorded addr e).fps = fpsFid f.fps := by
  rw [Fpp.recorded, fpsFid, fpsFid, BitVec.getLsbD_or]
  simp

/-- Exceptions recorded in order: the codes of the last one stand, and any one requests the trap unless FID is set
(R413). -/
theorem fppOutcome_foldl (addr : Word) (errs : List FppError) (f : Fpp) (s : State) :
    FppOutcome addr errs f s (errs.foldl (fun s e => s.fppException addr e) (s.setFpp f)) := by
  induction errs generalizing f s with
  | nil =>
    refine ⟨rfl, rfl, rfl, rfl, ?_⟩
    show s.setFpp f = (s.setFpp f).setCtl (s.ctl.fppRequested false)
    rw [Ctl.fppRequested_false]
    rfl
  | cons e es ih =>
    rw [List.foldl_cons, State.fppException_eq]
    generalize hs : s.setCtl (s.ctl.fppRequested (!fpsFid f.fps)) = s'
    obtain ⟨hac, hfps, hfec, hfea, hrest⟩ := ih (f.recorded addr e) s'
    generalize es.foldl (fun s e => s.fppException addr e) (s'.setFpp (f.recorded addr e)) = t at *
    refine ⟨hac, hfps.trans ?fps, hfec.trans ?fec, hfea.trans ?fea, hrest.trans ?rest⟩
    case fps =>
      have twice : f.fps ||| 0o100000 ||| 0o100000 = f.fps ||| 0o100000 := by rw [BitVec.or_assoc, BitVec.or_self]
      simp only [Fpp.recorded, twice, ite_self, List.cons_ne_nil, if_false]
    case fec =>
      rw [List.getLast?_cons]
      cases es.getLast? <;> rfl
    case fea => simp only [Fpp.recorded, ite_self, List.cons_ne_nil, if_false]
    case rest =>
      rw [fpsFid_recorded, ← hs]
      show (s.setFpp t.fpp).setCtl ((s.ctl.fppRequested (!fpsFid f.fps)).fppRequested (!es.isEmpty && !fpsFid f.fps)) =
        (s.setFpp t.fpp).setCtl (s.ctl.fppRequested (!fpsFid f.fps))
      rw [Ctl.fppRequested_twice]
      cases fpsFid f.fps <;> simp

/-- What an instruction does once its accesses have succeeded (R413, R470). -/
theorem fppCommit_outcome (addr : Word) (errs : List FppError) (f : Fpp → Fpp) (s : State) :
    ∃ t, fppCommit addr errs f s = .ok () t ∧ FppOutcome addr errs (f s.fpp) s t :=
  ⟨_, rfl, fppOutcome_foldl addr errs (f s.fpp) s⟩

/-- An instruction that ends there answers the state it leaves. -/
theorem exec_commit {errs : List FppError} {f : Fpp → Fpp} (hb : bodyOf i s = fppCommit addr errs f s1) :
    ∃ t, exec i s = .next t ∧ FppOutcome addr errs (f s1.fpp) s1 t := by
  obtain ⟨t, ht, outcome⟩ := fppCommit_outcome addr errs f s1
  exact ⟨t, by rw [exec_eq, runBody_ok (hb.trans ht)], outcome⟩

theorem fcc_flagged (f : Fpp) (cc : Cc) : FppFlagged f (f.fcc cc) cc.n cc.z cc.v cc.c := by
  obtain ⟨hn, hz, hv, hc⟩ := putCc_flags f.fps cc
  exact ⟨rfl, putCc_shift f.fps cc, hn, hz, hv, hc⟩

/-- The sign of a value is the top bit of its first word (R406). -/
theorem sign_eq_msb (w : Word) : w.getLsbD 15 = w.msb := signBit_eq_msb w

/-! ### The shapes of bodies -/

/-- An illegal opcode or accumulator (R474, R506). -/
theorem exec_illegal (hb : bodyOf i s = fppCommit s.fppAddress [.illegalOpcode] id s) :
    ∃ t, exec i s = .next t ∧ FppOutcome (s.pc - 2) [.illegalOpcode] s.fpp s t := exec_commit hb

theorem withSource_run {k : Word → Fpp → Accum → List FppError × Fpp} (h1 : resolveF sp p .read s = .ok (some pl) s1)
    (h2 : readF pl p .read s1 = .ok x s2) :
    withSource sp p k s = fppCommit (s.pc - 2) (sourceErrors s.fpp.fps pl x ++ (k s.fpp.fps s.fpp x).1)
      (fun _ => (k s.fpp.fps s.fpp x).2) s2 := by
  unfold withSource
  rw [get_bind, bind_ok h1]
  exact bind_ok h2

theorem withDestination_run {errs : List FppError} {f : Fpp → Fpp} (h1 : resolveF sp p .write s = .ok (some pl) s1)
    (h2 : writeF pl p v s1 = .ok () s2) : withDestination sp p v errs f s = fppCommit (s.pc - 2) errs f s2 := by
  unfold withDestination
  rw [get_bind, bind_ok h1]
  exact bind_ok h2

theorem withModified_run {result : Accum → Accum} (h1 : resolveF sp p .modify s = .ok (some pl) s1)
    (h2 : readF pl p .modify s1 = .ok x s2) (h3 : writeF pl p (result x) s2 = .ok () s3) :
    withModified sp p result s = fppCommit (s.pc - 2) (sourceErrors s.fpp.fps pl x)
      (fun f => f.fcc ⟨(result x).w0.getLsbD 15, exponentOf x.w0 == 0, false, false⟩) s3 := by
  unfold withModified
  rw [get_bind, bind_ok h1]
  dsimp only
  rw [bind_ok h2, bind_ok h3]
  rfl

/-- A source that only sets the condition codes of registers `f` (R470, R471). -/
theorem exec_source {k : Word → Fpp → Accum → List FppError × Fpp} {errs : List FppError} {f : Fpp} {n z v c : Bool}
    (hb : bodyOf i s = withSource sp p k s) (h1 : resolveF sp p .read s = .ok (some pl) s1)
    (h2 : readF pl p .read s1 = .ok x s2) {cc : Cc} (hk : k s.fpp.fps s.fpp x = (errs, f.fcc cc)) (hn : cc.n = n)
    (hz : cc.z = z) (hv : cc.v = v) (hc : cc.c = c) :
    ∃ t g, exec i s = .next t ∧ FppFlagged f g n z v c ∧
      FppOutcome (s.pc - 2) (sourceErrors s.fpp.fps pl x ++ errs) g s2 t := by
  have hr := withSource_run (k := k) h1 h2
  rw [hk] at hr
  obtain ⟨t, ht, outcome⟩ := exec_commit (hb.trans hr)
  subst hn hz hv hc
  exact ⟨t, _, ht, fcc_flagged f cc, outcome⟩

/-- A destination stored, with the condition codes of a result (R470, R472). -/
theorem exec_destination {errs : List FppError} {n z o c : Bool} {cc : Cc}
    (hb : bodyOf i s = withDestination sp p v errs (fun f => f.fcc cc) s)
    (h1 : resolveF sp p .write s = .ok (some pl) s1) (h2 : writeF pl p v s1 = .ok () s2) (hn : cc.n = n)
    (hz : cc.z = z) (hv : cc.v = o) (hc : cc.c = c) :
    ∃ t g, exec i s = .next t ∧ FppFlagged s2.fpp g n z o c ∧ FppOutcome (s.pc - 2) errs g s2 t := by
  obtain ⟨t, ht, outcome⟩ := exec_commit (hb.trans (withDestination_run h1 h2))
  subst hn hz hv hc
  exact ⟨t, _, ht, fcc_flagged s2.fpp cc, outcome⟩

/-- The condition codes of an arithmetic result (R470). -/
theorem ccResult_eq (r : FResult) :
    ccResult r = ⟨r.words.w0.msb, r.z || exponentOf r.words.w0 == 0, r.v, false⟩ := by
  rw [ccResult, sign_eq_msb]

/-- An accumulator combined with a source (R470). -/
theorem exec_arithmetic {k : Word → Fpp → Accum → List FppError × Fpp} {q : Prec} {ac : Fin 4} {r : FResult}
    (hb : bodyOf i s = withSource sp p k s) (h1 : resolveF sp p .read s = .ok (some pl) s1)
    (h2 : readF pl p .read s1 = .ok x s2) (hk : k s.fpp.fps s.fpp x = arithmeticResult q ac s.fpp r) :
    ∃ t g, exec i s = .next t ∧
      FppFlagged { s.fpp with ac := s.fpp.ac.set (acField ac) (mergePrec q s.fpp.ac[acField ac] r.words) } g
        r.words.w0.msb (r.z || exponentOf r.words.w0 == 0) r.v false ∧
      FppOutcome (s.pc - 2) (sourceErrors s.fpp.fps pl x ++ r.errs) g s2 t := by
  rw [arithmeticResult, ccResult_eq] at hk
  exact exec_source hb h1 h2 hk rfl rfl rfl rfl

/-- An integer loaded into an accumulator (R503, R504). -/
theorem exec_load {m : M Int} {z : Int} {k : Int → List FppError × Fpp} {q : Prec} {ac : Fin 4} {r : FResult}
    (hb : bodyOf i s = (m >>= fun x => fppCommit (s.pc - 2) (k x).1 fun _ => (k x).2 : M Unit) s) (hm : m s = .ok z s1)
    (hk : k z = arithmeticResult q ac s.fpp r) :
    ∃ t g, exec i s = .next t ∧
      FppFlagged { s.fpp with ac := s.fpp.ac.set (acField ac) (mergePrec q s.fpp.ac[acField ac] r.words) } g
        r.words.w0.msb (r.z || exponentOf r.words.w0 == 0) r.v false ∧ FppOutcome (s.pc - 2) r.errs g s1 t := by
  rw [bind_ok hm, hk, arithmeticResult, ccResult_eq] at hb
  obtain ⟨t, ht, outcome⟩ := exec_commit hb
  exact ⟨t, _, ht, fcc_flagged (s.fpp.writeAc q (acField ac) r.words)
    ⟨r.words.w0.msb, r.z || exponentOf r.words.w0 == 0, r.v, false⟩, outcome⟩

/-- An integer stored, its condition codes in FPS and then in the processor's flags (R500, R501). -/
theorem exec_store {m : M Bool} {q : Bool} {errs : List FppError} {cc : Cc}
    (hb : bodyOf i s = (m >>= fun q => fppCommit (s.pc - 2) errs (fun f => f.fcc cc) >>= fun _ =>
      copyFcc q cc : M Unit) s)
    (hm : m s = .ok q s1) :
    ∃ t g s2, exec i s = .next t ∧ FppFlagged s1.fpp g cc.n cc.z cc.v cc.c ∧ FppOutcome (s.pc - 2) errs g s1 s2 ∧
      StoredFlags q s2 t cc.n cc.z cc.v cc.c := by
  obtain ⟨s2, hs2, outcome⟩ := fppCommit_outcome (s.pc - 2) errs (fun f => f.fcc cc) s1
  rw [bind_ok hm, bind_ok hs2] at hb
  obtain ⟨t, ht, flags⟩ := flags_result (p := q) (f := fun _ => cc) hb rfl rfl rfl rfl
  exact ⟨t, _, s2, ht, fcc_flagged s1.fpp cc, outcome, flags⟩

end

/-! ### Modes and status -/

/-- Settles O46: each instruction changes one field, and CFCC sets the processor's flags from FPS. -/
theorem fppModeInstructions : Obligations.FppModeInstructions := fun s =>
  ⟨⟨_, rfl, flagged_setCc s (ccOfWord s.fpp.fps)⟩, rfl, rfl, rfl, rfl⟩

/-- Settles O47: each body is its one access, or for STST in memory its two. -/
theorem fppStatusInstructions : Obligations.FppStatusInstructions := by
  intro sp s
  refine ⟨fun v s1 h => ?ldfps, fun p s1 h => ?stfps, fun hm => ?direct, fun hi p s1 h => ?immediate,
    fun hm hi va s1 p s2 q s3 hr h1 h2 => ?memory⟩
  case ldfps =>
    rw [← (readOp_post fppSame_step sp (fun _ => trivial) .word s).ok h]
    rw [exec_eq, runBody_ok (body := bodyOf (.ldfps sp)) (bind_ok h)]
    rfl
  case stfps => rw [exec_eq, runBody_ok (body := bodyOf (.stfps sp)) (bind_ok h)]
  case direct =>
    rw [exec_eq, runBody_ok]
    show ststBody sp s = _
    unfold ststBody
    rw [get_bind, if_pos hm]
    rfl
  case immediate =>
    have hm : sp.mode ≠ .direct := by
      intro hm
      rw [OpSpec.isImmediate, hm] at hi
      cases hi
    rw [exec_eq, runBody_ok]
    show ststBody sp s = _
    unfold ststBody
    rw [get_bind, if_neg hm, if_pos hi, bind_ok h]
    have hpc : s1.pc = s.pc := (memWrite_post pcSame_store _ _ _ _).ok h
    rw [← hpc]
    rfl
  case memory =>
    rw [exec_eq, runBody_ok]
    show ststBody sp s = _
    unfold ststBody
    rw [get_bind, if_neg hm, if_neg (by rw [hi]; decide), bind_ok hr]
    exact (bind_ok h1).trans (bind_ok h2)

end Sys2Proof.Machine
end

section
/-! The results of the coprocessor's instructions (52_fpp_instructions.md rules R488 to R506), each from the shape
of its body. -/

namespace Sys2Proof.Machine

/-! ### Which instruction has which shape -/

section
variable (ac : Fin 4) (ss dd : OpSpec) (s : State)

theorem bodyOf_clrf : bodyOf (.clrf dd) s =
    withDestination dd (precOf s.fpp.fps) {} [] (fun f => f.fcc ⟨false, true, false, false⟩) s := get_bind

theorem bodyOf_tstf : bodyOf (.tstf ss) s =
    withSource ss (precOf s.fpp.fps) (fun _ f x => ([], f.fcc (ccValue x))) s := get_bind

theorem bodyOf_absf : bodyOf (.absf dd) s = withModified dd (precOf s.fpp.fps) absResult s := get_bind

theorem bodyOf_negf : bodyOf (.negf dd) s = withModified dd (precOf s.fpp.fps) negResult s := get_bind

/-- ADDF, SUBF and MULF (R470). -/
theorem bodyOf_combine {i : Instr} {op : Prec → Word → Fnum → Fnum → FResult} (h : bodyOf i = arithmeticBody ac ss op) :
    bodyOf i s = withSource ss (precOf s.fpp.fps) (fun fps f x => arithmeticResult (precOf s.fpp.fps) ac f
      (op (precOf s.fpp.fps) fps (unpack (precOf s.fpp.fps) f.ac[acField ac]) (unpack (precOf s.fpp.fps) x))) s := by
  rw [h]
  exact get_bind

theorem bodyOf_divf : bodyOf (.divf ac ss) s = withSource ss (precOf s.fpp.fps) (fun fps f x =>
    if exponentOf x.w0 = 0 then ([.divideByZero], f) else arithmeticResult (precOf s.fpp.fps) ac f
      (fDiv (precOf s.fpp.fps) fps (unpack (precOf s.fpp.fps) f.ac[acField ac]) (unpack (precOf s.fpp.fps) x))) s :=
  get_bind

/-- The two results of MODF, in their accumulators (R493). -/
def modfResult (p : Prec) (ac : Fin 4) (f : Fpp) (r : FResult × FResult) : List FppError × Fpp :=
  (r.1.errs ++ r.2.errs, ((f.writeAc p (acOdd ac) r.1.words).writeAc p (acField ac) r.2.words).fcc
    { ccResult r.2 with v := r.1.v || r.2.v })

theorem bodyOf_modf : bodyOf (.modf ac ss) s = withSource ss (precOf s.fpp.fps) (fun fps f x =>
    modfResult (precOf s.fpp.fps) ac f
      (fMod (precOf s.fpp.fps) fps (unpack (precOf s.fpp.fps) f.ac[acField ac]) (unpack (precOf s.fpp.fps) x))) s :=
  get_bind

theorem bodyOf_ldf : bodyOf (.ldf ac ss) s = withSource ss (precOf s.fpp.fps) (fun _ f x =>
    ([], (f.writeAc (precOf s.fpp.fps) (acField ac) x).fcc (ccValue x))) s := get_bind

theorem bodyOf_cmpf : bodyOf (.cmpf ac ss) s = withSource ss (precOf s.fpp.fps) (fun _ f x =>
    ([], f.fcc (ccCmpf (precOf s.fpp.fps) (unpack (precOf s.fpp.fps) x)
      (unpack (precOf s.fpp.fps) f.ac[acField ac])))) s := get_bind

theorem bodyOf_stf : bodyOf (.stf ac dd) s =
    withDestination dd (precOf s.fpp.fps) s.fpp.ac[acField ac] [] id s := get_bind

theorem bodyOf_stcfd : bodyOf (.stcfd ac dd) s = withDestination dd (precOf s.fpp.fps).other
    (convertPrec (precOf s.fpp.fps) s.fpp.fps s.fpp.ac[acField ac]).words
    (convertPrec (precOf s.fpp.fps) s.fpp.fps s.fpp.ac[acField ac]).errs
    (fun f => f.fcc (ccResult (convertPrec (precOf s.fpp.fps) s.fpp.fps s.fpp.ac[acField ac]))) s := get_bind

theorem bodyOf_ldcdf : bodyOf (.ldcdf ac ss) s = withSource ss (precOf s.fpp.fps).other (fun fps f x =>
    arithmeticResult (precOf s.fpp.fps) ac f (convertPrec (precOf s.fpp.fps).other fps x)) s := get_bind

end

/-! ### One operand (R414, R471, R488 to R491) -/

/-- The exponent of a value as a field of its first word (R406). -/
theorem exponentOf_eq (w : Word) : exponentOf w = w.toNat / 2 ^ 7 % 2 ^ 8 := by
  simp only [exponentOf, BitVec.extractLsb'_toNat, Nat.shiftRight_eq_div_pow]

/-- When a value read from memory is the undefined variable (R414). -/
theorem sourceErrors_mem (fps : Word) (x : Accum) (pl : FPlace) (h : (∃ a, pl = .imm a) ∨ ∃ va, pl = .mem va) :
    sourceErrors fps pl x =
      if fps.getLsbD 11 && x.w0.msb && exponentOf x.w0 == 0 then [.undefinedVariable] else [] := by
  rw [← sign_eq_msb]
  rcases h with ⟨a, rfl⟩ | ⟨va, rfl⟩ <;> rfl

/-- The sign flipped, by a mask (R491). -/
theorem putBit_15_not (w : Word) : putBit w 15 (!w.getLsbD 15) = w ^^^ 0o100000 := by
  apply BitVec.eq_of_getLsbD_eq
  intro k hk
  rw [getLsbD_putBit _ _ _ (by omega), BitVec.getLsbD_xor]
  interval_cases k <;> simp

/-- ABSF and NEGF: the value written back, and its codes (R490, R491). -/
theorem exec_modified {i : Instr} {sp : OpSpec} {p : Prec} {pl : FPlace} {s s1 s2 s3 : State} {x y : Accum}
    {result : Accum → Accum} (hb : bodyOf i s = withModified sp p result s)
    (h1 : resolveF sp p .modify s = .ok (some pl) s1) (h2 : readF pl p .modify s1 = .ok x s2) (hy : y = result x)
    (h3 : writeF pl p y s2 = .ok () s3) :
    ∃ t g, exec i s = .next t ∧ FppFlagged s3.fpp g y.w0.msb (exponentOf x.w0 == 0) false false ∧
      FppOutcome (s.pc - 2) (sourceErrors s.fpp.fps pl x) g s3 t := by
  subst hy
  obtain ⟨t, ht, outcome⟩ := exec_commit (hb.trans (withModified_run h1 h2 h3))
  rw [sign_eq_msb] at outcome
  exact ⟨t, _, ht, fcc_flagged s3.fpp _, outcome⟩

/-- Settles O48: the undefined variable by its three conditions, and each instruction by the shape of its body. -/
theorem fppOneOperand : Obligations.FppOneOperand := by
  refine ⟨fun fps x => ⟨fun i => rfl, fun pl hpl => ?undefined⟩, ⟨rfl, rfl, rfl, rfl, rfl, rfl⟩, fun sp s pl =>
    ⟨fun s1 s2 h1 h2 => ?clrf, fun s1 x s2 h1 h2 => ?tstf, fun s1 x s2 i y s3 h1 h2 hi h3 => ?modified⟩⟩
  case undefined =>
    rw [sourceErrors_mem fps x pl hpl, exponentOf_eq]
    refine ⟨fun hs he hf => by rw [hs, he, hf]; rfl, ?_⟩
    rintro (hs | he | hf)
    · rw [hs, Bool.and_false, Bool.false_and]
      rfl
    · rw [beq_eq_false_iff_ne.2 he, Bool.and_false]
      rfl
    · rw [hf, Bool.false_and, Bool.false_and]
      rfl
  case clrf => exact exec_destination (bodyOf_clrf sp s) h1 h2 rfl rfl rfl rfl
  case tstf =>
    obtain ⟨t, g, ht, flags, outcome⟩ := exec_source (bodyOf_tstf sp s) h1 h2 rfl (sign_eq_msb x.w0) rfl rfl rfl
    rw [List.append_nil] at outcome
    exact ⟨t, g, ht, flags, outcome⟩
  case modified =>
    rcases hi with ⟨rfl, hy⟩ | ⟨rfl, hy⟩
    · exact exec_modified (bodyOf_absf sp s) h1 h2 hy h3
    · refine exec_modified (bodyOf_negf sp s) h1 h2 ?_ h3
      rw [hy, negResult, putBit_15_not]

/-! ### An accumulator and a source (R492 to R499) -/

/-- The accumulator of the integer part of MODF has the number `ac | 1` (R493). -/
theorem acOdd_val (ac : Fin 4) : (acOdd ac).val = ac.val ||| 1 := by
  revert ac
  decide

/-- Settles O49: each instruction is a source combined with the accumulator. -/
theorem fppArithmetic : Obligations.FppArithmetic := by
  intro ac ss s pl s1 x s2 p fps k a b undef h1 h2
  refine ⟨fun i r hi => ?combined, fun hb => ?zeroDivisor, ?modf⟩
  case combined =>
    rcases hi with ⟨rfl, rfl⟩ | ⟨rfl, rfl⟩ | ⟨rfl, rfl⟩ | ⟨rfl, hb, rfl⟩
    · exact exec_arithmetic (bodyOf_combine ac ss s (i := .addf ac ss) rfl) h1 h2 rfl
    · exact exec_arithmetic (bodyOf_combine ac ss s (i := .subf ac ss) rfl) h1 h2 rfl
    · exact exec_arithmetic (bodyOf_combine ac ss s (i := .mulf ac ss) rfl) h1 h2 rfl
    · exact exec_arithmetic (bodyOf_divf ac ss s) h1 h2 (if_neg hb)
  case zeroDivisor =>
    have hz : exponentOf x.w0 = 0 := hb
    have hr := (bodyOf_divf ac ss s).trans (withSource_run h1 h2)
    rw [if_pos hz] at hr
    exact exec_commit hr
  case modf =>
    intro r odd ac1
    have hodd : acOdd ac = odd := Fin.ext (acOdd_val ac)
    obtain ⟨t, g, ht, flags, outcome⟩ := exec_source (bodyOf_modf ac ss s) h1 h2 rfl (sign_eq_msb _) rfl rfl rfl
    refine ⟨t, g, ht, ?_, outcome⟩
    rw [hodd] at flags
    exact flags

end Sys2Proof.Machine
end

section
/-! The results of the coprocessor's moves, comparisons, conversions and integer instructions, and its illegal opcodes
(52_fpp_instructions.md rules R474, R495, R497, R498, R500 to R506). -/

namespace Sys2Proof.Machine

/-! ### Moves and comparisons (R495, R497, R498) -/

/-- The fraction of a value, below its hidden bit (R406). -/
theorem unpack_f_lt (p : Prec) (x : Accum) : (unpack p x).f < 2 ^ p.bits := by
  have h0 := x.w0.isLt
  have h1 := x.w1.isLt
  have h2 := x.w2.isLt
  have h3 := x.w3.isLt
  cases p
  · rw [unpack_single]
    simp only [Prec.bits]
    omega
  · rw [unpack_double]
    simp only [Prec.bits]
    omega

/-- The magnitude of a value as one number, its exponent above its fraction (R497). -/
def Fnum.magnitude (p : Prec) (a : Fnum) : Nat := a.e * 2 ^ p.bits + a.f

section
variable {p : Prec} {a b : Fnum}

theorem Fnum.magnitude_pos (h : a.e ≠ 0) : 0 < a.magnitude p :=
  Nat.add_pos_left (Nat.mul_pos (Nat.pos_of_ne_zero h) (Nat.two_pow_pos _)) _

/-- Magnitudes are ordered by exponent and then by fraction (R497). -/
theorem Fnum.magnitude_lt (ha : a.f < 2 ^ p.bits) (hb : b.f < 2 ^ p.bits) :
    a.magnitude p < b.magnitude p ↔ a.e < b.e ∨ (a.e = b.e ∧ a.f < b.f) := by
  unfold Fnum.magnitude
  rcases lt_trichotomy a.e b.e with h | h | h
  · have := Nat.mul_le_mul_right (2 ^ p.bits) (Nat.succ_le_of_lt h)
    rw [Nat.succ_mul] at this
    omega
  · rw [h]
    omega
  · have := Nat.mul_le_mul_right (2 ^ p.bits) (Nat.succ_le_of_lt h)
    rw [Nat.succ_mul] at this
    omega

theorem Fnum.magnitude_inj (ha : a.f < 2 ^ p.bits) (hb : b.f < 2 ^ p.bits) :
    a.magnitude p = b.magnitude p ↔ a.e = b.e ∧ a.f = b.f := by
  have below := Fnum.magnitude_lt ha hb
  have above := Fnum.magnitude_lt hb ha
  omega

/-- A floating value that is not zero, as a number with its sign (R497). -/
theorem fOrder_eq (h : a.e ≠ 0) : fOrder p a = if a.s then -(a.magnitude p : Int) else (a.magnitude p : Int) := if_neg h

theorem fOrder_zero (h : a.e = 0) : fOrder p a = 0 := if_pos h

/-- A zero against any accumulator (R497). -/
theorem compare_zero_source (hb : b.e = 0) :
    decide (fOrder p b < fOrder p a) = (decide (a.e ≠ 0) && !a.s) ∧ (fOrder p b == fOrder p a) = decide (a.e = 0) := by
  rw [fOrder_zero hb]
  by_cases ha : a.e = 0
  · simp [fOrder_zero ha, ha]
  · have := Fnum.magnitude_pos (p := p) ha
    rw [fOrder_eq ha]
    cases a.s <;> simp [ha] <;> omega

/-- A value against a zero accumulator (R497). -/
theorem compare_zero_accumulator (hb : b.e ≠ 0) (ha : a.e = 0) :
    decide (fOrder p b < fOrder p a) = b.s ∧ (fOrder p b == fOrder p a) = false := by
  have := Fnum.magnitude_pos (p := p) hb
  rw [fOrder_zero ha, fOrder_eq hb]
  cases b.s <;> simp <;> omega

/-- Values of different signs (R497). -/
theorem compare_signs (hb : b.e ≠ 0) (ha : a.e ≠ 0) (hs : b.s ≠ a.s) :
    decide (fOrder p b < fOrder p a) = b.s ∧ (fOrder p b == fOrder p a) = false := by
  have := Fnum.magnitude_pos (p := p) hb
  have := Fnum.magnitude_pos (p := p) ha
  rw [fOrder_eq ha, fOrder_eq hb, Bool.eq_not.2 hs.symm]
  cases b.s <;> simp <;> omega

/-- Values of one sign: by magnitude, the larger one first where they are negative (R497). -/
theorem compare_magnitudes (hb : b.e ≠ 0) (ha : a.e ≠ 0) (hs : b.s = a.s) (hbf : b.f < 2 ^ p.bits)
    (haf : a.f < 2 ^ p.bits) :
    (fOrder p b == fOrder p a) = decide (b.e = a.e ∧ b.f = a.f) ∧
      (b.s = false → decide (fOrder p b < fOrder p a) = decide (b.e < a.e ∨ (b.e = a.e ∧ b.f < a.f))) ∧
      (b.s = true → decide (fOrder p b < fOrder p a) = decide (a.e < b.e ∨ (a.e = b.e ∧ a.f < b.f))) := by
  rw [fOrder_eq ha, fOrder_eq hb, ← hs, Bool.beq_eq_decide_eq]
  simp only [decide_eq_decide]
  rw [← Fnum.magnitude_inj hbf haf, ← Fnum.magnitude_lt hbf haf, ← Fnum.magnitude_lt haf hbf]
  cases b.s
  · simp only [Bool.false_eq_true, if_false]
    exact ⟨by omega, fun _ => by omega, nofun⟩
  · simp only [if_true]
    exact ⟨by omega, nofun, fun _ => by omega⟩

end

/-- Settles O50: LDF and CMPF are sources, STF is a destination; the comparison is by the order of the numbers. -/
theorem fppMoveCompare : Obligations.FppMoveCompare := by
  refine fun ac sp s pl => ⟨fun s1 x s2 h1 h2 => ⟨?ldf, ?cmpf⟩, fun s1 s2 h1 h2 => ?stf⟩
  case ldf =>
    obtain ⟨t, g, ht, flags, outcome⟩ := exec_source (bodyOf_ldf ac sp s) h1 h2 rfl (sign_eq_msb _) rfl rfl rfl
    rw [List.append_nil] at outcome
    exact ⟨t, g, ht, flags, outcome⟩
  case cmpf =>
    obtain ⟨t, g, ht, flags, outcome⟩ := exec_source (bodyOf_cmpf ac sp s) h1 h2 rfl rfl rfl rfl rfl
    rw [List.append_nil] at outcome
    exact ⟨t, g, _, _, ht, flags, outcome, compare_zero_source, compare_zero_accumulator, compare_signs,
      fun hb ha hs => compare_magnitudes hb ha hs (unpack_f_lt _ _) (unpack_f_lt _ _)⟩
  case stf => rw [exec_eq, runBody_ok ((bodyOf_stf ac sp s).trans (withDestination_run h1 h2))]; rfl

/-! ### Integers (R500, R501, R503, R504) -/

section
variable (ac : Fin 4) (sp : OpSpec) (s : State)

/-- The condition codes of an integer (R500, R501). -/
def ccInteger (v : Int) (failed : Bool) : Cc := ⟨decide (v < 0), v == 0, false, failed⟩

theorem bodyOf_stexp : bodyOf (.stexp ac sp) s =
    (writeOp sp .word (BitVec.ofInt 16 ((exponentOf (s.fpp.ac[acField ac]).w0 : Int) - 128)) >>= fun q =>
      fppCommit (s.pc - 2) []
        (fun f => f.fcc (ccInteger ((exponentOf (s.fpp.ac[acField ac]).w0 : Int) - 128) false)) >>= fun _ =>
      copyFcc q (ccInteger ((exponentOf (s.fpp.ac[acField ac]).w0 : Int) - 128) false) : M Unit) s := get_bind

/-- What STCFI converts: the integer, and whether the conversion failed (R501). -/
def stcfiResult (ac : Fin 4) (s : State) : Int × Bool :=
  fToInt (precOf s.fpp.fps) (unpack (precOf s.fpp.fps) s.fpp.ac[acField ac]) (if fpsFl s.fpp.fps then 32 else 16)

theorem bodyOf_stcfi : bodyOf (.stcfi ac sp) s =
    (writeInteger sp (fpsFl s.fpp.fps) (stcfiResult ac s).1 >>= fun q =>
      fppCommit (s.pc - 2) (if (stcfiResult ac s).2 && fpsFic s.fpp.fps then [.integerConversion] else [])
        (fun f => f.fcc (ccInteger (stcfiResult ac s).1 (stcfiResult ac s).2)) >>= fun _ =>
      copyFcc q (ccInteger (stcfiResult ac s).1 (stcfiResult ac s).2) : M Unit) s := get_bind

theorem bodyOf_ldexp : bodyOf (.ldexp ac sp) s =
    (readInteger sp false >>= fun x => fppCommit (s.pc - 2)
      (arithmeticResult (precOf s.fpp.fps) ac s.fpp (pack (precOf s.fpp.fps) s.fpp.fps
        (unpack (precOf s.fpp.fps) s.fpp.ac[acField ac]).s (x + 128)
        (unpack (precOf s.fpp.fps) s.fpp.ac[acField ac]).f)).1
      fun _ => (arithmeticResult (precOf s.fpp.fps) ac s.fpp (pack (precOf s.fpp.fps) s.fpp.fps
        (unpack (precOf s.fpp.fps) s.fpp.ac[acField ac]).s (x + 128)
        (unpack (precOf s.fpp.fps) s.fpp.ac[acField ac]).f)).2 : M Unit) s := get_bind

theorem bodyOf_ldcif : bodyOf (.ldcif ac sp) s =
    (readInteger sp (fpsFl s.fpp.fps) >>= fun x => fppCommit (s.pc - 2)
      (arithmeticResult (precOf s.fpp.fps) ac s.fpp (intToF (precOf s.fpp.fps) s.fpp.fps x)).1
      fun _ => (arithmeticResult (precOf s.fpp.fps) ac s.fpp (intToF (precOf s.fpp.fps) s.fpp.fps x)).2 : M Unit) s :=
  get_bind

end

/-- Settles O51: two instructions that store an integer, two that load one. -/
theorem fppIntegers : Obligations.FppIntegers := by
  refine fun ac sp s => ⟨fun q s1 h => ?stexp, fun q s1 h => ?stcfi, fun x s1 h => ?ldexp, fun x s1 h => ?ldcif⟩
  case stexp => exact exec_store (bodyOf_stexp ac sp s) h
  case stcfi =>
    obtain ⟨t, g, s2, ht, flags, outcome, stored⟩ := exec_store (bodyOf_stcfi ac sp s) h
    simp only [Bool.and_eq_true] at outcome
    exact ⟨t, g, s2, ht, flags, outcome, stored⟩
  case ldexp => exact exec_load (bodyOf_ldexp ac sp s) (bind_ok h) rfl
  case ldcif => exact exec_load (bodyOf_ldcif ac sp s) h rfl

/-! ### Conversions of precision (R502, R505) -/

/-- The value at the other precision, by FD (R502, R505). -/
theorem convertPrec_eq (fps : Word) (x : Accum) :
    convertPrec (precOf fps) fps x = if fps.getLsbD 7 then narrow fps (unpack .double x) else widen x := by
  rw [precOf, fpsFd]
  cases fps.getLsbD 7 <;> rfl

theorem convertPrec_other_eq (fps : Word) (x : Accum) :
    convertPrec (precOf fps).other fps x = if fps.getLsbD 7 then widen x else narrow fps (unpack .double x) := by
  rw [precOf, fpsFd]
  cases fps.getLsbD 7 <;> rfl

/-- Settles O52: a destination and a source at the other precision. -/
theorem fppPrecision : Obligations.FppPrecision := by
  refine fun ac sp s pl => ⟨?stcfd, fun s1 x s2 h1 h2 => ?ldcdf⟩
  case stcfd =>
    rw [← convertPrec_eq]
    exact fun s1 s2 h1 h2 => exec_destination (bodyOf_stcfd ac sp s) h1 h2 (sign_eq_msb _) rfl rfl rfl
  case ldcdf =>
    rw [← convertPrec_other_eq]
    exact exec_arithmetic (bodyOf_ldcdf ac sp s) h1 h2 rfl

/-! ### Illegal opcodes and accumulators (R474, R506) -/

section
variable {sp : OpSpec} {p : Prec} {s : State}

/-- Mode 0 with the stack pointer or the PC names no accumulator (R474). -/
theorem resolveF_none (hm : sp.mode = .direct) (hr : sp.reg = .sp ∨ sp.reg = .pc) (acc : Access) :
    resolveF sp p acc s = .ok none s := by
  obtain ⟨m, r⟩ := sp
  subst hm
  rcases hr with rfl | rfl <;> rfl

theorem withSource_illegal (hm : sp.mode = .direct) (hr : sp.reg = .sp ∨ sp.reg = .pc)
    {k : Word → Fpp → Accum → List FppError × Fpp} :
    withSource sp p k s = fppCommit s.fppAddress [.illegalOpcode] id s := by
  unfold withSource
  rw [get_bind, bind_ok (resolveF_none hm hr .read)]

theorem withDestination_illegal (hm : sp.mode = .direct) (hr : sp.reg = .sp ∨ sp.reg = .pc) {v : Accum}
    {errs : List FppError} {f : Fpp → Fpp} :
    withDestination sp p v errs f s = fppCommit s.fppAddress [.illegalOpcode] id s := by
  unfold withDestination
  rw [get_bind, bind_ok (resolveF_none hm hr .write)]

theorem withModified_illegal (hm : sp.mode = .direct) (hr : sp.reg = .sp ∨ sp.reg = .pc) {result : Accum → Accum} :
    withModified sp p result s = fppCommit s.fppAddress [.illegalOpcode] id s := by
  unfold withModified
  rw [get_bind, bind_ok (resolveF_none hm hr .modify)]

end

/-- Settles O53: whatever the shape of the body, the specifier names no accumulator and the body stops there. -/
theorem fppIllegal : Obligations.FppIllegal := by
  rintro s ac sp i (⟨w, rfl⟩ | ⟨hm, hr, hi⟩)
  · exact exec_illegal (get_bind (k := fun s => fppCommit s.fppAddress [.illegalOpcode] id))
  · refine exec_illegal ?_
    rcases hi with rfl | rfl | rfl | rfl | rfl | rfl | rfl | rfl | rfl | rfl | rfl | rfl | rfl | rfl
    · exact (bodyOf_clrf sp s).trans (withDestination_illegal hm hr)
    · exact (bodyOf_tstf sp s).trans (withSource_illegal hm hr)
    · exact (bodyOf_absf sp s).trans (withModified_illegal hm hr)
    · exact (bodyOf_negf sp s).trans (withModified_illegal hm hr)
    · exact (bodyOf_combine ac sp s rfl).trans (withSource_illegal hm hr)
    · exact (bodyOf_modf ac sp s).trans (withSource_illegal hm hr)
    · exact (bodyOf_combine ac sp s rfl).trans (withSource_illegal hm hr)
    · exact (bodyOf_ldf ac sp s).trans (withSource_illegal hm hr)
    · exact (bodyOf_combine ac sp s rfl).trans (withSource_illegal hm hr)
    · exact (bodyOf_cmpf ac sp s).trans (withSource_illegal hm hr)
    · exact (bodyOf_stf ac sp s).trans (withDestination_illegal hm hr)
    · exact (bodyOf_divf ac sp s).trans (withSource_illegal hm hr)
    · exact (bodyOf_stcfd ac sp s).trans (withDestination_illegal hm hr)
    · exact (bodyOf_ldcdf ac sp s).trans (withSource_illegal hm hr)

end Sys2Proof.Machine
end

section
/-! Laws of the floating arithmetic, and its results as one number rounded (51_fpp_algorithms.md rules R440 to R461). -/

namespace Sys2Proof.Machine

/-! ### A value packed again -/

theorem two_pow_bits (p : Prec) : 2 ^ p.bits = 2 * 2 ^ (p.bits - 1) := by cases p <;> rfl

theorem one_lt_bits (p : Prec) : 1 < p.bits := by cases p <;> decide

theorem unpack_e_lt (p : Prec) (x : Accum) : (unpack p x).e < 256 := (x.w0.extractLsb' 7 8).isLt

/-- Splicing the fields of a word 0 gives it back (R406). -/
theorem splice_word0 (w : Word) :
    (BitVec.ofBool w.msb ++ BitVec.ofNat 8 (w.toNat / 2 ^ 7 % 2 ^ 8) ++ BitVec.ofNat 7 (w.toNat % 2 ^ 7) : Word) =
      w := by
  apply BitVec.eq_of_toNat_eq
  have hw := w.isLt
  rw [BitVec.toNat_append, BitVec.toNat_append, ← Nat.shiftLeft_add_eq_or_of_lt (BitVec.isLt _),
    ← Nat.shiftLeft_add_eq_or_of_lt (BitVec.isLt _), Nat.shiftLeft_eq, Nat.shiftLeft_eq, BitVec.msb_eq_decide]
  simp only [BitVec.toNat_ofNat, BitVec.toNat_ofBool]
  by_cases h : 2 ^ (16 - 1) ≤ w.toNat
  · rw [decide_eq_true h]
    simp only [Bool.toNat_true]
    omega
  · rw [decide_eq_false h]
    simp only [Bool.toNat_false]
    omega

theorem ofNat_eq_of_mod {w : Word} {n : Nat} (h : n % 2 ^ 16 = w.toNat) : BitVec.ofNat 16 n = w :=
  BitVec.eq_of_toNat_eq ((BitVec.toNat_ofNat _ _).trans h)

theorem ofNat7_eq_of_mod {m n : Nat} (h : m % 2 ^ 7 = n % 2 ^ 7) : BitVec.ofNat 7 m = BitVec.ofNat 7 n :=
  BitVec.eq_of_toNat_eq ((BitVec.toNat_ofNat _ _).trans (h.trans (BitVec.toNat_ofNat _ _).symm))

/-- Splicing the fields of a value gives its words back (R406, R409). -/
theorem spliceWords_unpack (p : Prec) (x : Accum) :
    spliceWords p (unpack p x).s (unpack p x).e (unpack p x).f = atPrec p x := by
  have h1 := x.w1.isLt
  have h2 := x.w2.isLt
  have h3 := x.w3.isLt
  obtain ⟨w0, w1, w2, w3⟩ := x
  dsimp only at h1 h2 h3
  cases p with
  | single =>
    rw [unpack_single]
    simp only [spliceWords, atPrec, Accum.mk.injEq, and_true]
    refine ⟨?_, ofNat_eq_of_mod (by omega)⟩
    rw [ofNat7_eq_of_mod (n := w0.toNat % 2 ^ 7) (by omega)]
    exact splice_word0 w0
  | double =>
    rw [unpack_double]
    simp only [spliceWords, atPrec, Accum.mk.injEq]
    refine ⟨?_, ofNat_eq_of_mod (by omega), ofNat_eq_of_mod (by omega), ofNat_eq_of_mod (by omega)⟩
    rw [ofNat7_eq_of_mod (n := w0.toNat % 2 ^ 7) (by omega)]
    exact splice_word0 w0

section
variable {p : Prec} {fps : Word} {a b : Fnum}

/-- A value that is not zero, packed again (R409, R411). -/
theorem pack_unpack {x : Accum} (h : exponentOf x.w0 ≠ 0) :
    pack p fps (unpack p x).s (unpack p x).e (unpack p x).f = ⟨atPrec p x, false, false, []⟩ := by
  have hlt := unpack_e_lt p x
  have hpos : (unpack p x).e ≠ 0 := h
  rw [pack_between (by omega) (by omega), Int.toNat_natCast, spliceWords_unpack]

/-- With no guard bit nothing is rounded (R410). -/
theorem roundPack_exact (s : Bool) (f : Nat) (e : Int) : roundPack p fps s f false e = pack p fps s e f := by
  unfold roundPack roundF
  rw [Bool.and_false, if_neg Bool.false_ne_true]

/-! ### Laws (R440, R441, R445, R448) -/

theorem fAdd_zero (ha : a.e ≠ 0) (hb : b.e = 0) : fAdd p fps a b = pack p fps a.s a.e a.f := by
  unfold fAdd
  rw [if_neg (fun h => ha h.1), if_pos hb]

theorem fSub_zero (ha : a.e ≠ 0) (hb : b.e = 0) : fSub p fps a b = pack p fps a.s a.e a.f := by
  unfold fSub
  rw [if_pos hb]
  exact fAdd_zero ha hb

/-- The smaller magnitude is added to the larger (R440). -/
theorem fAdd_ordered (ha : a.e ≠ 0) (hb : b.e ≠ 0) (h : b.e < a.e ∨ (b.e = a.e ∧ b.f ≤ a.f)) :
    fAdd p fps a b = fAddOrdered p fps a b := by
  unfold fAdd
  rw [if_neg (fun h => ha h.1), if_neg hb, if_neg ha, if_neg (by omega)]

theorem fAdd_swapped (ha : a.e ≠ 0) (hb : b.e ≠ 0) (h : a.e < b.e ∨ (a.e = b.e ∧ a.f < b.f)) :
    fAdd p fps a b = fAddOrdered p fps b a := by
  unfold fAdd
  rw [if_neg (fun h => ha h.1), if_neg hb, if_neg ha, if_pos h]

/-- Operands of equal magnitude and different signs cancel (R440). -/
theorem fAddOrdered_cancel (hs : a.s ≠ b.s) (he : a.e = b.e) (hf : a.f = b.f) :
    fAddOrdered p fps a b = zeroResult := by
  unfold fAddOrdered
  simp only [if_neg hs, he, hf, Nat.sub_self, pow_zero, Nat.div_one, if_true]
  rfl

/-- Operands of equal magnitude add alike in either order (R440). -/
theorem fAddOrdered_comm (he : a.e = b.e) (hf : a.f = b.f) : fAddOrdered p fps a b = fAddOrdered p fps b a := by
  by_cases hs : a.s = b.s
  · obtain ⟨s, e, f⟩ := a
    obtain ⟨s', e', f'⟩ := b
    obtain rfl : s = s' := hs
    obtain rfl : e = e' := he
    obtain rfl : f = f' := hf
    rfl
  · rw [fAddOrdered_cancel hs he hf, fAddOrdered_cancel (Ne.symm hs) he.symm hf.symm]

theorem fAdd_cancel (ha : a.e ≠ 0) (hs : a.s ≠ b.s) (he : a.e = b.e) (hf : a.f = b.f) :
    fAdd p fps a b = zeroResult := by
  rw [fAdd_ordered ha (he ▸ ha) (by omega), fAddOrdered_cancel hs he hf]

theorem fAdd_comm (a b : Fnum) : fAdd p fps a b = fAdd p fps b a := by
  by_cases ha : a.e = 0
  · by_cases hb : b.e = 0
    · unfold fAdd
      rw [if_pos ⟨ha, hb⟩, if_pos ⟨hb, ha⟩]
    · rw [fAdd_zero hb ha]
      unfold fAdd
      rw [if_neg (fun h => hb h.2), if_neg hb, if_pos ha]
  · by_cases hb : b.e = 0
    · rw [fAdd_zero ha hb]
      unfold fAdd
      rw [if_neg (fun h => ha h.2), if_neg ha, if_pos hb]
    · by_cases below : a.e < b.e ∨ (a.e = b.e ∧ a.f < b.f)
      · rw [fAdd_swapped ha hb below, fAdd_ordered hb ha (by omega)]
      · by_cases above : b.e < a.e ∨ (b.e = a.e ∧ b.f < a.f)
        · rw [fAdd_ordered ha hb (by omega), fAdd_swapped hb ha above]
        · rw [fAdd_ordered ha hb (by omega), fAdd_ordered hb ha (by omega)]
          exact fAddOrdered_comm (by omega) (by omega)

/-- Subtracting is adding with the sign flipped (R441): a zero's sign plays no part. -/
theorem fSub_eq (a b : Fnum) : fSub p fps a b = fAdd p fps a { b with s := !b.s } := by
  unfold fSub
  split
  · next hb =>
    unfold fAdd
    simp only [hb, if_true]
  · rfl

theorem fSub_self (ha : a.e ≠ 0) : fSub p fps a a = zeroResult :=
  (fSub_eq a a).trans (fAdd_cancel ha (Bool.not_ne_self a.s).symm rfl rfl)

theorem fMul_comm (a b : Fnum) : fMul p fps a b = fMul p fps b a := by
  unfold fMul
  simp only [or_comm (a := a.e = 0), Nat.mul_comm a.f, Int.add_comm (a.e : Int), bne_comm (a := a.s)]

theorem fMul_zero (ha : a.e = 0) : fMul p fps a b = zeroResult := if_pos (Or.inl ha)

theorem fDiv_zero (ha : a.e = 0) : fDiv p fps a b = zeroResult := if_pos ha

theorem fMod_zero (h : a.e = 0 ∨ b.e = 0) : fMod p fps a b = (zeroResult, zeroResult) := if_pos h

/-! ### Results in numbers before rounding (R440, R445, R448, R452) -/

/-- Operands of one sign: the sum at one guard bit, or at two where it carries (R440). -/
theorem fAddOrdered_same (hs : a.s = b.s) (ha : a.f < 2 ^ p.bits) (hb : b.f < 2 ^ p.bits) :
    fAddOrdered p fps a b =
      if 2 ^ (p.bits + 1) ≤ 2 * a.f + 2 * b.f / 2 ^ (a.e - b.e)
      then rounded p fps a.s (2 * a.f + 2 * b.f / 2 ^ (a.e - b.e)) 2 (a.e + 1)
      else rounded p fps a.s (2 * a.f + 2 * b.f / 2 ^ (a.e - b.e)) 1 a.e := by
  have shifted : 2 * b.f / 2 ^ (a.e - b.e) ≤ 2 * b.f := Nat.div_le_self _ _
  have top : 2 * a.f + 2 * b.f / 2 ^ (a.e - b.e) < 4 * 2 ^ p.bits := by omega
  unfold fAddOrdered
  simp only [if_pos hs, Nat.mul_comm _ 2, pow_succ]
  generalize 2 * a.f + 2 * b.f / 2 ^ (a.e - b.e) = t at *
  split
  · exact roundPack_eq p fps a.s t 2 _ (by omega) (by omega)
  · exact roundPack_eq p fps a.s t 1 _ (by omega) (by omega)

/-- Operands of different signs: the difference, shifted until it is normalized (R440). -/
theorem fAddOrdered_diff (hs : a.s ≠ b.s) {k : Nat}
    (lo : 2 ^ p.bits ≤ (2 * a.f - 2 * b.f / 2 ^ (a.e - b.e)) * 2 ^ k)
    (hi : (2 * a.f - 2 * b.f / 2 ^ (a.e - b.e)) * 2 ^ k < 2 ^ (p.bits + 1)) :
    fAddOrdered p fps a b = rounded p fps a.s ((2 * a.f - 2 * b.f / 2 ^ (a.e - b.e)) * 2 ^ k) 1 (a.e - k) := by
  unfold fAddOrdered
  simp only [if_neg hs, Nat.mul_comm _ 2]
  generalize 2 * a.f - 2 * b.f / 2 ^ (a.e - b.e) = t at *
  have ht : t ≠ 0 := by
    rintro rfl
    have := Nat.two_pow_pos p.bits
    omega
  have shift : p.bits + 1 - bitLength t = k := by
    have := bitLength_shift t k p.bits ht lo hi
    omega
  rw [if_neg ht, shift]
  rw [pow_succ] at hi
  exact roundPack_eq p fps a.s (t * 2 ^ k) 1 _ (by omega) (by omega)

/-- Operands of different signs whose magnitudes are alike after the shift (R440). -/
theorem fAddOrdered_vanish (hs : a.s ≠ b.s) (h : 2 * a.f = 2 * b.f / 2 ^ (a.e - b.e)) :
    fAddOrdered p fps a b = zeroResult := by
  unfold fAddOrdered
  simp only [if_neg hs, Nat.mul_comm _ 2, ← h, Nat.sub_self, if_true]
  rfl

/-- The quotient at one guard bit (R448). -/
theorem fDiv_eq (ha : a.e ≠ 0) (haf : a.f < 2 ^ p.bits) (hbf : 2 ^ (p.bits - 1) ≤ b.f) :
    fDiv p fps a b = if b.f ≤ a.f
      then rounded p fps (a.s != b.s) (a.f * 2 ^ p.bits / b.f) 1 ((a.e : Int) - b.e + 128 + 1)
      else rounded p fps (a.s != b.s) (a.f * 2 ^ (p.bits + 1) / b.f) 1 ((a.e : Int) - b.e + 128) := by
  have hpos : 0 < b.f := Nat.lt_of_lt_of_le (Nat.two_pow_pos _) hbf
  have hbits := two_pow_bits p
  have half {q : Nat} (h : q < 2 ^ (p.bits + 1)) : q / 2 ^ 1 < 2 ^ p.bits := by
    rw [pow_succ] at h
    omega
  unfold fDiv
  rw [if_neg ha]
  dsimp only
  split
  · refine roundPack_eq p fps _ _ 1 _ (by omega) (half ?_)
    rw [Nat.div_lt_iff_lt_mul hpos, pow_succ, Nat.mul_assoc, Nat.mul_comm]
    exact Nat.mul_lt_mul_of_pos_left (by omega) (Nat.two_pow_pos _)
  · refine roundPack_eq p fps _ _ 1 _ (by omega) (half ?_)
    rw [Nat.div_lt_iff_lt_mul hpos, Nat.mul_comm]
    exact Nat.mul_lt_mul_of_pos_left (by omega) (Nat.two_pow_pos _)

/-- A product of two fractions, shifted so that its leading one is at bit 2N-1 (R445, R452). -/
def normalProduct (p : Prec) (a b : Fnum) : Nat :=
  if decide (2 ^ (2 * p.bits - 1) ≤ a.f * b.f) then a.f * b.f else 2 * (a.f * b.f)

/-- The exponent of that product, without the excess of 128 (R445, R452). -/
def productExponent (p : Prec) (a b : Fnum) : Int :=
  (a.e : Int) + b.e - 256 - if decide (2 ^ (2 * p.bits - 1) ≤ a.f * b.f) then 0 else 1

section
variable (ha : a.e ≠ 0) (hb : b.e ≠ 0) (ha1 : 2 ^ (p.bits - 1) ≤ a.f) (ha2 : a.f < 2 ^ p.bits)
  (hb1 : 2 ^ (p.bits - 1) ≤ b.f) (hb2 : b.f < 2 ^ p.bits)
include ha1 ha2 hb1 hb2

theorem normalProduct_lt : normalProduct p a b < 2 ^ (2 * p.bits) := by
  have hm := (mul_normalized p a.f b.f ha1 ha2 hb1 hb2).2
  have split : 2 ^ (2 * p.bits) = 2 * 2 ^ (2 * p.bits - 1) := by cases p <;> rfl
  unfold normalProduct
  split
  · exact hm
  · next h =>
    have := of_decide_eq_false (eq_false_of_ne_true h)
    omega

theorem product_top : (a.f * b.f).testBit (2 * p.bits - 1) = decide (2 ^ (2 * p.bits - 1) ≤ a.f * b.f) := by
  have hm := (mul_normalized p a.f b.f ha1 ha2 hb1 hb2).2
  have := one_lt_bits p
  exact testBit_top _ _ (by rwa [show 2 * p.bits - 1 + 1 = 2 * p.bits by omega])

include ha hb

/-- The product, rounded from its 2N bits (R445). -/
theorem fMul_eq : fMul p fps a b =
    rounded p fps (a.s != b.s) (normalProduct p a b) p.bits (productExponent p a b + 128) := by
  have hn := one_lt_bits p
  have high : normalProduct p a b / 2 ^ p.bits < 2 ^ p.bits := by
    rw [Nat.div_lt_iff_lt_mul (Nat.two_pow_pos _), ← pow_add, ← two_mul]
    exact normalProduct_lt ha1 ha2 hb1 hb2
  rw [← roundPack_eq p fps _ _ _ _ (by omega) high]
  unfold fMul
  rw [if_neg (by omega)]
  simp only [product_top ha1 ha2 hb1 hb2]
  unfold normalProduct productExponent
  split
  · congr 1
    omega
  · congr 1
    · rw [two_pow_bits, Nat.mul_div_mul_left _ _ (by omega)]
    · rw [show p.bits - 1 = p.bits - 2 + 1 by omega, Nat.testBit_add_one, Nat.mul_div_cancel_left _ (by omega)]
    · omega

/-- MODF splits the normalized product (R452). -/
theorem fMod_eq : fMod p fps a b =
    fModParts p fps (a.s != b.s) (normalProduct p a b) (productExponent p a b) := by
  unfold fMod
  rw [if_neg (by omega)]
  simp only [product_top ha1 ha2 hb1 hb2]
  unfold normalProduct productExponent
  split
  · congr 1
    omega
  · rw [Nat.mul_comm]

end

section
variable {s : Bool} {m : Nat} {e : Int}

/-- A product below one has no integer part (R452). -/
theorem fModParts_below (hm : m < 2 ^ (2 * p.bits)) (he : e ≤ 0) :
    fModParts p fps s m e = (zeroResult, rounded p fps s m p.bits (e + 128)) := by
  have hn := one_lt_bits p
  have high : m / 2 ^ p.bits < 2 ^ p.bits := by
    rw [Nat.div_lt_iff_lt_mul (Nat.two_pow_pos _), ← pow_add, ← two_mul]
    exact hm
  rw [← roundPack_eq p fps _ _ _ _ (by omega) high]
  exact if_pos he

/-- A product of more than N integer bits has no fraction part (R452). -/
theorem fModParts_above (he : (p.bits : Int) < e) :
    fModParts p fps s m e = (pack p fps s (e + 128) (m / 2 ^ p.bits), zeroResult) := by
  unfold fModParts
  rw [if_neg (by omega)]
  exact if_pos he

section
variable (h1 : 1 ≤ e) (h2 : e ≤ p.bits)
include h1 h2

/-- The integer part is the bits above the point (R452). -/
theorem fModParts_integer : (fModParts p fps s m e).1 =
    pack p fps s (e + 128) (m / 2 ^ (2 * p.bits - e.toNat) * 2 ^ (p.bits - e.toNat)) := by
  unfold fModParts
  simp only [if_neg (show ¬ e ≤ 0 by omega), if_neg (show ¬ (p.bits : Int) < e by omega)]
  split <;> rfl

theorem fModParts_whole (hr : m % 2 ^ (2 * p.bits - e.toNat) = 0) : (fModParts p fps s m e).2 = zeroResult := by
  unfold fModParts
  simp only [if_neg (show ¬ e ≤ 0 by omega), if_neg (show ¬ (p.bits : Int) < e by omega), if_pos hr]
  rfl

/-- The fraction part is the bits below the point, shifted until they are normalized, and rounded (R452). -/
theorem fModParts_fraction {k : Nat} (lo : 2 ^ (2 * p.bits - 1) ≤ m % 2 ^ (2 * p.bits - e.toNat) * 2 ^ k)
    (hi : m % 2 ^ (2 * p.bits - e.toNat) * 2 ^ k < 2 ^ (2 * p.bits)) :
    (fModParts p fps s m e).2 =
      rounded p fps s (m % 2 ^ (2 * p.bits - e.toNat) * 2 ^ k) p.bits (e + 128 - k) := by
  have hn := one_lt_bits p
  have below : m % 2 ^ (2 * p.bits - e.toNat) < 2 ^ (2 * p.bits - e.toNat) := Nat.mod_lt _ (Nat.two_pow_pos _)
  unfold fModParts
  simp only [if_neg (show ¬ e ≤ 0 by omega), if_neg (show ¬ (p.bits : Int) < e by omega)]
  generalize m % 2 ^ (2 * p.bits - e.toNat) = r at *
  have hr : r ≠ 0 := by
    rintro rfl
    have := Nat.two_pow_pos (2 * p.bits - 1)
    omega
  have length : bitLength r + k = 2 * p.bits - 1 + 1 := bitLength_shift r k _ hr lo (by
    rwa [show 2 * p.bits - 1 + 1 = 2 * p.bits by omega])
  have short : bitLength r - 1 < 2 * p.bits - e.toNat :=
    (Nat.pow_lt_pow_iff_right (by omega)).1 (Nat.lt_of_le_of_lt (bitLength_spec r hr).1 below)
  have high : r * 2 ^ k / 2 ^ p.bits < 2 ^ p.bits := by
    rw [Nat.div_lt_iff_lt_mul (Nat.two_pow_pos _), ← pow_add, ← two_mul]
    exact hi
  rw [if_neg hr, ← roundPack_eq p fps _ _ _ _ (by omega) high,
    show e.toNat + (2 * p.bits - e.toNat - bitLength r) = k by omega]
  dsimp only
  congr 1
  omega

end
end

/-! ### Conversions of precision (R460, R461) -/

theorem narrow_zero (ha : a.e = 0) : narrow fps a = zeroResult := if_pos ha

theorem narrow_eq (ha : a.e ≠ 0) (haf : a.f < 2 ^ 56) : narrow fps a = rounded .single fps a.s a.f 32 a.e := by
  have high : a.f / 2 ^ 32 < 2 ^ 24 := by omega
  exact (if_neg ha).trans (roundPack_eq .single fps _ _ 32 _ (by omega) high)

/-- A widened value has the fraction of the single one, and zeros below it (R460). -/
theorem unpack_widen (x : Accum) : unpack .double (widen x).words =
    ⟨(unpack .single x).s, (unpack .single x).e, (unpack .single x).f * 2 ^ 32⟩ := by
  rw [unpack_double, unpack_single]
  simp only [widen, atPrec, Fnum.mk.injEq, true_and]
  have : (0 : Word).toNat = 0 := rfl
  omega

theorem narrow_widen {x : Accum} (h : exponentOf x.w0 ≠ 0) :
    narrow fps (unpack .double (widen x).words) = ⟨atPrec .single x, false, false, []⟩ := by
  have guard : ((unpack .single x).f * 2 ^ 32).testBit 31 = false := by
    rw [Nat.testBit_mul_two_pow, decide_eq_false (by decide), Bool.false_and]
  rw [unpack_widen]
  unfold narrow
  dsimp only
  rw [if_neg (show (unpack .single x).e ≠ 0 from h), Nat.mul_div_cancel _ (by decide), guard, roundPack_exact,
    pack_unpack h]

end

/-! ### Multiplying and dividing by one (R445, R448) -/

section
variable {p : Prec} {fps : Word} {a : Fnum} (ha : a.e ≠ 0)

/-- The number one (R409). -/
def oneF (p : Prec) : Fnum := ⟨false, 129, 2 ^ (p.bits - 1)⟩

include ha

theorem fMul_one (haf : a.f < 2 ^ p.bits) : fMul p fps a (oneF p) = pack p fps a.s a.e a.f := by
  have hn := one_lt_bits p
  have small : a.f * 2 ^ (p.bits - 1) < 2 ^ (2 * p.bits - 1) := by
    rw [show 2 * p.bits - 1 = p.bits + (p.bits - 1) by omega, pow_add]
    exact Nat.mul_lt_mul_of_pos_right haf (Nat.two_pow_pos _)
  have top : (a.f * 2 ^ (p.bits - 1)).testBit (2 * p.bits - 1) = false := Nat.testBit_lt_two_pow small
  have guard : (a.f * 2 ^ (p.bits - 1)).testBit (p.bits - 2) = false := by
    rw [Nat.testBit_mul_two_pow, decide_eq_false (by omega), Bool.false_and]
  have exponent : (a.e : Int) + (129 : Nat) - 128 - 1 = a.e := by omega
  unfold fMul oneF
  simp only [top, guard, exponent, if_neg (show ¬ (a.e = 0 ∨ 129 = 0) by omega), Bool.false_eq_true, if_false,
    Nat.mul_div_cancel _ (Nat.two_pow_pos _), roundPack_exact, Bool.bne_false]

theorem fDiv_one (haf : 2 ^ (p.bits - 1) ≤ a.f) : fDiv p fps a (oneF p) = pack p fps a.s a.e a.f := by
  have quotient : a.f * 2 ^ p.bits / 2 ^ (p.bits - 1) = 2 * a.f := by
    rw [two_pow_bits, ← Nat.mul_assoc, Nat.mul_div_cancel _ (Nat.two_pow_pos _), Nat.mul_comm]
  have guard : (2 * a.f).testBit 0 = false := by
    rw [Nat.testBit_zero, decide_eq_false (by omega)]
  have exponent : (a.e : Int) - (129 : Nat) + 128 + 1 = a.e := by omega
  unfold fDiv oneF
  simp only [if_neg ha, if_pos haf, quotient, guard, exponent, Nat.mul_div_cancel_left _ (show 0 < 2 by decide),
    roundPack_exact, Bool.bne_false]

end

/-- Settles O55: the laws by packing a value again, and each result by rounding as one division. -/
theorem arithmeticLaws : Obligations.ArithmeticLaws := by
  refine fun p fps => ⟨fun x z hx hz => ?kept,
    fun a b => ⟨fAdd_comm a b, fMul_comm a b, fun h => ⟨fMul_zero h, fDiv_zero h⟩⟩,
    fun a b => ⟨fSub_eq a b, fMod_zero⟩,
    fun a b ha hb ha1 ha2 hb1 hb2 => ⟨fun order => ⟨fun hs => ?same,
        fun hs => ⟨?vanish, fun k lo hi => ?diff⟩⟩,
      fDiv_eq ha ha2 hb1, fMul_eq ha hb ha1 ha2 hb1 hb2, fun he => ?below, fun he => ?above,
      fun h1 h2 => ⟨?integer, ?whole, fun k lo hi => ?fraction⟩⟩,
    fun x => ⟨rfl, ?narrowed⟩, fun a => ⟨narrow_zero, fun ha _ => narrow_eq ha⟩⟩
  case kept =>
    have again := pack_unpack (p := p) (fps := fps) hx
    have hf := unpack_f_lt p x
    have hpos : (unpack p x).e ≠ 0 := hx
    exact ⟨(fAdd_zero hpos hz).trans again, (fSub_zero hpos hz).trans again,
      fAdd_cancel hpos (Bool.not_ne_self _).symm rfl rfl, fSub_self hpos,
      (fMul_one hpos hf).trans again, (fDiv_one hpos (Nat.le_add_right _ _)).trans again⟩
  case same => exact (fAdd_ordered ha hb order).trans (fAddOrdered_same hs ha2 hb2)
  case vanish => exact fun h => (fAdd_ordered ha hb order).trans (fAddOrdered_vanish hs h)
  case diff => exact (fAdd_ordered ha hb order).trans (fAddOrdered_diff hs lo hi)
  case below =>
    rw [fMod_eq ha hb ha1 ha2 hb1 hb2, fMul_eq ha hb ha1 ha2 hb1 hb2]
    exact fModParts_below (normalProduct_lt ha1 ha2 hb1 hb2) he
  case above => exact (fMod_eq ha hb ha1 ha2 hb1 hb2).trans (fModParts_above he)
  case integer =>
    rw [fMod_eq ha hb ha1 ha2 hb1 hb2]
    exact fModParts_integer h1 h2
  case whole =>
    rw [fMod_eq ha hb ha1 ha2 hb1 hb2]
    exact fModParts_whole h1 h2
  case fraction =>
    rw [fMod_eq ha hb ha1 ha2 hb1 hb2]
    exact fModParts_fraction h1 h2 lo hi
  case narrowed =>
    by_cases h : exponentOf x.w0 = 0
    · rw [if_pos h]
      exact narrow_zero h
    · rw [if_neg h]
      exact narrow_widen h

/-! ### Integers (R455, R456) -/

/-- The integer part of a value's magnitude (R456). -/
def Fnum.integerPart (p : Prec) (a : Fnum) : Nat := a.f * 2 ^ a.e / 2 ^ (p.bits + 128)

section
variable {p : Prec} {a : Fnum}

theorem integerPart_small (haf : a.f < 2 ^ p.bits) (he : a.e ≤ 128) : a.integerPart p = 0 := by
  refine Nat.div_eq_of_lt ?_
  rw [pow_add]
  calc a.f * 2 ^ a.e ≤ a.f * 2 ^ 128 := Nat.mul_le_mul_left _ (Nat.pow_le_pow_right (by omega) he)
    _ < 2 ^ p.bits * 2 ^ 128 := Nat.mul_lt_mul_of_pos_right haf (by omega)

/-- Where the point is within the fraction, or below it. -/
theorem integerPart_shift (he : 128 < a.e) : a.integerPart p =
    if a.e - 128 ≤ p.bits then a.f / 2 ^ (p.bits - (a.e - 128)) else a.f * 2 ^ (a.e - 128 - p.bits) := by
  unfold Fnum.integerPart
  split
  · rw [show p.bits + 128 = p.bits - (a.e - 128) + a.e by omega, pow_add,
      Nat.mul_div_mul_right _ _ (Nat.two_pow_pos _)]
  · rw [show 2 ^ a.e = 2 ^ (a.e - 128 - p.bits) * 2 ^ (p.bits + 128) by rw [← pow_add]; congr 1; omega,
      ← Nat.mul_assoc, Nat.mul_div_cancel _ (Nat.two_pow_pos _)]

/-- The integer part with the value's sign, where it is within W bits (R456). -/
theorem fToInt_eq (haf : a.f < 2 ^ p.bits) (w : Nat) {v : Int}
    (hv : v = if a.s then -(a.integerPart p : Int) else a.integerPart p) :
    fToInt p a w = if v < -(2 ^ (w - 1)) ∨ 2 ^ (w - 1) ≤ v then (0, true) else (v, false) := by
  unfold fToInt
  split
  · next he =>
    have hpos : (0 : Int) < 2 ^ (w - 1) := by positivity
    have : v = 0 := by
      rw [hv, integerPart_small haf he]
      simp
    rw [if_neg (by omega), this]
  · next he =>
    dsimp only
    rw [← integerPart_shift (by omega), ← hv]
    exact if_congr (by omega) rfl rfl

section
variable {fps : Word} {i : Int} {l : Nat} (lo : 2 ^ l ≤ i.natAbs) (hi : i.natAbs < 2 ^ (l + 1))
include lo hi

/-- The position of the leading one decides how an integer converts (R455). -/
theorem intToF_eq : intToF p fps i =
    if l < p.bits then pack p fps (decide (i < 0)) (l + 129) (i.natAbs * 2 ^ (p.bits - 1 - l))
    else rounded p fps (decide (i < 0)) i.natAbs (l + 1 - p.bits) (l + 129) := by
  have hpos := Nat.two_pow_pos l
  have length : bitLength i.natAbs = l + 1 := bitLength_shift _ 0 l (by omega) (by simpa using lo) (by simpa using hi)
  have exponent : (128 : Int) + (l + 1 : Nat) = l + 129 := by omega
  unfold intToF
  simp only [if_neg (show i ≠ 0 by omega), length, exponent]
  split
  · rw [if_pos (by omega), roundPack_exact, Nat.sub_sub, Nat.add_comm 1]
  · rw [if_neg (by omega)]
    refine roundPack_eq p fps _ _ _ _ (by omega) ?_
    rw [Nat.div_lt_iff_lt_mul (Nat.two_pow_pos _), ← pow_add]
    rwa [show p.bits + (l + 1 - p.bits) = l + 1 by omega]

/-- An integer of at most N bits converts exactly (R455). -/
theorem intToF_exact (hl : l < p.bits) : intToF p fps i =
    ⟨spliceWords p (decide (i < 0)) (l + 129) (i.natAbs * 2 ^ (p.bits - 1 - l)), false, false, []⟩ := by
  have : p.bits ≤ 56 := by cases p <;> decide
  rw [intToF_eq lo hi, if_pos hl, pack_between (by omega) (by omega)]
  rfl

theorem unpack_intToF (hl : l < p.bits) : unpack p (intToF p fps i).words =
    ⟨decide (i < 0), l + 129, i.natAbs * 2 ^ (p.bits - 1 - l)⟩ := by
  have : p.bits ≤ 56 := by cases p <;> decide
  rw [intToF_exact lo hi hl]
  refine unpack_spliceWords p _ _ _ (by omega) ?_ ?_
  · calc 2 ^ (p.bits - 1) = 2 ^ l * 2 ^ (p.bits - 1 - l) := by rw [← pow_add]; congr 1; omega
      _ ≤ _ := Nat.mul_le_mul_right _ lo
  · calc i.natAbs * 2 ^ (p.bits - 1 - l) < 2 ^ (l + 1) * 2 ^ (p.bits - 1 - l) :=
          Nat.mul_lt_mul_of_pos_right hi (Nat.two_pow_pos _)
      _ = 2 ^ p.bits := by rw [← pow_add]; congr 1; omega

end

/-- An integer of at most N bits converts to floating and back (R468). -/
theorem fToInt_intToF {fps : Word} {i : Int} {w : Nat} (hi : i.natAbs < 2 ^ p.bits) (h1 : -(2 ^ (w - 1)) ≤ i)
    (h2 : i < 2 ^ (w - 1)) : fToInt p (unpack p (intToF p fps i).words) w = (i, false) := by
  by_cases hz : i = 0
  · subst hz
    have zero : exponentOf (intToF p fps 0).words.w0 = 0 := by
      rw [show intToF p fps 0 = zeroResult from rfl]
      decide
    exact if_pos (zero.trans_le (by omega))
  have habs : i.natAbs ≠ 0 := by omega
  have lead : i.natAbs.log2 < p.bits := (Nat.log2_lt habs).2 hi
  have value := unpack_intToF (p := p) (fps := fps) (Nat.log2_self_le habs) Nat.lt_log2_self lead
  have part : (unpack p (intToF p fps i).words).integerPart p = i.natAbs := by
    rw [value]
    unfold Fnum.integerPart
    rw [Nat.mul_assoc, ← pow_add, show p.bits - 1 - i.natAbs.log2 + (i.natAbs.log2 + 129) = p.bits + 128 by omega]
    exact Nat.mul_div_cancel _ (Nat.two_pow_pos _)
  rw [fToInt_eq (v := i) (unpack_f_lt _ _) w (by rw [part, value]; simp only [decide_eq_true_eq]; split <;> omega)]
  exact if_neg (by omega)

end

/-- Settles O56: the integer part by where the point is, the conversion by where the leading one is. -/
theorem integerRoundTrip : Obligations.IntegerRoundTrip := by
  refine ⟨fun p a w haf => ⟨fun h1 h2 => ?inside, fun h => ?outside⟩,
    fun p fps i l lo hi => ⟨fun hl => ?exactly, fun hl => ?long⟩, fun p fps => rfl,
    fun p fps i => ?word, fun fps i => ?long_word⟩
  case inside => exact (fToInt_eq haf w rfl).trans (if_neg (not_or.2 ⟨not_lt.2 h1, not_le.2 h2⟩))
  case outside => exact (fToInt_eq haf w rfl).trans (if_pos h)
  case exactly =>
    rw [intToF_exact lo hi hl]
    exact ⟨rfl, rfl, rfl, by rw [← intToF_exact lo hi hl (fps := fps)]; exact unpack_intToF lo hi hl⟩
  case long => exact (intToF_eq lo hi).trans (if_neg (by omega))
  case word =>
    have h1 := i.le_two_mul_toInt
    have h2 := i.two_mul_toInt_lt
    have wide : 2 ^ 24 ≤ 2 ^ p.bits := by cases p <;> decide
    exact fToInt_intToF (by omega) (by omega) (by omega)
  case long_word =>
    have h1 := i.le_two_mul_toInt
    have h2 := i.two_mul_toInt_lt
    have wide : 2 ^ 56 ≤ 2 ^ Prec.double.bits := le_refl _
    exact fToInt_intToF (by omega) (by omega) (by omega)

end Sys2Proof.Machine
end

section
/-! A boundary between two instructions, event by event and gate by gate, and the fetch after it (60_exceptions.md rules
R602, R620 to R646, 70_reset_and_hazards.md rules R701, R702, R706). -/

namespace Sys2Proof.Machine

/-! ### The events of a boundary (R646) -/

theorem State.takeInputs_nil {s : State} (h : s.inputs = []) : s.takeInputs = s := by
  unfold State.takeInputs
  rw [h]

theorem State.takeInputs_cons {s : State} {es : List Input} {rest : List (List Input)} (h : s.inputs = es :: rest) :
    s.takeInputs = es.foldl (fun u e => u.applyInput e) { s with inputs := rest } := by
  unfold State.takeInputs
  rw [h]
  exact State.applyInputs_foldl es _

/-! ### The run states (R640 to R645) -/

section
variable {before s : State} (hs : s = before.takeInputs)
include hs

theorem beginCycle_running {stepping : Bool} (h : s.ctl.runState = if stepping then .step else .run) :
    beginCycle before = afterBoundary stepping s.boundary := by
  subst hs
  unfold beginCycle
  cases stepping <;> simp only [h, if_true, Bool.false_eq_true, if_false]

theorem beginCycle_waiting (h : s.ctl.runState = .wait) : beginCycle before = waiting s := by
  subst hs
  unfold beginCycle
  simp only [h]

theorem beginCycle_halted (h : s.ctl.runState = .halt) : beginCycle before = .done s := by
  subst hs
  unfold beginCycle
  simp only [h]

theorem beginCycle_reset (h : s.ctl.runState = .reset) :
    beginCycle before = afterBoundary false (s.setRunState .run).boundary := by
  subst hs
  unfold beginCycle
  simp only [h]

end

theorem step_done {s t : State} (h : beginCycle s = .done t) : step s = .next t := by
  unfold step
  rw [h]

theorem step_execute {s t u : State} {i : Instr} {stepping : Bool} (h : beginCycle s = .execute i stepping t)
    (hu : exec i t = .next u) : step s = .next (u.endCycle stepping) := by
  unfold step
  simp only [h, hu]

/-! ### The boundary itself (R630) -/

section
variable {s : State}

theorem State.boundary_unflagged (h : s.ctl.irqFlag = false) : s.boundary = s :=
  if_neg (by rw [h]; exact Bool.false_ne_true)

theorem State.boundary_delayed (h : s.ctl.irqFlag = true) (hd : s.ctl.irqDelay = true) :
    s.boundary = s.setIrqDelay false := (if_pos h).trans (if_pos hd)

theorem State.boundary_checked (h : s.ctl.irqFlag = true) (hd : s.ctl.irqDelay = false) :
    s.boundary = s.interruptCheck.2 := (if_pos h).trans (if_neg (by rw [hd]; exact Bool.false_ne_true))

/-- The state after a boundary at which no check is made: the delay of a flagged one is over (R630). -/
def State.undelayed (s : State) : State := s.setIrqDelay (if s.ctl.irqFlag then false else s.ctl.irqDelay)

/-- With nothing due, a boundary ends the delay of a flagged check and does nothing else (R630). -/
theorem State.boundary_undue (h : s.ctl.irqFlag = false ∨ s.ctl.irqDelay = true) :
    s.boundary = s.undelayed := by
  unfold State.undelayed
  cases hf : s.ctl.irqFlag
  · exact State.boundary_unflagged hf
  · exact State.boundary_delayed hf (h.resolve_left (by rw [hf]; exact Bool.noConfusion))

theorem afterBoundary_awake {stepping : Bool} (h : s.ctl.runState ≠ .halt) (hd : s.deferredTrap.ctl.runState ≠ .halt) :
    afterBoundary stepping s = fetchInstr stepping s.deferredTrap := by
  have awake : ¬ s.halted = true := fun hh => h (beq_iff_eq.1 hh)
  have goesOn : ¬ s.deferredTrap.halted = true := fun hh => hd (beq_iff_eq.1 hh)
  exact (if_neg awake).trans (if_neg goesOn)

theorem State.deferredTrap_none (h : s.ctl.pending = {}) : s.deferredTrap = s := by
  unfold State.deferredTrap
  rw [h]
  rfl

end

/-! ### The fetch (R632, R633, R635) -/

/-- A machine in whose state the instruction word is read (R632, R633). -/
def State.fetching (s : State) : State := { s with
  mmu := if s.mmu.mmr0.extractLsb' 13 3 = 0 then { s.mmu with mmr1 := 0, mmr2 := s.pc } else s.mmu
  ctl := { s.ctl with pending := { s.ctl.pending with trace := s.psw.getLsbD 4 } } }

section
variable {s t : State} {stepping : Bool}

theorem State.fetching_none_pending (h : s.ctl.pending = {}) : s.fetching = { s with
    mmu := if s.mmu.mmr0.extractLsb' 13 3 = 0 then { s.mmu with mmr1 := 0, mmr2 := s.pc } else s.mmu
    ctl := { s.ctl with pending := { trace := s.psw.getLsbD 4 } } } := by
  unfold State.fetching
  rw [h]

theorem fetchInstr_ok {ir : Word} (h : memRead (inI s.pc) .word s.fetching = .ok ir t) :
    fetchInstr stepping s = .execute (decodeWord ir) stepping (t.setPc (s.pc + 2)) := by
  have hf : fetch s.traceSnapshot = .ok ir (t.setPc (s.pc + 2)) :=
    fetch_run (s := s.traceSnapshot) (by rw [State.noteFetch_eq]; exact h)
  unfold fetchInstr
  rw [hf]

theorem fetchInstr_abort {v : Word} (h : memRead (inI s.pc) .word s.fetching = .error v t) :
    fetchInstr stepping s = .done ((trapSeq v t).endCycle stepping) := by
  have hf : fetch s.traceSnapshot = .error v t :=
    fetch_abort (s := s.traceSnapshot) (by rw [State.noteFetch_eq]; exact h)
  unfold fetchInstr
  rw [hf]

end

/-- With nothing due, deferred or scheduled, a cycle begins with the fetch (R630, R631). -/
theorem beginCycle_undue {before s : State} {stepping : Bool} (hs : s = before.takeInputs)
    (hi : s.ctl.irqFlag = false ∨ s.ctl.irqDelay = true) (hp : s.ctl.pending = {})
    (hr : s.ctl.runState = if stepping then .step else .run) :
    beginCycle before = fetchInstr stepping s.undelayed := by
  have awake : s.ctl.runState ≠ .halt := by
    rw [hr]
    cases stepping <;> exact nofun
  have none : s.undelayed.deferredTrap = s.undelayed := State.deferredTrap_none hp
  have goesOn := afterBoundary_awake (stepping := stepping) (s := s.undelayed) awake (by rw [none]; exact awake)
  rw [beginCycle_running hs hr, State.boundary_undue hi, goesOn, none]

/-- Settles O4: the boundary leads to the fetch, and the word fetched decodes as its two bytes do. -/
theorem stepRunsDecoded : Obligations.StepRunsDecoded := by
  intro before s hs hi hp f
  have fetched : f = s.undelayed.fetching := (State.fetching_none_pending (s := s.undelayed) hp).symm
  refine ⟨fun h => hs.trans (State.takeInputs_nil h), fun ir s1 i rest hm hd => ?_, fun v s1 hm => ?_⟩
  · obtain rfl : decodeWord ir = i := by
      have := (decode_bytesOfWord_append ir rest).symm.trans hd
      injection this with this
      injection this
    rw [fetched] at hm
    constructor
    · intro hr
      obtain ⟨t, ht⟩ := Tests.exec_next (decodeWord ir) (s1.setPc (s.pc + 2))
      rw [ht]
      exact step_execute ((beginCycle_undue (stepping := false) hs hi hp hr).trans (fetchInstr_ok hm)) ht
    · intro hr t ht
      exact step_execute ((beginCycle_undue (stepping := true) hs hi hp hr).trans (fetchInstr_ok hm)) ht
  · rw [fetched] at hm
    constructor
    · intro hr
      exact step_done ((beginCycle_undue (stepping := false) hs hi hp hr).trans (fetchInstr_abort hm))
    · intro hr
      exact step_done ((beginCycle_undue (stepping := true) hs hi hp hr).trans (fetchInstr_abort hm))

/-! ### Arbitration and the grant (R621, R622) -/

theorem pollLevel_some {d : Device} {r : IrqRequest} (h : d.request = some r) : pollLevel d = r.level.toNat := by
  unfold pollLevel
  rw [h]

/-- A device polls at most at a level no request of it stands above (R620). -/
theorem pollLevel_le {d : Device} {n : Nat} (h : ∀ r, d.request = some r → r.level.toNat ≤ n) : pollLevel d ≤ n := by
  unfold pollLevel
  split
  · next r hr => exact h r hr
  · exact Nat.zero_le n

/-- Where no device stands above the best so far, the best stays (R621). -/
theorem arbitrateFrom_keep {best : Nat × Option Nat} {ds : List Device} (h : ∀ d ∈ ds, pollLevel d ≤ best.1) (k : Nat) :
    arbitrateFrom best k ds = best := by
  induction ds generalizing k with
  | nil => rfl
  | cons d ds ih =>
    obtain ⟨hd, hds⟩ := List.forall_mem_cons.1 h
    rw [arbitrateFrom, if_neg (by omega)]
    exact ih hds _

/-- The first device at the highest level wins over the best so far (R621). -/
theorem arbitrateFrom_wins {best : Nat × Option Nat} {pre : List Device} {d : Device} {post : List Device}
    (hbest : best.1 < pollLevel d) (hpre : ∀ e ∈ pre, pollLevel e < pollLevel d)
    (hpost : ∀ e ∈ post, pollLevel e ≤ pollLevel d) (k : Nat) :
    arbitrateFrom best k (pre ++ d :: post) = (pollLevel d, some (k + pre.length)) := by
  induction pre generalizing best k with
  | nil =>
    rw [List.nil_append, arbitrateFrom, if_pos hbest]
    exact arbitrateFrom_keep hpost _
  | cons a pre ih =>
    obtain ⟨ha, hpre⟩ := List.forall_mem_cons.1 hpre
    rw [List.cons_append, arbitrateFrom, ih (by split <;> assumption) hpre, List.length_cons, Nat.add_assoc,
      Nat.add_comm 1]

/-- A machine taken out of its wait (R622). -/
def State.awake (s : State) : State := if s.ctl.runState = .wait then s.setRunState .run else s

section
variable {s : State}

theorem interruptCheck_fst : s.interruptCheck.1 = true ↔ pswPri s.psw < s.arbitrate.1 := by
  unfold State.interruptCheck
  dsimp only
  split
  · next h => exact iff_of_true rfl h
  · next h => exact iff_of_false Bool.false_ne_true h

theorem interruptCheck_refused (h : s.interruptCheck.1 = false) : s.interruptCheck.2 = s.setIrqFlag false := by
  have idle : ¬ pswPri s.psw < s.arbitrate.1 := fun hlt => by
    rw [interruptCheck_fst.2 hlt] at h
    cases h
  unfold State.interruptCheck
  dsimp only
  rw [if_neg idle]

theorem interruptCheck_granted (h : pswPri s.psw < s.arbitrate.1) :
    s.interruptCheck.2 = trapSeq (s.consumeRequest s.arbitrate.2).1
      ((s.consumeRequest s.arbitrate.2).2.awake.setIrqFlag true) := by
  unfold State.interruptCheck
  dsimp only
  rw [if_pos h]
  rfl

/-- PIRQ wins over the devices of its level, and is not consumed (R621, R622). -/
theorem interruptCheck_pirq (h : pswPri s.psw < pirLevelField s.ctl.pirq)
    (hd : ∀ d ∈ s.devices, ∀ r, d.request = some r → r.level.toNat ≤ pirLevelField s.ctl.pirq) :
    s.interruptCheck.2 = trapSeq 0o240 (s.awake.setIrqFlag true) := by
  have wins : s.arbitrate = (pirLevelField s.ctl.pirq, none) :=
    arbitrateFrom_keep (fun d hm => pollLevel_le (hd d hm)) 0
  rw [interruptCheck_granted (by rw [wins]; exact h), wins]
  rfl

/-- The grant of a device's request consumes it (R620, R622). -/
theorem consumeRequest_device {pre : List Device} {d : Device} {post : List Device} {r : IrqRequest}
    (hs : s.devices = pre ++ d :: post) (hr : d.request = some r) :
    s.consumeRequest (some pre.length) = (r.vector, s.setDevices (pre ++ { d with request := none } :: post)) := by
  have found : s.devices[pre.length]? = some d := by
    rw [hs, List.getElem?_append_right (le_refl _), Nat.sub_self]
    rfl
  unfold State.consumeRequest
  dsimp only
  rw [found]
  dsimp only
  rw [hr, hs, setRequest_mid]

theorem interruptCheck_device {pre : List Device} {d : Device} {post : List Device} {r : IrqRequest}
    (hs : s.devices = pre ++ d :: post) (hr : d.request = some r) (h : pswPri s.psw < r.level.toNat)
    (hpirq : pirLevelField s.ctl.pirq < r.level.toNat)
    (hpre : ∀ e ∈ pre, ∀ q, e.request = some q → q.level.toNat < r.level.toNat)
    (hpost : ∀ e ∈ post, ∀ q, e.request = some q → q.level.toNat ≤ r.level.toNat) :
    s.interruptCheck.2 =
      trapSeq r.vector ((s.setDevices (pre ++ { d with request := none } :: post)).awake.setIrqFlag true) := by
  have level := pollLevel_some hr
  have wins : s.arbitrate = (r.level.toNat, some pre.length) := by
    unfold State.arbitrate
    rw [hs, arbitrateFrom_wins (by rwa [level]) (fun e he => ?pre) (fun e he => ?post) 0, level, Nat.zero_add]
    case pre =>
      have below : pollLevel e ≤ r.level.toNat - 1 := pollLevel_le fun q hq => Nat.le_sub_one_of_lt (hpre e he q hq)
      omega
    case post =>
      rw [level]
      exact pollLevel_le (hpost e he)
  rw [interruptCheck_granted (by rw [wins]; exact h), wins, consumeRequest_device hs hr]

end

/-- A waiting machine checks whatever the delay (R643). -/
theorem waiting_granted {s : State} (hf : s.ctl.irqFlag = true) (hg : (s.setIrqDelay false).interruptCheck.1 = true) :
    waiting s = afterBoundary false (s.setIrqDelay false).interruptCheck.2 := by
  unfold waiting
  dsimp only
  rw [if_pos hf, if_pos hg]

theorem waiting_refused {s : State} (hf : s.ctl.irqFlag = true) (hg : (s.setIrqDelay false).interruptCheck.1 = false) :
    waiting s = .done ((s.setIrqDelay false).setIrqFlag false) := by
  unfold waiting
  dsimp only
  rw [if_pos hf, if_neg (by rw [hg]; exact Bool.false_ne_true), interruptCheck_refused hg]

/-! ### Host events (R620, R640, R702, R706) -/

section
variable {s : State}

theorem applyInput_reset : s.applyInput .reset = { s with
    devices := resetDevices s.devices
    mmu := { s.mmu with
      mmr0 := 0, mmr3 := 0, lastPage := 0
      par := if s.params.resetClearsPageTables then Vector.replicate 64 0 else s.mmu.par
      pdr := if s.params.resetClearsPageTables then Vector.replicate 64 0 else s.mmu.pdr }
    ctl := { s.ctl with
      pirq := 0, slr := 0, cpuErr := 0
      runState := if s.ctl.runState = .halt ∨ s.ctl.runState = .step then .halt else .reset } } := by
  change s.resetRequest = _
  unfold State.resetRequest
  rw [State.resetEffect_eq]
  rfl

/-- Boot loads the image, and starts it in kernel mode with its stack below it (R706). -/
theorem applyInput_boot {b : BootImage} (hb : s.params.boot = some b) : s.applyInput .boot = { s with
    mem := Memory.writeWords s.mem b.base.toNat b.image
    psw := 0, pc := b.base, spm := s.spm.set 0 b.base, devices := resetDevices s.devices
    ctl := { s.ctl with
      pirq := 0, trapPsw := none, pending := {}, irqFlag := false, irqDelay := false, runState := .run } } := by
  change s.bootWith s.params.boot = _
  rw [hb]
  unfold State.bootWith
  dsimp only
  rw [State.loadPsw_eq]
  split <;> rfl

/-- A number that names no device raises and withdraws nothing (R620). -/
theorem applyInput_unnamed {k : Nat} (hk : s.devices.length ≤ k) (level : BitVec 3) (vector : Word) :
    s.applyInput (.raise k level vector) = s ∧ s.applyInput (.drop k) = s := by
  constructor
  · exact if_neg (by omega)
  · change s.setDevices (setRequest s.devices k none) = s
    rw [setRequest_out _ _ _ hk]
    rfl

/-- One that names a device changes its request, and a request raised flags the check (R67, R620). -/
theorem applyInput_named {pre : List Device} {d : Device} {post : List Device} (hs : s.devices = pre ++ d :: post)
    (level : BitVec 3) (vector : Word) :
    s.applyInput (.raise pre.length level vector) = { s with
        devices := pre ++ { d with request := some ⟨level, vector⟩ } :: post
        ctl := { s.ctl with irqFlag := true } } ∧
      s.applyInput (.drop pre.length) = { s with devices := pre ++ { d with request := none } :: post } := by
  constructor
  · change s.raiseRequest _ _ = _
    unfold State.raiseRequest
    rw [if_pos (by rw [hs, List.length_append, List.length_cons]; omega), hs, setRequest_mid]
    rfl
  · change s.setDevices (setRequest s.devices _ none) = _
    rw [hs, setRequest_mid]
    rfl

end

/-- Settles O5: the run states and gates of a boundary, its events one by one, and the grant by arbitration. -/
theorem boundaryEvents : Obligations.BoundaryEvents := by
  refine ⟨fun before s hs => ⟨fun h => hs.trans (State.takeInputs_nil h),
      fun es rest h => hs.trans (State.takeInputs_cons h),
      fun stepping hr => ⟨fun hf => ?unflagged, fun hf hd => ?delayed, fun hf hd => ?checked⟩,
      fun hr => ⟨fun hf => ?waits, fun hf => ⟨fun hg => ?refused, fun hg => ?granted⟩⟩,
      fun hr => step_done (beginCycle_halted hs hr),
      fun hr => ⟨fun hf => ?resetUnflagged, fun hf hd => ?resetDelayed, fun hf hd => ?resetChecked⟩⟩,
    fun s => ⟨fun h => ⟨if_pos h, if_pos h⟩, fun h => ⟨if_neg h, if_neg h⟩, rfl, applyInput_reset, fun h => ?noBoot,
      fun b hb hm => ⟨_, applyInput_boot hb, Memory.writeWords_spec b.image s.mem b.base.toNat hm⟩, rfl,
      fun v => rfl,
      fun k level vector => ⟨fun hk => applyInput_unnamed hk level vector, fun pre d post hs hk => ?named⟩⟩,
    fun s => ⟨interruptCheck_fst.trans (lt_arbitrate s _), interruptCheck_refused, interruptCheck_pirq,
      fun pre d post r hs hr h1 h2 h3 h4 => interruptCheck_device hs hr h1 h2 h3 h4,
      fun stepping => afterBoundary_awake,
      fun stepping => ⟨fun ir t => fetchInstr_ok, fun v t => fetchInstr_abort, fun i t u => step_execute⟩,
      fun t => step_done, rfl, fun h v => ?firstTrap⟩⟩
  case unflagged => rw [beginCycle_running hs hr, State.boundary_unflagged hf]
  case delayed => rw [beginCycle_running hs hr, State.boundary_delayed hf hd]
  case checked => rw [beginCycle_running hs hr, State.boundary_checked hf hd]
  case waits => exact step_done ((beginCycle_waiting hs hr).trans (if_neg (by rw [hf]; exact Bool.false_ne_true)))
  case refused => exact step_done ((beginCycle_waiting hs hr).trans (waiting_refused hf hg))
  case granted => exact (beginCycle_waiting hs hr).trans (waiting_granted hf hg)
  case resetUnflagged => rw [beginCycle_reset hs hr, State.boundary_unflagged (s := s.setRunState .run) hf]
  case resetDelayed => rw [beginCycle_reset hs hr, State.boundary_delayed (s := s.setRunState .run) hf hd]
  case resetChecked => rw [beginCycle_reset hs hr, State.boundary_checked (s := s.setRunState .run) hf hd]
  case noBoot =>
    change s.bootWith s.params.boot = s
    rw [h]
    rfl
  case named =>
    subst hk
    exact applyInput_named hs level vector
  case firstTrap => rw [trapEnter_first h]; rfl

end Sys2Proof.Machine
end

section
/-! Taking a trap with relocation off: the state after both pushes in every field, a nested trap, the stack check of the
pushes, and the fault that halts the machine (60_exceptions.md rules R602 to R609). -/

namespace Sys2Proof.Machine

/-! ### What a trap leaves of the memory-management registers (R604, R607) -/

/-- A push with relocation off records its step, unless an abort is frozen, and uses page 0 last (R48, R182). -/
def Mmu.pushed (u : Mmu) : Mmu :=
  { (if mmr0Frozen u.mmr0 then u else { u with mmr1 := (u.mmr1 <<< 8) ||| 0o366 }) with lastPage := 0 }

/-- The registers after a trap to `v`: MMR1 holds its two pushes and MMR2 the vector, unless an abort is frozen
(R604). -/
def Mmu.entered (v : Word) (u : Mmu) : Mmu :=
  if mmr0Frozen u.mmr0 then { u with lastPage := 0 } else { u with mmr1 := 0o173366, mmr2 := v, lastPage := 0 }

theorem Mmu.entered_kept (v : Word) (u : Mmu) : (u.entered v).par = u.par ∧ (u.entered v).pdr = u.pdr ∧
    (u.entered v).mmr0 = u.mmr0 ∧ (u.entered v).mmr3 = u.mmr3 ∧ (u.entered v).ubmap = u.ubmap ∧
    (u.entered v).lastPage = 0 := by
  unfold Mmu.entered
  split
  · exact ⟨rfl, rfl, rfl, rfl, rfl, rfl⟩
  · exact ⟨rfl, rfl, rfl, rfl, rfl, rfl⟩

theorem Mmu.entered_frozen (v : Word) {u : Mmu} (h : u.mmr0.extractLsb' 13 3 ≠ 0) :
    (u.entered v).mmr1 = u.mmr1 ∧ (u.entered v).mmr2 = u.mmr2 := by
  unfold Mmu.entered
  rw [if_pos ((mmr0Frozen_iff _).2 h)]
  exact ⟨rfl, rfl⟩

theorem Mmu.entered_running (v : Word) {u : Mmu} (h : u.mmr0.extractLsb' 13 3 = 0) :
    (u.entered v).mmr1 = 0o173366 ∧ (u.entered v).mmr2 = v := by
  unfold Mmu.entered
  rw [if_neg fun hf => (mmr0Frozen_iff _).1 hf h]
  exact ⟨rfl, rfl⟩

/-- The registers as a trap to `v` sets them before its accesses (R604). -/
def Mmu.entering (v : Word) (u : Mmu) : Mmu := if mmr0Frozen u.mmr0 then u else { u with mmr1 := 0, mmr2 := v }

theorem State.trapBookkeeping_eq (v : Word) (s : State) : s.trapBookkeeping v = s.setMmu (s.mmu.entering v) := by
  unfold State.trapBookkeeping Mmu.entering
  split <;> rfl

theorem Mmu.entering_mmr0 (v : Word) (u : Mmu) : (u.entering v).mmr0 = u.mmr0 := by
  unfold Mmu.entering
  split <;> rfl

/-- The two accesses and the two pushes of a trap together (R604, R607). -/
theorem Mmu.pushed_entering (v : Word) (u : Mmu) :
    Mmu.pushed (Mmu.pushed { u.entering v with lastPage := 0 }) = u.entered v := by
  unfold Mmu.entering Mmu.pushed Mmu.entered
  by_cases h : mmr0Frozen u.mmr0 = true
  · simp only [h, if_true]
  · simp only [h, if_false, Bool.false_eq_true]
    rfl

/-- What lies outside the processor stays, and the memory-management registers are as given. -/
structure Outside (u : Mmu) (s t : State) : Prop where
  mmu : t.mmu = u
  devices : t.devices = s.devices
  inputs : t.inputs = s.inputs
  draws : t.draws = s.draws

theorem Outside.trans {u w : Mmu} {r s t : State} (h1 : Outside u r s) (h2 : Outside w s t) : Outside w r t :=
  ⟨h2.mmu, h2.devices.trans h1.devices, h2.inputs.trans h1.inputs, h2.draws.trans h1.draws⟩

theorem State.pushed_outside (s : State) (v : Word) : Outside s.mmu.pushed s (s.pushed v) := by
  unfold State.pushed Mmu.pushed
  by_cases h : mmr0Frozen s.mmu.mmr0 = true
  · have unrecorded : s.step .sp (-2) = s.writeReg .sp (s.readReg .sp + BitVec.ofInt 16 (-2)) := if_pos (Or.inr h)
    rw [unrecorded, if_pos h]
    exact ⟨rfl, rfl, rfl, rfl⟩
  · have recorded : s.step .sp (-2) = (s.writeReg .sp (s.readReg .sp + BitVec.ofInt 16 (-2))).onMmu fun u =>
        { u with mmr1 := (u.mmr1 <<< 8) ||| mmr1Record .sp (-2) } := if_neg (not_or.2 ⟨by decide, h⟩)
    rw [recorded, if_neg h]
    exact ⟨rfl, rfl, rfl, rfl⟩

/-! ### The two halves of a trap's body (R604 to R607) -/

/-- The status word a trap saves: the one of the first trap (R602, R606). -/
def State.snapshot (s : State) : Word := s.ctl.trapPsw.getD s.psw

/-- The status word a trap to `v` loads, the previous mode the mode before (R606). -/
def State.handlerPsw (v : Word) (s : State) : Word :=
  (Memory.readWord s.mem (v.toNat + 2) &&& 0o144377) ||| ((s.snapshot >>> 2) &&& 0o030000)

/-- The stack pointer of the handler's mode (R607). -/
def State.handlerSp (v : Word) (s : State) : Word := s.readSpm (pswCm (s.handlerPsw v))

/-- The state once a trap to `v` has loaded its status word (R604 to R606). -/
def State.trapLoaded (v : Word) (s : State) : State :=
  (s.setMmu (s.mmu.entering v)).directAfter.directAfter.loadPsw
    (trapNewPsw (Memory.readWord s.mem (v.toNat + 2)) s.snapshot)

theorem State.trapLoaded_outside (v : Word) (s : State) :
    Outside { s.mmu.entering v with lastPage := 0 } s (s.trapLoaded v) := by
  unfold State.trapLoaded
  rw [State.loadPsw_eq]
  exact ⟨rfl, rfl, rfl, rfl⟩

theorem State.trapLoaded_loaded (v : Word) {s : State} (hu : (s.setMmu (s.mmu.entering v)).unmapped) :
    TrapLoaded (s.handlerPsw v) s (s.trapLoaded v) := by
  have word : trapNewPsw (Memory.readWord s.mem (v.toNat + 2)) s.snapshot &&& 0o174377 = s.handlerPsw v :=
    trapNewPsw_loaded _ _
  unfold State.trapLoaded
  generalize trapNewPsw (Memory.readWord s.mem (v.toNat + 2)) s.snapshot = raw at word ⊢
  generalize s.handlerPsw v = new at word ⊢
  generalize s.mmu.entering v = u at hu ⊢
  have flags := State.loadPsw_ctl (s.setMmu u).directAfter.directAfter raw
  rw [← pswPri_loaded raw, word] at flags
  rw [State.loadPsw_eq] at flags ⊢
  exact ⟨word, rfl, rfl, rfl, rfl, rfl, rfl, hu, rfl, flags⟩

/-- Where a trap to `v` finds its vector, and room for both pushes outside the red zone, with relocation off. -/
structure TrapRoom (v : Word) (double : Bool) (s : State) : Prop where
  memory : Memory.wf s.mem = true
  unmapped : s.unmapped
  vectorEven : v.getLsbD 0 = false
  vectorMain : v.toNat + 3 < s.params.memCeiling
  vectorDirect : v.toNat + 3 < 0o160000
  stackEven : (s.handlerSp v).getLsbD 0 = false
  stackRoom : 4 ≤ (s.handlerSp v).toNat
  stackMain : (s.handlerSp v).toNat ≤ s.params.memCeiling
  stackDirect : (s.handlerSp v).toNat ≤ 0o160000
  zone : double = false → pswCm (s.handlerPsw v) = .kernel →
    effectiveLimit s.ctl.slr + 4 < (s.handlerSp v).toNat + 32

/-- The control registers after a trap's two pushes (R184, R607). -/
def State.enteredCtl (v : Word) (double : Bool) (s : State) : Ctl :=
  let lowered := decide (pswPri (s.handlerPsw v) < pswPri s.psw)
  { (if (!double) = true ∧ pswCm (s.handlerPsw v) = .kernel ∧ (s.handlerSp v).toNat - 4 ≤ effectiveLimit s.ctl.slr
      then s.ctl.yellowed else s.ctl) with
    trapPsw := none, irqFlag := s.ctl.irqFlag || lowered, irqDelay := s.ctl.irqDelay || lowered }

section
variable {v : Word} {double : Bool} {s : State}

/-- Above the stack limit, outside kernel mode and in a double trap nothing is recorded (R184, R607). -/
theorem State.enteredCtl_clear
    (h : double = false → pswCm (s.handlerPsw v) = .kernel → effectiveLimit s.ctl.slr + 4 < (s.handlerSp v).toNat) :
    s.enteredCtl v double = { s.ctl with
      trapPsw := none
      irqFlag := s.ctl.irqFlag || decide (pswPri (s.handlerPsw v) < pswPri s.psw)
      irqDelay := s.ctl.irqDelay || decide (pswPri (s.handlerPsw v) < pswPri s.psw) } := by
  unfold State.enteredCtl
  rw [if_neg]
  rintro ⟨hd, hk, hle⟩
  have := h (by simpa using hd) hk
  omega

/-- In the yellow zone the check records it (R184, R607). -/
theorem State.enteredCtl_yellow (hk : pswCm (s.handlerPsw v) = .kernel)
    (h : (s.handlerSp v).toNat ≤ effectiveLimit s.ctl.slr + 4) :
    s.enteredCtl v false = { s.ctl.yellowed with
      trapPsw := none
      irqFlag := s.ctl.irqFlag || decide (pswPri (s.handlerPsw v) < pswPri s.psw)
      irqDelay := s.ctl.irqDelay || decide (pswPri (s.handlerPsw v) < pswPri s.psw) } := by
  unfold State.enteredCtl
  rw [if_pos ⟨rfl, hk, by omega⟩]

end

/-- The state `t` a trap to `v` leads to from `s`, the state in which it was entered (R604 to R608). -/
structure TrapTaken (v : Word) (double : Bool) (s t : State) : Prop where
  pc : t.pc = Memory.readWord s.mem v.toNat
  psw : t.psw = s.handlerPsw v
  sp : t.readSpm (pswCm (s.handlerPsw v)) = s.handlerSp v - 4
  others : ∀ m, m ≠ pswCm (s.handlerPsw v) → t.readSpm m = s.readSpm m
  gr0 : t.gr0 = s.gr0
  gr1 : t.gr1 = s.gr1
  status : Memory.readWord t.mem ((s.handlerSp v).toNat - 2) = s.snapshot
  back : Memory.readWord t.mem ((s.handlerSp v).toNat - 4) = s.pc
  frame : MemFrame s t [(s.handlerSp v).toNat - 4] 4
  fpp : t.fpp = s.fpp
  params : t.params = s.params
  ctl : t.ctl = s.enteredCtl v double
  outside : Outside (s.mmu.entered v) s t

/-- The handler's registers, its stack and the coprocessor, where the two words and the stack pointer are known. -/
theorem TrapTaken.handler {v new sp x : Word} {double : Bool} {s t : State} (taken : TrapTaken v double s t)
    (hx : s.snapshot = x) (hnew : s.handlerPsw v = new) (hsp : s.handlerSp v = sp) :
    t.pc = Memory.readWord s.mem v.toNat ∧ t.psw = new ∧ t.readSpm (pswCm new) = sp - 4 ∧
      (∀ m, m ≠ pswCm new → t.readSpm m = s.readSpm m) ∧ t.gr0 = s.gr0 ∧ t.gr1 = s.gr1 ∧
      Memory.readWord t.mem (sp.toNat - 2) = x ∧ Memory.readWord t.mem (sp.toNat - 4) = s.pc ∧
      MemFrame s t [sp.toNat - 4] 4 ∧ t.fpp = s.fpp := by
  subst hx hnew hsp
  exact ⟨taken.pc, taken.psw, taken.sp, taken.others, taken.gr0, taken.gr1, taken.status, taken.back, taken.frame,
    taken.fpp⟩

/-- A trap's body with relocation off is its two pushes, from the state loaded, and the vector's PC (R604 to R607). -/
theorem trapBody_loaded (v : Word) (double : Bool) (s : State) (hu : s.unmapped) (v0 : v.getLsbD 0 = false)
    (v1 : v.toNat + 3 < s.params.memCeiling) (v2 : v.toNat + 3 < 0o160000) :
    trapBody v double s = (push s.snapshot (!double) >>= fun _ => get >>= fun u => push u.pc (!double) >>= fun _ =>
        change (·.setPc (Memory.readWord s.mem v.toNat)) : M Unit) (s.trapLoaded v) ∧
      TrapLoaded (s.handlerPsw v) s (s.trapLoaded v) := by
  have hub : (s.setMmu (s.mmu.entering v)).unmapped := by
    unfold State.unmapped State.setMmu
    rw [Mmu.entering_mmr0]
    exact hu
  have e := even_word.1 v0
  have w2 : (v + 2).toNat = v.toNat + 2 := by simp; omega
  have r1 := memReadM_direct (m := .kernel) (a := v) hub v0 (show _ < s.params.memCeiling by omega) (by omega)
  have r2 := memReadM_direct (m := .kernel) (a := v + 2) (s := (s.setMmu (s.mmu.entering v)).directAfter) hub
    (even_word.2 (by omega)) (show _ < s.params.memCeiling by omega) (by omega)
  rw [w2] at r2
  refine ⟨?_, State.trapLoaded_loaded v hub⟩
  unfold trapBody
  rw [change_bind, State.trapBookkeeping_eq, bind_ok r1, bind_ok r2, get_bind, change_bind]
  rfl

/-- The two pushes of a trap leave what lies outside the processor, and record both steps (R182, R607). -/
theorem push_twice_outside {x : Word} {b : Bool} {d f : State} (hu : d.unmapped)
    (h0 : (d.readReg .sp).toNat % 2 = 0) (h4 : 4 ≤ (d.readReg .sp).toNat)
    (h1 : (d.readReg .sp).toNat ≤ d.params.memCeiling) (h2 : (d.readReg .sp).toNat ≤ 0o160000)
    (h3 : b = true → d.cm = .kernel → effectiveLimit d.ctl.slr + 4 < (d.readReg .sp).toNat + 32)
    (hf : (push x b >>= fun _ => get >>= fun s => push s.pc b >>= fun _ => pure () : M Unit) d = .ok () f) :
    Outside d.mmu.pushed.pushed d f := by
  have m2 : (d.readReg .sp - 2).toNat = (d.readReg .sp).toNat - 2 := by simp [BitVec.toNat_sub]; omega
  have m4 : (d.readReg .sp - 2 - 2).toNat = (d.readReg .sp).toNat - 4 := by rw [BitVec.toNat_sub, m2]; simp; omega
  obtain ⟨p1, hp1⟩ := push_checked x b d hu (even_word.2 (by omega)) (by omega) (by omega) fun hb hk => by
    have := h3 hb hk
    omega
  have slr : (d.pushCtl b (d.readReg .sp - 2).toNat).slr = d.ctl.slr := by
    unfold State.pushCtl
    split <;> rfl
  have a1 := d.pushed_as x
  have o1 := d.pushed_outside x
  rw [bind_ok hp1, get_bind] at hf
  generalize d.pushCtl b (d.readReg .sp - 2).toNat = c at hf slr
  have esp : ((d.pushed x).setCtl c).readReg .sp = d.readReg .sp - 2 := a1.sp
  have epar : ((d.pushed x).setCtl c).params = d.params := a1.params
  obtain ⟨p2, hp2⟩ := push_checked ((d.pushed x).setCtl c).pc b ((d.pushed x).setCtl c) (a1.unmapped hu)
    (even_word.2 (by rw [esp]; omega)) (by rw [esp, epar]; omega) (by rw [esp]; omega) fun hb hk => by
      have := h3 hb ((congrArg pswCm a1.psw).symm.trans hk)
      rw [esp]
      show effectiveLimit c.slr < _
      rw [slr]
      omega
  have o2 := ((d.pushed x).setCtl c).pushed_outside ((d.pushed x).setCtl c).pc
  rw [show ((d.pushed x).setCtl c).mmu = d.mmu.pushed from o1.mmu] at o2
  rw [bind_ok hp2] at hf
  cases hf
  exact o1.trans ⟨o2.mmu, o2.devices, o2.inputs, o2.draws⟩

/-- What two words stored below the stack pointer leave in memory. -/
theorem stored_twice {m : Memory} (x y : Word) {sp : Nat} (h : 4 ≤ sp) (hw : Memory.wf m = true) :
    let m' := Memory.writeWord (Memory.writeWord m (sp - 2) x) (sp - 4) y
    Memory.readWord m' (sp - 2) = x ∧ Memory.readWord m' (sp - 4) = y ∧
      ∀ a, (∀ b ∈ [sp - 4], a < b ∨ b + 4 ≤ a) → Memory.read m' a = Memory.read m a := by
  have hw' := Memory.wf_writeWord (sp - 2) x hw
  refine ⟨?_, Memory.readWord_writeWord _ y hw', fun a ha => ?_⟩
  · rw [Memory.readWord_writeWord_ne _ _ y hw' (by omega), Memory.readWord_writeWord _ x hw]
  · have := ha _ (List.mem_singleton_self _)
    rw [Memory.read_writeWord _ _ y hw', Memory.read_writeWord _ _ x hw]
    rw [if_neg (by omega), if_neg (by omega), if_neg (by omega), if_neg (by omega)]

/-- Where there is room, a trap's body completes (R604 to R607). -/
theorem trapBody_taken {v : Word} {double : Bool} {s : State} (room : TrapRoom v double s) :
    ∃ t, trapBody v double s = .ok () t ∧ TrapTaken v double s (t.setTrapPsw none) := by
  obtain ⟨run, loaded⟩ := trapBody_loaded v double s room.unmapped room.vectorEven room.vectorMain room.vectorDirect
  have outer := s.trapLoaded_outside v
  have even := even_word.1 room.stackEven
  have h4 := room.stackRoom
  have cm : (s.trapLoaded v).cm = pswCm (s.handlerPsw v) := congrArg pswCm loaded.psw
  have spm : ∀ m, (s.trapLoaded v).readSpm m = s.readSpm m := fun m => by
    unfold State.readSpm
    rw [loaded.spm]
  have sp : (s.trapLoaded v).readReg .sp = s.handlerSp v := by
    show (s.trapLoaded v).readSpm (s.trapLoaded v).cm = _
    rw [spm, cm]
    rfl
  have slr : (s.trapLoaded v).ctl.slr = s.ctl.slr := by rw [loaded.ctl]
  generalize s.trapLoaded v = d at *
  have zone : (!double) = true → d.cm = .kernel → effectiveLimit d.ctl.slr + 4 < (d.readReg .sp).toNat + 32 :=
    fun hb hk => by
      rw [sp, slr]
      exact room.zone (by simpa using hb) (cm ▸ hk)
  have hmain : (d.readReg .sp).toNat ≤ d.params.memCeiling := by
    rw [sp, loaded.params]
    exact room.stackMain
  have hdirect : (d.readReg .sp).toNat ≤ 0o160000 := by
    rw [sp]
    exact room.stackDirect
  obtain ⟨f, both, pushed⟩ := push_twice s.snapshot (!double) d loaded.unmapped (by rw [sp]; exact even)
    (by rw [sp]; exact h4) hmain hdirect zone
  have outside := push_twice_outside loaded.unmapped (by rw [sp]; exact even) (by rw [sp]; exact h4) hmain hdirect zone
    (both (pure ()))
  rw [outer.mmu, Mmu.pushed_entering] at outside
  have mem := pushed.mem
  rw [sp, loaded.mem, loaded.pc] at mem
  obtain ⟨status, back, frame⟩ := stored_twice s.snapshot s.pc h4 room.memory
  rw [← mem] at status back frame
  refine ⟨f.setPc (Memory.readWord s.mem v.toNat), run.trans (both _), {
    pc := rfl
    psw := pushed.psw.trans loaded.psw
    sp := ?_
    others := fun m hm => (pushed.others m (by rw [cm]; exact hm)).trans (spm m)
    gr0 := pushed.gr0.trans loaded.gr0
    gr1 := pushed.gr1.trans loaded.gr1
    status := status
    back := back
    frame := frame
    fpp := pushed.fpp.trans loaded.fpp
    params := pushed.params.trans loaded.params
    ctl := ?_
    outside := outer.trans ⟨outside.mmu, outside.devices, outside.inputs, outside.draws⟩ }⟩
  · have := pushed.sp
    rw [sp] at this
    rw [← this, ← cm]
    show f.readSpm d.cm = f.readSpm f.cm
    rw [State.cm, State.cm, pushed.psw]
  · show { f.ctl with trapPsw := none } = _
    rw [pushed.ctl]
    unfold State.pushCtl State.enteredCtl
    rw [cm, sp, slr, loaded.ctl]
    by_cases yellow : (!double) = true ∧ pswCm (s.handlerPsw v) = .kernel ∧
        (s.handlerSp v).toNat - 4 ≤ effectiveLimit s.ctl.slr
    · rw [if_pos yellow, if_pos yellow]
      rfl
    · rw [if_neg yellow, if_neg yellow]

/-! ### The sequence (R602, R603, R608, R609) -/

/-- The state in which a trap is taken that is not nested in kernel mode (R602, R603). -/
def State.trapEntered (s : State) : State := s.setCtl { s.ctl with
  trapPsw := some s.snapshot, pending := if s.ctl.trapPsw = none then {} else s.ctl.pending }

theorem trapEnter_entered {s : State} (v : Word) (h : s.ctl.trapPsw = none ∨ s.cm ≠ .kernel) :
    trapEnter v s = (v, false, s.trapEntered) := by
  unfold State.trapEntered State.snapshot
  cases hp : s.ctl.trapPsw with
  | none => rw [trapEnter_first hp, if_pos rfl]; rfl
  | some x =>
    rw [trapEnter_nested hp (h.resolve_left (by rw [hp]; exact Option.some_ne_none x)), if_neg (Option.some_ne_none x),
      Option.getD_some, ← hp]
    rfl

/-- A sequence there is room for ends in its handler, nested or not (R603, R608). -/
theorem trapSeq_taken {v w : Word} {double : Bool} {s u : State} (entry : trapEnter v s = (w, double, u))
    (room : TrapRoom w double u) : TrapTaken w double u (trapSeq v s) ∧ trapSeq v s = trapNested v s := by
  obtain ⟨t, run, taken⟩ := trapBody_taken room
  have done := trapSeq_completes (v := v) (s := s) (a := ()) (f := t) (by rw [entry]; exact run)
  exact ⟨done.1 ▸ taken, done.1.trans done.2.symm⟩

/-- A sequence whose body aborts goes on nested (R603). -/
theorem trapSeq_aborts {v e : Word} {s t : State}
    (h : trapBody (trapEnter v s).1 (trapEnter v s).2.1 (trapEnter v s).2.2 = .error e t) :
    trapSeq v s = trapNested e t := by
  unfold trapSeq
  simp only [h]

/-- A nested one whose body aborts too halts the machine (R609). -/
theorem trapNested_aborts {v e : Word} {s t : State}
    (h : trapBody (trapEnter v s).1 (trapEnter v s).2.1 (trapEnter v s).2.2 = .error e t) :
    trapNested v s = (t.setTrapPsw none).setRunState .halt := by
  unfold trapNested
  simp only [h]

/-- Settles O44: a first trap that is not nested, above the stack zones. -/
theorem trapEntry : Obligations.TrapEntry := by
  intro v s old new m sp _ hmem hu hp v0 v1 v2 h0 h4 hmain hdirect hzone
  have room : TrapRoom v false (s.setCtl { s.ctl with trapPsw := some s.psw, pending := {} }) :=
    ⟨hmem, hu, v0, v1, v2, h0, h4, hmain, hdirect, fun _ hk => Nat.lt_add_right 32 (hzone hk)⟩
  obtain ⟨taken, -⟩ := trapSeq_taken (trapEnter_first hp) room
  have outside := taken.outside
  have ctl := taken.ctl.trans (State.enteredCtl_clear fun _ hk => hzone hk)
  have mmu : (trapSeq v s).mmu = s.mmu.entered v := outside.mmu
  have kept := Mmu.entered_kept v s.mmu
  have frozen := Mmu.entered_frozen v (u := s.mmu)
  have running := Mmu.entered_running v (u := s.mmu)
  rw [← mmu] at kept frozen running
  obtain ⟨par, pdr, mmr0, mmr3, ubmap, lastPage⟩ := kept
  exact ⟨taken.pc, taken.psw, taken.sp, taken.others, taken.gr0, taken.gr1, taken.status, taken.back, taken.frame,
    taken.fpp, (congrArg Ctl.trapPsw ctl :), (congrArg Ctl.pending ctl :), (congrArg Ctl.cpuErr ctl :),
    (congrArg Ctl.runState ctl :), (congrArg Ctl.slr ctl :), (congrArg Ctl.pirq ctl :), (congrArg Ctl.disp ctl :),
    (congrArg Ctl.swr ctl :), par, pdr, mmr0, mmr3, ubmap, lastPage, taken.params, outside.devices, outside.inputs,
    outside.draws, running, frozen, (congrArg Ctl.irqFlag ctl :), (congrArg Ctl.irqDelay ctl :)⟩

/-! ### Traps inside a trap, and the stack check (R184, R603, R607) -/

/-- The state in which a trap nested in kernel mode is taken (R603). -/
def State.doubleEntered (s : State) : State := (s.cpuError 2).writeSpm .kernel 4

theorem trapEnter_doubled {s : State} {x : Word} (v : Word) (hp : s.ctl.trapPsw = some x) (hk : s.cm = .kernel) :
    trapEnter v s = (4, true, s.doubleEntered) := trapEnter_double hp hk

theorem State.doubleEntered_spm (s : State) (m : ProcMode) :
    s.doubleEntered.readSpm m = if m = .kernel then 4 else s.readSpm m := State.readSpm_writeSpm _ _ _ _

/-- Where the first push of a trap is in the red zone, or the second, its body aborts through 4 (R184, R607). -/
theorem trapBody_red {v : Word} {s : State} (hu : s.unmapped) (v0 : v.getLsbD 0 = false)
    (v1 : v.toNat + 3 < s.params.memCeiling) (v2 : v.toNat + 3 < 0o160000)
    (h0 : (s.readSpm .kernel).getLsbD 0 = false) (h4 : 4 ≤ (s.readSpm .kernel).toNat)
    (h1 : (s.readSpm .kernel).toNat ≤ s.params.memCeiling) (h2 : (s.readSpm .kernel).toNat ≤ 0o160000)
    (hk : pswCm (s.handlerPsw v) = .kernel) (red : (s.readSpm .kernel).toNat + 28 ≤ effectiveLimit s.ctl.slr) :
    ∃ u, trapBody v false s = .error 0o4 u ∧ u.pc = s.pc ∧ u.psw = s.handlerPsw v ∧ u.readSpm .kernel = 4 ∧
      (∀ m, m ≠ .kernel → u.readSpm m = s.readSpm m) ∧ u.gr0 = s.gr0 ∧ u.gr1 = s.gr1 ∧ u.fpp = s.fpp ∧
      u.unmapped ∧ u.params = s.params ∧
      ((s.readSpm .kernel).toNat + 30 ≤ effectiveLimit s.ctl.slr → u.mem = s.mem ∧
        u.ctl = { s.ctl with
          cpuErr := s.ctl.cpuErr ||| 0o4
          irqFlag := s.ctl.irqFlag || decide (pswPri (s.handlerPsw v) < pswPri s.psw)
          irqDelay := s.ctl.irqDelay || decide (pswPri (s.handlerPsw v) < pswPri s.psw) }) ∧
      (effectiveLimit s.ctl.slr < (s.readSpm .kernel).toNat + 30 →
        u.mem = Memory.writeWord s.mem ((s.readSpm .kernel).toNat - 2) s.snapshot ∧
        u.ctl = { s.ctl with
          cpuErr := s.ctl.cpuErr ||| 0o14
          pending := { s.ctl.pending with yellow := true }
          irqFlag := s.ctl.irqFlag || decide (pswPri (s.handlerPsw v) < pswPri s.psw)
          irqDelay := s.ctl.irqDelay || decide (pswPri (s.handlerPsw v) < pswPri s.psw) }) := by
  obtain ⟨run, loaded⟩ := trapBody_loaded v false s hu v0 v1 v2
  have even := even_word.1 h0
  have cm : (s.trapLoaded v).cm = .kernel := (congrArg pswCm loaded.psw).trans hk
  have spm : ∀ m, (s.trapLoaded v).readSpm m = s.readSpm m := fun m => by
    unfold State.readSpm
    rw [loaded.spm]
  have sp : (s.trapLoaded v).readReg .sp = s.readSpm .kernel := by
    show (s.trapLoaded v).readSpm (s.trapLoaded v).cm = _
    rw [spm, cm]
  have slr : (s.trapLoaded v).ctl.slr = s.ctl.slr := by rw [loaded.ctl]
  generalize s.trapLoaded v = d at *
  have m2 : (d.readReg .sp - 2).toNat = (s.readSpm .kernel).toNat - 2 := by rw [sp]; simp [BitVec.toNat_sub]; omega
  by_cases first : (s.readSpm .kernel).toNat + 30 ≤ effectiveLimit s.ctl.slr
  · obtain ⟨u, aborted, rest⟩ := push_red s.snapshot d loaded.unmapped (even_word.2 (by rw [m2]; omega)) cm
      (by rw [m2, slr]; omega)
    refine ⟨u, run.trans (bind_error aborted), rest.pc.trans loaded.pc, rest.psw.trans loaded.psw, rest.sp,
      fun m hm => (rest.others m hm).trans (spm m), rest.gr0.trans loaded.gr0, rest.gr1.trans loaded.gr1,
      rest.fpp.trans loaded.fpp, rest.unmapped, rest.params.trans loaded.params,
      fun _ => ⟨rest.mem.trans loaded.mem, ?_⟩, fun h => absurd first (by omega)⟩
    rw [rest.ctl, loaded.ctl]
  · obtain ⟨p, stored⟩ := push_checked s.snapshot true d loaded.unmapped (even_word.2 (by rw [m2]; omega))
      (by rw [m2, loaded.params]; omega) (by rw [m2]; omega) fun _ _ => by rw [m2, slr]; omega
    have yellow : d.pushCtl true (d.readReg .sp - 2).toNat = d.ctl.yellowed :=
      if_pos ⟨rfl, cm, by rw [m2, slr]; omega⟩
    rw [yellow] at stored
    have a := d.pushed_as s.snapshot
    have esp : ((d.pushed s.snapshot).setCtl d.ctl.yellowed).readReg .sp = d.readReg .sp - 2 := a.sp
    have m4 : (d.readReg .sp - 2 - 2).toNat = (s.readSpm .kernel).toNat - 4 := by
      rw [BitVec.toNat_sub, m2]
      simp
      omega
    obtain ⟨u, aborted, rest⟩ := push_red d.pc ((d.pushed s.snapshot).setCtl d.ctl.yellowed)
      (a.unmapped loaded.unmapped) (even_word.2 (by rw [esp, m4]; omega)) ((congrArg pswCm a.psw).trans cm)
      (by rw [esp, m4]; show _ ≤ effectiveLimit d.ctl.slr; rw [slr]; omega)
    have abort : (push s.snapshot true >>= fun _ => get >>= fun w => push w.pc true >>= fun _ =>
        change (·.setPc (Memory.readWord s.mem v.toNat)) : M Unit) d = .error 0o4 u := by
      rw [bind_ok stored, get_bind, show ((d.pushed s.snapshot).setCtl d.ctl.yellowed).pc = d.pc from a.pc,
        bind_error aborted]
    refine ⟨u, run.trans abort, (rest.pc.trans a.pc).trans loaded.pc, (rest.psw.trans a.psw).trans loaded.psw, rest.sp,
      fun m hm => ((rest.others m hm).trans (a.others m (by rw [cm]; exact hm))).trans (spm m),
      (rest.gr0.trans a.gr0).trans loaded.gr0, (rest.gr1.trans a.gr1).trans loaded.gr1,
      (rest.fpp.trans a.fpp).trans loaded.fpp, rest.unmapped, (rest.params.trans a.params).trans loaded.params,
      fun h => absurd h first, fun _ => ⟨?_, ?_⟩⟩
    · rw [rest.mem, ← m2, ← loaded.mem]
      exact a.mem
    · rw [rest.ctl]
      show { d.ctl.yellowed with cpuErr := d.ctl.yellowed.cpuErr ||| 0o4 } = _
      rw [loaded.ctl]
      unfold Ctl.yellowed
      simp only [BitVec.or_assoc]
      rfl

/-- Settles O45: room for both pushes in each case but the red zone, whose aborts are nested. -/
theorem doubleTrap : Obligations.DoubleTrap := by
  refine ⟨fun v s x => ?double, fun v s x => ?nested, fun v s => ?zones,
    fun v s e s1 h => ⟨trapSeq_aborts h, fun e' s2 h2 => ?halts⟩⟩
  case double =>
    intro new m sp _ hmem hu hp hk hceil h0 h4 hmain hdirect
    have snapshot : s.doubleEntered.snapshot = x := congrArg (Option.getD · s.psw) hp
    have hnew : s.doubleEntered.handlerPsw 4 = new := by
      unfold State.handlerPsw
      rw [snapshot]
      rfl
    have hsp : s.doubleEntered.handlerSp 4 = sp := by
      unfold State.handlerSp
      rw [hnew, State.doubleEntered_spm]
    have room : TrapRoom 4 true s.doubleEntered :=
      ⟨hmem, hu, rfl, Nat.lt_of_lt_of_le (by decide) hceil, by decide, hsp ▸ h0, hsp ▸ h4, hsp ▸ hmain, hsp ▸ hdirect,
        nofun⟩
    obtain ⟨taken, same⟩ := trapSeq_taken (trapEnter_doubled v hp hk) room
    obtain ⟨pc, psw, top, others, gr0, gr1, status, back, frame, fpp⟩ := taken.handler snapshot hnew hsp
    have ctl := taken.ctl.trans (State.enteredCtl_clear fun h => absurd h (by decide))
    rw [hnew] at ctl
    exact ⟨same, pc, psw, top, fun m' hm => (others m' hm).trans (s.doubleEntered_spm m'), gr0, gr1, status, back,
      frame, fpp, ctl⟩
  case nested =>
    intro new m sp _ hmem hu hp hk v0 v1 v2 h0 h4 hmain hdirect hzone
    have snapshot : s.snapshot = x := congrArg (Option.getD · s.psw) hp
    have hnew : s.handlerPsw v = new := by
      unfold State.handlerPsw
      rw [snapshot]
    have hsp : s.handlerSp v = sp := by
      unfold State.handlerSp
      rw [hnew]
    have room : TrapRoom v false s :=
      ⟨hmem, hu, v0, v1, v2, hsp ▸ h0, hsp ▸ h4, hsp ▸ hmain, hsp ▸ hdirect, fun _ hm => by
        rw [hsp]
        exact Nat.lt_add_right 32 (hzone ((congrArg pswCm hnew).symm.trans hm))⟩
    obtain ⟨taken, same⟩ := trapSeq_taken (trapEnter_nested hp hk) room
    obtain ⟨pc, psw, top, others, gr0, gr1, status, back, frame, fpp⟩ := taken.handler snapshot hnew hsp
    have ctl := taken.ctl.trans (State.enteredCtl_clear fun _ hm => by
      rw [hsp]
      exact hzone ((congrArg pswCm hnew).symm.trans hm))
    rw [hnew] at ctl
    exact ⟨same, pc, psw, top, others, gr0, gr1, status, back, frame, fpp, ctl⟩
  case zones =>
    intro snapshot pending new sp sl _ hmem hu he v0 v1 v2 h0 h4 hmain hdirect hm t flagged delayed
    have entered := trapEnter_entered v he
    have hnew : s.trapEntered.handlerPsw v = new := rfl
    have hsp : s.trapEntered.handlerSp v = sp := by
      unfold State.handlerSp
      rw [hnew, hm]
      rfl
    refine ⟨fun above below => ?yellow, fun red => ?red⟩
    case yellow =>
      have room : TrapRoom v false s.trapEntered :=
        ⟨hmem, hu, v0, v1, v2, hsp ▸ h0, hsp ▸ h4, hsp ▸ hmain, hsp ▸ hdirect, fun _ _ => by
          rw [hsp]
          exact below⟩
      obtain ⟨taken, -⟩ := trapSeq_taken entered room
      obtain ⟨pc, psw, top, others, gr0, gr1, status, back, frame, fpp⟩ := taken.handler rfl hnew hsp
      have ctl := taken.ctl.trans (State.enteredCtl_yellow (hnew ▸ hm) (by rw [hsp]; exact above))
      rw [hm] at top others
      exact ⟨pc, psw, top, others, gr0, gr1, status, back, frame, fpp, ctl⟩
    case red =>
      obtain ⟨u, aborted, rest⟩ := trapBody_red (s := s.trapEntered) hu v0 v1 v2 h0 h4 hmain hdirect hm red
      exact ⟨u, trapSeq_aborts (by rw [entered]; exact aborted), rest⟩
  case halts =>
    rw [trapSeq_aborts h, trapNested_aborts h2]
    exact ⟨rfl, rfl⟩

end Sys2Proof.Machine
end

section
/-! The frame of the coprocessor's instructions: what their accesses and their ends leave of the processor, where the PC
ends, and the trap of an access that aborts (52_fpp_instructions.md rules R470 to R473, 60_exceptions.md rule R635). -/

namespace Sys2Proof.Machine

/-! ### The end of an instruction -/

/-- What the end of an instruction of the coprocessor leaves of the processor: all but the flags and the deferred trap
(R413, R470, R500). -/
structure Finished (s t : State) : Prop where
  gr0 : t.gr0 = s.gr0
  gr1 : t.gr1 = s.gr1
  spm : t.spm = s.spm
  pc : t.pc = s.pc
  mem : t.mem = s.mem
  special : SpecialFrame s t

theorem Finished.refl (s : State) : Finished s s := ⟨rfl, rfl, rfl, rfl, rfl, SpecialFrame.refl s⟩

theorem Finished.trans {r s t : State} (h1 : Finished r s) (h2 : Finished s t) : Finished r t :=
  ⟨h2.gr0.trans h1.gr0, h2.gr1.trans h1.gr1, h2.spm.trans h1.spm, h2.pc.trans h1.pc, h2.mem.trans h1.mem,
    h1.special.trans h2.special⟩

theorem Finished.regs {s t : State} (h : Finished s t) (T : Reg → Prop) : RegFrame s t T :=
  RegFrame.of_same T h.gr0 h.gr1 h.spm

section
variable {T : Reg → Prop} {dst : List Nat} {addr : Word} {errs : List FppError} {f : Fpp} {s t u : State}

theorem Finished.setFpp (s : State) (f : Fpp) : Finished s (s.setFpp f) :=
  ⟨rfl, rfl, rfl, rfl, rfl, SpecialFrame.of_same rfl rfl rfl rfl rfl⟩

/-- Recording exceptions touches the coprocessor and the deferred trap alone (R413). -/
theorem FppOutcome.finished (h : FppOutcome addr errs f s t) : Finished s t ∧ t.psw = s.psw := by
  rw [h.rest]
  exact ⟨⟨rfl, rfl, rfl, rfl, rfl, { SpecialFrame.refl s with }⟩, rfl⟩

theorem StoredFlags.finished {p n z v c : Bool} (h : StoredFlags p s t n z v c) : Finished s t ∧ t.fpp = s.fpp := by
  cases p with
  | true =>
    obtain rfl : t = s := h
    exact ⟨Finished.refl t, rfl⟩
  | false =>
    obtain ⟨e, high, -⟩ := (h : Flagged s t n z v c)
    rw [e]
    exact ⟨⟨rfl, rfl, rfl, rfl, rfl, SpecialFrame.of_same rfl rfl high rfl rfl⟩, rfl⟩

/-- Reads, then the end. -/
theorem ReadFrame.finished (h1 : ReadFrame T s u) (h2 : Finished u t) :
    RegFrame s t T ∧ t.mem = s.mem ∧ SpecialFrame s t :=
  ⟨h1.regs.trans (h2.regs T) h1.special.psw, h2.mem.trans h1.mem, h1.special.trans h2.special⟩

/-- Stores, then the end. -/
theorem WriteFrame.finished {len : Nat} (h1 : WriteFrame T dst len s u) (h2 : Finished u t) :
    RegFrame s t T ∧ MemFrame s t dst len ∧ (InMain s dst → SpecialFrame s t) := by
  obtain ⟨general, pointers⟩ := h2.regs fun _ => False
  refine ⟨⟨fun rs i hn => (general rs i fun h => h.2).trans (h1.regs.1 rs i hn),
    fun m hn => (pointers m fun h => h.2).trans (h1.regs.2 m hn)⟩, fun a ha => ?_,
    fun hm => (h1.special hm).1.trans h2.special⟩
  rw [h2.mem, h1.mem a ha]

theorem WriteFrame.setPc {len : Nat} (h : WriteFrame T dst len s t) (pc : Word) :
    WriteFrame T dst len s (t.setPc pc) where
  regs := h.regs
  mem := h.mem
  wf := h.wf
  fpp := h.fpp
  params := h.params
  special hm := by
    obtain ⟨special, psw⟩ := h.special hm
    exact ⟨{ special with }, psw⟩

/-! ### Stores at several words (R472) -/

/-- A store before further ones. -/
theorem WriteFrame.cons {a : Nat} (h1 : WriteFrame (fun _ => False) [a] 2 s t)
    (h2 : WriteFrame (fun _ => False) dst 2 t u) : WriteFrame (fun _ => False) (a :: dst) 2 s u where
  regs := ⟨fun rs i _ => (h2.regs.1 rs i fun h => h.2).trans (h1.regs.1 rs i fun h => h.2),
    fun m _ => (h2.regs.2 m fun h => h.2).trans (h1.regs.2 m fun h => h.2)⟩
  mem b hb := by
    obtain ⟨first, rest⟩ := List.forall_mem_cons.1 hb
    rw [h2.mem b rest, h1.mem b (List.forall_mem_singleton.2 first)]
  wf := h2.wf
  fpp := h2.fpp.trans h1.fpp
  params := h2.params.trans h1.params
  special hm := by
    obtain ⟨first, rest⟩ := List.forall_mem_cons.1 hm
    obtain ⟨special1, psw1⟩ := h1.special (List.forall_mem_singleton.2 first)
    obtain ⟨special2, psw2⟩ := h2.special fun b hb => by
      rw [h1.params]
      exact rest b hb
    exact ⟨special1.trans special2, psw2.trans psw1⟩

/-- A run of word stores changes memory at the words alone (R472). -/
theorem writeWordsAt_frame {va : VAddr} {ws : List Word} (h : writeWordsAt va ws s = .ok () t)
    (hw : Memory.wf s.mem = true) :
    WriteFrame (fun _ => False) (wordAddresses va s ws) 2 s t ∧ t.pc = s.pc := by
  induction ws generalizing va s with
  | nil =>
    cases h
    exact ⟨ReadFrame.write ((readFrame_access _).refl _) hw _ _, rfl⟩
  | cons x ws ih =>
    obtain ⟨p, s1, h1, h2⟩ := bind_eq_ok h
    have hpc : s1.pc = s.pc := (memWrite_post pcSame_store va .word x s).ok h1
    have h1 : memWriteM s.cm va .word x s = .ok p s1 := h1
    obtain ⟨pa, s0, translated, h1⟩ := bind_eq_ok h1
    obtain ⟨_, s0', stored, h1⟩ := bind_eq_ok h1
    obtain rfl : s0' = s1 := by
      cases h1
      rfl
    have addresses : wordAddresses va s (x :: ws) = pa.toNat :: wordAddresses (va.plus 2) s0' ws := by
      simp only [wordAddresses, translated, stored]
    have reads := translate_frame translated fun _ => False
    have first := reads.store (physWrite_frame stored (by rw [reads.mem]; exact hw))
    obtain ⟨rest, hrest⟩ := ih h2 first.wf
    rw [addresses]
    exact ⟨first.cons rest, hrest.trans hpc⟩

/-- What stores at `dst` leave of the processor: the registers outside `T`, memory elsewhere, and, where none of
them is in the I/O page, the status word and the special registers. -/
structure StoresAt (T : Reg → Prop) (dst : List Nat) (s t : State) : Prop where
  regs : RegFrame s t T
  mem : MemFrame s t dst 2
  main : InMain s dst → t.psw = s.psw ∧ SpecialFrame s t

/-- Stores, and an end that sets no flags. -/
theorem WriteFrame.storesAt (h1 : WriteFrame T dst 2 s u) (h2 : Finished u t) (hp : t.psw = u.psw) :
    StoresAt T dst s t := by
  obtain ⟨regs, mem, special⟩ := h1.finished h2
  exact ⟨regs, mem, fun hm => ⟨hp.trans (h1.special hm).2, special hm⟩⟩

/-- Reads before the stores. -/
theorem ReadFrame.storesAt (h1 : ReadFrame T s u) (h2 : StoresAt (fun _ => False) dst u t) : StoresAt T dst s t where
  regs := h1.regs.trans (h2.regs.mono fun _ => False.elim) h1.special.psw
  mem a ha := by rw [h2.mem a ha, h1.mem]
  main hm := by
    obtain ⟨psw, special⟩ := h2.main fun b hb => by
      rw [h1.special.params]
      exact hm b hb
    exact ⟨psw.trans h1.psw, h1.special.trans special⟩

/-- An end that sets no flags, after the stores. -/
theorem StoresAt.finished (h1 : StoresAt T dst s u) (h2 : Finished u t) (hp : t.psw = u.psw) : StoresAt T dst s t := by
  obtain ⟨general, pointers⟩ := h2.regs fun _ => False
  refine ⟨⟨fun rs i hn => (general rs i fun h => h.2).trans (h1.regs.1 rs i hn),
    fun m hn => (pointers m fun h => h.2).trans (h1.regs.2 m hn)⟩, fun a ha => ?_, fun hm => ?_⟩
  · rw [h2.mem, h1.mem a ha]
  · obtain ⟨psw, special⟩ := h1.main hm
    exact ⟨hp.trans psw, special.trans h2.special⟩

end

/-! ### Floating operands (R471, R472) -/

/-- The PC once an operand at that place has been accessed: past the one word of an immediate (R471, R472). -/
def FPlace.endPc : FPlace → Word → Word
  | .imm a, _ => a + 2
  | .ac _, pc => pc
  | .mem _, pc => pc

theorem FPlace.endPc_endPc (pl : FPlace) (pc : Word) : pl.endPc (pl.endPc pc) = pl.endPc pc := by cases pl <;> rfl

theorem isImmediate_iff {sp : OpSpec} : sp.isImmediate = true ↔ sp.mode = .autoInc ∧ sp.reg = .pc := by
  unfold OpSpec.isImmediate
  rw [Bool.and_eq_true, beq_iff_eq, beq_iff_eq]

theorem direct_not_immediate {sp : OpSpec} (h : sp.isImmediate = true) : sp.mode ≠ .direct := by
  rw [(isImmediate_iff.1 h).1]
  decide

/-- An immediate operand is the one word behind the instruction (R471). -/
theorem pcAfter_immediate {sp : OpSpec} (h : sp.isImmediate = true) (pc : Word) : pcAfter sp pc = pc + 2 := by
  obtain ⟨hm, hr⟩ := isImmediate_iff.1 h
  simp [pcAfter, OpSpec.extWords, hm, hr]

/-- A write of one accumulator leaves the others (R401). -/
theorem Fpp.writeAc_ac (f : Fpp) (p : Prec) (v : Accum) {i k : Fin 6} (h : i ≠ k) : (f.writeAc p i v).ac[k] = f.ac[k] :=
  Vector.getElem_set_ne i.isLt k.isLt fun e => h (Fin.ext e)

section
variable {sp : OpSpec} {p : Prec} {acc : Access} {pl : FPlace} {s s1 t : State} {x v : Accum}

/-- Where resolving and accessing a floating operand leaves the PC (R141). -/
theorem resolveF_endPc (h : resolveF sp p acc s = .ok (some pl) s1) : pl.endPc s1.pc = pcAfter sp s.pc := by
  unfold resolveF at h
  split at h
  · next hm =>
    rw [pcAfter_direct hm]
    cases hr : sp.reg with
    | gen i =>
      rw [hr] at h
      cases h
      rfl
    | sp =>
      rw [hr] at h
      cases h
    | pc =>
      rw [hr] at h
      cases h
  · split at h
    · next hi =>
      cases h
      exact (pcAfter_immediate hi s.pc).symm
    · obtain ⟨va, u, resolved, h⟩ := bind_eq_ok h
      cases h
      exact resolve_pc resolved

theorem readF_endPc (h : readF pl p acc s = .ok x t) : t.pc = pl.endPc s.pc := by
  cases pl with
  | ac i =>
    cases h
    rfl
  | imm a =>
    obtain ⟨w, u, -, h⟩ := bind_eq_ok h
    rw [change_bind] at h
    cases h
    rfl
  | mem va =>
    obtain ⟨ws, u, words, h⟩ := bind_eq_ok h
    cases h
    exact (readWordsAs_post pcSame_access acc va p.words s).ok words

/-- Storing a floating operand changes an accumulator, or memory at its words (R472). -/
theorem writeF_storesAt (h : writeF pl p v s = .ok () t) (hw : Memory.wf s.mem = true) :
    StoresAt (fun _ => False) (placeAddresses pl p v s) s t ∧ t.pc = pl.endPc s.pc ∧
      ∀ k : Fin 6, pl ≠ .ac k → t.fpp.ac[k] = s.fpp.ac[k] := by
  cases pl with
  | ac i =>
    cases h
    refine ⟨(((readFrame_access _).refl s).write hw [] 2).storesAt (Finished.setFpp s _) rfl, rfl, fun k hk => ?_⟩
    exact Fpp.writeAc_ac s.fpp p v fun e => hk (congrArg _ e)
  | imm a =>
    obtain ⟨q, u, stored, h⟩ := bind_eq_ok h
    cases h
    obtain ⟨frame, -⟩ := writeWordsAt_frame (va := inI a) (ws := [v.w0]) (bind_ok stored) hw
    exact ⟨(frame.setPc _).storesAt (Finished.refl _) rfl, rfl, fun k _ => congrArg (fun f : Fpp => f.ac[k]) frame.fpp⟩
  | mem va =>
    obtain ⟨frame, hpc⟩ := writeWordsAt_frame h hw
    exact ⟨frame.storesAt (Finished.refl t) rfl, hpc, fun k _ => congrArg (fun f : Fpp => f.ac[k]) frame.fpp⟩

end

/-! ### Instructions with a floating source (R471) -/

theorem exec_unique {i : Instr} {s t u : State} (h1 : exec i s = .next t) (h2 : exec i s = .next u) : t = u :=
  Host.Outcome.next.inj (h1.symm.trans h2)

/-- The instructions with a floating source of precision `q` (R489 to R499, R505). -/
def FloatSource (ac : Fin 4) (ss : OpSpec) (q : Prec) (s : State) (i : Instr) : Prop :=
  (q = precOf s.fpp.fps ∧ (i = .tstf ss ∨ i = .mulf ac ss ∨ i = .modf ac ss ∨ i = .addf ac ss ∨ i = .ldf ac ss ∨
      i = .subf ac ss ∨ i = .cmpf ac ss ∨ i = .divf ac ss)) ∨
    (q = (precOf s.fpp.fps).other ∧ i = .ldcdf ac ss)

/-- What a source makes of the registers leaves the accumulators but `ac` and `ac | 1` (R493). -/
def KeepsOthers (ac : Fin 4) (k : Word → Fpp → Accum → List FppError × Fpp) : Prop :=
  ∀ fps f x (j : Fin 6), j ≠ acField ac → j.val ≠ ac.val ||| 1 → (k fps f x).2.ac[j] = f.ac[j]

theorem arithmeticResult_ac (p : Prec) (ac : Fin 4) (f : Fpp) (r : FResult) {j : Fin 6} (h : j ≠ acField ac) :
    (arithmeticResult p ac f r).2.ac[j] = f.ac[j] := Fpp.writeAc_ac f p r.words h.symm

/-- Each of them is a source combined with the registers. -/
theorem floatSource_shape {ac : Fin 4} {ss : OpSpec} {q : Prec} {s : State} {i : Instr} (hi : FloatSource ac ss q s i) :
    ∃ k, bodyOf i s = withSource ss q k s ∧ KeepsOthers ac k := by
  rcases hi with ⟨rfl, rfl | rfl | rfl | rfl | rfl | rfl | rfl | rfl⟩ | ⟨rfl, rfl⟩
  · exact ⟨_, bodyOf_tstf ss s, fun fps f x j _ _ => rfl⟩
  · exact ⟨_, bodyOf_combine ac ss s (i := .mulf ac ss) rfl, fun fps f x j h _ => arithmeticResult_ac _ ac f _ h⟩
  · refine ⟨_, bodyOf_modf ac ss s, fun fps f x j h odd => ?_⟩
    have : acOdd ac ≠ j := fun e => odd ((congrArg Fin.val e).symm.trans (acOdd_val ac))
    exact (Fpp.writeAc_ac _ _ _ h.symm).trans (Fpp.writeAc_ac _ _ _ this)
  · exact ⟨_, bodyOf_combine ac ss s (i := .addf ac ss) rfl, fun fps f x j h _ => arithmeticResult_ac _ ac f _ h⟩
  · exact ⟨_, bodyOf_ldf ac ss s, fun fps f x j h _ => Fpp.writeAc_ac f _ x h.symm⟩
  · exact ⟨_, bodyOf_combine ac ss s (i := .subf ac ss) rfl, fun fps f x j h _ => arithmeticResult_ac _ ac f _ h⟩
  · exact ⟨_, bodyOf_cmpf ac ss s, fun fps f x j _ _ => rfl⟩
  · refine ⟨_, bodyOf_divf ac ss s, fun fps f x j h _ => ?_⟩
    split
    · rfl
    · exact arithmeticResult_ac _ ac f _ h
  · exact ⟨_, bodyOf_ldcdf ac ss s, fun fps f x j h _ => arithmeticResult_ac _ ac f _ h⟩

section
variable {i : Instr} {ac : Fin 4} {sp : OpSpec} {q : Prec} {pl : FPlace} {s s1 s2 s3 t u : State} {x v : Accum}

theorem floatSource_frame (hi : FloatSource ac sp q s i) (h1 : resolveF sp q .read s = .ok (some pl) s1)
    (h2 : readF pl q .read s1 = .ok x s2) (he : exec i s = .next t) :
    RegFrame s t (specSteps sp) ∧ t.mem = s.mem ∧ t.psw = s.psw ∧ SpecialFrame s t ∧ t.pc = pcAfter sp s.pc ∧
      ∀ k : Fin 6, k ≠ acField ac → k.val ≠ ac.val ||| 1 → t.fpp.ac[k] = s.fpp.ac[k] := by
  obtain ⟨k, hb, keeps⟩ := floatSource_shape hi
  obtain ⟨t', ht, outcome⟩ := exec_commit (hb.trans (withSource_run h1 h2))
  obtain rfl := exec_unique ht he
  obtain ⟨fin, psw⟩ := outcome.finished
  have reads : ReadFrame (specSteps sp) s s2 :=
    (readFrame_access _).trans (resolveF_frame h1 fun _ h => h) (readF_frame h2 _)
  obtain ⟨regs, mem, special⟩ := reads.finished fin
  refine ⟨regs, mem, psw.trans reads.psw, special, ?_, fun j h odd => ?_⟩
  · rw [fin.pc, readF_endPc h2, resolveF_endPc h1]
  · exact (congrArg (fun a : Vector Accum 6 => a[j]) outcome.ac).trans (keeps _ _ _ j h odd)

/-- A source that cannot be resolved or read ends the instruction at once (R635). -/
theorem floatSource_abort {e : Word} (hi : FloatSource ac sp q s i) (h : resolveF sp q .read s = .error e u ∨
      ∃ pl s1, resolveF sp q .read s = .ok (some pl) s1 ∧ readF pl q .read s1 = .error e u) :
    exec i s = .next (trapSeq e u) ∧ AbortFrame s u (specSteps sp) := by
  obtain ⟨k, hb, -⟩ := floatSource_shape hi
  rcases h with h | ⟨pl, s1, h1, h2⟩
  · refine ⟨exec_abort (hb.trans ?_), resolveF_abort h fun _ h => h⟩
    unfold withSource
    rw [get_bind]
    exact bind_error h
  · refine ⟨exec_abort (hb.trans ?_), (resolveF_frame h1 fun _ h => h).abort (readF_abort h2 _)⟩
    unfold withSource
    rw [get_bind, bind_ok h1]
    exact bind_error h2

/-! ### Instructions with a floating destination (R472) -/

/-- The instructions that store the value `v` of precision `q` (R488, R498, R502). -/
def FloatDestination (ac : Fin 4) (dd : OpSpec) (q : Prec) (v : Accum) (s : State) (i : Instr) : Prop :=
  (q = precOf s.fpp.fps ∧ ((i = .clrf dd ∧ v = {}) ∨ (i = .stf ac dd ∧ v = s.fpp.ac[acField ac]))) ∨
    (q = (precOf s.fpp.fps).other ∧ i = .stcfd ac dd ∧
      v = (convertPrec (precOf s.fpp.fps) s.fpp.fps s.fpp.ac[acField ac]).words)

theorem floatDestination_shape (hi : FloatDestination ac sp q v s i) :
    ∃ errs f, bodyOf i s = withDestination sp q v errs f s ∧ ∀ g : Fpp, (f g).ac = g.ac := by
  rcases hi with ⟨rfl, ⟨rfl, rfl⟩ | ⟨rfl, rfl⟩⟩ | ⟨rfl, rfl, rfl⟩
  · exact ⟨_, _, bodyOf_clrf sp s, fun _ => rfl⟩
  · exact ⟨_, _, bodyOf_stf ac sp s, fun _ => rfl⟩
  · exact ⟨_, _, bodyOf_stcfd ac sp s, fun _ => rfl⟩

/-- The end of an instruction that has stored a floating value keeps the accumulators and what the store kept. -/
theorem stored_end {T : Reg → Prop} {dst : List Nat} {addr : Word} {errs : List FppError} {g : Fpp}
    (stores : StoresAt T dst s s2) (outcome : FppOutcome addr errs g s2 t) (hg : g.ac = s2.fpp.ac) :
    StoresAt T dst s t ∧ t.pc = s2.pc ∧ t.fpp.ac = s2.fpp.ac := by
  obtain ⟨fin, psw⟩ := outcome.finished
  exact ⟨stores.finished fin psw, fin.pc, outcome.ac.trans hg⟩

theorem floatDestination_frame (hw : Memory.wf s.mem = true) (hi : FloatDestination ac sp q v s i)
    (h1 : resolveF sp q .write s = .ok (some pl) s1) (h2 : writeF pl q v s1 = .ok () s2) (he : exec i s = .next t) :
    StoresAt (specSteps sp) (placeAddresses pl q v s1) s t ∧ t.pc = pcAfter sp s.pc ∧
      ∀ k : Fin 6, pl ≠ .ac k → t.fpp.ac[k] = s.fpp.ac[k] := by
  obtain ⟨errs, f, hb, hf⟩ := floatDestination_shape hi
  obtain ⟨t', ht, outcome⟩ := exec_commit (hb.trans (withDestination_run h1 h2))
  obtain rfl := exec_unique ht he
  have reads := resolveF_frame h1 (T := specSteps sp) fun _ h => h
  obtain ⟨stores, hpc, others⟩ := writeF_storesAt h2 (by rw [reads.mem]; exact hw)
  obtain ⟨stored, endPc, ac⟩ := stored_end (reads.storesAt stores) outcome (hf s2.fpp)
  refine ⟨stored, ?_, fun k hk => ?_⟩
  · rw [endPc, hpc, resolveF_endPc h1]
  · rw [ac, others k hk, reads.fpp]

theorem floatDestination_abort {e : Word} (hw : Memory.wf s.mem = true) (hi : FloatDestination ac sp q v s i) :
    (resolveF sp q .write s = .error e u → exec i s = .next (trapSeq e u) ∧ AbortFrame s u (specSteps sp)) ∧
      ∀ pl s1, resolveF sp q .write s = .ok (some pl) s1 → writeF pl q v s1 = .error e u →
        exec i s = .next (trapSeq e u) ∧ PartialStore s u (specSteps sp) (placeAddresses pl q v s1) := by
  obtain ⟨errs, f, hb, -⟩ := floatDestination_shape hi
  refine ⟨fun h => ⟨exec_abort (hb.trans ?_), resolveF_abort h fun _ h => h⟩, fun pl s1 h1 h2 => ?_⟩
  · unfold withDestination
    rw [get_bind]
    exact bind_error h
  · have reads := resolveF_frame h1 (T := specSteps sp) fun _ h => h
    have stores := writeF_abort h2 (by rw [reads.mem]; exact hw)
    refine ⟨exec_abort (hb.trans ?_), reads.partialStore (stores.mono fun _ => False.elim)⟩
    unfold withDestination
    rw [get_bind, bind_ok h1]
    exact bind_error h2

/-! ### Instructions that change a floating operand in place (R490, R491) -/

/-- The two instructions that read, change and write back a floating operand (R490, R491). -/
def FloatModify (dd : OpSpec) (i : Instr) (result : Accum → Accum) : Prop :=
  (i = .absf dd ∧ result = absResult) ∨ (i = .negf dd ∧ result = negResult)

theorem floatModify_shape {result : Accum → Accum} (hi : FloatModify sp i result) :
    bodyOf i s = withModified sp (precOf s.fpp.fps) result s := by
  rcases hi with ⟨rfl, rfl⟩ | ⟨rfl, rfl⟩
  · exact bodyOf_absf sp s
  · exact bodyOf_negf sp s

theorem floatModify_frame {result : Accum → Accum} (hw : Memory.wf s.mem = true)
    (h1 : resolveF sp (precOf s.fpp.fps) .modify s = .ok (some pl) s1)
    (h2 : readF pl (precOf s.fpp.fps) .modify s1 = .ok x s2) (hi : FloatModify sp i result)
    (h3 : writeF pl (precOf s.fpp.fps) (result x) s2 = .ok () s3) (he : exec i s = .next t) :
    StoresAt (specSteps sp) (placeAddresses pl (precOf s.fpp.fps) (result x) s2) s t ∧ t.pc = pcAfter sp s.pc ∧
      ∀ k : Fin 6, pl ≠ .ac k → t.fpp.ac[k] = s.fpp.ac[k] := by
  obtain ⟨t', ht, outcome⟩ := exec_commit ((floatModify_shape hi).trans (withModified_run h1 h2 h3))
  obtain rfl := exec_unique ht he
  have reads : ReadFrame (specSteps sp) s s2 :=
    (readFrame_access _).trans (resolveF_frame h1 fun _ h => h) (readF_frame h2 _)
  obtain ⟨stores, hpc, others⟩ := writeF_storesAt h3 (by rw [reads.mem]; exact hw)
  obtain ⟨stored, endPc, ac⟩ := stored_end (reads.storesAt stores) outcome rfl
  refine ⟨stored, ?_, fun k hk => ?_⟩
  · rw [endPc, hpc, readF_endPc h2, FPlace.endPc_endPc, resolveF_endPc h1]
  · rw [ac, others k hk, reads.fpp]

theorem floatModify_abort {result : Accum → Accum} {e : Word} (hw : Memory.wf s.mem = true)
    (hi : FloatModify sp i result) :
    (resolveF sp (precOf s.fpp.fps) .modify s = .error e u →
        exec i s = .next (trapSeq e u) ∧ AbortFrame s u (specSteps sp)) ∧
      ∀ pl s1, resolveF sp (precOf s.fpp.fps) .modify s = .ok (some pl) s1 →
        (readF pl (precOf s.fpp.fps) .modify s1 = .error e u →
          exec i s = .next (trapSeq e u) ∧ AbortFrame s u (specSteps sp)) ∧
        ∀ x s2, readF pl (precOf s.fpp.fps) .modify s1 = .ok x s2 →
          writeF pl (precOf s.fpp.fps) (result x) s2 = .error e u →
          exec i s = .next (trapSeq e u) ∧
            PartialStore s u (specSteps sp) (placeAddresses pl (precOf s.fpp.fps) (result x) s2) := by
  have hb := floatModify_shape (s := s) hi
  refine ⟨fun h => ⟨exec_abort (hb.trans ?_), resolveF_abort h fun _ h => h⟩, fun pl s1 h1 => ⟨fun h2 => ?_,
    fun x s2 h2 h3 => ?_⟩⟩
  · unfold withModified
    rw [get_bind]
    exact bind_error h
  · refine ⟨exec_abort (hb.trans ?_), (resolveF_frame h1 fun _ h => h).abort (readF_abort h2 _)⟩
    unfold withModified
    rw [get_bind, bind_ok h1]
    exact bind_error h2
  · have reads : ReadFrame (specSteps sp) s s2 :=
      (readFrame_access _).trans (resolveF_frame h1 fun _ h => h) (readF_frame h2 _)
    have stores := writeF_abort h3 (by rw [reads.mem]; exact hw)
    refine ⟨exec_abort (hb.trans ?_), reads.partialStore (stores.mono fun _ => False.elim)⟩
    unfold withModified
    rw [get_bind, bind_ok h1]
    dsimp only
    rw [bind_ok h2]
    exact bind_error h3

/-! ### Instructions with an integer source (R485, R503, R504) -/

/-- An end that changes nothing of the processor but the deferred trap. -/
def EndsQuietly {α : Type} (k : α → M Unit) : Prop := ∀ a s, ∃ t, k a s = .ok () t ∧ Finished s t ∧ t.psw = s.psw

theorem commit_endsQuietly {α : Type} (addr : Word) (errs : α → List FppError) (f : α → Fpp → Fpp) :
    EndsQuietly fun a => fppCommit addr (errs a) (f a) := fun a s => by
  obtain ⟨t, ht, outcome⟩ := fppCommit_outcome addr (errs a) (f a) s
  exact ⟨t, ht, outcome.finished⟩

theorem bodyOf_ldfps (ss : OpSpec) (s : State) : bodyOf (.ldfps ss) s =
    (readOp ss .word >>= fun v => change fun s => s.onFpp fun f => { f with fps := v &&& 0o147777 } : M Unit) s := rfl

/-- Reading a long integer moves the PC past the extension word of its specifier (R141, R473). -/
theorem readLong_pc {w : BitVec 32} (h : readLong sp s = .ok w s1) : s1.pc = pcAfter sp s.pc := by
  unfold readLong at h
  split at h
  · next hm =>
    cases h
    exact (pcAfter_direct hm s.pc).symm
  · split at h
    · next hi =>
      obtain ⟨hi', u, read, h⟩ := bind_eq_ok h
      cases h
      rw [fetchExtension_pc read, pcAfter_immediate hi]
    · obtain ⟨va, u, resolved, h⟩ := bind_eq_ok h
      obtain ⟨high, u1, read1, h⟩ := bind_eq_ok h
      obtain ⟨low, u2, read2, h⟩ := bind_eq_ok h
      cases h
      rw [(memRead_regs read2).2.2, (memRead_regs read1).2.2, resolve_pc resolved]

/-- Reading an integer of either length, likewise. -/
theorem readInteger_pc {long : Bool} {z : Int} (h : readInteger sp long s = .ok z s1) : s1.pc = pcAfter sp s.pc := by
  cases long with
  | false =>
    obtain ⟨w, u, read, h⟩ := bind_eq_ok h
    cases h
    exact readOp_pc read
  | true =>
    obtain ⟨w, u, read, h⟩ := bind_eq_ok h
    cases h
    exact readLong_pc read

/-- An integer read, then an end that sets no flags. -/
theorem integerSource_frame {α : Type} {m : M α} {k : α → M Unit} {a : α} (hb : bodyOf i s = (m >>= k) s)
    (hk : EndsQuietly k) (hm : m s = .ok a s1) (reads : ReadFrame (specSteps sp) s s1) (hpc : s1.pc = pcAfter sp s.pc)
    (he : exec i s = .next t) :
    RegFrame s t (specSteps sp) ∧ t.mem = s.mem ∧ t.psw = s.psw ∧ SpecialFrame s t ∧ t.pc = pcAfter sp s.pc := by
  obtain ⟨t', ht, fin, psw⟩ := hk a s1
  obtain rfl := exec_unique (by rw [exec_eq, runBody_ok (hb.trans ((bind_ok hm).trans ht))]) he
  obtain ⟨regs, mem, special⟩ := reads.finished fin
  exact ⟨regs, mem, psw.trans reads.psw, special, fin.pc.trans hpc⟩

theorem integerSource_abort {α : Type} {m : M α} {k : α → M Unit} {e : Word} (hb : bodyOf i s = (m >>= k) s)
    (h : m s = .error e u) : exec i s = .next (trapSeq e u) := exec_abort (hb.trans (bind_error h))

/-! ### Instructions with an integer destination (R486, R487, R500, R501) -/

/-- An end that changes nothing of the processor but the flags and the deferred trap, and no accumulator. -/
def Ends (k : Bool → M Unit) : Prop := ∀ p s, ∃ t, k p s = .ok () t ∧ Finished s t ∧ t.fpp.ac = s.fpp.ac

theorem pure_ends : Ends fun _ => pure () := fun _ s => ⟨s, rfl, Finished.refl s, rfl⟩

/-- The end of STEXP and STCFI (R500, R501). -/
theorem copyFcc_ends (addr : Word) (errs : List FppError) (cc : Cc) :
    Ends fun p => fppCommit addr errs (fun f => f.fcc cc) >>= fun _ => copyFcc p cc := fun p s => by
  obtain ⟨u, hu, outcome⟩ := fppCommit_outcome addr errs (fun f => f.fcc cc) s
  obtain ⟨t, ht, flags⟩ := setFlagsUnless_run p (fun _ => cc) u
  obtain ⟨first, -⟩ := outcome.finished
  obtain ⟨last, hfpp⟩ := flags.finished
  refine ⟨t, (bind_ok hu).trans ht, first.trans last, ?_⟩
  rw [hfpp, outcome.ac]
  rfl

theorem shortDestination_shape
    (hi : i = .stexp ac sp ∨ i = .stfps sp ∨ (i = .stcfi ac sp ∧ s.fpp.fps.getLsbD 6 = false)) :
    ∃ w k, bodyOf i s = (writeOp sp .word w >>= k : M Unit) s ∧ Ends k := by
  rcases hi with rfl | rfl | ⟨rfl, hl⟩
  · exact ⟨_, _, bodyOf_stexp ac sp s, copyFcc_ends _ _ _⟩
  · exact ⟨s.fpp.fps, _, rfl, pure_ends⟩
  · have hb := bodyOf_stcfi ac sp s
    rw [show fpsFl s.fpp.fps = false from hl] at hb
    exact ⟨BitVec.ofInt 16 (stcfiResult ac s).1, _, hb, copyFcc_ends _ _ _⟩

/-- The instructions that store the two words `hi` and `lo` (R487, R501). -/
def LongDestination (ac : Fin 4) (dd : OpSpec) (hi lo : Word) (s : State) (i : Instr) : Prop :=
  (i = .stst dd ∧ hi = s.fpp.fec.setWidth 16 ∧ lo = s.fpp.fea) ∨
    (i = .stcfi ac dd ∧ s.fpp.fps.getLsbD 6 = true ∧
      hi ++ lo = BitVec.ofInt 32 (fToInt (precOf s.fpp.fps) (unpack (precOf s.fpp.fps) s.fpp.ac[acField ac]) 32).1)

theorem bodyOf_stst (dd : OpSpec) (s : State) : bodyOf (.stst dd) s =
    (writeLong dd (s.fpp.fec.setWidth 16 ++ s.fpp.fea) >>= fun _ => pure () : M Unit) s := by
  show ststBody dd s = _
  unfold ststBody writeLong
  rw [get_bind, BitVec.extractLsb'_append_eq_left, BitVec.extractLsb'_append_eq_right]
  split
  · rfl
  · split
    · simp only [bind_assoc, pure_bind]
      rfl
    · simp only [writeWordsAt, bind_assoc, pure_bind]

theorem longDestination_shape {hi lo : Word} (h : LongDestination ac sp hi lo s i) :
    ∃ k, bodyOf i s = (writeLong sp (hi ++ lo) >>= k : M Unit) s ∧ Ends k := by
  rcases h with ⟨rfl, rfl, rfl⟩ | ⟨rfl, hl, value⟩
  · exact ⟨_, bodyOf_stst sp s, pure_ends⟩
  · have hb := bodyOf_stcfi ac sp s
    have result : stcfiResult ac s =
        fToInt (precOf s.fpp.fps) (unpack (precOf s.fpp.fps) s.fpp.ac[acField ac]) 32 := by
      unfold stcfiResult
      rw [fpsFl, if_pos hl]
    rw [show fpsFl s.fpp.fps = true from hl] at hb
    rw [value, ← result]
    exact ⟨_, hb, copyFcc_ends _ _ _⟩

theorem writeLong_direct (hm : sp.mode = .direct) (w : BitVec 32) :
    writeLong sp w s = .ok false (s.writeReg sp.reg (w.extractLsb' 16 16)) := by
  unfold writeLong
  rw [if_pos hm]
  rfl

/-- An immediate destination is the one word behind the instruction (R473). -/
theorem writeLong_immediate (hi : sp.isImmediate = true) (w : BitVec 32) : writeLong sp w s =
    (memWrite (inI s.pc) .word (w.extractLsb' 16 16) >>= fun p =>
      change (fun s => s.setPc (s.pc + 2)) >>= fun _ => pure p : M Bool) s := by
  unfold writeLong
  rw [if_neg (direct_not_immediate hi), if_pos hi]
  rfl

/-- In memory a long integer is stored as two words (R473). -/
theorem writeLong_memory (hm : sp.mode ≠ .direct) (hi : sp.isImmediate = false) {va : VAddr}
    (h : resolve sp 4 .write s = .ok va s1) (w : BitVec 32) : writeLong sp w s =
      (memWrite va .word (w.extractLsb' 16 16) >>= fun p => memWrite (va.plus 2) .word (w.extractLsb' 0 16) >>= fun q =>
        pure (p || q) : M Bool) s1 := by
  unfold writeLong
  rw [if_neg hm, if_neg (by rw [hi]; exact Bool.false_ne_true)]
  exact bind_ok h

/-- Where an instruction ends that has stored an integer. -/
theorem ends_finished {m : M Bool} {k : Bool → M Unit} {p : Bool} (hb : bodyOf i s = (m >>= k) s) (hk : Ends k)
    (hm : m s = .ok p s1) (he : exec i s = .next t) : Finished s1 t ∧ t.fpp.ac = s1.fpp.ac := by
  obtain ⟨t', ht, fin, ac⟩ := hk p s1
  obtain rfl := exec_unique (by rw [exec_eq, runBody_ok (hb.trans ((bind_ok hm).trans ht))]) he
  exact ⟨fin, ac⟩

theorem shortDestination_frame {w : Word} {p : Bool} (hw : Memory.wf s.mem = true)
    (hi : i = .stexp ac sp ∨ i = .stfps sp ∨ (i = .stcfi ac sp ∧ s.fpp.fps.getLsbD 6 = false))
    (h : writeOp sp .word w s = .ok p s1) (he : exec i s = .next t) :
    RegFrame s t (specLands sp) ∧ MemFrame s t (destAddress sp .word .write s) 2 ∧ t.fpp.ac = s.fpp.ac ∧
      PcStored sp t (pcAfter sp s.pc) ∧ (InMain s (destAddress sp .word .write s) → SpecialFrame s t) := by
  obtain ⟨stored, k, hb, hk⟩ := shortDestination_shape hi
  obtain ⟨u, hu⟩ := writeOp_any h stored
  obtain ⟨fin, hac⟩ := ends_finished hb hk hu he
  have frame := writeOp_frame hu hw
  obtain ⟨regs, mem, special⟩ := frame.finished fin
  exact ⟨regs, mem, hac.trans (congrArg Fpp.ac frame.fpp), (writeOp_pc hu).imp_right fin.pc.trans, special⟩

theorem shortDestination_abort {w e : Word}
    (hi : i = .stexp ac sp ∨ i = .stfps sp ∨ (i = .stcfi ac sp ∧ s.fpp.fps.getLsbD 6 = false))
    (h : writeOp sp .word w s = .error e u) : exec i s = .next (trapSeq e u) ∧ AbortFrame s u (specSteps sp) := by
  obtain ⟨stored, k, hb, -⟩ := shortDestination_shape hi
  exact ⟨exec_abort (hb.trans (bind_error (writeOp_any_error h stored))), writeOp_abort h fun _ h => h⟩

section
variable {hi lo : Word}

theorem longDestination_direct (h : LongDestination ac sp hi lo s i) (hm : sp.mode = .direct)
    (he : exec i s = .next t) :
    RegFrame s t (· = sp.reg) ∧ t.mem = s.mem ∧ t.fpp.ac = s.fpp.ac ∧ SpecialFrame s t ∧ PcStored sp t s.pc := by
  obtain ⟨k, hb, hk⟩ := longDestination_shape h
  obtain ⟨fin, hac⟩ := ends_finished hb hk (writeLong_direct hm _) he
  have writes := (readFrame_step (· = sp.reg)).writeReg s sp.reg ((hi ++ lo).extractLsb' 16 16) rfl
  obtain ⟨regs, mem, special⟩ := writes.finished fin
  refine ⟨regs, mem, hac.trans (congrArg Fpp.ac writes.fpp), special, ?_⟩
  by_cases hr : sp.reg = .pc
  · exact .inl ⟨hm, hr⟩
  · exact .inr (fin.pc.trans (by rw [State.pc_writeReg, if_neg hr]))

theorem longDestination_immediate {p : Bool} (hw : Memory.wf s.mem = true) (h : LongDestination ac sp hi lo s i)
    (himm : sp.isImmediate = true) (hs : memWrite (inI s.pc) .word hi s = .ok p s1) (he : exec i s = .next t) :
    RegFrame s t (fun _ => False) ∧ t.pc = s.pc + 2 ∧ MemFrame s t (wordAddresses (inI s.pc) s [hi]) 2 ∧
      t.fpp.ac = s.fpp.ac ∧ (InMain s (wordAddresses (inI s.pc) s [hi]) → SpecialFrame s t) := by
  obtain ⟨k, hb, hk⟩ := longDestination_shape h
  have stored : writeLong sp (hi ++ lo) s = .ok p (s1.setPc (s1.pc + 2)) := by
    rw [writeLong_immediate himm, BitVec.extractLsb'_append_eq_left, bind_ok hs]
    rfl
  obtain ⟨fin, hac⟩ := ends_finished hb hk stored he
  obtain ⟨frame, hpc⟩ := writeWordsAt_frame (va := inI s.pc) (ws := [hi]) (bind_ok hs) hw
  obtain ⟨regs, mem, special⟩ := (frame.setPc (s1.pc + 2)).finished fin
  exact ⟨regs, fin.pc.trans (congrArg (· + 2) hpc), mem, hac.trans (congrArg Fpp.ac frame.fpp), special⟩

theorem longDestination_memory {va : VAddr} (hw : Memory.wf s.mem = true) (h : LongDestination ac sp hi lo s i)
    (hm : sp.mode ≠ .direct) (himm : sp.isImmediate = false) (hr : resolve sp 4 .write s = .ok va s1)
    (hs : writeWordsAt va [hi, lo] s1 = .ok () s2) (he : exec i s = .next t) :
    RegFrame s t (specSteps sp) ∧ t.pc = pcAfter sp s.pc ∧ MemFrame s t (wordAddresses va s1 [hi, lo]) 2 ∧
      t.fpp.ac = s.fpp.ac ∧ (InMain s (wordAddresses va s1 [hi, lo]) → SpecialFrame s t) := by
  obtain ⟨k, hb, hk⟩ := longDestination_shape h
  have stored : ∃ p, writeLong sp (hi ++ lo) s = .ok p s2 := by
    obtain ⟨p, u, h1, hs⟩ := bind_eq_ok hs
    obtain ⟨q, u2, h2, hs⟩ := bind_eq_ok hs
    cases hs
    refine ⟨p || q, ?_⟩
    rw [writeLong_memory hm himm hr, BitVec.extractLsb'_append_eq_left, BitVec.extractLsb'_append_eq_right, bind_ok h1,
      bind_ok h2]
    rfl
  obtain ⟨p, stored⟩ := stored
  obtain ⟨fin, hac⟩ := ends_finished hb hk stored he
  have reads := resolve_frame hr (specSteps sp) fun _ h => h
  obtain ⟨stores, hpc⟩ := writeWordsAt_frame hs (by rw [reads.mem]; exact hw)
  have frame := reads.trans_write (stores.mono fun _ => False.elim)
  obtain ⟨regs, mem, special⟩ := frame.finished fin
  exact ⟨regs, (fin.pc.trans hpc).trans (resolve_pc hr), mem, hac.trans (congrArg Fpp.ac frame.fpp), special⟩

theorem longDestination_immediate_abort {e : Word} (h : LongDestination ac sp hi lo s i) (himm : sp.isImmediate = true)
    (hs : memWrite (inI s.pc) .word hi s = .error e u) :
    exec i s = .next (trapSeq e u) ∧ AbortFrame s u fun _ => False := by
  obtain ⟨k, hb, -⟩ := longDestination_shape h
  have aborted : writeLong sp (hi ++ lo) s = .error e u := by
    rw [writeLong_immediate himm, BitVec.extractLsb'_append_eq_left]
    exact bind_error hs
  exact ⟨exec_abort (hb.trans (bind_error aborted)), memWriteM_abort (m := s.cm) hs _⟩

theorem longDestination_memory_abort {e : Word} (hw : Memory.wf s.mem = true) (h : LongDestination ac sp hi lo s i)
    (hm : sp.mode ≠ .direct) (himm : sp.isImmediate = false) :
    (resolve sp 4 .write s = .error e u → exec i s = .next (trapSeq e u) ∧ AbortFrame s u (specSteps sp)) ∧
      ∀ va s1, resolve sp 4 .write s = .ok va s1 → writeWordsAt va [hi, lo] s1 = .error e u →
        exec i s = .next (trapSeq e u) ∧ PartialStore s u (specSteps sp) (wordAddresses va s1 [hi, lo]) := by
  obtain ⟨k, hb, -⟩ := longDestination_shape h
  refine ⟨fun hr => ?resolving, fun va s1 hr hs => ?storing⟩
  case resolving =>
    have aborted : writeLong sp (hi ++ lo) s = .error e u := by
      unfold writeLong
      rw [if_neg hm, if_neg (by rw [himm]; exact Bool.false_ne_true)]
      exact bind_error hr
    exact ⟨exec_abort (hb.trans (bind_error aborted)), resolve_abort hr fun _ h => h⟩
  case storing =>
    have aborted : writeLong sp (hi ++ lo) s = .error e u := by
      rw [writeLong_memory hm himm hr, BitVec.extractLsb'_append_eq_left, BitVec.extractLsb'_append_eq_right]
      rcases bind_eq_error hs with first | ⟨p, u1, first, hs⟩
      · exact bind_error first
      rw [bind_ok first]
      rcases bind_eq_error hs with second | ⟨q, u2, second, hs⟩
      · exact bind_error second
      · cases hs
    have reads := resolve_frame hr (specSteps sp) fun _ h => h
    have stores := writeWordsAt_abort hs (by rw [reads.mem]; exact hw)
    exact ⟨exec_abort (hb.trans (bind_error aborted)), reads.partialStore (stores.mono fun _ => False.elim)⟩

end

end

/-- Settles O60: the frames and the aborts of each family of instructions, by the shape of its bodies. -/
theorem frameFpp : Obligations.FrameFpp := by
  refine ⟨fun ac ss s pl s1 x s2 i t q hi h1 h2 he => floatSource_frame hi h1 h2 he,
    fun ac ss s i t v s1 hi h he => ?integerSource,
    fun ac ss s t z s1 h he => ?longSource,
    fun ac dd s pl s1 v s2 i t q hw hi h1 h2 he => ?destination,
    fun dd s pl s1 x s2 i y s3 t hw h1 h2 hi h3 he => ?modified,
    fun ac dd s v p s1 i t hw hi h he => shortDestination_frame hw hi h he,
    fun ac dd s i hi lo t hw h he => ⟨fun hm => longDestination_direct h hm he,
      fun himm p s1 hs => longDestination_immediate hw h himm hs he,
      fun hm himm va s1 s2 hr hs => longDestination_memory hw h hm himm hr hs he⟩,
    fun ac ss s e u i q hi h => floatSource_abort hi h,
    fun ac ss s e u i h => ?integerAbort,
    fun ac dd s x e u i q hw hi => floatDestination_abort hw hi,
    fun dd s e u i result hw hi => floatModify_abort hw hi,
    fun ac dd s x e u i hi h => shortDestination_abort hi h,
    fun ac dd s i hi lo e u hw h => ⟨longDestination_immediate_abort h, longDestination_memory_abort hw h⟩⟩
  case integerSource =>
    have reads := readOp_frame h (specSteps ss) fun _ h => h
    rcases hi with rfl | rfl
    · exact integerSource_frame (bodyOf_ldexp ac ss s) (commit_endsQuietly _ _ _) (bind_ok h) reads (readOp_pc h) he
    · exact integerSource_frame (bodyOf_ldfps ss s) (fun a u => ⟨_, rfl, Finished.setFpp u _, rfl⟩) h reads
        (readOp_pc h) he
  case longSource =>
    have reads : ReadFrame (specSteps ss) s s1 :=
      (readInteger_post (readFrame_step _) ss (fun hm => ⟨rfl, hm⟩) _ s).ok h
    exact integerSource_frame (bodyOf_ldcif ac ss s) (commit_endsQuietly _ _ _) h reads (readInteger_pc h) he
  case destination =>
    obtain ⟨stores, hpc, others⟩ := floatDestination_frame hw hi h1 h2 he
    exact ⟨stores.regs, hpc, stores.mem, stores.main, others⟩
  case modified =>
    obtain ⟨result, modify, rfl⟩ : ∃ result, FloatModify dd i result ∧ y = result x := by
      rcases hi with ⟨hi, hy⟩ | ⟨hi, hy⟩
      · exact ⟨absResult, .inl ⟨hi, rfl⟩, hy⟩
      · exact ⟨negResult, .inr ⟨hi, rfl⟩, hy⟩
    obtain ⟨stores, hpc, others⟩ := floatModify_frame hw h1 h2 modify h3 he
    exact ⟨stores.regs, hpc, stores.mem, stores.main, others⟩
  case integerAbort =>
    rcases h with ⟨rfl | rfl, h⟩ | ⟨rfl, h⟩
    · exact ⟨integerSource_abort (bodyOf_ldexp ac ss s) (bind_error h), readOp_abort h fun _ h => h⟩
    · exact ⟨integerSource_abort (bodyOf_ldfps ss s) h, readOp_abort h fun _ h => h⟩
    · exact ⟨integerSource_abort (bodyOf_ldcif ac ss s) h, readInteger_abort h fun _ h => h⟩

end Sys2Proof.Machine
end
